-- ==== Sys2Proof/Word.lean ====
section
/-! DEFINITION. The word types of the Zestan 2440 Cadence Bridge. -/

namespace Sys2Proof

/-- One byte of a domain's memory or of a record (R177). -/
abbrev Byte := BitVec 8

/-- A domain address: addresses are 64 bits wide (00_scope.md, Conventions). -/
abbrev Addr := BitVec 64

/-- A 32-bit running count, wrapping from 2^32 - 1 to 0 (00_scope.md, Conventions). -/
abbrev Count := BitVec 32

end Sys2Proof
end

