-- ==== Sys2Proof/Syntax.lean ====
section
/-! DEFINITION. The commands: one constructor of `Instr` per row of spec/opcode_table.json, with the
names their operands use. -/

namespace Sys2Proof

/-- The two memory domains, and with them the two master ports: Port A reaches domain A and Port B
domain B (R113). -/
inductive Domain
  | a
  | b
  deriving DecidableEq, Repr

/-- Cadence numbers 0 to 63 (R1). -/
abbrev CadNo := Fin 64

/-- Window numbers 0 to 15 (R97). -/
abbrev WinNo := Fin 16

/-- Lane numbers 0 to 3 (R52). -/
abbrev LaneNo := Fin 4

/-- Tag numbers 0 to 23 within each port (R113). -/
abbrev TagNo := Fin 24

/-- A record that holds a command word (R137). -/
inductive Record
  | window (n : WinNo)
  | cadence (n : CadNo)
  deriving DecidableEq, Repr

/-- What a completion from a domain carries: the data of the read, or an error status, failure and
unsupported being alike to the port (R121). -/
inductive Answer
  | data (bytes : List Byte)
  | error
  deriving DecidableEq, Repr

/-- The two events that bring about a local reset (R133). -/
inductive LocalCause
  | resetInput
  | portALink
  deriving DecidableEq, Repr

/-- A write of an 8-byte register: of all its bytes, or of the half it covers (R192). -/
inductive WideWrite
  | whole (value : BitVec 64)
  | low (value : BitVec 32)
  | high (value : BitVec 32)
  deriving DecidableEq, Repr

/-- Which held posted write is sent: Port A's oldest (R126), or the oldest one a lane issued on
Port B (R127). -/
inductive SendFrom
  | portA
  | portB (lane : LaneNo)
  deriving DecidableEq, Repr

/-- The commands of spec/opcode_table.json, in its order. -/
inductive Instr
  /-- START (R154); `value` is the whole CONTROL word written (R188). -/
  | start (value : BitVec 32)
  /-- STOP (R155); `value` is the whole CONTROL word written. -/
  | stop (value : BitVec 32)
  /-- RESET (R156); `value` is the whole CONTROL word written. -/
  | reset (value : BitVec 32)
  /-- SET_ENABLES (R153); `value` is the whole CONTROL word written. -/
  | setEnables (value : BitVec 32)
  /-- NUDGE (R144): a host write of NUDGE, of any value. -/
  | nudge (value : BitVec 32)
  /-- RAISED_CLEAR (R175): a host write of RAISED. -/
  | raisedClear (value : BitVec 32)
  /-- FAULT_CLEAR (R172): a host write of FAULT or of a half of it, of any value. -/
  | faultClear (write : WideWrite)
  /-- AREA_BASE_WRITE (R165). -/
  | areaBaseWrite (write : WideWrite)
  /-- REGISTER_WRITE_DISCARDED (R192): a write of `size` bytes at `offset` that reaches no writable
  register. -/
  | registerWriteDiscarded (offset size : Nat) (value : BitVec 64)
  /-- POWER_ON_RESET (R163). -/
  | powerOnReset
  /-- LOCAL_RESET (R133): `cause` appears. -/
  | localReset (cause : LocalCause)
  /-- LOCAL_RESET_RELEASE (R133): `cause` goes away. -/
  | localResetRelease (cause : LocalCause)
  /-- PEER_LINK_DOWN (R129). -/
  | peerLinkDown
  /-- PEER_LINK_UP (R128). -/
  | peerLinkUp
  /-- TICK_EXPIRY (R30). -/
  | tickExpiry
  /-- SWEEP_TIMER_EXPIRY (R33). -/
  | sweepTimerExpiry
  /-- READ_COMPLETION (R121). -/
  | readCompletion (port : Domain) (tag : TagNo) (answer : Answer)
  /-- READ_TIMEOUT (R122). -/
  | readTimeout (port : Domain) (tag : TagNo)
  /-- LATE_ANSWER (R123). -/
  | lateAnswer (port : Domain) (tag : TagNo) (answer : Answer)
  /-- QUARANTINE_EXPIRY (R123). -/
  | quarantineExpiry (port : Domain) (tag : TagNo)
  /-- STRAY_COMPLETION (R124). -/
  | strayCompletion (port : Domain) (tag : TagNo) (answer : Answer)
  /-- POSTED_WRITE_SENT (R126, R127). -/
  | postedWriteSent (source : SendFrom)
  /-- FILL_SEGMENT_WRITE (R64). -/
  | fillSegmentWrite (lane : LaneNo)
  /-- ARM (R10): the Cadence Unit takes the ARM delivered for cadence `n`. -/
  | arm (n : CadNo)
  /-- PAUSE (R11). -/
  | pause (n : CadNo)
  /-- RESUME (R12). -/
  | resume (n : CadNo)
  /-- RETIRE (R13). -/
  | retire (n : CadNo)
  /-- OPEN (R101): the Window Unit takes the OPEN delivered for window `n`. -/
  | openWindow (n : WinNo)
  /-- CLOSE (R102). -/
  | closeWindow (n : WinNo)
  /-- UNKNOWN_COMMAND (R7, R100): the owner takes a command whose CMD it does not know. -/
  | unknownCommand (record : Record)
  /-- STAMPING_WRITE (R69). -/
  | stampingWrite (lane : LaneNo)
  /-- TAKE_WRITE (R81). -/
  | takeWrite
  /-- LOADING_WRITE (R150). -/
  | loadingWrite
  deriving DecidableEq, Repr

end Sys2Proof
end

