-- ==== Sys2Proof/Config.lean ====
section
/-! DEFINITION. What the part fixes, and the one free value. -/

namespace Sys2Proof.Config

/-- The tick count at which a tick expiry reports TICK_LIMIT (R31). -/
def tickLimit : Nat := 2 ^ 48 - 1

/-- The longest timeout period, 25.5 ms, in microseconds (R120). -/
def longestPeriod : Nat := 25500

/-- The entries of the errand queue (R86). -/
def errandQueueSize : Nat := 8

/-- The Port A tags that data reads may hold (R116). -/
def dataTagLimit : Nat := 20

/-- The segment buffer entries of a lane (R52). -/
def bufferSize : Nat := 8

/-- The bytes of a full segment (R60). -/
def segmentSize : Nat := 256

/-- FREE VALUE (log 7): byte `i` of an answer that carries fewer bytes than the read it is taken for
(R124 says whose answer it is and not what such bytes are); `draw` numbers the answers. -/
opaque freeByte (draw i : Nat) : Byte

end Sys2Proof.Config
end

