-- ==== Sys2Proof/Machine/State.lean ====
section
/-! DEFINITION. The state of the bridge, its reset value, and the reasons a step can stop. -/

namespace Sys2Proof.Machine

/-! ## Bridge, registers and faults -/

/-- The bridge states (R152). -/
inductive BridgeState
  | off
  | loading
  | running
  | quiescing
  | stopped
  | halted
  deriving DecidableEq, Repr

/-- The interrupt causes of RAISED (R173). -/
inductive Cause
  | cadenceNote
  | errandNote
  | commandDone
  | fault
  | state
  deriving DecidableEq, Repr

/-- The fault codes (R170). -/
inductive FaultCode
  | areaReadFailed
  | tickLimit
  | lendOverrun
  | windowLost
  | missHeld
  | slotError
  | errandError
  | strayCompletion
  | peerDown
  | layoutInvalid
  deriving DecidableEq, Repr

/-- The object kinds of a fault (R168, R186). -/
inductive ObjectKind
  | bridge
  | port
  | cadence
  | errand
  deriving DecidableEq, Repr

/-- A fault held in the fault record (R168). -/
structure FaultRec where
  code : FaultCode
  kind : ObjectKind
  number : BitVec 16
  tick : BitVec 32
  deriving DecidableEq, Repr

/-- The header values the blocks hold from the moment the header is found valid (R136). `period` is
the timeout period in microseconds that the header gives (R120). -/
structure Settings where
  tickUs : Nat
  sweepTicks : Nat
  windowCount : Nat
  cadenceCount : Nat
  windowTable : Addr
  cadenceTable : Addr
  errandLanes : Nat
  gateUpper : Nat
  gateLower : Nat
  period : Nat
  deriving DecidableEq, Repr

/-- The values of a bridge that holds no header (log 27). -/
def Settings.blank : Settings := ⟨0, 0, 0, 0, 0, 0, 0, 0, 0, 0⟩

/-! ## Cadences, the calendar and the Dispatcher -/

/-- CLASS (R1, R180). -/
inductive CadClass
  | urgent
  | steady
  deriving DecidableEq, Repr

/-- MISS_POLICY (R22, R180). -/
inductive MissPolicy
  | skip
  | hold
  deriving DecidableEq, Repr

/-- The configuration of a cadence, copied when an ARM is accepted (R1). -/
structure CadConfig where
  cls : CadClass
  period : Nat
  phase : Nat
  deadline : Nat
  srcWindow : WinNo
  dstWindow : WinNo
  length : Nat
  ringAddr : Addr
  ringSize : Nat
  notifyEvery : Nat
  missPolicy : MissPolicy
  deriving DecidableEq, Repr

/-- The configuration read for an entry that holds none (log 27). -/
def CadConfig.blank : CadConfig := ⟨.steady, 0, 0, 0, 0, 0, 0, 0, 0, 0, .skip⟩

/-- The states of a cadence (R2). -/
inductive CadState
  | idle
  | armed
  | paused
  | held
  | draining
  deriving DecidableEq, Repr

/-- Where a cadence stands (R1). -/
inductive Place
  | none
  | calendar
  | ready
  | lane (k : LaneNo)
  deriving DecidableEq, Repr

/-- A Cadence Table entry (R1). -/
structure CadEntry where
  config : Option CadConfig
  state : CadState
  nextDue : Nat
  currentDue : Nat
  place : Place
  resumeMark : Bool
  retireNotify : Bool
  lastLent : Count
  tally : Count
  misses : Count
  lates : Count
  deriving DecidableEq, Repr

/-- A Cadence Table entry after a power-on, local or soft reset (R28). -/
def CadEntry.reset : CadEntry := ⟨none, .idle, 0, 0, .none, false, false, 0, 0, 0, 0⟩

/-- A ready queue entry (R40): the class and the current due tick of a service entry are those of the
Cadence Table entry, which cannot change while the cadence waits (log 18). -/
inductive ReadyEntry
  | service (n : CadNo)
  | closing (n : CadNo)
  deriving DecidableEq, Repr

/-- The errand admission gate (R47). -/
inductive Gate
  | opened
  | closed
  deriving DecidableEq, Repr

/-! ## Windows -/

/-- The states of a window (R98). -/
inductive WinState
  | closed
  | opened
  | closing
  deriving DecidableEq, Repr

/-- The configuration of a window (R97). -/
structure WinConfig where
  domain : Domain
  canRead : Bool
  canWrite : Bool
  base : Addr
  size : Nat
  deriving DecidableEq, Repr

/-- A Window Table entry (R97). -/
structure WinEntry where
  state : WinState
  config : Option WinConfig
  useCount : Nat
  closeNotify : Bool
  deriving DecidableEq, Repr

/-- A Window Table entry after a power-on, local or soft reset (R112). -/
def WinEntry.reset : WinEntry := ⟨.closed, none, 0, false⟩

/-! ## Errands -/

/-- KIND (R75). -/
inductive CardKind
  | copy
  | fill
  deriving DecidableEq, Repr

/-- A card as its host half was read (R75), with its address and the take number it received (R77).
`kind` is none where KIND held neither code (R184). -/
structure Card where
  addr : Addr
  takeNo : BitVec 32
  nextCard : Addr
  kind : Option CardKind
  fence : Bool
  notify : Bool
  srcWindow : Byte
  dstWindow : Byte
  srcOffset : Nat
  dstOffset : Nat
  length : Nat
  pattern : BitVec 32
  deriving DecidableEq, Repr

/-- The states of an errand queue entry (R86). -/
inductive ErrandState
  | waiting
  | running (k : LaneNo)
  | parked
  deriving DecidableEq, Repr

/-- An errand queue entry (R86). -/
structure Errand where
  card : Card
  state : ErrandState
  progress : Nat
  deriving DecidableEq, Repr

/-- The part-half writes of a take (R81) or of a BAD_CARD stamp (R83). -/
inductive TakeItem
  | outcome
  | moved
  | doneTick
  | eState
  deriving DecidableEq, Repr

/-- The chain position of the Errand Reader (R77); TAKING is told apart by whether the card is being
read or its part half written. -/
inductive ReaderPos
  | noCard
  | takingRead (addr : Addr)
  | takingWrite (card : Card) (valid : Bool) (left : List TakeItem)
  | linking (addr : Addr)
  | watching (addr : Addr)
  | holding (addr : Addr)
  deriving DecidableEq, Repr

/-! ## Copy lanes -/

/-- The outcomes stamped into slots and cards (R186). -/
inductive Outcome
  | done
  | late
  | readError
  | readTimeout
  | peerLost
  | cancelled
  | badCard
  | windowClosed
  | writeError
  | badSlot
  deriving DecidableEq, Repr

/-- The states of a lane (R52). -/
inductive LaneState
  | idle
  | loading
  | moving
  | confirming
  | stamping
  | parking
  deriving DecidableEq, Repr

/-- The job of a lane with its owner (R52); an ERRAND job carries the card's fields (R54). -/
inductive Job
  | none
  | service (n : CadNo)
  | closing (n : CadNo)
  | errand (card : Card)
  deriving DecidableEq, Repr

/-- The control read a SERVICE job in LOADING waits for (R58). -/
inductive LoadStep
  | lent
  | slot
  deriving DecidableEq, Repr

/-- An outstanding data read of a lane (R52). -/
structure OutRead where
  segment : Nat
  tag : TagNo
  deriving DecidableEq, Repr

/-- A segment buffer entry in use: reserved for an outstanding read (`none`) or holding an arrived
segment (R52). -/
structure BufEntry where
  segment : Nat
  bytes : Option (List Byte)
  deriving DecidableEq, Repr

/-- The stamping writes (R69): of a service (R20), of a closing job (R26, R27), of an errand. `closeEnd`
is the two writes C_STATE and RESULT that end a closing job, in one step (log 30). -/
inductive StampItem
  | slotOutcome
  | slotMoved
  | slotDue
  | slotDone
  | tally
  | misses
  | lates
  | cancelOutcome (index : Nat)
  | cancelMoved (index : Nat)
  | cancelDue (index : Nat)
  | cancelDone (index : Nat)
  | closeTally (overrun : Bool)
  | closeEnd
  | cardOutcome
  | cardMoved
  | cardDone
  | cardState
  deriving DecidableEq, Repr

/-- The record of a lane (R52). -/
structure Lane where
  state : LaneState
  job : Job
  held : List WinNo
  srcPort : Domain
  dstPort : Domain
  srcAddr : Addr
  dstAddr : Addr
  length : Nat
  startByte : Nat
  readPoint : Nat
  written : Nat
  outstanding : List OutRead
  buffer : List BufEntry
  tagRequest : Option Domain
  confirmTag : Option TagNo
  failure : Option Outcome
  peerMark : Bool
  parkRequest : Bool
  loadStep : LoadStep
  slotAddr : Addr
  stampTick : Nat
  outcome : Option Outcome
  stampLeft : List StampItem
  deriving DecidableEq, Repr

/-- An IDLE lane: every other field is empty, none or clear (R52, R74). -/
def Lane.idle : Lane :=
  { state := .idle, job := .none, held := [], srcPort := .a, dstPort := .a, srcAddr := 0,
    dstAddr := 0, length := 0, startByte := 0, readPoint := 0, written := 0, outstanding := [],
    buffer := [], tagRequest := none, confirmTag := none, failure := none, peerMark := false,
    parkRequest := false, loadStep := .lent, slotAddr := 0, stampTick := 0, outcome := none,
    stampLeft := [] }

/-! ## Ports -/

/-- Who issued a read (R115, R117). -/
inductive Requester
  | lane (k : LaneNo)
  | reader
  | scanner
  deriving DecidableEq, Repr

/-- What a read is for: a control read, a lane's segment, or a confirming read (R115). -/
inductive ReadRole
  | control
  | segment (n : Nat)
  | confirming
  deriving DecidableEq, Repr

/-- A read that holds a tag (R115). -/
structure ReadInfo where
  requester : Requester
  role : ReadRole
  addr : Addr
  length : Nat
  deriving DecidableEq, Repr

/-- CONTROL or DATA (R115). -/
inductive ReadKind
  | control
  | data
  deriving DecidableEq, Repr

/-- A tag (R115). `timer` is the period its timer was started with, in microseconds (log 5). -/
inductive Tag
  | free
  | busy (read : ReadInfo) (timer : Nat)
  | quarantine (kind : ReadKind) (timer : Nat)
  deriving DecidableEq, Repr

/-- A posted write, with the lane that issued it where a lane wrote data (R126, R127). -/
structure PostedWrite where
  addr : Addr
  bytes : List Byte
  lane : Option LaneNo
  deriving DecidableEq, Repr

/-- A request issued on a port and not yet sent to its domain (R126, R127). -/
inductive Request
  | write (w : PostedWrite)
  | read (addr : Addr) (length : Nat) (tag : TagNo) (lane : Option LaneNo)
  deriving DecidableEq, Repr

/-- What both ports hold (R113); Port A's waiting control requesters and Port B's link state stand in
`State`. -/
structure Port where
  tags : Vector Tag 24
  lastServed : LaneNo
  period : Nat
  requests : List Request
  deriving DecidableEq, Repr

/-- A port after a power-on reset (R132). -/
def Port.reset : Port := ⟨.replicate 24 .free, 3, Config.longestPeriod, []⟩

/-- A control requester waiting at Port A for a tag, with the read it wants (R117). -/
structure ControlRequest where
  requester : Requester
  addr : Addr
  length : Nat
  deriving DecidableEq, Repr

/-! ## The Command Scanner -/

/-- The fields an OPEN is delivered with, as the further read holds them (R100, R179). -/
structure OpenFields where
  base : Nat
  size : Nat
  domain : Nat
  rights : Byte
  deriving DecidableEq, Repr

/-- The fields an ARM is delivered with, as the further read holds them (R7, R180). -/
structure ArmFields where
  ringAddr : Nat
  period : Nat
  phase : Nat
  deadline : Nat
  ringSize : Nat
  length : Nat
  cls : Nat
  missPolicy : Nat
  srcWindow : Nat
  dstWindow : Nat
  notifyEvery : Nat
  lent : Count
  deriving DecidableEq, Repr

/-- A delivered command as its owner knows it (R7, R100). -/
inductive Command
  | openWindow (fields : OpenFields)
  | closeWindow
  | arm (fields : ArmFields)
  | pause
  | resume
  | retire
  | unknown
  deriving DecidableEq, Repr

/-- A command handed to its owner (R141). -/
structure Delivery where
  record : Record
  seq : Byte
  notify : Bool
  command : Command
  deriving DecidableEq, Repr

/-- What the Command Scanner is doing (R143): IDLE; LOADING, at the header, at a record's command word
or at the next write of a record's part half (R149, R150); SWEEPING, at a record's command word, at the
further read of an OPEN or ARM, at a command handed to its owner and not yet taken, or at the chain
read (R141, R145). -/
inductive Scanner
  | idle
  | header
  | loadWord (r : Record)
  | loadWrite (r : Record) (field : Nat)
  | sweepWord (r : Record)
  | sweepFurther (r : Record) (seq : Byte) (notify : Bool)
  | delivered (d : Delivery)
  | chain
  deriving DecidableEq, Repr

/-! ## The state -/

/-- The state of the bridge: everything the spec gives the block, the queue of commands waiting, and
the model's own two fields for what the spec leaves open. -/
structure State where
  bridge : BridgeState
  areaBase : BitVec 64
  enables : BitVec 5
  raised : BitVec 5
  raisings : List (Cause × Nat)
  faultRec : Option FaultRec
  further : Nat
  settings : Option Settings
  tick : Nat
  tickTimerOn : Bool
  sweepTimer : Nat
  calendar : List CadNo
  ready : List ReadyEntry
  gate : Gate
  cadences : Vector CadEntry 64
  windows : Vector WinEntry 16
  lanes : Vector Lane 4
  errands : List Errand
  reader : ReaderPos
  takeCount : BitVec 32
  scanner : Scanner
  sweepPending : Bool
  loadingStop : Bool
  ackWindows : Vector (Option Byte) 16
  ackCadences : Vector (Option Byte) 64
  portA : Port
  portB : Port
  controlQueue : List ControlRequest
  linkUp : Bool
  resetInput : Bool
  portALinkUp : Bool
  choice : Nat
  freeCount : Nat
  pending : List Instr
  deriving DecidableEq, Repr

/-- The bridge after a power-on reset (R163, R164, R28, R51, R74, R96, R112, R132, R143). The reset
input and the Port A link (log 16), `choice` (log 6) and `freeCount` (log 7) hold values the model
names. -/
def State.reset : State :=
  { bridge := .off, areaBase := 0, enables := 0, raised := 0, raisings := [], faultRec := none,
    further := 0, settings := none, tick := 0, tickTimerOn := false, sweepTimer := 0, calendar := [],
    ready := [], gate := .opened, cadences := .replicate 64 .reset, windows := .replicate 16 .reset,
    lanes := .replicate 4 .idle, errands := [], reader := .noCard, takeCount := 0, scanner := .idle,
    sweepPending := false, loadingStop := false, ackWindows := .replicate 16 none,
    ackCadences := .replicate 64 none, portA := .reset, portB := .reset, controlQueue := [],
    linkUp := false, resetInput := false, portALinkUp := true, choice := 0, freeCount := 0,
    pending := [] }

/-- The block never stops: the part's own faults are effects on the state (R161, R169). The type has
no constructor, so nothing raises one. -/
inductive Fault
  deriving DecidableEq, Repr

/-- The reasons a command is refused. -/
inductive Refusal
  /-- Raised by an arm of `exec` whose command has no meaning yet; safe, since the model stops. No arm
  uses it. -/
  | notModelled (mnemonic : String)
  deriving DecidableEq, Repr

end Sys2Proof.Machine
end

