-- ==== Sys2Proof/Machine/Operands.lean ====
section
/-! DEFINITION. The formats: little-endian fields (R177), the records of the exchange area as the
bridge reads them (R178 to R184), the numeric codes (R186), and the checks on a header (R135), on the
configuration of a cadence (R8) and of a window (R101). -/

namespace Sys2Proof.Machine

/-! ## Bytes and fields -/

/-- The `size` bytes of a field, least significant first (R177); a value wider than the field loses
its high bits. -/
def leBytes : Nat → Nat → List Byte
  | 0, _ => []
  | size + 1, value => BitVec.ofNat 8 value :: leBytes size (value / 256)

/-- The unsigned number little-endian bytes hold (R177). -/
def leValue : List Byte → Nat
  | [] => 0
  | b :: rest => b.toNat + 256 * leValue rest

/-- The field of `size` bytes at `offset` of a record's bytes (R177). -/
def fieldAt (offset size : Nat) (bytes : List Byte) : Nat := leValue ((bytes.drop offset).take size)

/-- A one-byte field as its bits. -/
def byteAt (offset : Nat) (bytes : List Byte) : Byte := BitVec.ofNat 8 (fieldAt offset 1 bytes)

/-! ## The codes the bridge writes (R186) -/

/-- The C_STATE codes. -/
def CadState.code : CadState → Nat
  | .idle => 0
  | .armed => 1
  | .paused => 2
  | .held => 3
  | .draining => 4

/-- The W_STATE codes. -/
def WinState.code : WinState → Nat
  | .closed => 0
  | .opened => 1
  | .closing => 2

/-- The OUTCOME codes. -/
def Outcome.code : Outcome → Nat
  | .done => 1
  | .late => 2
  | .readError => 3
  | .readTimeout => 4
  | .peerLost => 5
  | .cancelled => 6
  | .badCard => 7
  | .windowClosed => 8
  | .writeError => 9
  | .badSlot => 10

/-- The results of a command (R7, R100), after the RESULT codes of R186. -/
inductive Result
  | ok
  | inProgress
  | completed
  | refusedState
  | refusedConfig
  | refusedRing
  | refusedWindow
  | refusedBusy
  | unknown
  deriving DecidableEq, Repr

/-- The RESULT codes; 0 is no result. -/
def Result.code : Result → Nat
  | .ok => 1
  | .inProgress => 2
  | .completed => 3
  | .refusedState => 4
  | .refusedConfig => 5
  | .refusedRing => 6
  | .refusedWindow => 7
  | .refusedBusy => 8
  | .unknown => 9

/-- The CODE field of FAULT. -/
def FaultCode.code : FaultCode → Nat
  | .areaReadFailed => 1
  | .tickLimit => 2
  | .lendOverrun => 3
  | .windowLost => 4
  | .missHeld => 5
  | .slotError => 6
  | .errandError => 7
  | .strayCompletion => 8
  | .peerDown => 9
  | .layoutInvalid => 10

/-- The OBJECT_KIND field of FAULT. -/
def ObjectKind.code : ObjectKind → Nat
  | .bridge => 1
  | .port => 2
  | .cadence => 4
  | .errand => 5

/-- The bridge state field of STATUS (R190). -/
def BridgeState.code : BridgeState → Nat
  | .off => 0
  | .loading => 1
  | .running => 2
  | .quiescing => 3
  | .stopped => 4
  | .halted => 5

/-! ## Command words (R181, R184) -/

/-- CMD of a command word. -/
def cmdOf (word : List Byte) : Nat := fieldAt 0 1 word

/-- CMD_SEQ of a command word. -/
def cmdSeqOf (word : List Byte) : Byte := byteAt 1 word

/-- CMD_NOTIFY of a command word: set when nonzero. -/
def cmdNotifyOf (word : List Byte) : Bool := fieldAt 2 1 word != 0

/-! ## The area header (R135, R178) -/

/-- Whether a table of `count` records may lie at `addr`: a multiple of 64 when `count` is above 0
(R135). -/
def tableAddrOk (count addr : Nat) : Bool := count == 0 || addr % 64 == 0

/-- The settings of a header, or none where a field lies outside the range R135 accepts (R136). -/
def decodeHeader (bytes : List Byte) : Option Settings :=
  let layout := fieldAt 0 2 bytes
  let tickUs := fieldAt 2 2 bytes
  let sweepTicks := fieldAt 4 2 bytes
  let windowCount := fieldAt 6 1 bytes
  let cadenceCount := fieldAt 7 1 bytes
  let windowTable := fieldAt 8 8 bytes
  let cadenceTable := fieldAt 16 8 bytes
  let errandLanes := fieldAt 32 1 bytes
  let gateUpper := fieldAt 33 1 bytes
  let gateLower := fieldAt 34 1 bytes
  let timeoutBase := fieldAt 35 1 bytes
  let timeoutCount := fieldAt 36 1 bytes
  if layout = 1 ∧ 10 ≤ tickUs ∧ tickUs ≤ 10000 ∧ windowCount ≤ 16 ∧ cadenceCount ≤ 64 ∧
      tableAddrOk windowCount windowTable ∧ tableAddrOk cadenceCount cadenceTable ∧
      errandLanes ≤ 4 ∧ 1 ≤ gateUpper ∧ gateUpper ≤ 64 ∧ gateLower < gateUpper ∧
      timeoutBase ≤ 1 ∧ 1 ≤ timeoutCount then
    some
      { tickUs, sweepTicks, windowCount, cadenceCount, windowTable := BitVec.ofNat 64 windowTable,
        cadenceTable := BitVec.ofNat 64 cadenceTable, errandLanes, gateUpper, gateLower,
        period := (if timeoutBase = 0 then 1 else 100) * timeoutCount }
  else none

/-! ## Window records (R179, R101) -/

/-- The fields of an OPEN's further read, window record bytes 0 to 19 (R185). -/
def decodeOpen (bytes : List Byte) : OpenFields :=
  { base := fieldAt 0 8 bytes, size := fieldAt 8 8 bytes, domain := fieldAt 16 1 bytes,
    rights := byteAt 17 bytes }

/-- DOMAIN: 1 for A, 2 for B (R179). -/
def decodeDomain : Nat → Option Domain
  | 1 => some .a
  | 2 => some .b
  | _ => none

/-- The configuration an OPEN brings, or none where R101 refuses it. -/
def OpenFields.config (f : OpenFields) : Option WinConfig :=
  match decodeDomain f.domain with
  | none => none
  | some domain =>
    let canRead := f.rights.getLsbD 0
    let canWrite := f.rights.getLsbD 1
    if (canRead || canWrite) ∧ f.base % 4096 = 0 ∧ 4096 ≤ f.size ∧ f.size ≤ 4294967296 ∧
        f.size % 4096 = 0 ∧ f.base + f.size ≤ 2 ^ 64 then
      some { domain, canRead, canWrite, base := BitVec.ofNat 64 f.base, size := f.size }
    else none

/-! ## Cadence records (R180, R8) -/

/-- The fields of an ARM's further read, cadence record bytes 0 to 31 (R185). -/
def decodeArm (bytes : List Byte) : ArmFields :=
  { ringAddr := fieldAt 0 8 bytes, period := fieldAt 8 2 bytes, phase := fieldAt 10 2 bytes,
    deadline := fieldAt 12 2 bytes, ringSize := fieldAt 14 2 bytes, length := fieldAt 16 4 bytes,
    cls := fieldAt 20 1 bytes, missPolicy := fieldAt 21 1 bytes, srcWindow := fieldAt 22 1 bytes,
    dstWindow := fieldAt 23 1 bytes, notifyEvery := fieldAt 24 1 bytes,
    lent := BitVec.ofNat 32 (fieldAt 28 4 bytes) }

/-- CLASS: 1 URGENT, 2 STEADY (R180). -/
def decodeClass : Nat → Option CadClass
  | 1 => some .urgent
  | 2 => some .steady
  | _ => none

/-- MISS_POLICY: 1 SKIP, 2 HOLD (R180). -/
def decodePolicy : Nat → Option MissPolicy
  | 1 => some .skip
  | 2 => some .hold
  | _ => none

/-- A window number, where it lies in 0 to 15 (R99). -/
def decodeWindow (n : Nat) : Option WinNo := if h : n < 16 then some ⟨n, h⟩ else none

/-- The configuration an ARM brings, or none where R8 refuses it. -/
def ArmFields.config (f : ArmFields) : Option CadConfig :=
  match decodeClass f.cls, decodePolicy f.missPolicy, decodeWindow f.srcWindow,
      decodeWindow f.dstWindow with
  | some cls, some missPolicy, some srcWindow, some dstWindow =>
    if 1 ≤ f.period ∧ f.period ≤ 65535 ∧ f.phase < f.period ∧ 1 ≤ f.deadline ∧
        f.deadline ≤ f.period ∧ 4 ≤ f.length ∧ f.length ≤ 1048576 ∧ f.length % 4 = 0 ∧
        f.ringAddr % 32 = 0 ∧ 2 ≤ f.ringSize ∧ f.ringSize ≤ 256 then
      some
        { cls, period := f.period, phase := f.phase, deadline := f.deadline, srcWindow, dstWindow,
          length := f.length, ringAddr := BitVec.ofNat 64 f.ringAddr, ringSize := f.ringSize,
          notifyEvery := f.notifyEvery, missPolicy }
    else none
  | _, _, _, _ => none

/-! ## Errand cards (R183) -/

/-- KIND: 1 COPY, 2 FILL (R183). -/
def decodeKind : Nat → Option CardKind
  | 1 => some .copy
  | 2 => some .fill
  | _ => none

/-- The card read at `addr`, card bytes 0 to 31 (R185), which receives take number `takeNo` (R81). -/
def decodeCard (addr : Addr) (takeNo : BitVec 32) (bytes : List Byte) : Card :=
  { addr, takeNo, nextCard := BitVec.ofNat 64 (fieldAt 0 8 bytes),
    kind := decodeKind (fieldAt 8 1 bytes), fence := (byteAt 9 bytes).getLsbD 0,
    notify := (byteAt 9 bytes).getLsbD 1, srcWindow := byteAt 10 bytes,
    dstWindow := byteAt 11 bytes, srcOffset := fieldAt 12 4 bytes,
    dstOffset := fieldAt 16 4 bytes, length := fieldAt 20 4 bytes,
    pattern := BitVec.ofNat 32 (fieldAt 24 4 bytes) }

/-- Whether a link read in the card at `source` (none for FIRST_CARD_ADDR) is usable (R78). -/
def usableLink (link : Addr) (source : Option Addr) : Bool :=
  link != 0 && link.toNat % 64 == 0 && source != some link

/-! ## The command a word spells (R184) -/

/-- The command of a window's word, the fields of an OPEN being read apart (R141). -/
def windowCommand (cmd : Nat) : Command :=
  if cmd = 2 then .closeWindow else .unknown

/-- The command of a cadence's word, the fields of an ARM being read apart (R141). -/
def cadenceCommand (cmd : Nat) : Command :=
  if cmd = 4 then .pause else if cmd = 5 then .resume else if cmd = 6 then .retire else .unknown

/-- Whether the word of a record spells a command whose fields take a further read: OPEN for a window,
ARM for a cadence (R141). -/
def needsFurtherRead (r : Record) (cmd : Nat) : Bool :=
  match r with
  | .window _ => cmd == 1
  | .cadence _ => cmd == 3

/-- The command of a record's word, for a word that takes no further read. -/
def plainCommand (r : Record) (cmd : Nat) : Command :=
  match r with
  | .window _ => windowCommand cmd
  | .cadence _ => cadenceCommand cmd

/-- The command of a record whose further read held `bytes`. -/
def furtherCommand (r : Record) (bytes : List Byte) : Command :=
  match r with
  | .window _ => .openWindow (decodeOpen bytes)
  | .cadence _ => .arm (decodeArm bytes)

/-! ## Register writes (R192) -/

/-- The 64-bit value an AREA_BASE write leaves over `old`: a 4-byte write sets its half (R192). -/
def wideValue (w : WideWrite) (old : BitVec 64) : BitVec 64 :=
  match w with
  | .whole value => value
  | .low value => old.extractLsb' 32 32 ++ value
  | .high value => value ++ old.extractLsb' 0 32

/-- The interrupt enables of a CONTROL word, bits 8 to 12 (R188). -/
def controlEnables (value : BitVec 32) : BitVec 5 := value.extractLsb' 8 5

/-- The causes of a RAISED word, bits 0 to 4 (R189). -/
def raisedBits (value : BitVec 32) : BitVec 5 := value.extractLsb' 0 5

end Sys2Proof.Machine
end

