-- ==== Sys2Proof/Machine/Ops.lean ====
section
/-! DEFINITION. The shared operations: the reads and writes of the tables, the posted writes and reads
of the ports (R126, R127, R130), the fault record (R169) and the interrupt causes (R174). -/

namespace Sys2Proof.Machine

/-! ## The tables -/

/-- A Cadence Table entry (R1). -/
def State.cad (s : State) (n : CadNo) : CadEntry := s.cadences[n]

/-- The state with one Cadence Table entry replaced. -/
def setCad (n : CadNo) (e : CadEntry) (s : State) : State :=
  { s with cadences := s.cadences.set n e }

/-- The configuration the entry holds (log 27 where it holds none). -/
def State.cfg (s : State) (n : CadNo) : CadConfig := (s.cad n).config.getD .blank

/-- A Window Table entry (R97). -/
def State.win (s : State) (n : WinNo) : WinEntry := s.windows[n]

/-- The state with one Window Table entry replaced. -/
def setWin (n : WinNo) (e : WinEntry) (s : State) : State :=
  { s with windows := s.windows.set n e }

/-- A lane's record (R52). -/
def State.lane (s : State) (k : LaneNo) : Lane := s.lanes[k]

/-- The state with one lane's record replaced. -/
def setLane (k : LaneNo) (l : Lane) (s : State) : State := { s with lanes := s.lanes.set k l }

/-- The state of one port (R113). -/
def State.port (s : State) : Domain → Port
  | .a => s.portA
  | .b => s.portB

/-- The state with one port replaced. -/
def setPort (p : Domain) (x : Port) (s : State) : State :=
  match p with
  | .a => { s with portA := x }
  | .b => { s with portB := x }

/-- A tag of a port (R115). -/
def State.tag (s : State) (p : Domain) (t : TagNo) : Tag := (s.port p).tags[t]

/-- The state with one tag replaced. -/
def setTag (p : Domain) (t : TagNo) (x : Tag) (s : State) : State :=
  setPort p { s.port p with tags := (s.port p).tags.set t x } s

/-- The header values in force (log 27 where none is held). -/
def State.hdr (s : State) : Settings := s.settings.getD .blank

/-- The acknowledged number of a record, none where none is held (R140). -/
def State.ack (s : State) : Record → Option Byte
  | .window n => s.ackWindows[n]
  | .cadence n => s.ackCadences[n]

/-- The state with the acknowledged number of a record set (R140). -/
def setAck (r : Record) (seq : Byte) (s : State) : State :=
  match r with
  | .window n => { s with ackWindows := s.ackWindows.set n (some seq) }
  | .cadence n => { s with ackCadences := s.ackCadences.set n (some seq) }

/-! ## Addresses (R137, R5) -/

/-- The address of a window or cadence record (R137; log 12). -/
def recordAddr (s : State) : Record → Addr
  | .window n => s.hdr.windowTable + BitVec.ofNat 64 (32 * n)
  | .cadence n => s.hdr.cadenceTable + BitVec.ofNat 64 (64 * n)

/-- The address of a record's command word (R179, R180). -/
def commandWordAddr (s : State) (r : Record) : Addr :=
  match r with
  | .window _ => recordAddr s r + 20
  | .cadence _ => recordAddr s r + 32

/-- The address of the slot with an index (R5; log 12). -/
def slotAddrOf (c : CadConfig) (index : Nat) : Addr := c.ringAddr + BitVec.ofNat 64 (32 * index)

/-! ## Requests of the ports (R126, R127) -/

/-- Whether a request is a posted write. -/
def Request.isWrite : Request → Bool
  | .write _ => true
  | .read .. => false

/-- The posted writes a port holds (R113). -/
def heldWrites (p : Port) : Nat := p.requests.countP Request.isWrite

/-- Whether a port keeps a read of `lane` behind a held posted write: always on Port A (R126), within
one lane on Port B (R127). -/
def keepsOrder (p : Domain) (w : PostedWrite) (lane : Option LaneNo) : Bool :=
  match p with
  | .a => true
  | .b => w.lane == lane

/-- The requests that stay held once every read with no held write ahead of it in its order has been
sent (R126: a request is sent as soon as every request ahead of it has been; log 15). `ahead` is the
writes already passed. -/
def sendReads (p : Domain) : List PostedWrite → List Request → List Request
  | _, [] => []
  | ahead, .write w :: rest => .write w :: sendReads p (w :: ahead) rest
  | ahead, .read addr length tag lane :: rest =>
    if ahead.any (fun w => keepsOrder p w lane) then
      .read addr length tag lane :: sendReads p ahead rest
    else sendReads p ahead rest

/-- A posted write issued on a port: it joins the back of the port's requests, but Port B discards it
on issue while the link is DOWN (R113, R127, R130). -/
def issueWrite (p : Domain) (w : PostedWrite) (s : State) : State :=
  if p = .b ∧ s.linkUp = false then s
  else setPort p { s.port p with requests := (s.port p).requests ++ [.write w] } s

/-- A control write of one part-half field through Port A (R138, R177). -/
def areaWrite (addr : Addr) (size value : Nat) (s : State) : State :=
  issueWrite .a { addr, bytes := leBytes size value, lane := none } s

/-- A control write of the field at an offset of a record. -/
def recordWrite (r : Record) (offset size value : Nat) (s : State) : State :=
  areaWrite (recordAddr s r + BitVec.ofNat 64 offset) size value s

/-- A read issued on a port (R119): its tag becomes BUSY with the timer started at the period in force,
and the request joins the port's requests. -/
def issueRead (p : Domain) (t : TagNo) (r : ReadInfo) (s : State) : State :=
  let lane := match r.requester with
    | .lane k => some k
    | .reader => none
    | .scanner => none
  let x := s.port p
  setPort p
    { x with
      tags := x.tags.set t (.busy r x.period)
      requests := sendReads p [] (x.requests ++ [.read r.addr r.length t lane]) } s

/-! ## Interrupt causes (R173, R174) -/

/-- The bit of a cause in RAISED (R189). -/
def Cause.bit : Cause → BitVec 5
  | .cadenceNote => 1
  | .errandNote => 2
  | .commandDone => 4
  | .fault => 8
  | .state => 16

/-- A cause becomes set in RAISED (R173). -/
def setCause (c : Cause) (s : State) : State := { s with raised := s.raised ||| c.bit }

/-- A cause is raised: it becomes set at once where Port A holds no posted write, and otherwise waits
for the writes Port A now holds (R174). -/
def raise (c : Cause) (s : State) : State :=
  if heldWrites s.portA = 0 then setCause c s
  else { s with raisings := s.raisings ++ [(c, heldWrites s.portA)] }

/-- The causes become set, in turn. -/
def setCauses : List Cause → State → State
  | [], s => s
  | c :: rest, s => setCauses rest (setCause c s)

/-- Port A has sent a posted write: every raising that waited for that write alone sets its cause, and
the others wait for one write fewer (R174). -/
def settleRaisings (s : State) : State :=
  let due := s.raisings.filter (fun r => decide (r.2 ≤ 1))
  let left := s.raisings.filter (fun r => decide (1 < r.2))
  setCauses (due.map Prod.fst) { s with raisings := left.map (fun r => (r.1, r.2 - 1)) }

/-! ## Fault reports (R169) -/

/-- The record takes a report: it is filled where it is empty, and otherwise FURTHER rises, to 255 at
most (R169). -/
def recordFault (code : FaultCode) (kind : ObjectKind) (number : Nat) (s : State) : State :=
  match s.faultRec with
  | none =>
    { s with
      faultRec := some
        { code, kind, number := BitVec.ofNat 16 number, tick := BitVec.ofNat 32 s.tick } }
  | some _ => { s with further := min 255 (s.further + 1) }

/-- A fault report: the record takes it and the FAULT cause is raised (R169). The effect of its class is
the caller's (R170). -/
def reportFault (code : FaultCode) (kind : ObjectKind) (number : Nat) (s : State) : State :=
  raise .fault (recordFault code kind number s)

/-! ## Answers -/

/-- The bytes handed to the requester of a read of `length` bytes: those of the answer, and a free byte
at each position the answer does not reach (R124; log 7). -/
def fitAnswer (draw length : Nat) (bytes : List Byte) : List Byte :=
  bytes.take length ++
    (List.range (length - bytes.length)).map (fun i => Config.freeByte draw (bytes.length + i))

end Sys2Proof.Machine
end

