-- ==== Sys2Proof/Machine/Windows.lean ====
section
/-! DEFINITION. The Window Unit (chapter 5): the checks, the hold and the release, and the drain. -/

namespace Sys2Proof.Machine

/-! ## Checks (R106, R107) -/

/-- The configuration of a window that is OPEN; none for one that is CLOSED or CLOSING (R98). -/
def openConfig (s : State) (n : WinNo) : Option WinConfig :=
  if (s.win n).state = .opened then (s.win n).config else none

/-- The configuration of an OPEN window named by a card, whose number may lie above 15 (R99). -/
def openConfigOf (s : State) (b : Byte) : Option WinConfig :=
  (decodeWindow b.toNat).bind (openConfig s)

/-- Whether a configuration has the right a job needs: WRITE for a destination, READ for a source. -/
def WinConfig.grants (c : WinConfig) (write : Bool) : Bool := if write then c.canWrite else c.canRead

/-- The ARM window check (R9, R106). -/
def armWindowsOk (s : State) (c : CadConfig) : Bool :=
  match openConfig s c.srcWindow, openConfig s c.dstWindow with
  | some src, some dst =>
    src.canRead && dst.canWrite && decide (c.length ≤ src.size) && decide (c.length ≤ dst.size)
  | _, _ => false

/-- Whether an offset of a copy of `length` bytes is aligned and inside a window (R17, R82). -/
def inBounds (c : WinConfig) (offset length : Nat) : Bool :=
  offset % 4 == 0 && decide (offset + length ≤ c.size)

/-- Whether a window lets a card in: below WINDOW_COUNT, OPEN, with the right, aligned and in bounds
(R82). -/
def cardWindowOk (s : State) (b : Byte) (write : Bool) (offset length : Nat) : Bool :=
  decide (b.toNat < s.hdr.windowCount) &&
    match openConfigOf s b with
    | some c => c.grants write && inBounds c offset length
    | none => false

/-- Whether a card is valid at its take (R82). -/
def cardValid (s : State) (c : Card) : Bool :=
  decide (4 ≤ c.length) && decide (c.length ≤ 16777216) && c.length % 4 == 0 &&
    match c.kind with
    | some .copy =>
      cardWindowOk s c.srcWindow false c.srcOffset c.length &&
        cardWindowOk s c.dstWindow true c.dstOffset c.length
    | some .fill => cardWindowOk s c.dstWindow true c.dstOffset c.length
    | none => false

/-- The window a check-and-take finds for one role of a job: its number and its configuration, where it
is OPEN and has the right (R107). -/
def admitted (s : State) (n : WinNo) (write : Bool) : Option WinConfig :=
  match openConfig s n with
  | some c => if c.grants write then some c else none
  | none => none

/-- The same for an errand, whose range must also lie inside the window (R107). -/
def admittedErrand (s : State) (b : Byte) (write : Bool) (offset length : Nat) :
    Option (WinNo × WinConfig) :=
  match decodeWindow b.toNat with
  | none => none
  | some n =>
    match admitted s n write with
    | some c => if offset + length ≤ c.size then some (n, c) else none
    | none => none

/-- Whether the Port B check turns a job away: a window it uses has DOMAIN B and the link is DOWN
(R107). -/
def peerBlocked (s : State) (domains : List Domain) : Bool :=
  !s.linkUp && domains.contains .b

/-! ## Translation (R105) -/

/-- The domain address of an offset in a window. -/
def translate (c : WinConfig) (offset : Nat) : Addr := c.base + BitVec.ofNat 64 offset

/-! ## State changes and results -/

/-- The Window Unit changes a window's state and writes W_STATE (R98). -/
def setWinState (n : WinNo) (e : WinEntry) (s : State) : State :=
  recordWrite (.window n) 24 1 e.state.code (setWin n e s)

/-- One hold on a window (R103). -/
def holdWindow (n : WinNo) (s : State) : State :=
  setWin n { s.win n with useCount := (s.win n).useCount + 1 } s

/-- The holds of a job, one for each role (R55, R103). -/
def holdWindows : List WinNo → State → State
  | [], s => s
  | n :: rest, s => holdWindows rest (holdWindow n s)

/-- Whether lowering a window's use count by one drains it: it is CLOSING and the count reaches 0
(R104). -/
def drains (e : WinEntry) : Bool := e.state == .closing && e.useCount == 1

/-- The drain of a CLOSING window whose count has reached 0 (R104). -/
def drainWindow (n : WinNo) (s : State) : State :=
  let e := s.win n
  let s1 := setWinState n { e with state := .closed, config := none, closeNotify := false } s
  let s2 := recordWrite (.window n) 25 1 Result.completed.code s1
  if e.closeNotify then raise .commandDone s2 else s2

/-- One release of a window, with the drain it may bring (R103, R104). -/
def releaseWindow (n : WinNo) (s : State) : State :=
  let e := s.win n
  let s1 := setWin n { e with useCount := e.useCount - 1 } s
  if drains e then drainWindow n s1 else s1

/-- A job's release of every hold it made (R57, R103). Where both windows of a job drain, no rule says which
drains first (R104): the model releases the source first and then the destination (log 32). -/
def releaseWindows : List WinNo → State → State
  | [], s => s
  | n :: rest, s => releaseWindows rest (releaseWindow n s)

/-- One release at entry to HALTED: a drained window becomes CLOSED in the table, and nothing is written
or raised (R111). -/
def quietRelease (n : WinNo) (s : State) : State :=
  let e := s.win n
  if drains e then setWin n { e with state := .closed, config := none, useCount := 0 } s
  else setWin n { e with useCount := e.useCount - 1 } s

/-- The releases of one lane at entry to HALTED (R73, R111). -/
def quietReleases : List WinNo → State → State
  | [], s => s
  | n :: rest, s => quietReleases rest (quietRelease n s)

/-! ## Commands (R100 to R102) -/

/-- The writes that answer a delivered command: RESULT, then ACK_SEQ, with the record's acknowledged
number set (R7, R100, R141); COMMAND_DONE for a final result whose CMD_NOTIFY was set. -/
def answerCommand (d : Delivery) (result : Result) (s : State) : State :=
  let offset := match d.record with
    | .window _ => 25
    | .cadence _ => 41
  let s1 := recordWrite d.record offset 1 result.code (setAck d.record d.seq s)
  let s2 := recordWrite d.record (offset + 1) 1 d.seq.toNat s1
  if result ≠ .inProgress ∧ d.notify = true then raise .commandDone s2 else s2

/-- The Window Unit decides an OPEN (R100, R101). -/
def takeOpen (n : WinNo) (f : OpenFields) (d : Delivery) (s : State) : State :=
  match (s.win n).state with
  | .closing => answerCommand d .refusedBusy s
  | .opened => answerCommand d .refusedState s
  | .closed =>
    match f.config with
    | none => answerCommand d .refusedConfig s
    | some c =>
      answerCommand d .ok
        (setWinState n { s.win n with state := .opened, config := some c, useCount := 0 } s)

/-- The Window Unit decides a CLOSE (R100, R102). -/
def takeClose (n : WinNo) (d : Delivery) (s : State) : State :=
  match (s.win n).state with
  | .closing => answerCommand d .refusedBusy s
  | .closed => answerCommand d .refusedState s
  | .opened =>
    if (s.win n).useCount = 0 then
      answerCommand d .ok (setWinState n { s.win n with state := .closed, config := none } s)
    else
      answerCommand d .inProgress
        (setWinState n { s.win n with state := .closing, closeNotify := d.notify } s)

/-- The Window Unit answers a CMD it does not know (R100). -/
def takeUnknownWindow (n : WinNo) (d : Delivery) (s : State) : State :=
  if (s.win n).state = .closing then answerCommand d .refusedBusy s
  else answerCommand d .unknown s

end Sys2Proof.Machine
end

