-- ==== Sys2Proof/Machine/Cadences.lean ====
section
/-! DEFINITION. The Cadence Unit (chapter 1), the Service Calendar (R34 to R39) and the order of the
ready queue (R40). -/

namespace Sys2Proof.Machine

/-! ## The due grid (R4) -/

/-- The first grid instant strictly after tick `u` (R4). -/
def firstGridAfter (period phase u : Nat) : Nat :=
  u + 1 + (((phase : Int) - ((u : Int) + 1)) % (period : Int)).toNat

/-- The first grid instant of a cadence strictly after a tick. -/
def nextInstant (s : State) (n : CadNo) (u : Nat) : Nat :=
  firstGridAfter (s.cfg n).period (s.cfg n).phase u

/-! ## Records and state changes -/

/-- The Cadence Unit changes a cadence's state and writes C_STATE (R3). -/
def setCadState (n : CadNo) (e : CadEntry) (s : State) : State :=
  recordWrite (.cadence n) 40 1 e.state.code (setCad n e s)

/-- The outstanding count (R5). -/
def outstandingCount (e : CadEntry) : Nat := (e.lastLent - e.tally).toNat

/-! ## The Service Calendar and the ready queue -/

/-- URGENT before STEADY (R34, R40). -/
def CadClass.rank : CadClass → Nat
  | .urgent => 0
  | .steady => 1

/-- Whether a list of numbers comes before another in dictionary order. -/
def keyBefore : List Nat → List Nat → Bool
  | [], _ => false
  | _ :: _, [] => false
  | x :: xs, y :: ys => decide (x < y) || (x == y && keyBefore xs ys)

/-- The order of the calendar: due tick, class, number (R34). -/
def calendarKey (s : State) (n : CadNo) : List Nat :=
  [(s.cad n).nextDue, (s.cfg n).cls.rank, n]

/-- An entry takes its place in the calendar (R34). -/
def calendarInsert (s : State) (n : CadNo) : List CadNo → List CadNo
  | [] => [n]
  | m :: rest =>
    if keyBefore (calendarKey s n) (calendarKey s m) then n :: m :: rest
    else m :: calendarInsert s n rest

/-- The order of the ready queue: closing entries first, then by class, current due tick and number
(R40). Two closing entries have one key, so that the one that joins stands behind. -/
def readyKey (s : State) : ReadyEntry → List Nat
  | .closing _ => [0]
  | .service n => [1, (s.cfg n).cls.rank, (s.cad n).currentDue, n]

/-- An entry takes its place in the ready queue (R40). -/
def readyInsert (s : State) (e : ReadyEntry) : List ReadyEntry → List ReadyEntry
  | [] => [e]
  | m :: rest =>
    if keyBefore (readyKey s e) (readyKey s m) then e :: m :: rest
    else m :: readyInsert s e rest

/-- An entry joins the ready queue. -/
def readyJoin (e : ReadyEntry) (s : State) : State :=
  { s with ready := readyInsert s e s.ready }

/-- The calendar lets go of a cadence, whose service entry joins the ready queue (R14, R37). -/
def releaseEntry (n : CadNo) (s : State) : State :=
  let e := s.cad n
  readyJoin (.service n)
    (setCad n { e with currentDue := e.nextDue, place := .ready }
      { s with calendar := s.calendar.filter (fun m => m != n) })

/-- A cadence joins the calendar (R35): it is released at once where the bridge is RUNNING and its due
tick is reached. -/
def calendarJoin (n : CadNo) (s : State) : State :=
  let s1 := setCad n { s.cad n with place := .calendar } s
  let s2 := { s1 with calendar := calendarInsert s1 n s1.calendar }
  if s2.bridge = .running ∧ (s2.cad n).nextDue ≤ s2.tick then releaseEntry n s2 else s2

/-- The Cadence Unit takes a cadence off the calendar and its service entry off the ready queue, where
it stands there (R11, R13, R36, R41). -/
def takeOff (n : CadNo) (s : State) : State :=
  { s with
    calendar := s.calendar.filter (fun m => m != n)
    ready := s.ready.filter (fun e => e != .service n) }

/-- The new due ticks of the calendar's cadences at START (R39). -/
def recomputeDue : List CadNo → State → State
  | [], s => s
  | n :: rest, s =>
    recomputeDue rest (setCad n { s.cad n with nextDue := nextInstant s n s.tick } s)

/-- The calendar at START from STOPPED: new due ticks, and the entries back in order (R39). -/
def recomputeCalendar (s : State) : State :=
  let s1 := recomputeDue s.calendar s
  { s1 with calendar := s1.calendar.foldl (fun entries n => calendarInsert s1 n entries) [] }

/-! ## Faults, misses and the end of a service (R22 to R25) -/

/-- A holding fault (R23): an ARMED or PAUSED cadence becomes HELD and C_STATE is written; then the
fault is reported, in every state. -/
def holdingFault (code : FaultCode) (n : CadNo) (s : State) : State :=
  let e := s.cad n
  let s1 :=
    if e.state = .armed ∨ e.state = .paused then
      setCadState n { e with state := .held, resumeMark := false } s
    else s
  reportFault code .cadence n s1

/-- A miss of R22 raises MISSES by one. -/
def countMiss (n : CadNo) (s : State) : State :=
  setCad n { s.cad n with misses := (s.cad n).misses + 1 } s

/-- The number of OVERRUN misses of a service of due tick T that enters STAMPING at tick `f` (R24). -/
def overrunCount (e : CadEntry) (period f : Nat) : Nat :=
  if e.state = .armed ∧ e.resumeMark = false then (f - e.currentDue) / period else 0

/-- Whether a completed service is late: `f` is greater than T + DEADLINE (R18). -/
def isLate (e : CadEntry) (deadline f : Nat) : Bool := decide (e.currentDue + deadline < f)

/-- The Cadence Unit settles a service at the entry to STAMPING, the tick count being the stamp tick
(R18, R20, R24; log 10): overrun misses, LATES where the completed service is late, TALLY where it
consumes its slot, the next due tick of an ARMED cadence, and the resume mark cleared. -/
def settleService (n : CadNo) (consumes late : Bool) (s : State) : State :=
  let e := s.cad n
  let f := s.tick
  setCad n
    { e with
      misses := e.misses + BitVec.ofNat 32 (overrunCount e (s.cfg n).period f)
      lates := if late then e.lates + 1 else e.lates
      tally := if consumes then e.tally + 1 else e.tally
      nextDue := if e.state = .armed then nextInstant s n f else e.nextDue
      resumeMark := false } s

/-- The Cadence Unit places a cadence at the end of a service job (R25); `u` is the stamp tick, or the
tick count at job end for a job that has none. -/
def placeAtJobEnd (n : CadNo) (u : Nat) (s : State) : State :=
  let e := s.cad n
  match e.state with
  | .armed =>
    calendarJoin n (setCad n { e with nextDue := nextInstant s n u, resumeMark := false } s)
  | .draining =>
    readyJoin (.closing n) (setCad n { e with place := .ready, resumeMark := false } s)
  | .paused => setCad n { e with place := .none, resumeMark := false } s
  | .held => setCad n { e with place := .none, resumeMark := false } s
  | .idle => setCad n { e with place := .none, resumeMark := false } s

/-! ## Commands (R7 to R13) -/

/-- Whether a place is a lane. -/
def Place.isLane : Place → Bool
  | .none => false
  | .calendar => false
  | .ready => false
  | .lane _ => true

/-- The Cadence Unit decides an ARM (R7 to R10). -/
def takeArm (n : CadNo) (f : ArmFields) (d : Delivery) (s : State) : State :=
  let e := s.cad n
  match e.state with
  | .draining => answerCommand d .refusedBusy s
  | .armed => answerCommand d .refusedState s
  | .paused => answerCommand d .refusedState s
  | .held => answerCommand d .refusedState s
  | .idle =>
    match f.config with
    | none => answerCommand d .refusedConfig s
    | some c =>
      if armWindowsOk s c = false then answerCommand d .refusedWindow s
      else if f.lent ≠ e.tally then answerCommand d .refusedRing s
      else
        let e1 : CadEntry :=
          { e with
            config := some c
            lastLent := f.lent
            resumeMark := false
            nextDue := firstGridAfter c.period c.phase s.tick
            state := .armed }
        answerCommand d .ok (recordWrite (.cadence n) 40 1 CadState.armed.code
          (calendarJoin n (setCad n e1 s)))

/-- An accepted PAUSE (R11): the cadence leaves the calendar or the ready queue; a service in a lane runs
on. -/
def pauseCadence (n : CadNo) (s : State) : State :=
  let e := s.cad n
  setCadState n
    { e with
      state := .paused
      resumeMark := false
      place := if e.place.isLane then e.place else .none } (takeOff n s)

/-- The Cadence Unit decides a PAUSE (R7, R11). -/
def takePause (n : CadNo) (d : Delivery) (s : State) : State :=
  match (s.cad n).state with
  | .draining => answerCommand d .refusedBusy s
  | .idle => answerCommand d .refusedState s
  | .paused => answerCommand d .refusedState s
  | .armed => answerCommand d .ok (pauseCadence n s)
  | .held => answerCommand d .ok (pauseCadence n s)

/-- A RESUME of a PAUSED or HELD cadence (R12): in a lane it is ARMED with the resume mark set, and
otherwise it goes back onto the calendar. -/
def resumeCadence (n : CadNo) (s : State) : State :=
  let e := s.cad n
  if e.place.isLane then setCadState n { e with state := .armed, resumeMark := true } s
  else
    recordWrite (.cadence n) 40 1 CadState.armed.code
      (calendarJoin n
        (setCad n { e with state := .armed, nextDue := nextInstant s n s.tick } s))

/-- The Cadence Unit decides a RESUME (R7, R12). -/
def takeResume (n : CadNo) (d : Delivery) (s : State) : State :=
  match (s.cad n).state with
  | .draining => answerCommand d .refusedBusy s
  | .idle => answerCommand d .refusedState s
  | .armed => answerCommand d .refusedState s
  | .paused => answerCommand d .ok (resumeCadence n s)
  | .held => answerCommand d .ok (resumeCadence n s)

/-- An accepted RETIRE (R13): the cadence leaves the calendar and the ready queue, becomes DRAINING, and
its closing entry joins the ready queue unless it is in a lane. -/
def retireCadence (n : CadNo) (d : Delivery) (s : State) : State :=
  let e := s.cad n
  let e1 : CadEntry :=
    { e with state := .draining, resumeMark := false, retireNotify := d.notify }
  if e.place.isLane then
    answerCommand d .inProgress (setCadState n e1 (takeOff n s))
  else
    readyJoin (.closing n)
      (answerCommand d .inProgress (setCadState n { e1 with place := .ready } (takeOff n s)))

/-- The Cadence Unit decides a RETIRE (R7, R13). -/
def takeRetire (n : CadNo) (d : Delivery) (s : State) : State :=
  match (s.cad n).state with
  | .draining => answerCommand d .refusedBusy s
  | .idle => answerCommand d .refusedState s
  | .armed => retireCadence n d s
  | .paused => retireCadence n d s
  | .held => retireCadence n d s

/-- The Cadence Unit answers a CMD it does not know (R7). -/
def takeUnknownCadence (n : CadNo) (d : Delivery) (s : State) : State :=
  if (s.cad n).state = .draining then answerCommand d .refusedBusy s
  else answerCommand d .unknown s

/-! ## A command taken while a job is ending (R7, R23, R25, R141) -/

/-- The Cadence Unit takes a command delivered to it as one event and decides it (R7, R141). -/
def takeCadenceCommand (n : CadNo) (d : Delivery) (s : State) : State :=
  match d.command with
  | .arm f => takeArm n f d s
  | .pause => takePause n d s
  | .resume => takeResume n d s
  | .retire => takeRetire n d s
  | _ => takeUnknownCadence n d s

/-- Whether the owner of a delivered command has still to take it: taking it sets the record's acknowledged
number to its CMD_SEQ (R140, R141). -/
def undecided (d : Delivery) (s : State) : Bool := s.ack d.record != some d.seq

/-- The command for cadence `n` that the scanner has handed over and that has still to be taken (R141). -/
def waitingCommand (n : CadNo) (s : State) : Option Delivery :=
  match s.scanner with
  | .delivered d => if d.record = .cadence n ∧ undecided d s = true then some d else none
  | _ => none

/-- Between the report of a holding fault and the end of the job, the Cadence Unit may take a command for the
cadence that waits for it, or leave it for after the job's end (R23, R25): the spec says either, and a digit
of `choice` decides (logs 6, 37). -/
def takeBetween (n : CadNo) (s : State) : State :=
  match waitingCommand n s with
  | none => s
  | some d =>
    let s1 := { s with choice := s.choice / 2 }
    if s.choice % 2 = 1 then takeCadenceCommand n d s1 else s1

end Sys2Proof.Machine
end

