-- ==== Sys2Proof/Machine/Ports.lean ====
section
/-! DEFINITION. The read tags of the two ports and the arbiter over them (chapter 6). -/

namespace Sys2Proof.Machine

/-! ## Tags (R115, R116) -/

/-- Whether a tag is FREE. -/
def Tag.isFree : Tag → Bool
  | .free => true
  | .busy _ _ => false
  | .quarantine _ _ => false

/-- Whether a tag is BUSY. -/
def Tag.isBusy : Tag → Bool
  | .free => false
  | .busy _ _ => true
  | .quarantine _ _ => false

/-- The kind of a read: CONTROL or DATA (R115). -/
def ReadRole.kind : ReadRole → ReadKind
  | .control => .control
  | .segment _ => .data
  | .confirming => .data

/-- Whether a tag is counted in the data-held count: BUSY with a DATA read, or in QUARANTINE after one
(R116). -/
def Tag.holdsData : Tag → Bool
  | .free => false
  | .busy r _ => r.role.kind == .data
  | .quarantine kind _ => kind == .data

/-- The tags of a port, in order. -/
def Port.tagList (x : Port) : List Tag := x.tags.toList

/-- The data-held count (R116). -/
def dataHeld (x : Port) : Nat := x.tagList.countP Tag.holdsData

/-- The FREE tags of a port, by number. -/
def freeTags (x : Port) : List TagNo := (List.finRange 24).filter (fun t => x.tags[t].isFree)

/-- The FREE tag a grant takes, with what is left of the choices: the spec does not say which FREE tag
is granted, and `choice` makes the choice (log 6). -/
def pickTag (p : Domain) (s : State) : Option (TagNo × Nat) :=
  let free := freeTags (s.port p)
  match free[s.choice % free.length]? with
  | some t => some (t, s.choice / free.length)
  | none => none

/-! ## Segments and what a lane wants (R60, R61) -/

/-- The length of segment `n` of a job (R60). -/
def segmentLength (length n : Nat) : Nat :=
  min Config.segmentSize (length - Config.segmentSize * n)

/-- Whether a lane asks its source port for a tag: it is MOVING a COPY or SERVICE job, the read point is
below LENGTH, a buffer entry is free, no request waits, no failure is recorded and no park request is
set (R61). -/
def Lane.wantsRead (l : Lane) : Bool :=
  let moves := match l.job with
    | .none => false
    | .service _ => true
    | .closing _ => false
    | .errand c => c.kind == some .copy
  l.state == .moving && moves && decide (l.readPoint < l.length) &&
    decide (l.buffer.length < Config.bufferSize) && l.tagRequest.isNone && l.failure.isNone &&
    !l.parkRequest

/-- Whether a lane still wants the tag it has asked for: no failure has been recorded and, in MOVING, no
park request set, since it asked (R61). -/
def Lane.wantsTag (l : Lane) : Bool := l.failure.isNone && !(l.state == .moving && l.parkRequest)

/-- The lane with its tag request waiting at the source port, where it wants one (R61). -/
def Lane.asking (l : Lane) : Lane :=
  if l.wantsRead then { l with tagRequest := some l.srcPort } else l

/-! ## Grants (R117, R118) -/

/-- A granted lane in MOVING issues the read of its next segment, and asks again if it still wants to
(R61). -/
def issueSegment (p : Domain) (k : LaneNo) (t : TagNo) (s : State) : State :=
  let l := s.lane k
  let n := l.readPoint / Config.segmentSize
  let len := segmentLength l.length n
  let l1 : Lane :=
    { l with
      tagRequest := none
      outstanding := l.outstanding ++ [⟨n, t⟩]
      buffer := l.buffer ++ [⟨n, none⟩]
      readPoint := l.readPoint + len }
  setLane k l1.asking
    (issueRead p t
      { requester := .lane k, role := .segment n,
        addr := l.srcAddr + BitVec.ofNat 64 (Config.segmentSize * n), length := len } s)

/-- A granted lane in CONFIRMING or PARKING issues its confirming read, of the last word written (R65,
R72). -/
def issueConfirm (p : Domain) (k : LaneNo) (t : TagNo) (s : State) : State :=
  let l := s.lane k
  setLane k { l with tagRequest := none, confirmTag := some t }
    (issueRead p t
      { requester := .lane k, role := .confirming,
        addr := l.dstAddr + BitVec.ofNat 64 l.written - 4, length := 4 } s)

/-- A granted lane that no longer wants the tag: it returns the tag to the port as FREE and issues no read
(R61). -/
def returnTag (k : LaneNo) (s : State) : State := setLane k { s.lane k with tagRequest := none } s

/-- A data grant: the lane becomes the last lane served (R118), and issues its read or returns the tag
(R61). -/
def grantLane (p : Domain) (k : LaneNo) (t : TagNo) (s : State) : State :=
  let s1 := setPort p { s.port p with lastServed := k } s
  if (s.lane k).wantsTag = false then returnTag k s1
  else if (s.lane k).state = .moving then issueSegment p k t s1 else issueConfirm p k t s1

/-- A control grant: the request leaves the list and its read is issued (R118). -/
def grantControl (r : ControlRequest) (rest : List ControlRequest) (t : TagNo) (s : State) : State :=
  issueRead .a t { requester := r.requester, role := .control, addr := r.addr, length := r.length }
    { s with controlQueue := rest }

/-- The lanes in the order the rotation looks at them: from the lane after the last one served (R118). -/
def rotation (last : LaneNo) : List LaneNo := [last + 1, last + 2, last + 3, last]

/-- The first lane in the rotation with a request waiting at a port (R118). -/
def nextLane (p : Domain) (s : State) : Option LaneNo :=
  (rotation (s.port p).lastServed).find? (fun k => (s.lane k).tagRequest == some p)

/-- Whether the port may grant a tag to a data read: below the limit of 20 on Port A (R116), and while
the link is UP on Port B (R130). -/
def dataAllowed (p : Domain) (s : State) : Bool :=
  match p with
  | .a => decide (dataHeld s.portA < Config.dataTagLimit)
  | .b => s.linkUp

/-- One grant of a port's arbiter, none where it stops (R118). -/
def arbitrateOnce (p : Domain) (s : State) : Option State :=
  match pickTag p s with
  | none => none
  | some (t, choice) =>
    match p, s.controlQueue with
    | .a, r :: rest => some (grantControl r rest t { s with choice })
    | _, _ =>
      match nextLane p s with
      | some k => if dataAllowed p s then some (grantLane p k t { s with choice }) else none
      | none => none

/-- The arbiter grants one tag at a time until it stops. -/
def arbitrateFuel (p : Domain) : Nat → State → State
  | 0, s => s
  | fuel + 1, s =>
    match arbitrateOnce p s with
    | some s1 => arbitrateFuel p fuel s1
    | none => s

/-- The arbiter of a port acts (R118): each grant takes one of the 24 tags, or ends the request of one of the
4 lanes that returns the tag (R61). -/
def arbitrate (p : Domain) (s : State) : State := arbitrateFuel p 28 s

/-! ## The withdrawal of a lane's request (R61) -/

/-- The lane that the next grant of a port goes to; none where the arbiter stops or grants to a control
requester (R118). -/
def servedLane (p : Domain) (s : State) : Option LaneNo :=
  if (pickTag p s).isSome = true ∧ (p = .a → s.controlQueue = []) ∧ dataAllowed p s = true then
    nextLane p s
  else none

/-- The port's grant may meet the withdrawal of a lane's waiting request, and either is taken first (R61,
R117): they meet where the port's next grant goes to that lane, and a digit of `choice` decides (logs 6, 19).
Where the grant is first the arbiter makes that grant, and the lane, which no longer wants the tag, returns it
as FREE; the arbiter acts on it at the end of the completion that freed it (log 9). -/
def meetGrant (k : LaneNo) (s : State) : State :=
  match (s.lane k).tagRequest with
  | none => s
  | some p =>
    if servedLane p s = some k then
      let s1 := { s with choice := s.choice / 2 }
      if s.choice % 2 = 1 then (arbitrateOnce p s1).getD s1 else s1
    else s

/-- A lane that a failure or a park request has reached withdraws its waiting request (R61): where the grant
was first it has none left. -/
def withdrawTag (k : LaneNo) (s : State) : State := returnTag k (meetGrant k s)

/-- A control requester asks Port A for a tag: it joins the back of the list and the arbiter acts (R117,
R118). -/
def requestControl (who : Requester) (addr : Addr) (length : Nat) (s : State) : State :=
  arbitrate .a
    { s with controlQueue := s.controlQueue ++ [{ requester := who, addr, length }] }

/-- Whether a control request of a requester waits at Port A. -/
def controlWaits (who : Requester) (s : State) : Bool :=
  s.controlQueue.any (fun r => r.requester == who)

/-- A requester withdraws its waiting control request (R147). -/
def withdrawControl (who : Requester) (s : State) : State :=
  { s with controlQueue := s.controlQueue.filter (fun r => r.requester != who) }

/-! ## Tag timers, quarantine and resets (R122, R129, R131, R133, R134) -/

/-- A BUSY tag goes to QUARANTINE with its kind kept (R122, R131). -/
def Tag.abandon (timer : Nat) : Tag → Tag
  | .free => .free
  | .busy r _ => .quarantine r.role.kind timer
  | .quarantine kind left => .quarantine kind left

/-- A port at entry to HALTED: every BUSY tag goes to QUARANTINE for one timeout period (R131). -/
def haltPort (x : Port) : Port := { x with tags := x.tags.map (Tag.abandon x.period) }

/-- Port A at a local reset: every tag FREE, every held request discarded (R133). -/
def localResetPortA : Port := Port.reset

/-- Port A at a soft reset: every tag FREE, the held requests kept (R134). -/
def softResetPortA (x : Port) : Port := { Port.reset with requests := x.requests }

/-- Port B at a local or soft reset: every BUSY tag in QUARANTINE for 25.5 ms, the held requests kept
(R133, R134). -/
def resetPortB (x : Port) : Port :=
  { tags := x.tags.map (Tag.abandon Config.longestPeriod), lastServed := 3,
    period := Config.longestPeriod, requests := x.requests }

/-- Port B at a link-down: every tag FREE and every held request discarded (R129). -/
def linkDownPort (x : Port) : Port := { x with tags := .replicate 24 .free, requests := [] }

/-- Whether no tag of a port is BUSY. -/
def noBusy (x : Port) : Bool := x.tagList.all (fun t => !t.isBusy)

end Sys2Proof.Machine
end

