-- ==== Sys2Proof/Machine/Lanes.lean ====
section
/-! DEFINITION. The copy lanes (chapter 3): the entry to STAMPING, failures, moving, parking and the
peer link. Nothing here hands out a lane. -/

namespace Sys2Proof.Machine

/-! ## The entry to STAMPING (R69) -/

/-- The writes that cancel one slot (R26). -/
def cancelItems (index : Nat) : List StampItem :=
  [.cancelOutcome index, .cancelMoved index, .cancelDue index, .cancelDone index]

/-- The indices of the slots a closing job cancels, in ring order (R26), each slot once where more are
outstanding than the ring holds (R27). -/
def cancelIndices (c : CadConfig) (e : CadEntry) : List Nat :=
  if outstandingCount e ≤ c.ringSize then
    (List.range (outstandingCount e)).map
      (fun j => (e.tally + BitVec.ofNat 32 j).toNat % c.ringSize)
  else
    (List.range c.ringSize).map (fun j => (e.tally.toNat % c.ringSize + j) % c.ringSize)

/-- The stamping writes of a closing job (R26, R27). -/
def closingItems (c : CadConfig) (e : CadEntry) : List StampItem :=
  (cancelIndices c e).flatMap cancelItems ++
    [.closeTally (decide (c.ringSize < outstandingCount e)), .closeEnd]

/-- The stamping writes of a service (R20, R22): the slot and TALLY where a slot is consumed, MISSES
where a miss was added, LATES where it was raised. -/
def serviceItems (consumes misses lates : Bool) : List StampItem :=
  (if consumes then [.slotOutcome, .slotMoved, .slotDue, .slotDone, .tally] else []) ++
    (if misses then [.misses] else []) ++ (if lates then [.lates] else [])

/-- The stamping writes of an errand, E_STATE last (R69). -/
def errandItems : List StampItem := [.cardOutcome, .cardMoved, .cardDone, .cardState]

/-- A lane's record at the entry to STAMPING. -/
def Lane.stamping (l : Lane) (tick : Nat) (outcome : Option Outcome) (left : List StampItem) : Lane :=
  { l with
    state := .stamping
    tagRequest := none
    stampTick := tick
    outcome := outcome
    stampLeft := left }

/-- A SERVICE job enters STAMPING: with an outcome where it consumes a slot, with none for a miss of
R22. A completed service is DONE or LATE (R18), and the Cadence Unit settles the grid (R24). -/
def stampService (k : LaneNo) (n : CadNo) (outcome : Option Outcome) (s : State) : State :=
  let e := s.cad n
  let late := outcome == some .done && isLate e (s.cfg n).deadline s.tick
  let missed := outcome.isNone || decide (0 < overrunCount e (s.cfg n).period s.tick)
  setLane k
    ((s.lane k).stamping s.tick (if late then some .late else outcome)
      (serviceItems outcome.isSome missed late))
    (settleService n outcome.isSome late s)

/-- A lane enters STAMPING (R69). -/
def enterStamping (k : LaneNo) (outcome : Option Outcome) (s : State) : State :=
  match (s.lane k).job with
  | .none => s
  | .service n => stampService k n outcome s
  | .closing n =>
    setLane k ((s.lane k).stamping s.tick none (closingItems (s.cfg n) (s.cad n))) s
  | .errand _ => setLane k ((s.lane k).stamping s.tick outcome errandItems) s

/-! ## Failures (R66, R67) -/

/-- Whether every read of a lane is settled. -/
def Lane.settled (l : Lane) : Bool := l.outstanding.isEmpty && l.confirmTag.isNone

/-- A lane with a failure recorded enters STAMPING once its last read is settled (R66). -/
def settleLane (k : LaneNo) (s : State) : State :=
  let l := s.lane k
  match l.failure with
  | none => s
  | some o => if l.settled then enterStamping k (some o) s else s

/-- A lane's record once a failure is recorded: the first failure stands, and the segments waiting in the
buffer are discarded (R66, R67). -/
def Lane.failed (l : Lane) (o : Outcome) : Lane :=
  { l with
    failure := some (l.failure.getD o)
    buffer := l.buffer.filter (fun b => b.bytes.isNone) }

/-- A lane records a failure and withdraws its waiting request (R66). -/
def failLane (k : LaneNo) (o : Outcome) (s : State) : State :=
  settleLane k (withdrawTag k (setLane k ((s.lane k).failed o) s))

/-! ## Asking for tags (R61, R65) -/

/-- A lane asks a port for a data tag (R117); while the link is DOWN Port B answers PEER_LOST at once
(R130). -/
def askTag (k : LaneNo) (p : Domain) (s : State) : State :=
  if p = .b ∧ s.linkUp = false then failLane k .peerLost s
  else arbitrate p (setLane k { s.lane k with tagRequest := some p } s)

/-- A lane in MOVING asks its source port, where it wants a tag (R61). -/
def askSource (k : LaneNo) (s : State) : State :=
  if (s.lane k).wantsRead then askTag k (s.lane k).srcPort s else s

/-! ## Writing segments (R62, R64) -/

/-- The write of the lowest unwritten segment, where the buffer holds it (R62). -/
def writeSegment (k : LaneNo) (s : State) : Option State :=
  let l := s.lane k
  let n := l.written / Config.segmentSize
  match l.buffer.find? (fun b => b.segment == n && b.bytes.isSome) with
  | some ⟨_, some bytes⟩ =>
    some
      (setLane k
        { l with
          written := l.written + segmentLength l.length n
          buffer := l.buffer.filter (fun b => b.segment != n) }
        (issueWrite l.dstPort
          { addr := l.dstAddr + BitVec.ofNat 64 (Config.segmentSize * n), bytes, lane := some k } s))
  | _ => none

/-- The writes of the lowest segments held, in order (R62): at most one for each buffer entry. -/
def writeSegments (k : LaneNo) : Nat → State → State
  | 0, s => s
  | fuel + 1, s =>
    match writeSegment k s with
    | some s1 => writeSegments k fuel s1
    | none => s

/-- A lane enters CONFIRMING and asks its destination port for the tag of the confirming read (R65). -/
def enterConfirming (k : LaneNo) (s : State) : State :=
  askTag k (s.lane k).dstPort (setLane k { s.lane k with state := .confirming } s)

/-! ## Parking (R71, R72) -/

/-- The errand queue with the entry RUNNING on lane `k` PARKED at its progress (R87). -/
def parkEntry (k : LaneNo) (progress : Nat) (errands : List Errand) : List Errand :=
  errands.map (fun e => if e.state = .running k then { e with state := .parked, progress } else e)

/-- A park completes (R72): the Errand Reader takes the progress, the lane gives back its windows and
becomes IDLE. The Dispatcher's event is the caller's: that the entry's return and the lane's becoming free
(R42) are taken as one, after the lane is IDLE, is the model's choice (log 35). -/
def parkComplete (k : LaneNo) (s : State) : State :=
  let l := s.lane k
  let s1 := releaseWindows l.held { s with errands := parkEntry k l.written s.errands }
  setLane k .idle s1

/-- A parking lane goes on once no read is outstanding: to its confirming read where it wrote anything
in this run, and otherwise at once to the end of the park (R72). -/
def parkProgress (k : LaneNo) (s : State) : State :=
  let l := s.lane k
  if l.outstanding.isEmpty then
    if l.startByte < l.written then askTag k l.dstPort s else parkComplete k s
  else s

/-- A park request reaches a lane (R71): it does nothing to a lane with no ERRAND job, and moves a lane
in MOVING with bytes left and no failure to PARKING, its waiting request withdrawn. -/
def parkRequestLane (k : LaneNo) (s : State) : State :=
  let l := s.lane k
  match l.job with
  | .none => s
  | .service _ => s
  | .closing _ => s
  | .errand _ =>
    let s1 := setLane k { l with parkRequest := true } s
    if l.state = .moving ∧ l.readPoint < l.length ∧ l.failure = none then
      let s2 := withdrawTag k s1
      parkProgress k (setLane k { s2.lane k with state := .parking } s2)
    else s1

/-- A park request to every lane that holds an errand job (R48, R71, R94, R158). No rule gives the order in
which the lanes take it, which shows in the grants of confirming reads (R117) and in the writes of draining
windows: the model takes lanes 0, 1, 2, 3 (log 31). -/
def parkRequestLanes (s : State) : State :=
  parkRequestLane 3 (parkRequestLane 2 (parkRequestLane 1 (parkRequestLane 0 s)))

/-! ## Data answers (R62, R65, R66, R72) -/

/-- What a requester is handed for a read (R121, R122). -/
inductive ReadAnswer
  | data (bytes : List Byte)
  | error
  | timeout
  deriving DecidableEq, Repr

/-- A lane goes on after its segments have been written: to CONFIRMING once every byte is written, to
the next read, or on with its park. -/
def moveOn (k : LaneNo) (s : State) : State :=
  let l := s.lane k
  if l.state = .parking then parkProgress k s
  else if l.written = l.length then enterConfirming k s
  else askSource k s

/-- The lane without the read of a tag. -/
def Lane.dropRead (l : Lane) (t : TagNo) : Lane :=
  { l with outstanding := l.outstanding.filter (fun r => r.tag != t) }

/-- The answer to a lane's read of segment `n` (R62, R66, R67). -/
def segmentAnswered (k : LaneNo) (n : Nat) (t : TagNo) (a : ReadAnswer) (s : State) : State :=
  let l := (s.lane k).dropRead t
  if l.failure.isSome then
    settleLane k
      (setLane k { l with buffer := l.buffer.filter (fun b => b.segment != n) } s)
  else
    match a with
    | .data bytes =>
      let buffer := l.buffer.map
        (fun b => if b.segment = n then { b with bytes := some bytes } else b)
      moveOn k (writeSegments k Config.bufferSize (setLane k { l with buffer } s))
    | .error =>
      failLane k .readError
        (setLane k { l with buffer := l.buffer.filter (fun b => b.segment != n) } s)
    | .timeout =>
      failLane k .readTimeout
        (setLane k { l with buffer := l.buffer.filter (fun b => b.segment != n) } s)

/-- The answer to a lane's confirming read (R65, R67, R72). -/
def confirmAnswered (k : LaneNo) (a : ReadAnswer) (s : State) : State :=
  let l : Lane := { s.lane k with confirmTag := none }
  let s1 := setLane k l s
  if l.failure.isSome then settleLane k s1
  else
    match a with
    | .data _ => if l.state = .parking then parkComplete k s1 else enterStamping k (some .done) s1
    | .error => failLane k .writeError s1
    | .timeout => failLane k .writeError s1

/-! ## FILL (R64) -/

/-- The bytes of a segment in which every word holds the pattern (R64). -/
def patternBytes (pattern : BitVec 32) : Nat → List Byte
  | 0 => []
  | words + 1 => leBytes 4 pattern.toNat ++ patternBytes pattern words

/-- The write of a FILL errand's next segment (R64), and the entry to CONFIRMING after the last. -/
def fillSegment (k : LaneNo) (pattern : BitVec 32) (s : State) : State :=
  let l := s.lane k
  let n := l.readPoint / Config.segmentSize
  let len := segmentLength l.length n
  let s1 := setLane k { l with readPoint := l.readPoint + len, written := l.written + len }
    (issueWrite l.dstPort
      { addr := l.dstAddr + BitVec.ofNat 64 (Config.segmentSize * n),
        bytes := patternBytes pattern (len / 4), lane := some k } s)
  if l.readPoint + len < l.length then s1 else enterConfirming k s1

/-! ## The peer link (R68, R129) -/

/-- Whether a lane's job uses a window in domain B (R68). -/
def Lane.touchesB (l : Lane) : Bool := l.srcPort == .b || l.dstPort == .b

/-- A lane's record once Port B has answered its reads and its waiting request PEER_LOST (R129). -/
def Lane.loseB (l : Lane) : Lane :=
  { l with
    outstanding := if l.srcPort = .b then [] else l.outstanding
    buffer := if l.srcPort = .b then l.buffer.filter (fun b => b.bytes.isSome) else l.buffer
    confirmTag := if l.dstPort = .b then none else l.confirmTag
    tagRequest := if l.tagRequest = some .b then none else l.tagRequest }

/-- A link-down reaches a lane (R68). -/
def linkDownLane (k : LaneNo) (s : State) : State :=
  let l := s.lane k
  match l.state with
  | .idle => s
  | .stamping => s
  | .loading => if l.touchesB then setLane k { l with peerMark := true } s else s
  | .moving => if l.touchesB then failLane k .peerLost (setLane k l.loseB s) else s
  | .confirming => if l.touchesB then failLane k .peerLost (setLane k l.loseB s) else s
  | .parking => if l.touchesB then failLane k .peerLost (setLane k l.loseB s) else s

/-- The link-down reaches every lane (R129). -/
def linkDownLanes (s : State) : State :=
  linkDownLane 3 (linkDownLane 2 (linkDownLane 1 (linkDownLane 0 s)))

end Sys2Proof.Machine
end

