-- ==== Sys2Proof/Machine/Errands.lean ====
section
/-! DEFINITION. The Errand Reader and the errand queue (chapter 4). -/

namespace Sys2Proof.Machine

/-! ## Following the chain (R78 to R80) -/

/-- Whether the Errand Reader may take the card at an address (R80). -/
def mayTake (s : State) (addr : Addr) : Bool :=
  s.bridge == .running && decide (s.errands.length < Config.errandQueueSize) &&
    s.errands.all (fun e => e.card.addr != addr)

/-- The Errand Reader follows a usable address: it takes the card at once, reading card bytes 0 to 31
(R81, R185), or holds the address (R80). -/
def followLink (addr : Addr) (s : State) : State :=
  if mayTake s addr then
    requestControl .reader addr 32 { s with reader := .takingRead addr }
  else { s with reader := .holding addr }

/-- A reader in HOLDING checks its conditions again (R80). -/
def recheckHolding (s : State) : State :=
  match s.reader with
  | .holding addr => if mayTake s addr then followLink addr s else s
  | _ => s

/-- The position a reader keeps when the link read at `source` leads nowhere: NO_CARD for
FIRST_CARD_ADDR, WATCHING for a card's link (R78, R84). -/
def restingPos : Option Addr → ReaderPos
  | none => .noCard
  | some addr => .watching addr

/-- The Errand Reader acts on a link read at `source` (R78, R79, R84): 0 leads nowhere yet, an unusable
address is reported and not followed, a usable one is followed. -/
def actOnLink (link : Addr) (source : Option Addr) (s : State) : State :=
  if link = 0 then { s with reader := restingPos source }
  else if usableLink link source then followLink link s
  else reportFault .errandError .errand s.takeCount.toNat { s with reader := restingPos source }

/-- The value of a sweep's chain read is handed to the Errand Reader, which discards it outside RUNNING
(R79). -/
def chainValue (link : Addr) (s : State) : State :=
  if s.bridge = .running then
    match s.reader with
    | .noCard => actOnLink link none s
    | .watching addr => actOnLink link (some addr) s
    | _ => s
  else s

/-! ## Takes (R81 to R84) -/

/-- The part-half writes of a take, in order (R81, R83). -/
def takeItems : List TakeItem := [.outcome, .moved, .doneTick, .eState]

/-- The host half of the card at `addr` has been read: the card is checked and receives its take number
(R81, R82). -/
def cardRead (addr : Addr) (bytes : List Byte) (s : State) : State :=
  let c := decodeCard addr s.takeCount bytes
  { s with
    takeCount := s.takeCount + 1
    reader := .takingWrite c (cardValid s c) takeItems }

/-- One part-half write of a take: OUTCOME 0, MOVED 0, DONE_TICK 0 and TAKEN for a valid card (R81),
BAD_CARD, MOVED 0, the tick and DONE for an invalid one (R83). -/
def takeWrite (c : Card) (valid : Bool) (item : TakeItem) (s : State) : State :=
  match item with
  | .outcome => areaWrite (c.addr + 36) 4 (if valid then 0 else Outcome.badCard.code) s
  | .moved => areaWrite (c.addr + 40) 4 0 s
  | .doneTick => areaWrite (c.addr + 44) 4 (if valid then 0 else s.tick) s
  | .eState => areaWrite (c.addr + 32) 4 (if valid then 1 else 2) s

/-- A valid card joins the back of the errand queue as WAITING (R81, R86). -/
def joinErrand (c : Card) (s : State) : State :=
  { s with errands := s.errands ++ [{ card := c, state := .waiting, progress := 0 }] }

/-- What follows the BAD_CARD stamp of an invalid card (R83). -/
def reportBadCard (c : Card) (s : State) : State :=
  let s1 := reportFault .errandError .errand c.takeNo.toNat s
  if c.notify then raise .errandNote s1 else s1

/-- After a take, the Errand Reader moves on to the card's link (R84). -/
def afterTake (c : Card) (s : State) : State :=
  if c.nextCard = 0 ∧ s.bridge = .running then
    requestControl .reader c.addr 8 { s with reader := .linking c.addr }
  else actOnLink c.nextCard (some c.addr) s

/-- The LINKING read has been answered (R84). -/
def linkRead (addr : Addr) (bytes : List Byte) (s : State) : State :=
  actOnLink (BitVec.ofNat 64 (fieldAt 0 8 bytes)) (some addr) s

/-! ## The errand queue (R86 to R89) -/

/-- Whether an entry may be started, its FENCE apart: WAITING or PARKED (R88). -/
def Errand.startable (e : Errand) : Bool := e.state == .waiting || e.state == .parked

/-- The first eligible entry in chain order (R88): the first entry of the queue is not fenced off by
anything, and a later one must carry no FENCE. -/
def firstEligible : List Errand → Option Errand
  | [] => none
  | e :: rest =>
    if e.startable then some e else rest.find? (fun x => x.startable && !x.card.fence)

/-- The errand queue with the entry of a card address RUNNING on lane `k` (R87). -/
def runEntry (k : LaneNo) (addr : Addr) (errands : List Errand) : List Errand :=
  errands.map (fun e => if e.card.addr = addr then { e with state := .running k } else e)

/-- The entry of a card leaves the queue, and a reader in HOLDING checks its conditions again (R89). The
reader's read is asked for before the Dispatcher acts on the job's end (log 33). -/
def departErrand (addr : Addr) (s : State) : State :=
  recheckHolding { s with errands := s.errands.filter (fun e => e.card.addr != addr) }

end Sys2Proof.Machine
end

