-- ==== Sys2Proof/Machine/Dispatcher.lean ====
section
/-! DEFINITION. The start of a job (R54 to R58), the Dispatcher's hand-out (R42 to R45), the errand
admission gate (R47 to R50), the end of a job (R70), and the calendar's release (R37). -/

namespace Sys2Proof.Machine

/-! ## The start of a job (R54) -/

/-- The address of a cadence's LENT word (R185). -/
def lentAddr (s : State) (n : CadNo) : Addr := recordAddr s (.cadence n) + 28

/-- A service whose dispatch check finds a window that is not OPEN or does not admit it (R15, R107): the
holding fault is reported and the job ends at once, with nothing taken or written to the ring. A command of the
cadence may come between the report and the end (R23, R25; log 37). -/
def loseWindow (k : LaneNo) (n : CadNo) (s : State) : State :=
  let s1 := takeBetween n (holdingFault .windowLost n s)
  setLane k .idle (placeAtJobEnd n s1.tick s1)

/-- A service that finds Port B DOWN is a PEER_DOWN miss (R15, R22). -/
def missPeerDown (k : LaneNo) (n : CadNo) (s : State) : State :=
  enterStamping k none (countMiss n s)

/-- A SERVICE job takes its windows and asks for the read of LENT (R15, R16, R55). -/
def takeService (k : LaneNo) (n : CadNo) (src dst : WinConfig) (s : State) : State :=
  let c := s.cfg n
  let held := [c.srcWindow, c.dstWindow]
  let l := s.lane k
  requestControl (.lane k) (lentAddr s n) 4
    (setLane k { l with held := held, srcPort := src.domain, dstPort := dst.domain }
      (holdWindows held s))

/-- A SERVICE job is handed to a lane, which makes the dispatch checks at once (R14, R15, R54, R107). -/
def startService (k : LaneNo) (n : CadNo) (s : State) : State :=
  let c := s.cfg n
  let s1 := setCad n { s.cad n with place := .lane k }
    (setLane k { Lane.idle with state := .loading, job := .service n, length := c.length } s)
  match admitted s c.srcWindow false, admitted s c.dstWindow true with
  | some src, some dst =>
    if peerBlocked s [src.domain, dst.domain] then missPeerDown k n s1
    else takeService k n src dst s1
  | _, _ => loseWindow k n s1

/-- A CLOSING job is handed to a lane, which asks for the read of LENT (R26, R54, R59). That its record has the
LENGTH of its cadence is read from R52 (log 38). -/
def startClosing (k : LaneNo) (n : CadNo) (s : State) : State :=
  requestControl (.lane k) (lentAddr s n) 4
    (setCad n { s.cad n with place := .lane k }
      (setLane k { Lane.idle with state := .loading, job := .closing n, length := (s.cfg n).length } s))

/-- The record of a lane that has been handed an errand: the run begins at the recorded progress
(R54, R87). -/
def errandLane (e : Errand) : Lane :=
  { Lane.idle with
    state := .moving
    job := .errand e.card
    length := e.card.length
    startByte := e.progress
    readPoint := e.progress
    written := e.progress }

/-- What an errand's start check and take finds (R56, R107): a window not OPEN or not admitting the
errand, Port B DOWN, or the windows to hold with their configurations. A FILL uses its destination
alone, which then stands for both roles in the lane's record. -/
inductive ErrandStart
  | windowClosed
  | peerLost
  | take (held : List WinNo) (src dst : WinConfig)
  deriving DecidableEq, Repr

/-- The errand start check (R56, R91, R107). -/
def errandStart (s : State) (c : Card) : ErrandStart :=
  if c.kind = some .fill then
    match admittedErrand s c.dstWindow true c.dstOffset c.length with
    | some (w, dst) =>
      if peerBlocked s [dst.domain] then .peerLost else .take [w] dst dst
    | none => .windowClosed
  else
    match admittedErrand s c.srcWindow false c.srcOffset c.length,
        admittedErrand s c.dstWindow true c.dstOffset c.length with
    | some (v, src), some (w, dst) =>
      if peerBlocked s [src.domain, dst.domain] then .peerLost else .take [v, w] src dst
    | _, _ => .windowClosed

/-- An ERRAND job is handed to a lane: its entry becomes RUNNING, and the lane makes the start checks at
once (R45, R54, R56). Of a FILL only the destination offset is translated (R64, R105): its source address stays
empty. -/
def startErrand (k : LaneNo) (e : Errand) (s : State) : State :=
  let l := errandLane e
  let s1 := setLane k l { s with errands := runEntry k e.card.addr s.errands }
  match errandStart s e.card with
  | .windowClosed => enterStamping k (some .windowClosed) s1
  | .peerLost => enterStamping k (some .peerLost) s1
  | .take held src dst =>
    askSource k
      (setLane k
        { l with
          held := held
          srcPort := src.domain
          dstPort := dst.domain
          srcAddr := if e.card.kind = some .fill then 0 else translate src e.card.srcOffset
          dstAddr := translate dst e.card.dstOffset } (holdWindows held s1))

/-! ## The hand-out (R43, R44) -/

/-- Whether a lane holds an errand job (R45). -/
def Lane.holdsErrand (l : Lane) : Bool :=
  match l.job with
  | .none => false
  | .service _ => false
  | .closing _ => false
  | .errand _ => true

/-- The count of lanes holding an errand job (R45). -/
def errandLaneCount (s : State) : Nat := s.lanes.toList.countP Lane.holdsErrand

/-- The head of the ready queue is handed to a lane (R43). -/
def startReady (k : LaneNo) (e : ReadyEntry) (s : State) : State :=
  match e with
  | .service n => startService k n s
  | .closing n => startClosing k n s

/-- The errand the Dispatcher may hand out: the gate is OPEN, fewer than ERRAND_LANES lanes hold errands,
and the entry is the first eligible one (R43, R46). -/
def errandToStart (s : State) : Option Errand :=
  if s.gate = .opened ∧ errandLaneCount s < s.hdr.errandLanes then firstEligible s.errands else none

/-- What R43 gives a lane: the head of the ready queue, or else an errand; none where the lane is not free,
nothing is given, or the bridge is not RUNNING (R42, R43). -/
def handOutLane (k : LaneNo) (s : State) : Option State :=
  if s.bridge = .running ∧ (s.lane k).state = .idle then
    match s.ready with
    | e :: rest => some (startReady k e { s with ready := rest })
    | [] => (errandToStart s).map (fun e => startErrand k e s)
  else none

/-- The Dispatcher tries a lane (R43). -/
def handOutTo (k : LaneNo) (s : State) : State := (handOutLane k s).getD s

/-- The hand-out of one event: each free lane is tried once, the lowest-numbered first (R44). A lane whose
job ends at once is free for the next event (R43). -/
def handOut (s : State) : State := handOutTo 3 (handOutTo 2 (handOutTo 1 (handOutTo 0 s)))

/-! ## The gate (R47 to R50) -/

/-- Whether the gate is evaluated: in RUNNING, and also in QUIESCING and STOPPED (R42). -/
def gateEvaluated (s : State) : Bool :=
  s.bridge == .running || s.bridge == .quiescing || s.bridge == .stopped

/-- The evaluation of the gate: none where it does not move (R47). Closing it sends the park requests
(R48). -/
def moveGate (s : State) : Option State :=
  if gateEvaluated s then
    match s.gate with
    | .opened =>
      if s.hdr.gateUpper ≤ s.ready.length then some (parkRequestLanes { s with gate := .closed })
      else none
    | .closed =>
      if s.ready.length ≤ s.hdr.gateLower then some { s with gate := .opened } else none
  else none

/-- The Dispatcher handles one event whole: it hands out free lanes, and then evaluates the gate (R42). -/
def handleEvent (s : State) : State :=
  let u := handOut s
  (moveGate u).getD u

/-- Whether an event would find the Dispatcher with nothing to hand out and the gate at rest. -/
def dispatcherRests (s : State) : Bool :=
  (List.finRange 4).all (fun k => (handOutLane k s).isNone) && (moveGate s).isNone

/-- The Dispatcher's work at an event and at the events its own work brings: a job that ends at once frees
its lane (R43), the gate opens (R49), a park ends at the gate's closing (R72). Each is handled whole before
the next (R42; logs 13, 35); one that would find nothing to do changes nothing. -/
def dispatchFuel : Nat → State → State
  | 0, s => s
  | fuel + 1, s => if dispatcherRests s then s else dispatchFuel fuel (handleEvent s)

/-- The Dispatcher acts on an event (R42). The fuel covers every event: a ready-queue entry is handed out
at most twice (as a service that loses its windows while DRAINING, and then as its closing entry), the
gate closes and opens at most once each, since the queue only shrinks here, and between those the errands
fill at most four lanes. -/
def dispatch (s : State) : State := dispatchFuel (10 * s.ready.length + 16) s

/-! ## The end of a job (R70) -/

/-- The owner's part of a job end: the Cadence Unit places the cadence (R25), the Errand Reader removes
the entry (R89). A closing job has placed its cadence already (R26). -/
def ownerEnd (l : Lane) (u : Nat) (s : State) : State :=
  match l.job with
  | .none => s
  | .service n => placeAtJobEnd n u s
  | .closing _ => s
  | .errand c => departErrand c.addr s

/-- The record of a lane whose job has given back its windows and its cadence (R57, R70): the Dispatcher
never finds a cadence both placed and in the lane. An errand is counted as held until the lane is IDLE
(R45, R70). -/
def Lane.leaving (l : Lane) : Lane :=
  { l with
    held := []
    job := match l.job with
      | .errand c => .errand c
      | _ => .none }

/-- A job ends (R70; log 8): the windows are given back, the owner is told and the Dispatcher acts on
what that brings, and then the lane becomes IDLE and the Dispatcher acts on the free lane. `u` is the
stamp tick, or the tick count for a job that has none (R25). -/
def jobEnd (k : LaneNo) (u : Nat) (s : State) : State :=
  let l := s.lane k
  let s1 := setLane k l.leaving (releaseWindows l.held s)
  dispatch (setLane k .idle (dispatch (ownerEnd l u s1)))

/-! ## Events at the Dispatcher -/

/-- A lane that has become IDLE is an event at the Dispatcher (R42). Where a park has ended (R72) it stands for
the return of the parked entry too, which is the model's choice (log 35). -/
def dispatchIfIdle (k : LaneNo) (s : State) : State :=
  if (s.lane k).state = .idle then dispatch s else s

/-- A ready queue that a command has changed is an event at the Dispatcher (R42): an entry has joined or
left. `before` is the state the command found. -/
def dispatchIfMoved (before s : State) : State := if s.ready = before.ready then s else dispatch s

/-- The calendar's release of the entries that are due, one at a time from the front, the Dispatcher
acting after each (R37). -/
def releaseDueFuel : Nat → State → State
  | 0, s => s
  | fuel + 1, s =>
    match s.calendar with
    | [] => s
    | n :: _ =>
      if (s.cad n).nextDue ≤ s.tick then releaseDueFuel fuel (dispatch (releaseEntry n s)) else s

/-- The calendar at a tick expiry in RUNNING (R37). -/
def releaseDue (s : State) : State := releaseDueFuel s.calendar.length s

end Sys2Proof.Machine
end

