-- ==== Sys2Proof/Machine/Bridge.lean ====
section
/-! DEFINITION. The changes of the bridge state (chapter 8): HALTED (R161), the completion of QUIESCING
(R159), the return to OFF (R155, R157), and the resets (R163, R164). -/

namespace Sys2Proof.Machine

/-! ## HALTED (R161) -/

/-- A cadence in a lane takes place NONE at entry to HALTED (R29). -/
def CadEntry.dropLane (e : CadEntry) : CadEntry :=
  { e with place := if e.place.isLane then .none else e.place }

/-- Every lane drops its job without writing and gives back its windows (R73, R111). -/
def dropLanes (s : State) : State :=
  let s1 :=
    quietReleases (s.lane 3).held (quietReleases (s.lane 2).held
      (quietReleases (s.lane 1).held (quietReleases (s.lane 0).held s)))
  { s1 with lanes := .replicate 4 .idle, cadences := s1.cadences.map CadEntry.dropLane }

/-- The entry to HALTED (R161): lanes (R73), ports (R131), scanner (R148, R151), Tick Unit (R30),
Cadence Unit (R29) and Window Unit (R111) act as one event, and the STATE cause is raised (R167). The
chain position and the errand queue stay as they are (R96). -/
def enterHalted (s : State) : State :=
  let s1 := dropLanes s
  raise .state
    { s1 with
      bridge := .halted
      portA := haltPort s1.portA
      portB := haltPort s1.portB
      controlQueue := []
      scanner := .idle
      sweepPending := false
      loadingStop := false
      tickTimerOn := false }

/-- A fatal fault: the report, and then its class effect (R170). -/
def fatalFault (code : FaultCode) (kind : ObjectKind) (s : State) : State :=
  enterHalted (reportFault code kind 0 s)

/-- A control read has failed or timed out (R125). -/
def areaReadFailed (s : State) : State := fatalFault .areaReadFailed .port s

/-! ## QUIESCING to STOPPED (R159) -/

/-- Whether the Errand Reader is in TAKING or LINKING (R77). -/
def ReaderPos.busy : ReaderPos → Bool
  | .noCard => false
  | .takingRead _ => true
  | .takingWrite _ _ _ => true
  | .linking _ => true
  | .watching _ => false
  | .holding _ => false

/-- Whether every condition of R159 holds. -/
def quiesced (s : State) : Bool :=
  s.lanes.toList.all (fun l => l.state == .idle) && noBusy s.portA && noBusy s.portB &&
    s.controlQueue.isEmpty && s.scanner == .idle && !s.reader.busy &&
    heldWrites s.portA == 0

/-- The bridge checks the conditions of R159, and enters STOPPED the first time they all hold (R159,
R167). -/
def checkStopped (s : State) : State :=
  if s.bridge = .quiescing ∧ quiesced s = true then raise .state { s with bridge := .stopped } else s

/-! ## The return of LOADING to OFF (R155, R157) -/

/-- LOADING returns to OFF: the header values and the acknowledged numbers are discarded, the tick timer
is stopped and the count set to 0, and both ports go back to the longest period (R30, R120, R136,
R151); STATE is raised (R167). -/
def returnToOff (s : State) : State :=
  raise .state
    { s with
      bridge := .off
      settings := none
      tick := 0
      tickTimerOn := false
      scanner := .idle
      loadingStop := false
      ackWindows := .replicate 16 none
      ackCadences := .replicate 64 none
      portA := { s.portA with period := Config.longestPeriod }
      portB := { s.portB with period := Config.longestPeriod } }

/-- An invalid header or AREA_BASE: the start-up fault LAYOUT_INVALID, and the return to OFF (R136,
R157). -/
def layoutInvalid (s : State) : State := returnToOff (reportFault .layoutInvalid .bridge 0 s)

/-! ## Resets (R163, R164) -/

/-- A power-on reset: every piece of state takes its reset value (R163). The queue of commands and the
model's own two fields are no part of the part. -/
def powerOn (s : State) : State :=
  { State.reset with pending := s.pending, choice := s.choice, freeCount := s.freeCount }

/-- What a local and a soft reset share: everything is as after a power-on reset (R28, R51, R74, R96,
R112, R143, R168, R175) but for the link state, the pins, Port B (R133, R134), and the ports' and
registers' part that the two resets treat each in its own way. -/
def commonReset (portA : Port) (areaBase : BitVec 64) (enables : BitVec 5) (s : State) : State :=
  { State.reset with
    areaBase := areaBase
    enables := enables
    portA := portA
    portB := resetPortB s.portB
    linkUp := s.linkUp
    resetInput := s.resetInput
    portALinkUp := s.portALinkUp
    choice := s.choice
    freeCount := s.freeCount
    pending := s.pending }

/-- A local reset: AREA_BASE and the enables are cleared, and Port A is emptied (R133, R164). -/
def localReset (s : State) : State := commonReset localResetPortA 0 0 s

/-- A soft reset: AREA_BASE and the enables are kept, and Port A's held writes are still delivered (R134,
R156, R164). -/
def softReset (s : State) : State := commonReset (softResetPortA s.portA) s.areaBase s.enables s

end Sys2Proof.Machine
end

