-- ==== Sys2Proof/Machine/Scanning.lean ====
section
/-! DEFINITION. The Command Scanner (chapter 7): sweeps (R144 to R147), the delivery of commands (R140,
R141), and LOADING (R149 to R151). -/

namespace Sys2Proof.Machine

/-! ## The records in reading order (R145, R149) -/

/-- The first record read: window 0, or cadence 0 where there is no window, or none. -/
def firstRecord (h : Settings) : Option Record :=
  if 0 < h.windowCount then some (.window 0)
  else if 0 < h.cadenceCount then some (.cadence 0)
  else none

/-- The record read after a record. -/
def nextRecord (h : Settings) : Record → Option Record
  | .window n =>
    if n.val + 1 < h.windowCount ∧ n.val + 1 < 16 then some (.window (n + 1))
    else if 0 < h.cadenceCount then some (.cadence 0)
    else none
  | .cadence n =>
    if n.val + 1 < h.cadenceCount ∧ n.val + 1 < 64 then some (.cadence (n + 1)) else none

/-! ## Sweeps (R145, R146) -/

/-- The scanner asks for the read of a record's command word in a sweep. -/
def sweepRecord (r : Record) (s : State) : State :=
  requestControl .scanner (commandWordAddr s r) 4 { s with scanner := .sweepWord r }

/-- The address of the chain's link as the Errand Reader names it, if it names one (R79): FIRST_CARD_ADDR
of the header, or the watch card's NEXT_CARD. -/
def chainAddr (s : State) : Option Addr :=
  match s.reader with
  | .noCard => some (s.areaBase + 24)
  | .watching addr => some addr
  | _ => none

/-- A sweep starts (R145); one with nothing to read ends as soon as it starts. -/
def startSweep (s : State) : State :=
  match firstRecord s.hdr with
  | some r => sweepRecord r s
  | none =>
    match chainAddr s with
    | some addr => requestControl .scanner addr 8 { s with scanner := .chain }
    | none => { s with scanner := .idle }

/-- A sweep ends (R146, R147): in RUNNING with the pending flag set a new one starts at once. -/
def endSweep (s : State) : State :=
  let s1 := { s with scanner := .idle, sweepPending := false }
  if s.bridge = .running ∧ s.sweepPending = true then startSweep s1 else s1

/-- A sweep goes on after its last record to the chain's link, or ends (R145). -/
def sweepChain (s : State) : State :=
  match chainAddr s with
  | some addr => requestControl .scanner addr 8 { s with scanner := .chain }
  | none => endSweep s

/-- A sweep goes on to its next read after a record (R145), or ends where the bridge has left RUNNING
(R147). -/
def sweepAfter (r : Record) (s : State) : State :=
  if s.bridge = .running then
    match nextRecord s.hdr r with
    | some r1 => sweepRecord r1 s
    | none => sweepChain s
  else endSweep s

/-- A sweep request (R144). -/
def requestSweep (s : State) : State :=
  if s.bridge = .running then
    if s.scanner = .idle then startSweep s else { s with sweepPending := true }
  else s

/-! ## The delivery of a command (R140, R141) -/

/-- A sweep's command word has been answered (R140, R141, R147): outside RUNNING nothing is delivered;
a CMD_SEQ equal to the acknowledged number is no new command; an OPEN or ARM takes a further read; any
other command is handed to its owner. -/
def sweepWordRead (r : Record) (word : List Byte) (s : State) : State :=
  if s.bridge ≠ .running then endSweep s
  else if s.ack r = some (cmdSeqOf word) then sweepAfter r s
  else if needsFurtherRead r (cmdOf word) then
    let length := match r with
      | .window _ => 20
      | .cadence _ => 32
    requestControl .scanner (recordAddr s r) length
      { s with scanner := .sweepFurther r (cmdSeqOf word) (cmdNotifyOf word) }
  else
    { s with
      scanner := .delivered
        { record := r, seq := cmdSeqOf word, notify := cmdNotifyOf word,
          command := plainCommand r (cmdOf word) } }

/-- The further read of an OPEN or ARM has been answered (R141, R147). -/
def sweepFurtherRead (r : Record) (seq : Byte) (notify : Bool) (bytes : List Byte) (s : State) :
    State :=
  if s.bridge ≠ .running then endSweep s
  else
    { s with
      scanner := .delivered { record := r, seq, notify, command := furtherCommand r bytes } }

/-- The owner of a delivered command takes it as one event and decides it (R7, R100, R141). -/
def takeCommand (d : Delivery) (s : State) : State :=
  match d.record with
  | .window n =>
    match d.command with
    | .openWindow f => takeOpen n f d s
    | .closeWindow => takeClose n d s
    | _ => takeUnknownWindow n d s
  | .cadence n => takeCadenceCommand n d s

/-- The owner of a delivered command takes it, unless the Cadence Unit has taken it already between a holding
fault and the job's end (R23; log 37). -/
def ifUndecided (d : Delivery) (take : State → State) (s : State) : State :=
  if undecided d s then take s else s

/-- The sweep's chain read has been answered (R79, R145, R146). -/
def chainRead (bytes : List Byte) (s : State) : State :=
  endSweep (chainValue (BitVec.ofNat 64 (fieldAt 0 8 bytes)) s)

/-! ## LOADING (R149, R150) -/

/-- The scanner asks for the read of a record's command word in LOADING. -/
def loadRecord (r : Record) (s : State) : State :=
  requestControl .scanner (commandWordAddr s r) 4 { s with scanner := .loadWord r }

/-- LOADING is complete (R150, R157): RUNNING is entered and STATE raised, the sweep timer is set to 0,
the gate is set OPEN, the Dispatcher acts, and the first sweep starts; the Dispatcher's hand-outs ask
Port A before the sweep does (log 33). -/
def completeLoading (s : State) : State :=
  startSweep
    (dispatch
      (raise .state
        { s with bridge := .running, sweepTimer := 0, gate := .opened, scanner := .idle,
                 sweepPending := false }))

/-- The writes of the initial part halves begin, or LOADING is complete where there is no record. -/
def beginLoadWrites (s : State) : State :=
  match firstRecord s.hdr with
  | some r => { s with scanner := .loadWrite r 0 }
  | none => completeLoading s

/-- The header is found valid: the blocks take its values as one event (R136), the tick timer starts
(R30) and both ports take the period (R120). -/
def takeHeader (h : Settings) (s : State) : State :=
  { s with
    settings := some h
    tickTimerOn := true
    portA := { s.portA with period := h.period }
    portB := { s.portB with period := h.period } }

/-- The header read has been answered (R136, R149, R151). -/
def headerRead (bytes : List Byte) (s : State) : State :=
  if s.loadingStop then returnToOff s
  else
    match decodeHeader bytes with
    | none => layoutInvalid s
    | some h =>
      let s1 := takeHeader h s
      match firstRecord h with
      | some r => loadRecord r s1
      | none => completeLoading s1

/-- A command word of LOADING has been answered: its CMD_SEQ becomes the record's acknowledged number
(R140, R149). -/
def loadWordRead (r : Record) (word : List Byte) (s : State) : State :=
  if s.loadingStop then returnToOff s
  else
    let s1 := setAck r (cmdSeqOf word) s
    match nextRecord s1.hdr r with
    | some r1 => loadRecord r1 s1
    | none => beginLoadWrites s1

/-- LOADING begins (R149): the check of AREA_BASE before the read, then the read of header bytes 0 to
63. -/
def beginLoading (s : State) : State :=
  let s1 := { s with bridge := .loading }
  if s.areaBase.toNat % 64 = 0 then
    requestControl .scanner s.areaBase 64 { s1 with scanner := .header }
  else layoutInvalid s1

/-- The fields LOADING writes in a record's part half, in order: offset, size and value (R150). -/
def initialFields (s : State) : Record → List (Nat × Nat × Nat)
  | .window n =>
    [(24, 1, WinState.closed.code), (25, 1, 0), (26, 1, ((s.ack (.window n)).getD 0).toNat)]
  | .cadence n =>
    [(40, 1, CadState.idle.code), (41, 1, 0), (42, 1, ((s.ack (.cadence n)).getD 0).toNat),
      (44, 4, 0), (48, 4, 0), (52, 4, 0)]

/-- One write of LOADING (R150): field `i` of a record; after the record's last field the next record,
and after the last record LOADING is complete. -/
def loadField (r : Record) (i : Nat) (s : State) : State :=
  match (initialFields s r)[i]? with
  | none => s
  | some (offset, size, value) =>
    let s1 := recordWrite r offset size value s
    if i + 1 < (initialFields s r).length then { s1 with scanner := .loadWrite r (i + 1) }
    else
      match nextRecord s.hdr r with
      | some r1 => { s1 with scanner := .loadWrite r1 0 }
      | none => completeLoading s1

/-! ## STOP (R147, R151) -/

/-- A STOP taken in RUNNING that finds a command handed over: the owner still decides it, if it has not, and the
Dispatcher acts on what that changes, before the STOP (R42, R147). -/
def settleDelivery (s : State) : State :=
  match s.scanner with
  | .delivered d => dispatchIfMoved s (ifUndecided d (takeCommand d) s)
  | _ => s

/-- The scanner at a STOP taken in RUNNING (R147): a waiting request is withdrawn and the sweep ends, a
read in flight is waited for, and otherwise the sweep ends at once. The bridge has left RUNNING. -/
def stopSweep (s : State) : State :=
  match s.scanner with
  | .delivered _ => endSweep s
  | .sweepWord _ => if controlWaits .scanner s then endSweep (withdrawControl .scanner s) else s
  | .sweepFurther _ _ _ =>
    if controlWaits .scanner s then endSweep (withdrawControl .scanner s) else s
  | .chain => if controlWaits .scanner s then endSweep (withdrawControl .scanner s) else s
  | .idle => s
  | .header => s
  | .loadWord _ => s
  | .loadWrite _ _ => s

/-- A STOP taken in LOADING (R151, R155): with a read in flight the return to OFF waits for its answer,
and otherwise it happens at once. -/
def stopLoading (s : State) : State :=
  match s.scanner with
  | .header =>
    if controlWaits .scanner s then returnToOff (withdrawControl .scanner s)
    else { s with loadingStop := true }
  | .loadWord _ =>
    if controlWaits .scanner s then returnToOff (withdrawControl .scanner s)
    else { s with loadingStop := true }
  | _ => returnToOff s

end Sys2Proof.Machine
end

