-- ==== Sys2Proof/Machine/Commands.lean ====
section
/-! DEFINITION. The delivered commands: ARM, PAUSE, RESUME, RETIRE, OPEN, CLOSE and UNKNOWN_COMMAND. The
scanner holds the command that has been handed to its owner (R141; log 1); the owner takes it here, and the
scanner then goes on to its next read. A cadence command that the Cadence Unit has taken already, between a
holding fault and the end of the job (R23; log 37), is not taken again. -/

namespace Sys2Proof.Machine

/-- ARM (R7 to R10). -/
def execArm (n : CadNo) (s : State) : Host.Outcome State Fault Refusal :=
  match s.scanner with
  | .delivered d =>
    match d.record, d.command with
    | .cadence m, .arm f =>
      if m = n then .next (sweepAfter d.record (ifUndecided d (takeArm n f d) s)) else .next s
    | _, _ => .next s
  | _ => .next s

/-- PAUSE (R7, R11): the departure from the ready queue is an event at the Dispatcher (R42). No rule says
whether a hand-out it brings or the scanner's next read asks Port A first (R141): the model lets the
Dispatcher act first (log 33). -/
def execPause (n : CadNo) (s : State) : Host.Outcome State Fault Refusal :=
  match s.scanner with
  | .delivered d =>
    if d.record = .cadence n ∧ d.command = .pause then
      .next (sweepAfter d.record (dispatchIfMoved s (ifUndecided d (takePause n d) s)))
    else .next s
  | _ => .next s

/-- RESUME (R7, R12). -/
def execResume (n : CadNo) (s : State) : Host.Outcome State Fault Refusal :=
  match s.scanner with
  | .delivered d =>
    if d.record = .cadence n ∧ d.command = .resume then
      .next (sweepAfter d.record (ifUndecided d (takeResume n d) s))
    else .next s
  | _ => .next s

/-- RETIRE (R7, R13): the closing entry's join is an event at the Dispatcher (R42), which acts before the
scanner's next read is asked for (log 33). -/
def execRetire (n : CadNo) (s : State) : Host.Outcome State Fault Refusal :=
  match s.scanner with
  | .delivered d =>
    if d.record = .cadence n ∧ d.command = .retire then
      .next (sweepAfter d.record (dispatchIfMoved s (ifUndecided d (takeRetire n d) s)))
    else .next s
  | _ => .next s

/-- OPEN (R100, R101). -/
def execOpen (n : WinNo) (s : State) : Host.Outcome State Fault Refusal :=
  match s.scanner with
  | .delivered d =>
    match d.record, d.command with
    | .window m, .openWindow f =>
      if m = n then .next (sweepAfter d.record (ifUndecided d (takeOpen n f d) s)) else .next s
    | _, _ => .next s
  | _ => .next s

/-- CLOSE (R100, R102). -/
def execClose (n : WinNo) (s : State) : Host.Outcome State Fault Refusal :=
  match s.scanner with
  | .delivered d =>
    if d.record = .window n ∧ d.command = .closeWindow then
      .next (sweepAfter d.record (ifUndecided d (takeClose n d) s))
    else .next s
  | _ => .next s

/-- UNKNOWN_COMMAND (R7, R100). -/
def execUnknownCommand (r : Record) (s : State) : Host.Outcome State Fault Refusal :=
  match s.scanner with
  | .delivered d =>
    if d.record = r ∧ d.command = .unknown then
      .next (sweepAfter d.record (ifUndecided d (takeCommand d) s))
    else .next s
  | _ => .next s

end Sys2Proof.Machine
end

