-- ==== Sys2Proof/Machine/PortEvents.lean ====
section
/-! DEFINITION. The ports' events: READ_COMPLETION, READ_TIMEOUT, LATE_ANSWER, QUARANTINE_EXPIRY,
STRAY_COMPLETION and POSTED_WRITE_SENT, with what each requester does with its answer. -/

namespace Sys2Proof.Machine

/-! ## Control answers (R16, R17, R26) -/

/-- The LENT read of a service has been answered (R16): Last LENT is replaced, and the outstanding count
decides. A command of the cadence may come between the report of LEND_OVERRUN and the job's end (R23, R25; log
37). -/
def lentRead (k : LaneNo) (n : CadNo) (lent : Count) (s : State) : State :=
  let s1 := setCad n { s.cad n with lastLent := lent } s
  let c := s1.cfg n
  let e := s1.cad n
  if outstandingCount e = 0 then enterStamping k none (countMiss n s1)
  else if c.ringSize < outstandingCount e then
    jobEnd k s1.tick (takeBetween n (holdingFault .lendOverrun n s1))
  else
    let addr := slotAddrOf c (e.tally.toNat % c.ringSize)
    requestControl (.lane k) addr 8
      (setLane k { s1.lane k with loadStep := .slot, slotAddr := addr } s1)

/-- The slot read of a service has been answered (R17, R19, R68): a bad slot, a link lost on the way, or
the start of the move. The offsets are checked against the windows the job holds (R106). -/
def slotRead (k : LaneNo) (n : CadNo) (bytes : List Byte) (s : State) : State :=
  let c := s.cfg n
  let srcOffset := fieldAt 0 4 bytes
  let dstOffset := fieldAt 4 4 bytes
  match (s.win c.srcWindow).config, (s.win c.dstWindow).config with
  | some src, some dst =>
    if inBounds src srcOffset c.length && inBounds dst dstOffset c.length then
      if (s.lane k).peerMark then enterStamping k (some .peerLost) s
      else
        askSource k
          (setLane k
            { s.lane k with
              state := .moving
              srcAddr := translate src srcOffset
              dstAddr := translate dst dstOffset } s)
    else enterStamping k (some .badSlot) s
  | _, _ => enterStamping k (some .badSlot) s

/-- A control read of a lane in LOADING has been answered (R58, R59). -/
def laneControlRead (k : LaneNo) (bytes : List Byte) (s : State) : State :=
  let lent := BitVec.ofNat 32 (fieldAt 0 4 bytes)
  match (s.lane k).job with
  | .service n =>
    match (s.lane k).loadStep with
    | .lent => lentRead k n lent s
    | .slot => slotRead k n bytes s
  | .closing n => enterStamping k none (setCad n { s.cad n with lastLent := lent } s)
  | .none => s
  | .errand _ => s

/-- A control read of the Errand Reader has been answered (R81, R84). -/
def readerControlRead (bytes : List Byte) (s : State) : State :=
  match s.reader with
  | .takingRead addr => cardRead addr bytes s
  | .linking addr => linkRead addr bytes s
  | _ => s

/-- A control read of the Command Scanner has been answered (R141, R145, R149). -/
def scannerControlRead (bytes : List Byte) (s : State) : State :=
  match s.scanner with
  | .header => headerRead bytes s
  | .loadWord r => loadWordRead r bytes s
  | .sweepWord r => sweepWordRead r bytes s
  | .sweepFurther r seq notify => sweepFurtherRead r seq notify bytes s
  | .chain => chainRead bytes s
  | .idle => s
  | .loadWrite _ _ => s
  | .delivered _ => s

/-- A control read has been answered with data. -/
def controlRead (who : Requester) (bytes : List Byte) (s : State) : State :=
  match who with
  | .lane k => laneControlRead k bytes s
  | .reader => readerControlRead bytes s
  | .scanner => scannerControlRead bytes s

/-! ## Answers -/

/-- The requester of a read is handed its answer (R121, R122, R125). A lane that a completed park leaves
IDLE is an event at the Dispatcher (R72). -/
def readAnswered (t : TagNo) (r : ReadInfo) (a : ReadAnswer) (s : State) : State :=
  match r.role with
  | .control =>
    match a with
    | .data bytes => controlRead r.requester bytes s
    | .error => areaReadFailed s
    | .timeout => areaReadFailed s
  | .segment n =>
    match r.requester with
    | .lane k => dispatchIfIdle k (segmentAnswered k n t a s)
    | .reader => s
    | .scanner => s
  | .confirming =>
    match r.requester with
    | .lane k => dispatchIfIdle k (confirmAnswered k a s)
    | .reader => s
    | .scanner => s

/-- The object number of a port in a fault: 0 for Port A, 1 for Port B (R124). -/
def portNumber : Domain → Nat
  | .a => 0
  | .b => 1

/-- What the requester of a read of `length` bytes is handed for a completion (R121; log 7). -/
def handedAnswer (draw length : Nat) : Answer → ReadAnswer
  | .data bytes => .data (fitAnswer draw length bytes)
  | .error => .error

/-- How many free values a completion draws: one where its answer is shorter than the read (log 7). -/
def drawsFree (length : Nat) : Answer → Nat
  | .data bytes => if bytes.length < length then 1 else 0
  | .error => 0

/-- A completion for a BUSY tag (R121; log 9): the tag becomes FREE, the requester is handed the answer,
and the arbiter acts on the tag. -/
def answerBusy (p : Domain) (t : TagNo) (r : ReadInfo) (answer : Answer) (s : State) : State :=
  let a := handedAnswer s.freeCount r.length answer
  let s1 := { setTag p t .free s with freeCount := s.freeCount + drawsFree r.length answer }
  checkStopped (arbitrate p (readAnswered t r a s1))

/-- The port frees a tag that was in QUARANTINE, and the arbiter acts on it (R123). -/
def freeQuarantined (p : Domain) (t : TagNo) (s : State) : State :=
  arbitrate p (setTag p t .free s)

/-- A completion from a domain, taken by the state of the tag it names: BUSY (R121), QUARANTINE (R123) or
FREE (R124). The port cannot tell the three kinds of completion apart in any other way (log 4). -/
def takeCompletion (p : Domain) (t : TagNo) (answer : Answer) (s : State) : State :=
  match s.tag p t with
  | .busy r _ => answerBusy p t r answer s
  | .quarantine _ _ => freeQuarantined p t s
  | .free => reportFault .strayCompletion .port (portNumber p) s

/-- READ_COMPLETION (R121). -/
def execReadCompletion (p : Domain) (t : TagNo) (answer : Answer) (s : State) :
    Host.Outcome State Fault Refusal :=
  .next (takeCompletion p t answer s)

/-- LATE_ANSWER (R123). -/
def execLateAnswer (p : Domain) (t : TagNo) (answer : Answer) (s : State) :
    Host.Outcome State Fault Refusal :=
  .next (takeCompletion p t answer s)

/-- STRAY_COMPLETION (R124, R130). -/
def execStrayCompletion (p : Domain) (t : TagNo) (answer : Answer) (s : State) :
    Host.Outcome State Fault Refusal :=
  .next (takeCompletion p t answer s)

/-- READ_TIMEOUT (R122): the tag goes to QUARANTINE for one timeout period with its kind kept, and the
read is answered as timed out. -/
def execReadTimeout (p : Domain) (t : TagNo) (s : State) : Host.Outcome State Fault Refusal :=
  match s.tag p t with
  | .busy r _ =>
    .next (checkStopped
      (readAnswered t r .timeout (setTag p t (.quarantine r.role.kind (s.port p).period) s)))
  | .quarantine _ _ => .next s
  | .free => .next s

/-- QUARANTINE_EXPIRY (R123). -/
def execQuarantineExpiry (p : Domain) (t : TagNo) (s : State) : Host.Outcome State Fault Refusal :=
  match s.tag p t with
  | .quarantine _ _ => .next (freeQuarantined p t s)
  | .busy _ _ => .next s
  | .free => .next s

/-! ## Posted writes (R126, R127) -/

/-- Whether a request is a posted write that a port may send next for a source: any on Port A, one of its
lane on Port B. -/
def Request.sendable (lane : Option LaneNo) : Request → Bool
  | .write w => lane.isNone || w.lane == lane
  | .read _ _ _ _ => false

/-- The requests of a port once its oldest sendable write has been sent, with the reads that waited
behind it; none where there is no such write. -/
def sendOldest (p : Domain) (lane : Option LaneNo) (requests : List Request) :
    Option (List Request) :=
  if requests.any (Request.sendable lane) then
    some (sendReads p [] (requests.eraseP (Request.sendable lane)))
  else none

/-- Port A sends its oldest held write (R126): the raisings that waited for it set their causes (R174),
and the conditions of STOPPED are checked (R159). -/
def sendPortA (s : State) : State :=
  match sendOldest .a none s.portA.requests with
  | some requests =>
    checkStopped (settleRaisings { s with portA := { s.portA with requests := requests } })
  | none => s

/-- Port B sends the oldest write it holds of a lane, while the link is UP (R127). -/
def sendPortB (lane : LaneNo) (s : State) : State :=
  match sendOldest .b (some lane) s.portB.requests with
  | some requests =>
    if s.linkUp then { s with portB := { s.portB with requests := requests } } else s
  | none => s

/-- POSTED_WRITE_SENT (R126, R127). -/
def execPostedWriteSent (source : SendFrom) (s : State) : Host.Outcome State Fault Refusal :=
  match source with
  | .portA => .next (sendPortA s)
  | .portB lane => .next (sendPortB lane s)

end Sys2Proof.Machine
end

