-- ==== Sys2Proof/WellFormed.lean ====
section
/-! DEFINITION. When a command's operands spell its row: the command field of a CONTROL write (R188),
an access that reaches no writable register (R192), and the length of an answer (R119). -/

namespace Sys2Proof

/-- The command field of a CONTROL word, bits 0 to 2 (R188). -/
def controlCommand (value : BitVec 32) : Nat := value.toNat % 8

/-- Whether a write of `size` bytes at `offset` is an access Port A takes as one to a register: 4 or
8 bytes at a multiple of its size, inside the 64-byte window (R187, R192). R192 tests the address; that
the window stands at a multiple of 8, so that the offset may be tested for it, is the model's choice (log
34). -/
def registerAccess (offset size : Nat) : Bool :=
  (size == 4 || size == 8) && offset % size == 0 && decide (offset + size ≤ 64)

/-- Whether a host write inside the register window is discarded whole (R192): it is no register
access, or it lies at an offset with no register (20h and up), or it is the 4-byte write of STATUS
(0Ch). -/
def writeDiscarded (offset size : Nat) : Bool :=
  decide (0 < size) && decide (offset + size ≤ 64) &&
    (!registerAccess offset size || decide (32 ≤ offset) || (offset == 12 && size == 4))

/-- Whether an answer is no longer than a read can ask for: a segment of up to 256 bytes (R119). -/
def Answer.fits : Answer → Bool
  | .data bytes => decide (bytes.length ≤ 256)
  | .error => true

/-- The well-formed commands. -/
def Instr.wellFormed : Instr → Bool
  | .start v => controlCommand v == 1
  | .stop v => controlCommand v == 2
  | .reset v => controlCommand v == 3
  | .setEnables v => controlCommand v == 0 || decide (4 ≤ controlCommand v)
  | .nudge _ => true
  | .raisedClear _ => true
  | .faultClear _ => true
  | .areaBaseWrite _ => true
  | .registerWriteDiscarded offset size _ => writeDiscarded offset size
  | .powerOnReset => true
  | .localReset _ => true
  | .localResetRelease _ => true
  | .peerLinkDown => true
  | .peerLinkUp => true
  | .tickExpiry => true
  | .sweepTimerExpiry => true
  | .readCompletion _ _ answer => answer.fits
  | .readTimeout _ _ => true
  | .lateAnswer _ _ answer => answer.fits
  | .quarantineExpiry _ _ => true
  | .strayCompletion _ _ answer => answer.fits
  | .postedWriteSent _ => true
  | .fillSegmentWrite _ => true
  | .arm _ => true
  | .pause _ => true
  | .resume _ => true
  | .retire _ => true
  | .openWindow _ => true
  | .closeWindow _ => true
  | .unknownCommand _ => true
  | .stampingWrite _ => true
  | .takeWrite => true
  | .loadingWrite => true

end Sys2Proof
end

