-- ==== Sys2Proof/Machine/Flags.lean ====
section
/-! DEFINITION. The flags the host sees: STATUS (R166, R190), CONTROL (R188), RAISED (R189), FAULT
(R191), the interrupt output (R176), and the value a read of the register window returns (R187, R192). -/

namespace Sys2Proof.Machine

/-- The interrupt output: asserted while at least one cause is both set and enabled (R176). -/
def interruptOutput (s : State) : Bool := (s.raised &&& s.enables) != 0

/-- Whether a lane is busy: in any state but IDLE (R53). -/
def Lane.busy (l : Lane) : Bool := l.state != .idle

/-- Whether the Command Scanner is SWEEPING (R143). -/
def Scanner.sweeping : Scanner → Bool
  | .idle => false
  | .header => false
  | .loadWord _ => false
  | .loadWrite _ _ => false
  | .sweepWord _ => true
  | .sweepFurther _ _ _ => true
  | .delivered _ => true
  | .chain => true

/-- A flag as a number. -/
def flag (b : Bool) : Nat := if b then 1 else 0

/-- The STATUS word (R190). -/
def statusWord (s : State) : BitVec 32 :=
  BitVec.ofNat 32
    (s.bridge.code + 8 * flag s.linkUp + 16 * flag (s.lane 0).busy + 32 * flag (s.lane 1).busy +
      64 * flag (s.lane 2).busy + 128 * flag (s.lane 3).busy + 256 * flag (s.gate == .closed) +
      4096 * (s.errands.length % 16) + 65536 * flag s.scanner.sweeping)

/-- The CONTROL word as the host reads it: the enables, with the command field reading NONE (R153,
R188). -/
def controlWord (s : State) : BitVec 32 := s.enables.setWidth 32 <<< 8

/-- The RAISED word (R189). -/
def raisedWord (s : State) : BitVec 32 := s.raised.setWidth 32

/-- The FAULT word: 0 while the record is empty (R168, R191). -/
def faultWord (s : State) : BitVec 64 :=
  match s.faultRec with
  | none => 0
  | some f =>
    BitVec.ofNat 64
      (f.code.code + 16 * f.kind.code + 256 * (s.further % 256) + 65536 * f.number.toNat +
        4294967296 * f.tick.toNat)

/-- The four bytes of the register window at a multiple of 4 (R187). -/
def registerWord (s : State) (offset : Nat) : BitVec 32 :=
  match offset with
  | 0 => s.areaBase.extractLsb' 0 32
  | 4 => s.areaBase.extractLsb' 32 32
  | 8 => controlWord s
  | 12 => statusWord s
  | 20 => raisedWord s
  | 24 => (faultWord s).extractLsb' 0 32
  | 28 => (faultWord s).extractLsb' 32 32
  | _ => 0

/-- The value a host read of `size` bytes at `offset` returns; an access to no register reads 0 (R114,
R192). That the two accesses of an 8-byte read at 08h or 10h see one state is the model's choice (log 36). -/
def readRegister (s : State) (offset size : Nat) : BitVec 64 :=
  if registerAccess offset size then
    if size = 4 then (registerWord s offset).setWidth 64
    else registerWord s (offset + 4) ++ registerWord s offset
  else 0

/-- Whether the host can reach the registers: the reset input is not asserted and the Port A link is up
(R133). -/
def State.reachable (s : State) : Bool := !s.resetInput && s.portALinkUp

end Sys2Proof.Machine
end

