-- ==== Sys2Proof/Machine/RegisterWrites.lean ====
section
/-! DEFINITION. The host's register writes: START, STOP, RESET, SET_ENABLES, NUDGE, RAISED_CLEAR,
FAULT_CLEAR, AREA_BASE_WRITE and REGISTER_WRITE_DISCARDED. A write that cannot reach the registers
(R133) has no effect (log 16). -/

namespace Sys2Proof.Machine

/-- The enables take the value a CONTROL write carries (R153). -/
def setEnables (value : BitVec 32) (s : State) : State := { s with enables := controlEnables value }

/-- A register write takes effect at the moment it is taken, where the host can reach the registers (R114,
R133). -/
def onRegisters (effect : State → State) (s : State) : State :=
  if s.reachable then effect s else s

/-- The entry to RUNNING from STOPPED, in the order R154 gives: the calendar's recomputation (R39), the
sweep timer (R33), the Dispatcher (R42), the reader in HOLDING (R80). -/
def resumeRunning (s : State) : State :=
  let s1 := recomputeCalendar { s with bridge := .running }
  recheckHolding (dispatch { s1 with sweepTimer := 0 })

/-- START by bridge state (R154). -/
def giveStart (s : State) : State :=
  match s.bridge with
  | .off => beginLoading s
  | .stopped => resumeRunning s
  | .loading => s
  | .running => s
  | .quiescing => s
  | .halted => s

/-- STOP taken in RUNNING (R147, R158): the owner of a command handed over decides it, the bridge enters
QUIESCING, the sweep ends or waits for its read, the errands are asked to park, the Dispatcher acts on
what that frees, and the conditions of STOPPED are checked (R159). -/
def beginQuiescing (s : State) : State :=
  let s1 := { settleDelivery s with bridge := .quiescing }
  checkStopped (dispatch (parkRequestLanes (stopSweep s1)))

/-- STOP by bridge state (R155). -/
def giveStop (s : State) : State :=
  match s.bridge with
  | .running => beginQuiescing s
  | .loading => stopLoading s
  | .off => s
  | .quiescing => s
  | .stopped => s
  | .halted => s

/-- START (R153, R154). -/
def execStart (value : BitVec 32) (s : State) : Host.Outcome State Fault Refusal :=
  .next (onRegisters (fun s => giveStart (setEnables value s)) s)

/-- STOP (R153, R155). -/
def execStop (value : BitVec 32) (s : State) : Host.Outcome State Fault Refusal :=
  .next (onRegisters (fun s => giveStop (setEnables value s)) s)

/-- RESET (R153, R156): the soft reset keeps the enables the same write has just set. -/
def execReset (value : BitVec 32) (s : State) : Host.Outcome State Fault Refusal :=
  .next (onRegisters (fun s => softReset (setEnables value s)) s)

/-- SET_ENABLES (R153). -/
def execSetEnables (value : BitVec 32) (s : State) : Host.Outcome State Fault Refusal :=
  .next (onRegisters (setEnables value) s)

/-- NUDGE, of any value: one sweep request (R144). -/
def execNudge (_value : BitVec 32) (s : State) : Host.Outcome State Fault Refusal :=
  .next (onRegisters requestSweep s)

/-- RAISED_CLEAR: each cause whose bit is 1 is cleared (R175). -/
def execRaisedClear (value : BitVec 32) (s : State) : Host.Outcome State Fault Refusal :=
  .next (onRegisters (fun s => { s with raised := s.raised &&& ~~~(raisedBits value) }) s)

/-- FAULT_CLEAR, of any value and either half: the record becomes empty and FURTHER 0 (R172, R192). -/
def execFaultClear (_write : WideWrite) (s : State) : Host.Outcome State Fault Refusal :=
  .next (onRegisters (fun s => { s with faultRec := none, further := 0 }) s)

/-- AREA_BASE_WRITE: taken while the bridge is OFF, discarded in any other state (R165, R192). -/
def execAreaBaseWrite (write : WideWrite) (s : State) : Host.Outcome State Fault Refusal :=
  .next (onRegisters
    (fun s => if s.bridge = .off then { s with areaBase := wideValue write s.areaBase } else s) s)

/-- REGISTER_WRITE_DISCARDED (R114, R166, R192). -/
def execRegisterWriteDiscarded (_offset _size : Nat) (_value : BitVec 64) (s : State) :
    Host.Outcome State Fault Refusal :=
  .next s

/-! ## The accesses of a host write (R192) -/

/-- The row a 4-byte write of CONTROL spells by its command field (R153, R188). -/
def controlWrite (value : BitVec 32) : Instr :=
  match controlCommand value with
  | 1 => .start value
  | 2 => .stop value
  | 3 => .reset value
  | _ => .setEnables value

/-- The commands of a host write of `size` bytes at `offset` from the start of the register window, in the
order Port A takes them (R192): an 8-byte write of AREA_BASE or FAULT is one access, one at 08h or 10h is
two, the lower offset first; a 4-byte write takes the low half of `value`. What reaches no writable
register is discarded. That the offset is tested for the address is the model's choice (log 34). -/
def hostWrite (offset size : Nat) (value : BitVec 64) : List Instr :=
  let low := value.extractLsb' 0 32
  let high := value.extractLsb' 32 32
  match offset, size with
  | 0, 8 => [.areaBaseWrite (.whole value)]
  | 0, 4 => [.areaBaseWrite (.low low)]
  | 4, 4 => [.areaBaseWrite (.high low)]
  | 8, 8 => [controlWrite low, .registerWriteDiscarded 12 4 (high.setWidth 64)]
  | 8, 4 => [controlWrite low]
  | 16, 8 => [.nudge low, .raisedClear high]
  | 16, 4 => [.nudge low]
  | 20, 4 => [.raisedClear low]
  | 24, 8 => [.faultClear (.whole value)]
  | 24, 4 => [.faultClear (.low low)]
  | 28, 4 => [.faultClear (.high low)]
  | _, _ => [.registerWriteDiscarded offset size value]

end Sys2Proof.Machine
end

