-- ==== Sys2Proof/Machine/Resets.lean ====
section
/-! DEFINITION. The resets that come from outside the registers and the peer link: POWER_ON_RESET,
LOCAL_RESET, LOCAL_RESET_RELEASE, PEER_LINK_DOWN, PEER_LINK_UP. -/

namespace Sys2Proof.Machine

/-- POWER_ON_RESET (R163). -/
def execPowerOnReset (s : State) : Host.Outcome State Fault Refusal := .next (powerOn s)

/-- The input or link of a cause of a local reset, after the cause has appeared or gone (R133). -/
def setLocalCause (cause : LocalCause) (present : Bool) (s : State) : State :=
  match cause with
  | .resetInput => { s with resetInput := present }
  | .portALink => { s with portALinkUp := !present }

/-- Whether a cause of a local reset is present (R133). -/
def localCausePresent (cause : LocalCause) (s : State) : Bool :=
  match cause with
  | .resetInput => s.resetInput
  | .portALink => !s.portALinkUp

/-- LOCAL_RESET: the reset is taken when its cause first appears (R133, R163). -/
def execLocalReset (cause : LocalCause) (s : State) : Host.Outcome State Fault Refusal :=
  if localCausePresent cause s then .next s
  else .next (setLocalCause cause true (localReset s))

/-- LOCAL_RESET_RELEASE: the registers can be reached again once no cause is left; nothing else changes
(R133). -/
def execLocalResetRelease (cause : LocalCause) (s : State) : Host.Outcome State Fault Refusal :=
  .next (setLocalCause cause false s)

/-- The link-down event (R129): Port B frees its tags and discards its writes, the link is DOWN, PEER_DOWN
is reported, and the lanes are told. -/
def linkDown (s : State) : State :=
  let s1 := { s with portB := linkDownPort s.portB, linkUp := false }
  checkStopped (linkDownLanes (reportFault .peerDown .port 1 s1))

/-- PEER_LINK_DOWN: taken while the link is UP (R128, R129). -/
def execPeerLinkDown (s : State) : Host.Outcome State Fault Refusal :=
  if s.linkUp then .next (linkDown s) else .next s

/-- PEER_LINK_UP: the link state becomes UP and nothing else changes (R128). -/
def execPeerLinkUp (s : State) : Host.Outcome State Fault Refusal := .next { s with linkUp := true }

end Sys2Proof.Machine
end

