-- ==== Sys2Proof/Machine/Ticks.lean ====
section
/-! DEFINITION. The Tick Unit's events: TICK_EXPIRY and SWEEP_TIMER_EXPIRY. -/

namespace Sys2Proof.Machine

/-- Whether the sweep timer has reached SWEEP_TICKS and its expiry has not been taken (R33; log 2). -/
def sweepDue (s : State) : Bool :=
  decide (0 < s.hdr.sweepTicks) && decide (s.hdr.sweepTicks ≤ s.sweepTimer)

/-- The sweep-timer expiry (R33): the timer goes back to 0 and sends one sweep request. -/
def expireSweepTimer (s : State) : State := requestSweep { s with sweepTimer := 0 }

/-- The sweep timer counts a tick expiry in RUNNING, unless SWEEP_TICKS is 0 (R33). -/
def countSweepTick (s : State) : State :=
  if 0 < s.hdr.sweepTicks then { s with sweepTimer := s.sweepTimer + 1 } else s

/-- A tick expiry in RUNNING: an expiry of the sweep timer still to be taken comes first (log 2), then the
calendar releases what is due (R37) and the sweep timer counts (R33). -/
def runningTick (s : State) : State :=
  let s1 := if sweepDue s then expireSweepTimer s else s
  countSweepTick (releaseDue { s1 with tick := s1.tick + 1 })

/-- TICK_EXPIRY (R30, R31, R33, R37). -/
def execTickExpiry (s : State) : Host.Outcome State Fault Refusal :=
  if s.tickTimerOn = false then .next s
  else if Config.tickLimit ≤ s.tick then .next (fatalFault .tickLimit .bridge s)
  else if s.bridge = .running then .next (runningTick s)
  else .next { s with tick := s.tick + 1 }

/-- SWEEP_TIMER_EXPIRY (R33, R144). -/
def execSweepTimerExpiry (s : State) : Host.Outcome State Fault Refusal :=
  if s.bridge = .running ∧ sweepDue s = true then .next (expireSweepTimer s) else .next s

end Sys2Proof.Machine
end

