-- ==== Sys2Proof/Machine/UnitWrites.lean ====
section
/-! DEFINITION. The steps the block's own units take: FILL_SEGMENT_WRITE, STAMPING_WRITE, TAKE_WRITE
and LOADING_WRITE. -/

namespace Sys2Proof.Machine

/-! ## FILL_SEGMENT_WRITE (R64) -/

/-- Whether a FILL errand in a lane writes its next segment: it is MOVING, bytes are left, no failure is
recorded and no park request is set (R64). -/
def Lane.fills (l : Lane) (c : Card) : Bool :=
  l.state == .moving && c.kind == some .fill && decide (l.readPoint < l.length) &&
    l.failure.isNone && !l.parkRequest

/-- FILL_SEGMENT_WRITE (R64). -/
def execFillSegmentWrite (k : LaneNo) (s : State) : Host.Outcome State Fault Refusal :=
  match (s.lane k).job with
  | .errand c =>
    if (s.lane k).fills c then .next (fillSegment k c.pattern s) else .next s
  | .none => .next s
  | .service _ => .next s
  | .closing _ => .next s

/-! ## STAMPING_WRITE (R69) -/

/-- The code of the outcome a lane stamps. -/
def Lane.outcomeCode (l : Lane) : Nat :=
  match l.outcome with
  | some o => o.code
  | none => 0

/-- The TALLY write of a service, and the CADENCE_NOTE it may bring (R20, R21). -/
def writeServiceTally (n : CadNo) (s : State) : State :=
  let tally := (s.cad n).tally
  let every := (s.cfg n).notifyEvery
  let s1 := recordWrite (.cadence n) 44 4 tally.toNat s
  if 0 < every ∧ tally.toNat % every = 0 then raise .cadenceNote s1 else s1

/-- One stamping write of a SERVICE job (R20). -/
def stampServiceItem (k : LaneNo) (n : CadNo) (item : StampItem) (s : State) : State :=
  let l := s.lane k
  match item with
  | .slotOutcome => areaWrite (l.slotAddr + 8) 4 l.outcomeCode s
  | .slotMoved => areaWrite (l.slotAddr + 12) 4 l.written s
  | .slotDue => areaWrite (l.slotAddr + 16) 8 (s.cad n).currentDue s
  | .slotDone => areaWrite (l.slotAddr + 24) 8 l.stampTick s
  | .tally => writeServiceTally n s
  | .misses => recordWrite (.cadence n) 48 4 (s.cad n).misses.toNat s
  | .lates => recordWrite (.cadence n) 52 4 (s.cad n).lates.toNat s
  | _ => s

/-- The TALLY write of a closing job, with the LEND_OVERRUN that comes before it (R26, R27). -/
def writeClosingTally (n : CadNo) (overrun : Bool) (s : State) : State :=
  let s1 := if overrun then holdingFault .lendOverrun n s else s
  let lent := (s1.cad n).lastLent
  recordWrite (.cadence n) 44 4 lent.toNat (setCad n { s1.cad n with tally := lent } s1)

/-- The last two writes of a closing job (R26, steps 4 and 5): the cadence becomes IDLE at place NONE with
C_STATE written, and RESULT COMPLETED is written with the COMMAND_DONE of a set CMD_NOTIFY. That both go
out in one step, in which the job ends too, is the model's choice (log 30): no command comes between. -/
def writeClosingEnd (n : CadNo) (s : State) : State :=
  let s1 := setCadState n { s.cad n with state := .idle, place := .none } s
  let s2 := recordWrite (.cadence n) 41 1 Result.completed.code s1
  if (s.cad n).retireNotify then raise .commandDone s2 else s2

/-- One stamping write of a CLOSING job (R26, R27); the last is two writes (log 30). -/
def stampClosingItem (n : CadNo) (item : StampItem) (s : State) : State :=
  let c := s.cfg n
  match item with
  | .cancelOutcome i => areaWrite (slotAddrOf c i + 8) 4 Outcome.cancelled.code s
  | .cancelMoved i => areaWrite (slotAddrOf c i + 12) 4 0 s
  | .cancelDue i => areaWrite (slotAddrOf c i + 16) 8 0 s
  | .cancelDone i => areaWrite (slotAddrOf c i + 24) 8 s.tick s
  | .closeTally overrun => writeClosingTally n overrun s
  | .closeEnd => writeClosingEnd n s
  | _ => s

/-- One stamping write of an ERRAND job (R69): E_STATE DONE is the last. -/
def stampErrandItem (k : LaneNo) (c : Card) (item : StampItem) (s : State) : State :=
  let l := s.lane k
  match item with
  | .cardOutcome => areaWrite (c.addr + 36) 4 l.outcomeCode s
  | .cardMoved => areaWrite (c.addr + 40) 4 l.written s
  | .cardDone => areaWrite (c.addr + 44) 4 l.stampTick s
  | .cardState => areaWrite (c.addr + 32) 4 2 s
  | _ => s

/-- One stamping write of a lane's job (R69). -/
def stampItem (k : LaneNo) (item : StampItem) (s : State) : State :=
  match (s.lane k).job with
  | .none => s
  | .service n => stampServiceItem k n item s
  | .closing n => stampClosingItem n item s
  | .errand c => stampErrandItem k c item s

/-- What follows the last stamping write of a service (R22, R69; log 11): the holding fault MISS_HELD of a
miss under HOLD, with the command of the cadence that may come before the job's end (R23, R25; log 37), and the
SLOT_ERROR notice of a slot stamped BAD_SLOT or with a failure. -/
def afterService (n : CadNo) (outcome : Option Outcome) (s : State) : State :=
  match outcome with
  | none => if (s.cfg n).missPolicy = .hold then takeBetween n (holdingFault .missHeld n s) else s
  | some .done => s
  | some .late => s
  | some _ => reportFault .slotError .cadence n s

/-- What follows the last stamping write of an errand (R69, R92, R93): ERRAND_NOTE where NOTIFY is set,
and the ERRAND_ERROR notice of any outcome other than DONE, both before the job ends (log 11). -/
def afterErrand (c : Card) (outcome : Option Outcome) (s : State) : State :=
  let s1 := if c.notify then raise .errandNote s else s
  if outcome = some .done then s1 else reportFault .errandError .errand c.takeNo.toNat s1

/-- What follows the last stamping write of a lane's job. That it comes before the job's end, with the window
drains and the hand-out that brings, is the model's reading (log 11). -/
def afterStamp (l : Lane) (s : State) : State :=
  match l.job with
  | .none => s
  | .service n => afterService n l.outcome s
  | .closing _ => s
  | .errand c => afterErrand c l.outcome s

/-- A lane in STAMPING issues one write, the last two of a closing job together (log 30), and ends its job
after the last (R69, R70). -/
def stampWrite (k : LaneNo) (item : StampItem) (rest : List StampItem) (s : State) : State :=
  let s1 := stampItem k item (setLane k { s.lane k with stampLeft := rest } s)
  if rest.isEmpty then
    let l := s1.lane k
    checkStopped (jobEnd k l.stampTick (afterStamp l s1))
  else s1

/-- STAMPING_WRITE (R69). -/
def execStampingWrite (k : LaneNo) (s : State) : Host.Outcome State Fault Refusal :=
  if (s.lane k).state = .stamping then
    match (s.lane k).stampLeft with
    | [] => .next s
    | item :: rest => .next (stampWrite k item rest s)
  else .next s

/-! ## TAKE_WRITE (R81, R83) -/

/-- A take ends (R81, R83, R84): a valid card joins the errand queue, an event at the Dispatcher, and an
invalid one is reported; then the reader moves on to the card's link. That the Dispatcher acts before the
reader asks for its next read is the model's choice (log 33). -/
def endTake (c : Card) (valid : Bool) (s : State) : State :=
  afterTake c (if valid then dispatch (joinErrand c s) else reportBadCard c s)

/-- One write of a take, and its end after the last. -/
def takeStep (c : Card) (valid : Bool) (item : TakeItem) (rest : List TakeItem) (s : State) : State :=
  let s1 := takeWrite c valid item s
  if rest.isEmpty then checkStopped (endTake c valid s1)
  else { s1 with reader := .takingWrite c valid rest }

/-- TAKE_WRITE (R81, R83): in HALTED the reader writes nothing more (R96). -/
def execTakeWrite (s : State) : Host.Outcome State Fault Refusal :=
  match s.reader with
  | .takingWrite c valid (item :: rest) =>
    if s.bridge = .halted then .next s else .next (takeStep c valid item rest s)
  | _ => .next s

/-! ## LOADING_WRITE (R150) -/

/-- LOADING_WRITE (R150). -/
def execLoadingWrite (s : State) : Host.Outcome State Fault Refusal :=
  match s.scanner with
  | .loadWrite r i => .next (loadField r i s)
  | _ => .next s

end Sys2Proof.Machine
end

