-- ==== Sys2Proof/Machine/Dispatch.lean ====
section
/-! DEFINITION. One arm per command of spec/opcode_table.json. -/

namespace Sys2Proof.Machine

def exec (i : Instr) (s : State) : Host.Outcome State Fault Refusal :=
  match i with
  | .start v => Sys2Proof.Machine.execStart v s
  | .stop v => Sys2Proof.Machine.execStop v s
  | .reset v => Sys2Proof.Machine.execReset v s
  | .setEnables v => Sys2Proof.Machine.execSetEnables v s
  | .nudge v => Sys2Proof.Machine.execNudge v s
  | .raisedClear v => Sys2Proof.Machine.execRaisedClear v s
  | .faultClear w => Sys2Proof.Machine.execFaultClear w s
  | .areaBaseWrite w => Sys2Proof.Machine.execAreaBaseWrite w s
  | .registerWriteDiscarded offset size v => Sys2Proof.Machine.execRegisterWriteDiscarded offset size v s
  | .powerOnReset => Sys2Proof.Machine.execPowerOnReset s
  | .localReset cause => Sys2Proof.Machine.execLocalReset cause s
  | .localResetRelease cause => Sys2Proof.Machine.execLocalResetRelease cause s
  | .peerLinkDown => Sys2Proof.Machine.execPeerLinkDown s
  | .peerLinkUp => Sys2Proof.Machine.execPeerLinkUp s
  | .tickExpiry => Sys2Proof.Machine.execTickExpiry s
  | .sweepTimerExpiry => Sys2Proof.Machine.execSweepTimerExpiry s
  | .readCompletion p t answer => Sys2Proof.Machine.execReadCompletion p t answer s
  | .readTimeout p t => Sys2Proof.Machine.execReadTimeout p t s
  | .lateAnswer p t answer => Sys2Proof.Machine.execLateAnswer p t answer s
  | .quarantineExpiry p t => Sys2Proof.Machine.execQuarantineExpiry p t s
  | .strayCompletion p t answer => Sys2Proof.Machine.execStrayCompletion p t answer s
  | .postedWriteSent source => Sys2Proof.Machine.execPostedWriteSent source s
  | .fillSegmentWrite k => Sys2Proof.Machine.execFillSegmentWrite k s
  | .arm n => Sys2Proof.Machine.execArm n s
  | .pause n => Sys2Proof.Machine.execPause n s
  | .resume n => Sys2Proof.Machine.execResume n s
  | .retire n => Sys2Proof.Machine.execRetire n s
  | .openWindow n => Sys2Proof.Machine.execOpen n s
  | .closeWindow n => Sys2Proof.Machine.execClose n s
  | .unknownCommand r => Sys2Proof.Machine.execUnknownCommand r s
  | .stampingWrite k => Sys2Proof.Machine.execStampingWrite k s
  | .takeWrite => Sys2Proof.Machine.execTakeWrite s
  | .loadingWrite => Sys2Proof.Machine.execLoadingWrite s

end Sys2Proof.Machine
end

