-- ==== Sys2Proof/Safety.lean ====
section
/-! DEFINITION. The notions claims are stated with: the posted writes a port holds, the addresses of the
errand queue, and the laws of the device that every step keeps. -/

namespace Sys2Proof.Machine

/-! ## What a port holds -/

/-- The posted write of a request, where it is one. -/
def Request.write? : Request → Option PostedWrite
  | .write w => some w
  | .read _ _ _ _ => none

/-- The posted writes a port holds, in the order they were issued (R113). -/
def Port.writes (x : Port) : List PostedWrite := x.requests.filterMap Request.write?

/-- A control write of one field (R138, R177). -/
def fieldWrite (addr : Addr) (size value : Nat) : PostedWrite :=
  { addr, bytes := leBytes size value, lane := none }

/-- The writes that answer a command on a record: RESULT and then ACK_SEQ (R7, R100). -/
def answerWrites (s : State) (d : Delivery) (result : Result) : List PostedWrite :=
  match d.record with
  | .window n =>
    [fieldWrite (recordAddr s (.window n) + 25) 1 result.code,
      fieldWrite (recordAddr s (.window n) + 26) 1 d.seq.toNat]
  | .cadence n =>
    [fieldWrite (recordAddr s (.cadence n) + 41) 1 result.code,
      fieldWrite (recordAddr s (.cadence n) + 42) 1 d.seq.toNat]

/-- Whether a tag is in QUARANTINE. -/
def Tag.quarantined : Tag → Bool
  | .free => false
  | .busy _ _ => false
  | .quarantine _ _ => true

/-- Whether no requester waits at a port for a tag (R117). -/
def nobodyWaits (p : Domain) (s : State) : Prop :=
  (p = .a → s.controlQueue = []) ∧ ∀ k, (s.lane k).tagRequest ≠ some p

/-! ## What grants of Port A's tags change -/

/-- A lane's record without the fields a grant of a tag changes (R61, R65). -/
def Lane.work (l : Lane) : Lane :=
  { l with readPoint := 0, outstanding := [], buffer := [], tagRequest := none, confirmTag := none }

/-- `t` is `s` but for grants of Port A's tags (R117, R118): only the lanes' reads, Port A's tags, its
rotation and its reads not yet sent, the waiting control requesters and the choices left (log 6)
differ. -/
structure ReadsOnly (s t : State) : Prop where
  rest : t = { s with
    lanes := t.lanes, portA := t.portA, controlQueue := t.controlQueue, choice := t.choice }
  lanes : ∀ k, (t.lane k).work = (s.lane k).work
  period : t.portA.period = s.portA.period
  writes : t.portA.writes = s.portA.writes

/-- The same, with the Command Scanner gone on to its next read, or at rest (R145, R146). -/
def SweepsOn (s t : State) : Prop :=
  ∃ scanner sweepPending, ReadsOnly { s with scanner, sweepPending } t

/-- The sweep goes on after a record (R145): the scanner's next read is asked for, or the sweep ends, and
nothing else changes. -/
def GoesOn (r : Record) (s t : State) : Prop := t = sweepAfter r s ∧ SweepsOn s t

/-! ## Faults and causes -/

/-- The fault record from `s` to `t` has taken a report (R169). -/
def FaultTaken (code : FaultCode) (kind : ObjectKind) (number : Nat) (s t : State) : Prop :=
  (s.faultRec = none →
    t.faultRec = some ⟨code, kind, BitVec.ofNat 16 number, BitVec.ofNat 32 s.tick⟩ ∧
    t.further = s.further) ∧
  ∀ f, s.faultRec = some f → t.faultRec = some f ∧ t.further = min 255 (s.further + 1)

/-- From `s` to `t` a cause has been raised: set at once where Port A holds no posted write, and otherwise
waiting for all those it holds (R174). -/
def CauseRaised (c : Cause) (s t : State) : Prop :=
  if s.portA.writes = [] then t.raised = s.raised ||| c.bit ∧ t.raisings = s.raisings
  else t.raised = s.raised ∧ t.raisings = s.raisings ++ [(c, s.portA.writes.length)]

/-! ## Stamping, and the row of a delivered command -/

/-- From `s` to `t` lane `k` has entered STAMPING with an outcome (R19, R66, R69; log 10 for TALLY): a
service has its slot, TALLY and the MISSES of an overrun left to write, its TALLY has risen by one, and
its grid is settled (R20, R24); an errand has its card's part half left. -/
def StampsOutcome (k : LaneNo) (o : Outcome) (s t : State) : Prop :=
  let l := t.lane k
  l.state = .stamping ∧ l.stampTick = s.tick ∧
  (∀ n, l.job = .service n →
    let e := s.cad n
    let c := s.cfg n
    let overrun :=
      if e.state = .armed ∧ e.resumeMark = false then (s.tick - e.currentDue) / c.period else 0
    l.outcome = some o ∧
    l.stampLeft =
      [.slotOutcome, .slotMoved, .slotDue, .slotDone, .tally] ++
        (if 0 < overrun then [.misses] else []) ∧
    t.cad n = { e with
      misses := e.misses + BitVec.ofNat 32 overrun
      tally := e.tally + 1
      nextDue := if e.state = .armed then firstGridAfter c.period c.phase s.tick else e.nextDue
      resumeMark := false }) ∧
  ∀ c, l.job = .errand c →
    l.outcome = some o ∧ l.stampLeft = [.cardOutcome, .cardMoved, .cardDone, .cardState]

/-- The row that takes a delivered command (R7, R100; log 1); none where no word of the record spells it. -/
def Delivery.row (d : Delivery) : Option Instr :=
  match d.record, d.command with
  | .cadence n, .arm _ => some (.arm n)
  | .cadence n, .pause => some (.pause n)
  | .cadence n, .resume => some (.resume n)
  | .cadence n, .retire => some (.retire n)
  | .window n, .openWindow _ => some (.openWindow n)
  | .window n, .closeWindow => some (.closeWindow n)
  | r, .unknown => some (.unknownCommand r)
  | _, _ => none

/-- The holds the lanes' jobs have on a window, one for each role (R98). -/
def windowHolds (s : State) (n : WinNo) : Nat :=
  (s.lanes.toList.map (fun l => l.held.count n)).sum

/-! ## The scanner at LOADING -/

/-- Whether the scanner works at LOADING (R143). -/
def Scanner.loads : Scanner → Bool
  | .header => true
  | .loadWord _ => true
  | .loadWrite _ _ => true
  | _ => false

/-- Whether LOADING has found its header valid (R149). -/
def Scanner.pastHeader : Scanner → Bool
  | .loadWord _ => true
  | .loadWrite _ _ => true
  | _ => false

/-! ## The laws -/

/-- The fault record's law (R168): FURTHER lies in 0 to 255, and an empty record shows FURTHER 0. -/
def FaultLaw (s : State) : Prop := s.further ≤ 255 ∧ (s.faultRec = none → s.further = 0)

/-- The tick timer and the tick count by bridge state (R30, R31), with the header values held (R136,
R152), in which GATE_LOWER is below GATE_UPPER (R135). -/
def ClockLaw (s : State) : Prop :=
  s.tick ≤ Config.tickLimit ∧
  (s.bridge = .off → s.tickTimerOn = false ∧ s.tick = 0 ∧ s.settings = none) ∧
  (s.bridge = .loading → s.scanner.pastHeader = false →
    s.tickTimerOn = false ∧ s.tick = 0 ∧ s.settings = none) ∧
  (s.bridge = .loading → s.scanner.pastHeader = true →
    s.tickTimerOn = true ∧ s.settings.isSome = true) ∧
  (s.bridge = .running ∨ s.bridge = .quiescing ∨ s.bridge = .stopped →
    s.tickTimerOn = true ∧ s.settings.isSome = true) ∧
  (s.bridge = .halted → s.tickTimerOn = false) ∧
  (s.scanner.loads = true → s.bridge = .loading) ∧
  ∀ h, s.settings = some h → h.gateLower < h.gateUpper

/-- The ports' law (R115, R116, R127, R130): on Port A data reads hold at most 20 tags, and while the link
is DOWN no Port B tag is BUSY and Port B holds no request. -/
def TagLaw (s : State) : Prop :=
  dataHeld s.portA ≤ Config.dataTagLimit ∧
  (s.linkUp = false → noBusy s.portB = true ∧ s.portB.requests = [])

/-- The card addresses of the errand queue, in chain order (R86). -/
def errandAddrs (s : State) : List Addr := s.errands.map (fun e => e.card.addr)

/-- Whether the Errand Reader may go on with a take of the card at an address: the errand queue has room
and holds no entry taken from it (R80). -/
def takeHasRoom (s : State) (addr : Addr) : Prop :=
  (errandAddrs s).length < Config.errandQueueSize ∧ addr ∉ errandAddrs s

/-- The errand queue's law (R86): at most 8 entries, no card address twice, and room kept for the card
being taken. -/
def ErrandLaw (s : State) : Prop :=
  (errandAddrs s).length ≤ Config.errandQueueSize ∧ (errandAddrs s).Nodup ∧
  match s.reader with
  | .takingRead addr => takeHasRoom s addr
  | .takingWrite c _ _ => takeHasRoom s c.addr
  | _ => True

/-! ## The laws of the units, kept together -/

/-- The cadence a job serves or closes (R52). -/
def Job.cadence : Job → Option CadNo
  | .none => Option.none
  | .service n => some n
  | .closing n => some n
  | .errand _ => Option.none

/-- Whether the state of a cadence admits its place (R2, R29). -/
def placeAdmitted (bridge : BridgeState) (e : CadEntry) : Prop :=
  match e.state with
  | .idle => e.place = .none
  | .armed => e.place = .none → bridge = .halted
  | .paused => e.place = .none ∨ e.place.isLane = true
  | .held => e.place = .none ∨ e.place.isLane = true
  | .draining => e.place ≠ .calendar ∧ (e.place = .none → bridge = .halted)

/-- The Cadence Unit's law at one cadence (R2): the calendar, the ready queue and the lanes hold it where
its place says, once, and nowhere else; its service entry belongs to it while ARMED, its closing entry and
its closing job while DRAINING. -/
structure CadencePlaced (s : State) (n : CadNo) : Prop where
  admitted : placeAdmitted s.bridge (s.cad n)
  calendar : s.calendar.count n = if (s.cad n).place = .calendar then 1 else 0
  service : s.ready.count (.service n) =
    if (s.cad n).place = .ready ∧ (s.cad n).state = .armed then 1 else 0
  closing : s.ready.count (.closing n) =
    if (s.cad n).place = .ready ∧ (s.cad n).state = .draining then 1 else 0
  lanes : ∀ k, (s.lane k).job.cadence = some n ↔ (s.cad n).place = .lane k
  drains : ∀ k, (s.lane k).job = .closing n → (s.cad n).state = .draining

/-- The Window Unit's law (R98): every use count is the number of holds the lanes' jobs have on the window;
a CLOSED window has none and a CLOSING one at least one. A job holds at most two. -/
def WindowLaw (s : State) : Prop :=
  (∀ n, (s.win n).useCount = windowHolds s n ∧ ((s.win n).state = .closed → (s.win n).useCount = 0) ∧
    ((s.win n).state = .closing → 0 < (s.win n).useCount)) ∧
  ∀ k, (s.lane k).held.length ≤ 2

/-- Whether a lane's job reads data: a service, or a COPY errand (R61). -/
def Job.readsData : Job → Bool
  | .none => false
  | .service _ => true
  | .closing _ => false
  | .errand c => c.kind == some .copy

/-- What a lane's record keeps to (R52, R60 to R65, R72): an IDLE lane's record is empty; a lane that loads
or stamps has no data read out; a confirming read goes out once no other is; a waiting request is for the
source in MOVING, with a segment and a buffer entry left for it, and for the destination after it; an errand
parks, with bytes left; the buffer has at most 8 entries, no segment twice, an entry reserved for each read
that is out, all between Written and the read point; both points lie on segment bounds or at the end; the
stamping writes of a closing job have its end as their last (R26). -/
structure Lane.Lawful (l : Lane) : Prop where
  idle : l.state = .idle → l = Lane.idle
  loading : l.state = .loading → l.outstanding = [] ∧ l.buffer = [] ∧ l.confirmTag = none ∧
    l.tagRequest = none ∧ l.readPoint = 0 ∧ l.written = 0
  stamping : l.state = .stamping → l.outstanding = [] ∧ l.confirmTag = none ∧ l.tagRequest = none
  confirming : l.state = .confirming → l.outstanding = []
  confirmTag : l.confirmTag ≠ none →
    (l.state = .confirming ∨ l.state = .parking) ∧ l.outstanding = []
  tagRequest : ∀ p, l.tagRequest = some p →
    l.state = .moving ∧ p = l.srcPort ∧ l.readPoint < l.length ∧
        l.buffer.length < Config.bufferSize ∧ l.job.readsData = true ∨
      (l.state = .confirming ∨ l.state = .parking) ∧ p = l.dstPort ∧ l.outstanding = [] ∧
        l.confirmTag = none
  parking : l.state = .parking → l.readPoint < l.length ∧ l.job.cadence = none
  room : l.buffer.length ≤ Config.bufferSize
  buffered : (l.buffer.map BufEntry.segment).Nodup
  reads : (l.outstanding.map OutRead.segment).Nodup
  reserved : ∀ r ∈ l.outstanding, ⟨r.segment, none⟩ ∈ l.buffer
  range : ∀ b ∈ l.buffer, l.written ≤ Config.segmentSize * b.segment ∧
    Config.segmentSize * b.segment < l.readPoint ∧ Config.segmentSize * b.segment < l.length
  order : l.written ≤ l.readPoint
  readBound : l.readPoint % Config.segmentSize = 0 ∨ l.length ≤ l.readPoint
  writeBound : l.written % Config.segmentSize = 0 ∨ l.length ≤ l.written
  fill : ∀ c, l.job = .errand c → c.kind ≠ some .copy →
    l.written = l.readPoint ∧ l.outstanding = [] ∧ l.buffer = []
  closing : ∀ n, l.job = .closing n → l.state = .stamping → l.stampLeft = [] ∨
    l.stampLeft.getLast? = some .closeEnd ∧ .closeEnd ∉ l.stampLeft.dropLast

/-- Whether a lane has a read on record (R52): a segment and a confirming read on the port it reads, and a
control read in LOADING, on Port A. -/
def Lane.records (l : Lane) (p : Domain) (t : TagNo) : ReadRole → Prop
  | .control => p = .a ∧ l.state = .loading
  | .segment n => ⟨n, t⟩ ∈ l.outstanding ∧ l.srcPort = p
  | .confirming => l.confirmTag = some t ∧ l.dstPort = p

/-- Whether a read belongs to its requester (R115): a lane has it on record; the Errand Reader and the
Command Scanner issue control reads on Port A alone. -/
def readRecorded (s : State) (p : Domain) (t : TagNo) (r : ReadInfo) : Prop :=
  match r.requester with
  | .lane k => (s.lane k).records p t r.role
  | .reader => p = .a ∧ r.role = .control
  | .scanner => p = .a ∧ r.role = .control

/-- Whether a tag is BUSY with a control read of a requester. -/
def Tag.controls (who : Requester) : Tag → Bool
  | .free => false
  | .busy r _ => r.requester == who && r.role == .control
  | .quarantine _ _ => false

/-- The control reads of a requester that wait at Port A or are out on it (R117). -/
def controlReads (s : State) (who : Requester) : Nat :=
  s.portA.tagList.countP (Tag.controls who) + s.controlQueue.countP (fun q => q.requester == who)

/-- The lanes' law (R52), with their reads at the ports: a lane has at most one control read, and only in
LOADING; an errand's progress lies on a segment bound (R72). -/
structure LaneLaw (s : State) : Prop where
  lawful : ∀ k, (s.lane k).Lawful
  recorded : ∀ p t r timer, s.tag p t = .busy r timer → readRecorded s p t r
  waits : ∀ q ∈ s.controlQueue, ∀ k, q.requester = .lane k → (s.lane k).state = .loading
  control : ∀ k, controlReads s (.lane k) ≤ 1
  progress : ∀ e ∈ s.errands, e.progress % Config.segmentSize = 0

/-- The Dispatcher's law (R46): no more lanes hold errands than ERRAND_LANES. -/
def ErrandLaneLaw (s : State) : Prop := errandLaneCount s ≤ s.hdr.errandLanes

/-- Whether the scanner waits for a read at LOADING (R149). -/
def Scanner.loadReads : Scanner → Bool
  | .header => true
  | .loadWord _ => true
  | _ => false

/-- What rests outside RUNNING and QUIESCING (R131, R149, R159, R161): in OFF, STOPPED and HALTED no tag of
either port is BUSY, nobody waits for one, the scanner and every lane are IDLE; at LOADING the scanner has
at most one read, and none for its writes, and nobody else has one. -/
structure RestLaw (s : State) : Prop where
  loads : s.scanner.loads = true ↔ s.bridge = .loading
  rest : s.bridge = .off ∨ s.bridge = .stopped ∨ s.bridge = .halted →
    s.scanner = .idle ∧ (∀ k, (s.lane k).state = .idle) ∧ (∀ p t, (s.tag p t).isBusy = false) ∧
    s.controlQueue = [] ∧ (s.reader.busy = true → s.bridge = .halted)
  loading : s.bridge = .loading →
    (∀ k, (s.lane k).state = .idle) ∧ s.reader.busy = false ∧
    (∀ t, (s.tag .b t).isBusy = false) ∧
    (∀ t r timer, s.tag .a t = .busy r timer → r.requester = .scanner) ∧
    (∀ q ∈ s.controlQueue, q.requester = .scanner) ∧
    controlReads s .scanner ≤ if s.scanner.loadReads then 1 else 0

/-- The laws of the cadences, the windows, the lanes, the Dispatcher and the ports at rest (R2, R46, R52,
R98, R131), which every step keeps together. -/
structure UnitLaws (s : State) : Prop where
  cadences : ∀ n, CadencePlaced s n
  windows : WindowLaw s
  lanes : LaneLaw s
  errandLanes : ErrandLaneLaw s
  rest : RestLaw s

end Sys2Proof.Machine
end

