-- ==== Sys2Proof/Certificates/Slice0/Obligations.lean ====
section
/-! DEFINITION. The statements for the provers. -/

open Sys2Proof Sys2Proof.Machine

/-! ## The step and the queue -/

/-- The step takes the command at the front of the queue and runs it on the state with the rest. -/
def Obligations.StepTakesFrontCommand : Prop :=
  ∀ (c : Instr) (rest : List Instr) (s : State),
    s.pending = c :: rest → step s = exec c { s with pending := rest }

/-- Every step answers a next state: the block never stops. On an empty queue it idles, which is the model's
choice (log 17). No command changes the queue of the commands that wait; that the three resets keep it too
is the model's choice (log 21). -/
def Obligations.EveryStepAnswersNext : Prop :=
  (∀ s : State, (∃ t, step s = .next t) ∧ (s.pending = [] → step s = .next s)) ∧
  (∀ (c : Instr) (s t : State), exec c s = .next t → t.pending = s.pending)

/-! ## The registers -/

/-- The layout of CONTROL (R188): what a read returns, which row a write spells, the enables a write sets,
the spare bits a write ignores, and the cause each enable lets through. -/
def Obligations.ControlLayout : Prop :=
  ∀ (s : State) (v : BitVec 32),
    (∀ i, (controlWord s).getLsbD i = (decide (8 ≤ i ∧ i < 13) && s.enables.getLsbD (i - 8))) ∧
    ((Instr.start v).wellFormed = true ↔ v.toNat % 8 = 1) ∧
    ((Instr.stop v).wellFormed = true ↔ v.toNat % 8 = 2) ∧
    ((Instr.reset v).wellFormed = true ↔ v.toNat % 8 = 3) ∧
    ((Instr.setEnables v).wellFormed = true ↔ v.toNat % 8 = 0 ∨ 4 ≤ v.toNat % 8) ∧
    (s.reachable = true → exec (.setEnables v) s = .next { s with enables := v.extractLsb' 8 5 }) ∧
    (∀ w : BitVec 32, w.extractLsb' 8 5 = v.extractLsb' 8 5 →
      exec (.start w) s = exec (.start v) s ∧ exec (.stop w) s = exec (.stop v) s ∧
      exec (.reset w) s = exec (.reset v) s ∧ exec (.setEnables w) s = exec (.setEnables v) s) ∧
    interruptOutput { s with raised := Cause.cadenceNote.bit } = (controlWord s).getLsbD 8 ∧
    interruptOutput { s with raised := Cause.errandNote.bit } = (controlWord s).getLsbD 9 ∧
    interruptOutput { s with raised := Cause.commandDone.bit } = (controlWord s).getLsbD 10 ∧
    interruptOutput { s with raised := Cause.fault.bit } = (controlWord s).getLsbD 11 ∧
    interruptOutput { s with raised := Cause.state.bit } = (controlWord s).getLsbD 12

/-- START and STOP outside the states that act on them set the enables and do nothing else. -/
def Obligations.IgnoredStartAndStop : Prop :=
  ∀ (s : State) (v : BitVec 32), s.reachable = true →
    (s.bridge = .loading ∨ s.bridge = .running ∨ s.bridge = .quiescing ∨ s.bridge = .halted →
      exec (.start v) s = .next { s with enables := v.extractLsb' 8 5 }) ∧
    (s.bridge = .off ∨ s.bridge = .quiescing ∨ s.bridge = .stopped ∨ s.bridge = .halted →
      exec (.stop v) s = .next { s with enables := v.extractLsb' 8 5 })

/-- The layout of RAISED (R189): what a read returns, what a write clears, and the causes the interrupt
output carries. -/
def Obligations.RaisedLayout : Prop :=
  ∀ (s : State) (v : BitVec 32),
    (∀ i, (registerWord s 20).getLsbD i = (decide (i < 5) && s.raised.getLsbD i)) ∧
    (s.reachable = true →
      ∃ t, exec (.raisedClear v) s = .next t ∧ t = { s with raised := t.raised } ∧
        ∀ i, i < 5 → t.raised.getLsbD i = (s.raised.getLsbD i && !v.getLsbD i)) ∧
    (Cause.cadenceNote.bit = 1 ∧ Cause.errandNote.bit = 2 ∧ Cause.commandDone.bit = 4 ∧
      Cause.fault.bit = 8 ∧ Cause.state.bit = 16) ∧
    (interruptOutput s = true ↔
      ∃ n, n < 5 ∧ s.raised.getLsbD n = true ∧ (controlWord s).getLsbD (n + 8) = true)

/-- The layout of STATUS (R190). The errand queue count is at most 8 (R86), which the law `ErrandLaw`
states. -/
def Obligations.StatusLayout : Prop :=
  ∀ s : State, ErrandLaw s →
    (statusWord s).extractLsb' 0 3 =
      (match s.bridge with
        | .off => 0
        | .loading => 1
        | .running => 2
        | .quiescing => 3
        | .stopped => 4
        | .halted => 5) ∧
    (statusWord s).getLsbD 3 = s.linkUp ∧
    (∀ k : LaneNo, (statusWord s).getLsbD (4 + k) = (s.lane k).busy) ∧
    (statusWord s).getLsbD 8 = (s.gate == .closed) ∧
    (statusWord s).extractLsb' 9 3 = 0 ∧
    ((statusWord s).extractLsb' 12 4).toNat = s.errands.length ∧
    (statusWord s).getLsbD 16 = s.scanner.sweeping ∧
    (statusWord s).extractLsb' 17 15 = 0

/-- The layout of FAULT (R191), and 0 while the record is empty (R168). FURTHER is at most 255 (R168), which
the law `FaultLaw` states. The codes of CODE and OBJECT_KIND are those of R186. -/
def Obligations.FaultLayout : Prop :=
  (∀ s : State, FaultLaw s →
     (s.faultRec = none → faultWord s = 0) ∧
     ∀ f, s.faultRec = some f →
       ((faultWord s).extractLsb' 0 4).toNat = f.code.code ∧
       ((faultWord s).extractLsb' 4 4).toNat = f.kind.code ∧
       ((faultWord s).extractLsb' 8 8).toNat = s.further ∧
       (faultWord s).extractLsb' 16 16 = f.number ∧
       (faultWord s).extractLsb' 32 32 = f.tick) ∧
  (FaultCode.areaReadFailed.code = 1 ∧ FaultCode.tickLimit.code = 2 ∧ FaultCode.lendOverrun.code = 3 ∧
   FaultCode.windowLost.code = 4 ∧ FaultCode.missHeld.code = 5 ∧ FaultCode.slotError.code = 6 ∧
   FaultCode.errandError.code = 7 ∧ FaultCode.strayCompletion.code = 8 ∧ FaultCode.peerDown.code = 9 ∧
   FaultCode.layoutInvalid.code = 10) ∧
  ObjectKind.bridge.code = 1 ∧ ObjectKind.port.code = 2 ∧ ObjectKind.cadence.code = 4 ∧
  ObjectKind.errand.code = 5

/-- The register window as the host reads it: each register at its offset, whole and by the halves R192
allows, NUDGE and the offsets with no register reading 0, and no other access reaching a register (R187,
R192). That the two words of an 8-byte read at 08h or 10h are of one state is the model's choice (log 36).
What a host write of a size, an offset and a value spells: one command for an access to one register, two
for an 8-byte write at 08h or 10h, the lower offset first, and a discarded write for what reaches no
writable register (R192). That an offset is tested where R192 tests the address is the model's choice (log
34). A write that reaches no writable register changes nothing; and while the registers cannot be reached no
register write does, which is the model's reading of R133 (log 16). -/
def Obligations.RegisterWindow : Prop :=
  (∀ s : State,
     readRegister s 0 8 = s.areaBase ∧
     readRegister s 0 4 = (s.areaBase.extractLsb' 0 32).setWidth 64 ∧
     readRegister s 4 4 = (s.areaBase.extractLsb' 32 32).setWidth 64 ∧
     readRegister s 8 4 = (controlWord s).setWidth 64 ∧
     readRegister s 12 4 = (statusWord s).setWidth 64 ∧
     readRegister s 8 8 = statusWord s ++ controlWord s ∧
     readRegister s 16 4 = 0 ∧
     readRegister s 20 4 = (raisedWord s).setWidth 64 ∧
     readRegister s 16 8 = raisedWord s ++ (0 : BitVec 32) ∧
     readRegister s 24 8 = faultWord s ∧
     readRegister s 24 4 = ((faultWord s).extractLsb' 0 32).setWidth 64 ∧
     readRegister s 28 4 = ((faultWord s).extractLsb' 32 32).setWidth 64 ∧
     (∀ offset size, 32 ≤ offset → readRegister s offset size = 0) ∧
     (∀ offset size, size ≠ 4 ∧ size ≠ 8 ∨ offset % size ≠ 0 → readRegister s offset size = 0)) ∧
  (∀ (s : State),
     (∀ offset size v, exec (.registerWriteDiscarded offset size v) s = .next s) ∧
     (s.reachable = false → ∀ (v : BitVec 32) (w : WideWrite),
       ∀ c ∈ [Instr.start v, .stop v, .reset v, .setEnables v, .nudge v, .raisedClear v,
         .faultClear w, .areaBaseWrite w], exec c s = .next s)) ∧
  (∀ v : BitVec 64,
     let low := v.extractLsb' 0 32
     let high := v.extractLsb' 32 32
     (hostWrite 0 8 v = [.areaBaseWrite (.whole v)] ∧ hostWrite 0 4 v = [.areaBaseWrite (.low low)] ∧
      hostWrite 4 4 v = [.areaBaseWrite (.high low)]) ∧
     (hostWrite 8 4 v = [controlWrite low] ∧
      hostWrite 8 8 v = [controlWrite low, .registerWriteDiscarded 12 4 (high.setWidth 64)]) ∧
     (hostWrite 16 4 v = [.nudge low] ∧ hostWrite 20 4 v = [.raisedClear low] ∧
      hostWrite 16 8 v = [.nudge low, .raisedClear high]) ∧
     (hostWrite 24 8 v = [.faultClear (.whole v)] ∧ hostWrite 24 4 v = [.faultClear (.low low)] ∧
      hostWrite 28 4 v = [.faultClear (.high low)]) ∧
     (∀ offset size, writeDiscarded offset size = true →
       hostWrite offset size v = [.registerWriteDiscarded offset size v]) ∧
     (∀ offset size, 0 < size → offset + size ≤ 64 →
       ∀ c ∈ hostWrite offset size v, c.wellFormed = true)) ∧
  (∀ v : BitVec 32,
     controlWrite v =
       if v.toNat % 8 = 1 then .start v else if v.toNat % 8 = 2 then .stop v
       else if v.toNat % 8 = 3 then .reset v else .setEnables v)

/-- Reading FAULT, clearing it, and a report that meets a clear in either order (R172). -/
def Obligations.FaultClear : Prop :=
  ∀ (s : State) (w : WideWrite),
    readRegister s 24 8 = faultWord s ∧
    (s.reachable = true →
      exec (.faultClear w) s = .next { s with faultRec := none, further := 0 } ∧
      ∀ (code : FaultCode) (kind : ObjectKind) (number : Nat),
        let first := reportFault code kind number { s with faultRec := none, further := 0 }
        let last := reportFault code kind number s
        (first.faultRec =
            some ⟨code, kind, BitVec.ofNat 16 number, BitVec.ofNat 32 s.tick⟩ ∧
          first.further = 0 ∧ first.raised = last.raised ∧ first.raisings = last.raisings) ∧
        exec (.faultClear w) last = .next { last with faultRec := none, further := 0 })

/-- AREA_BASE is taken while the bridge is OFF, whole or by halves, and discarded in every other state
(R165, R192). -/
def Obligations.AreaBaseWrites : Prop :=
  ∀ (s : State), s.reachable = true →
    (s.bridge ≠ .off → ∀ w, exec (.areaBaseWrite w) s = .next s) ∧
    (s.bridge = .off →
      (∀ v, exec (.areaBaseWrite (.whole v)) s = .next { s with areaBase := v }) ∧
      (∀ v, ∃ t, exec (.areaBaseWrite (.low v)) s = .next t ∧ t = { s with areaBase := t.areaBase } ∧
        t.areaBase.extractLsb' 0 32 = v ∧
        t.areaBase.extractLsb' 32 32 = s.areaBase.extractLsb' 32 32) ∧
      (∀ v, ∃ t, exec (.areaBaseWrite (.high v)) s = .next t ∧ t = { s with areaBase := t.areaBase } ∧
        t.areaBase.extractLsb' 0 32 = s.areaBase.extractLsb' 0 32 ∧
        t.areaBase.extractLsb' 32 32 = v))

/-- NUDGE, and the sweep-timer expiry, which sets the timer back to 0, are one sweep request each (R33,
R144): it sets the pending flag of a scanner at work, starts a sweep at an IDLE one, and is discarded
outside RUNNING. A sweep starts with the read of the first record's command word, or of the chain's link as
the Errand Reader names it where there is no record, and ends at once with nothing to read (R79, R145). -/
def Obligations.SweepRequests : Prop :=
  (∀ (s : State) (v : BitVec 32), s.reachable = true →
     (s.bridge ≠ .running → exec (.nudge v) s = .next s) ∧
     (s.bridge = .running → s.scanner ≠ .idle →
       exec (.nudge v) s = .next { s with sweepPending := true }) ∧
     (s.bridge = .running → s.scanner = .idle →
       ∃ t, exec (.nudge v) s = .next t ∧ t = startSweep s ∧ SweepsOn s t ∧
         t.sweepPending = s.sweepPending ∧
         ∀ r, firstRecord s.hdr = some r → t.scanner = .sweepWord r)) ∧
  (∀ s : State, s.bridge = .running → 0 < s.hdr.sweepTicks → s.hdr.sweepTicks ≤ s.sweepTimer →
     (s.scanner ≠ .idle →
       exec .sweepTimerExpiry s = .next { s with sweepTimer := 0, sweepPending := true }) ∧
     (s.scanner = .idle →
       ∃ t, exec .sweepTimerExpiry s = .next t ∧ t = startSweep { s with sweepTimer := 0 } ∧
         SweepsOn { s with sweepTimer := 0 } t ∧ t.sweepPending = s.sweepPending ∧
         ∀ r, firstRecord s.hdr = some r → t.scanner = .sweepWord r)) ∧
  (∀ s : State,
     (∀ n, firstRecord s.hdr = some (.window n) →
       startSweep s = requestControl .scanner (s.hdr.windowTable + BitVec.ofNat 64 (32 * n) + 20) 4
         { s with scanner := .sweepWord (.window n) }) ∧
     (∀ n, firstRecord s.hdr = some (.cadence n) →
       startSweep s = requestControl .scanner (s.hdr.cadenceTable + BitVec.ofNat 64 (64 * n) + 32) 4
         { s with scanner := .sweepWord (.cadence n) }) ∧
     (firstRecord s.hdr = none →
       (s.reader = .noCard →
         startSweep s = requestControl .scanner (s.areaBase + 24) 8 { s with scanner := .chain }) ∧
       (∀ addr, s.reader = .watching addr →
         startSweep s = requestControl .scanner addr 8 { s with scanner := .chain }) ∧
       (s.reader.busy = true ∨ (∃ addr, s.reader = .holding addr) →
         startSweep s = { s with scanner := .idle })))

/-! ## Resets -/

/-- The machine after a power-on reset: the values the spec gives (R28, R51, R74, R96, R112, R132, R143,
R163, R164, R168, R175, R176), and the reset itself, which puts every field of the part at its reset value.
That the reset input is not asserted and the Port A link is up after it is the model's value (log 16); that
the queue and the model's own two fields stay is the model's choice (log 21). -/
def Obligations.PowerOnReset : Prop :=
  ((State.reset.bridge = .off ∧ State.reset.areaBase = 0 ∧ State.reset.enables = 0 ∧
     State.reset.raised = 0 ∧ State.reset.raisings = [] ∧ State.reset.faultRec = none ∧
     State.reset.further = 0 ∧ State.reset.linkUp = false ∧ interruptOutput State.reset = false) ∧
   (State.reset.settings = none ∧ State.reset.tick = 0 ∧ State.reset.tickTimerOn = false ∧
     State.reset.sweepTimer = 0 ∧ State.reset.calendar = [] ∧ State.reset.ready = [] ∧
     State.reset.gate = .opened) ∧
   (∀ n, State.reset.cad n = ⟨none, .idle, 0, 0, .none, false, false, 0, 0, 0, 0⟩) ∧
   (∀ n, State.reset.win n = ⟨.closed, none, 0, false⟩) ∧
   (∀ k, State.reset.lane k = Lane.idle) ∧
   (State.reset.errands = [] ∧ State.reset.reader = .noCard ∧ State.reset.takeCount = 0) ∧
   (State.reset.scanner = .idle ∧ State.reset.sweepPending = false ∧
     ∀ r, State.reset.ack r = none) ∧
   (State.reset.controlQueue = [] ∧ (∀ k, (State.reset.lane k).tagRequest = none) ∧
     dataHeld State.reset.portA = 0 ∧ ∀ p, (∀ t, State.reset.tag p t = .free) ∧
     (State.reset.port p).lastServed = 3 ∧ (State.reset.port p).period = 25500 ∧
     (State.reset.port p).requests = [])) ∧
  (∀ s : State, exec .powerOnReset s =
     .next { State.reset with pending := s.pending, choice := s.choice, freeCount := s.freeCount })

/-- A local reset: everything as after a power-on reset but the link state and Port B, whose BUSY tags go to
QUARANTINE for 25.5 ms and whose requests are kept (R133, R163, R164); the cause it names is then present
and the other as it was, and while a cause is present the registers cannot be reached. That a cause already
present resets nothing again is the model's reading (log 3); that the queue and the model's own two fields
stay is the model's choice (log 21); so is it that Port B keeps the reads it has not sent (log 25). When a
cause goes away nothing else changes, and the registers can be reached again once both are gone (R133). -/
def Obligations.LocalReset : Prop :=
  (∀ (s : State) (cause : LocalCause),
     (localCausePresent cause s = true → exec (.localReset cause) s = .next s) ∧
     (localCausePresent cause s = false →
       ∃ t, exec (.localReset cause) s = .next t ∧
         t = { State.reset with
           portB := t.portB, linkUp := s.linkUp, resetInput := t.resetInput,
           portALinkUp := t.portALinkUp, pending := s.pending, choice := s.choice,
           freeCount := s.freeCount } ∧
         t.reachable = false ∧
         (cause = .resetInput → t.resetInput = true ∧ t.portALinkUp = s.portALinkUp) ∧
         (cause = .portALink → t.portALinkUp = false ∧ t.resetInput = s.resetInput) ∧
         (∀ tag, t.tag .b tag =
           match s.tag .b tag with
           | .busy r _ => .quarantine r.role.kind 25500
           | .quarantine kind timer => .quarantine kind timer
           | .free => .free) ∧
         t.portB.lastServed = 3 ∧ t.portB.period = 25500 ∧ t.portB.requests = s.portB.requests)) ∧
  (∀ (s : State) (cause : LocalCause),
     ∃ t, exec (.localResetRelease cause) s = .next t ∧
       t = { s with resetInput := t.resetInput, portALinkUp := t.portALinkUp } ∧
       localCausePresent cause t = false ∧
       (∀ other, other ≠ cause → localCausePresent other t = localCausePresent other s) ∧
       (t.reachable = true ↔ ∀ c, localCausePresent c t = false))

/-- RESET: a soft reset, which keeps AREA_BASE and the enables the same write has set, Port A's held writes
and Port B's requests, with Port A's tags FREE and Port B's BUSY tags in QUARANTINE (R134, R153, R156,
R164). That the queue and the model's own two fields stay is the model's choice (log 21); so is it that a
port keeps the reads it has not sent (log 25). -/
def Obligations.SoftReset : Prop :=
  ∀ (s : State) (v : BitVec 32), s.reachable = true →
    ∃ t, exec (.reset v) s = .next t ∧
      t = { State.reset with
        areaBase := s.areaBase, enables := v.extractLsb' 8 5, portA := t.portA, portB := t.portB,
        linkUp := s.linkUp, resetInput := s.resetInput, portALinkUp := s.portALinkUp,
        pending := s.pending, choice := s.choice, freeCount := s.freeCount } ∧
      t.portA = { State.reset.portA with requests := s.portA.requests } ∧
      (∀ tag, t.tag .b tag =
        match s.tag .b tag with
        | .busy r _ => .quarantine r.role.kind 25500
        | .quarantine kind timer => .quarantine kind timer
        | .free => .free) ∧
      t.portB.lastServed = 3 ∧ t.portB.period = 25500 ∧ t.portB.requests = s.portB.requests

/-! ## The peer link -/

/-- The link state after each reset, and the link-up event, which changes nothing else (R128). -/
def Obligations.PeerLinkUp : Prop :=
  ∀ s t : State,
    exec .peerLinkUp s = .next { s with linkUp := true } ∧
    (exec .powerOnReset s = .next t → t.linkUp = false) ∧
    (∀ cause, exec (.localReset cause) s = .next t → t.linkUp = s.linkUp) ∧
    (∀ v, exec (.reset v) s = .next t → t.linkUp = s.linkUp)

/-- The link-down event: Port B's tags, its posted writes and the link state, the PEER_DOWN notice, and what
it leaves alone (R129, R163); the last step is the check of QUIESCING's end (R159). What it does to each
lane (R68, R129): nothing where the job does not touch domain B or the lane is IDLE or STAMPING, the peer
mark in LOADING, and otherwise the failure PEER_LOST with Written kept, the lane going on to STAMPING with
that outcome once no read of it is left (R19, R66), and staying in its state while one is out. A lane that
waits at Port A withdraws its request (R61): where no grant of Port A is possible, which is so once its
arbiter has stopped (R118), its rotation stays, and elsewhere the withdrawal may meet a grant (log 19). That
TALLY rises with the entry to STAMPING is log 10. The law `CadencePlaced` says that no other lane serves the
same cadence. -/
def Obligations.PeerLinkDown : Prop :=
  (∀ s : State, s.linkUp = true →
     ∃ u, exec .peerLinkDown s = .next (checkStopped u) ∧
       u = { s with
         linkUp := false
         portA := { s.portA with lastServed := u.portA.lastServed }
         portB := { s.portB with tags := .replicate 24 .free, requests := [] }
         faultRec := u.faultRec, further := u.further, raised := u.raised, raisings := u.raisings
         lanes := u.lanes, cadences := u.cadences, choice := u.choice } ∧
       (arbitrateOnce .a s = none →
         u.portA.lastServed = s.portA.lastServed ∧ u.choice = s.choice) ∧
       FaultTaken .peerDown .port 1 s u ∧ CauseRaised .fault s u ∧
       ∀ n, (∀ k, (s.lane k).job = .service n → (s.lane k).touchesB = false) → u.cad n = s.cad n) ∧
  (∀ (s : State) (k : LaneNo), s.linkUp = true →
     let l := s.lane k
     ∃ u, exec .peerLinkDown s = .next (checkStopped u) ∧
       (l.touchesB = false ∨ l.state = .idle ∨ l.state = .stamping → u.lane k = l) ∧
       (l.touchesB = true → l.state = .loading → u.lane k = { l with peerMark := true }) ∧
       (l.touchesB = true → l.job ≠ .none →
         l.state = .moving ∨ l.state = .confirming ∨ l.state = .parking →
         let lost := l.failure.getD .peerLost
         let settled := (l.srcPort = .b ∨ l.outstanding = []) ∧ (l.dstPort = .b ∨ l.confirmTag = none)
         (u.lane k).failure = some lost ∧
         (u.lane k).written = l.written ∧ (u.lane k).job = l.job ∧ (u.lane k).held = l.held ∧
         (u.lane k).tagRequest = none ∧
         (settled → (u.lane k).state = .stamping ∧
           ((∀ n, CadencePlaced s n) → l.failure ≠ some .done → StampsOutcome k lost s u)) ∧
         (¬settled → (u.lane k).state = l.state)))

/-! ## The Tick Unit -/

/-- A tick expiry outside RUNNING, and in RUNNING with nothing due: the count advances by one, and in
RUNNING the sweep timer counts with it unless SWEEP_TICKS is 0 (R30, R33, R38). That the timer stands at
SWEEP_TICKS until its expiry is taken as a command of its own is the model's reading (log 2): an expiry that
is still to be taken comes first, with its sweep request, and the timer counts on from 0. That an expiry of
a stopped timer changes nothing is another (log 3). In RUNNING the calendar lets go of the entries that are
due, one at a time from the front, the Dispatcher acting after each: the service entry joins the ready queue
with the due tick as its current due tick; afterwards no entry at the front of the calendar is due (R37). At
the limit the count is held, TICK_LIMIT is reported and the bridge enters HALTED (R31). -/
def Obligations.TickExpiry : Prop :=
  (∀ s : State,
     (s.tickTimerOn = false → exec .tickExpiry s = .next s) ∧
     (s.tickTimerOn = true → s.tick < 2 ^ 48 - 1 →
       (s.bridge ≠ .running → exec .tickExpiry s = .next { s with tick := s.tick + 1 }) ∧
       (s.bridge = .running → s.hdr.sweepTicks = 0 ∨ s.sweepTimer < s.hdr.sweepTicks →
         (∀ n rest, s.calendar = n :: rest → s.tick + 1 < (s.cad n).nextDue) →
         exec .tickExpiry s = .next { s with
           tick := s.tick + 1
           sweepTimer := if 0 < s.hdr.sweepTicks then s.sweepTimer + 1 else s.sweepTimer }))) ∧
  (∀ s : State, s.tickTimerOn = true → s.tick < 2 ^ 48 - 1 → s.bridge = .running →
     ∃ t, exec .tickExpiry s = .next t ∧ t.tick = s.tick + 1 ∧ t.bridge = .running ∧
       (s.hdr.sweepTicks = 0 ∨ s.sweepTimer < s.hdr.sweepTicks →
         t = { releaseDue { s with tick := s.tick + 1 } with
           sweepTimer := if 0 < s.hdr.sweepTicks then s.sweepTimer + 1 else s.sweepTimer }) ∧
       (0 < s.hdr.sweepTicks → s.hdr.sweepTicks ≤ s.sweepTimer →
         ∃ u, exec .sweepTimerExpiry s = .next u ∧
           t = { releaseDue { u with tick := s.tick + 1 } with sweepTimer := 1 }) ∧
       ∀ n rest, t.calendar = n :: rest → t.tick < (t.cad n).nextDue) ∧
  (∀ (s : State) (n : CadNo) (rest : List CadNo), s.calendar = n :: rest →
     (s.tick < (s.cad n).nextDue → releaseDue s = s) ∧
     ((s.cad n).nextDue ≤ s.tick →
       let u := releaseEntry n s
       releaseDue s = releaseDue (dispatch u) ∧
       u.cad n = { s.cad n with currentDue := (s.cad n).nextDue, place := .ready } ∧
       (∀ m, m ≠ n → u.cad m = s.cad m) ∧
       u.calendar = s.calendar.filter (fun m => m != n) ∧ u.ready.Perm (.service n :: s.ready) ∧
       u = { s with cadences := u.cadences, calendar := u.calendar, ready := u.ready })) ∧
  (∀ s : State, s.tickTimerOn = true → s.tick = 2 ^ 48 - 1 →
     ∃ t, exec .tickExpiry s = .next t ∧ t.bridge = .halted ∧ t.tick = 2 ^ 48 - 1 ∧
       t.tickTimerOn = false ∧ FaultTaken .tickLimit .bridge 0 s t)

/-! ## Faults and the bridge state -/

/-- A fault report: the record and FURTHER, the FAULT cause, and nothing else (R169, R173, R174). A holding
fault (R23): an ARMED or PAUSED cadence becomes HELD with its mark cleared and C_STATE written before the
report; a HELD or DRAINING one is left as it is; the fault is reported in every state. Between the report
and the end of the job (R23, R25) the Cadence Unit may take a command for the cadence that the scanner has
handed over and that is not yet decided, or leave it for after the end: the spec says either, a digit of
`choice` decides (logs 6, 37), and each of the two comes about for some value of it. So a RESUME that
follows the fault makes a cadence in a lane ARMED with the resume mark set, and one taken before it does not
(R23). -/
def Obligations.FaultReports : Prop :=
  (∀ (s : State) (code : FaultCode) (kind : ObjectKind) (number : Nat),
     let t := reportFault code kind number s
     FaultTaken code kind number s t ∧ CauseRaised .fault s t ∧
     t = { s with faultRec := t.faultRec, further := t.further, raised := t.raised,
                  raisings := t.raisings }) ∧
  (∀ (s : State) (code : FaultCode) (n : CadNo),
     let e := s.cad n
     (e.state = .armed ∨ e.state = .paused →
       holdingFault code n s = reportFault code .cadence n
         (issueWrite .a
           (fieldWrite (s.hdr.cadenceTable + BitVec.ofNat 64 (64 * n) + 40) 1 3)
           (setCad n { e with state := .held, resumeMark := false } s))) ∧
     (e.state = .held ∨ e.state = .draining →
       holdingFault code n s = reportFault code .cadence n s)) ∧
  (∀ (s : State) (n : CadNo),
     let waits (d : Delivery) : Prop :=
       s.scanner = .delivered d ∧ d.record = .cadence n ∧ s.ack d.record ≠ some d.seq
     ((∀ d, ¬waits d) → takeBetween n s = s) ∧
     ∀ d, waits d →
       (∃ c, takeBetween n s = { s with choice := c } ∨
         takeBetween n s = takeCommand d { s with choice := c }) ∧
       (∃ x c, takeBetween n { s with choice := x } = { s with choice := c }) ∧
       ∃ x c, takeBetween n { s with choice := x } = takeCommand d { s with choice := c }) ∧
  (∀ (s : State) (code : FaultCode) (n : CadNo) (d : Delivery),
     s.scanner = .delivered d → d.record = .cadence n → d.command = .resume →
     s.ack d.record ≠ some d.seq → (s.cad n).place.isLane = true →
     (s.cad n).state = .armed ∨ (s.cad n).state = .paused ∨ (s.cad n).state = .held →
     let h := holdingFault code n s
     (h.cad n).state = .held ∧
     ∃ x c, takeBetween n { h with choice := x } = answerCommand d .ok
       (issueWrite .a (fieldWrite (s.hdr.cadenceTable + BitVec.ofNat 64 (64 * n) + 40) 1 1)
         (setCad n { h.cad n with state := .armed, resumeMark := true } { h with choice := c })))

/-- The entry to HALTED (R161): lanes, ports, scanner, timer, cadences and windows act as one event, STATE
is raised, nothing is written, and the rest is kept. The second part is a control read that is answered with
an error status or times out (R125): AREA_READ_FAILED is reported for Port A, the bridge enters HALTED,
nothing is written, and every lane is IDLE. -/
def Obligations.EntryToHalted : Prop :=
  (∀ s : State,
     let t := enterHalted s
     t = { s with
       bridge := .halted, scanner := .idle, sweepPending := false, loadingStop := false,
       tickTimerOn := false, controlQueue := [], lanes := .replicate 4 .idle, portA := t.portA,
       portB := t.portB, cadences := t.cadences, windows := t.windows, raised := t.raised,
       raisings := t.raisings } ∧
     CauseRaised .state s t ∧
     (∀ p, (t.port p).requests = (s.port p).requests ∧ (t.port p).lastServed = (s.port p).lastServed ∧
       (t.port p).period = (s.port p).period ∧
       ∀ tag, t.tag p tag =
         match s.tag p tag with
         | .busy r _ => .quarantine r.role.kind (s.port p).period
         | .quarantine kind timer => .quarantine kind timer
         | .free => .free) ∧
     (∀ n, t.cad n = { s.cad n with
       place := if (s.cad n).place.isLane then .none else (s.cad n).place }) ∧
     ∀ n, t.win n =
       if (s.win n).state = .closing ∧ 0 < (s.win n).useCount ∧
           (s.win n).useCount ≤ windowHolds s n then
         { s.win n with state := .closed, config := none, useCount := 0 }
       else { s.win n with useCount := (s.win n).useCount - windowHolds s n }) ∧
  (∀ (s : State) (t : TagNo) (r : ReadInfo) (timer : Nat), s.tag .a t = .busy r timer →
     r.role = .control →
     (∃ u, exec (.readCompletion .a t .error) s = .next u ∧ u.bridge = .halted ∧
       FaultTaken .areaReadFailed .port 0 s u ∧ u.portA.writes = s.portA.writes ∧
       u.tag .a t = .free ∧ ∀ k, u.lane k = Lane.idle) ∧
     (∃ u, exec (.readTimeout .a t) s = .next u ∧ u.bridge = .halted ∧
       FaultTaken .areaReadFailed .port 0 s u ∧ u.portA.writes = s.portA.writes ∧
       u.tag .a t = .quarantine .control s.portA.period ∧ ∀ k, u.lane k = Lane.idle))

/-- QUIESCING ends in STOPPED exactly when the conditions of R159 hold together, and STATE is raised (R159,
R167). -/
def Obligations.QuiescingEnds : Prop :=
  ∀ s : State,
    let rest := s.bridge = .quiescing ∧ (∀ k, (s.lane k).state = .idle) ∧
      (∀ p t, (s.tag p t).isBusy = false) ∧ s.controlQueue = [] ∧ s.scanner = .idle ∧
      s.reader.busy = false ∧ s.portA.writes = []
    (rest → checkStopped s = { s with bridge := .stopped, raised := s.raised ||| Cause.state.bit }) ∧
    (¬rest → checkStopped s = s)

/-! ## Ports -/

/-- The arbiter of a port. While a control requester waits and a Port A tag is FREE, the first in the list
gets a FREE tag and leaves the list, and its read is issued (R117, R118). Otherwise the first lane with a
request waiting at the port, looked at from the lane after the last one served, gets one, where the port may
grant to data: below 20 data-held tags on Port A, with the link UP on Port B (R116, R118, R130). Nothing is
granted beyond those limits or with no tag FREE; the arbiter grants one tag after another, and stops only
when nothing can be granted. Which FREE tag is granted is the model's choice (log 6); the statement holds
for every one. A lane that a failure or a park request has reached no longer wants its tag: granted one, it
becomes the last lane served, returns the tag as FREE and issues no read (R61, R118). Such a lane withdraws
its request: where the port's next grant would go to it, either may be taken first, which a digit of
`choice` decides (R61, R117; log 19), and each of the two comes about for some value of it. A requester
asks: a control requester joins the back of the list, a lane's request waits at the port, and the arbiter
acts; while the link is DOWN Port B answers a lane PEER_LOST at once, and the lane records it (R61, R66,
R117, R130; log 10 for TALLY). A lane in MOVING asks its source port where it still has a segment to read
and a buffer entry for it, with no request waiting, no failure and no park request (R61). -/
def Obligations.Arbiter : Prop :=
  (∀ (s : State) (r : ControlRequest) (rest : List ControlRequest), s.controlQueue = r :: rest →
     (∃ t, s.tag .a t = .free) →
     ∃ t u, s.tag .a t = .free ∧ arbitrateOnce .a s = some u ∧ u.controlQueue = rest ∧
       u.tag .a t = .busy ⟨r.requester, .control, r.addr, r.length⟩ s.portA.period ∧
       (∀ other, other ≠ t → u.tag .a other = s.tag .a other) ∧ ReadsOnly s u ∧
       u.lanes = s.lanes ∧ u.portA.lastServed = s.portA.lastServed) ∧
  (∀ (s : State) (p : Domain) (k : LaneNo),
     (p = .a → s.controlQueue = [] ∧ dataHeld s.portA < 20) → (p = .b → s.linkUp = true) →
     (∃ t, s.tag p t = .free) → (s.lane k).tagRequest = some p →
     (∀ j, (j - (s.port p).lastServed - 1).val < (k - (s.port p).lastServed - 1).val →
       (s.lane j).tagRequest ≠ some p) →
     let l := s.lane k
     let wants := l.failure = none ∧ ¬(l.state = .moving ∧ l.parkRequest = true)
     ∃ t u, s.tag p t = .free ∧ arbitrateOnce p s = some u ∧
       (∀ other, other ≠ t → u.tag p other = s.tag p other) ∧ (u.port p).lastServed = k ∧
       (wants → ∃ read, u.tag p t = .busy read (s.port p).period ∧ read.requester = .lane k) ∧
       (¬wants → u = setLane k { l with tagRequest := none }
         (setPort p { s.port p with lastServed := k } { s with choice := u.choice }))) ∧
  (∀ (s : State) (k : LaneNo),
     let l := s.lane k
     let gone (x : State) : State := setLane k { l with tagRequest := none } x
     l.failure ≠ none ∨ l.state = .moving ∧ l.parkRequest = true →
     (l.tagRequest = none → withdrawTag k s = gone s) ∧
     ∀ p, l.tagRequest = some p →
       let next := (∃ t, s.tag p t = .free) ∧
         (p = .a → s.controlQueue = [] ∧ dataHeld s.portA < 20) ∧ (p = .b → s.linkUp = true) ∧
         ∀ j, (j - (s.port p).lastServed - 1).val < (k - (s.port p).lastServed - 1).val →
           (s.lane j).tagRequest ≠ some p
       let withdrawn (c : Nat) : State := gone { s with choice := c }
       let granted (c : Nat) : State :=
         gone (setPort p { s.port p with lastServed := k } { s with choice := c })
       (¬next → withdrawTag k s = gone s) ∧
       (next →
         (∃ c, withdrawTag k s = withdrawn c ∨ withdrawTag k s = granted c) ∧
         (∃ x c, withdrawTag k { s with choice := x } = withdrawn c) ∧
         ∃ x c, withdrawTag k { s with choice := x } = granted c)) ∧
  (∀ s : State,
     (s.controlQueue = [] → 20 ≤ dataHeld s.portA → arbitrate .a s = s) ∧
     (s.linkUp = false → arbitrate .b s = s) ∧
     (∀ p, (∀ t, s.tag p t ≠ .free) → arbitrate p s = s)) ∧
  (∀ (p : Domain) (s : State),
     (∀ u, arbitrateOnce p s = some u → arbitrate p s = arbitrate p u) ∧
     (arbitrateOnce p s = none → arbitrate p s = s) ∧ arbitrateOnce p (arbitrate p s) = none) ∧
  (∀ (s : State) (who : Requester) (addr : Addr) (length : Nat),
     requestControl who addr length s =
       arbitrate .a { s with controlQueue := s.controlQueue ++ [⟨who, addr, length⟩] }) ∧
  (∀ (s : State) (p : Domain) (k : LaneNo),
     let l := s.lane k
     let t := askTag k p s
     (p = .a ∨ s.linkUp = true → t = arbitrate p (setLane k { l with tagRequest := some p } s)) ∧
     (p = .b → s.linkUp = false → l.job ≠ .none → l.failure = none →
       (t.lane k).failure = some .peerLost ∧ (t.lane k).written = l.written ∧
       (t.lane k).tagRequest = none ∧
       (l.tagRequest = none → t.portA = s.portA ∧ t.portB = s.portB) ∧
       (l.outstanding = [] → l.confirmTag = none → StampsOutcome k .peerLost s t) ∧
       (l.outstanding ≠ [] ∨ l.confirmTag ≠ none → (t.lane k).state = l.state))) ∧
  (∀ (s : State) (k : LaneNo),
     let l := s.lane k
     let wants := l.state = .moving ∧
       ((∃ n, l.job = .service n) ∨ ∃ c, l.job = .errand c ∧ c.kind = some .copy) ∧
       l.readPoint < l.length ∧ l.buffer.length < 8 ∧ l.tagRequest = none ∧ l.failure = none ∧
       l.parkRequest = false
     (wants → askSource k s = askTag k l.srcPort s) ∧ (¬wants → askSource k s = s))

/-- A completion for a BUSY tag: the tag becomes FREE, the requester is handed the data or the error status,
and the arbiter acts (R121); that the tag is FREE before the requester reacts, and the arbiter acts on it
after, is the model's choice (log 9). Bytes that the answer does not reach are free values (log 7). The
expiry of a BUSY tag's timer: the read is answered as timed out, and the tag is in QUARANTINE for one
timeout period with its kind kept (R122); that an expiry for any other tag changes nothing is the model's
reading (log 3). The last step is the check of QUIESCING's end (R159). -/
def Obligations.ReadAnswers : Prop :=
  (∀ (s : State) (p : Domain) (t : TagNo) (r : ReadInfo) (timer : Nat), s.tag p t = .busy r timer →
     (∀ bytes, ∃ u beyond, beyond.length = r.length - bytes.length ∧
       u = { setTag p t .free s with freeCount := u.freeCount } ∧
       exec (.readCompletion p t (.data bytes)) s =
         .next (checkStopped
           (arbitrate p (readAnswered t r (.data (bytes.take r.length ++ beyond)) u)))) ∧
     exec (.readCompletion p t .error) s =
       .next (checkStopped (arbitrate p (readAnswered t r .error (setTag p t .free s))))) ∧
  (∀ (s : State) (p : Domain) (t : TagNo),
     (∀ r timer, s.tag p t = .busy r timer →
       exec (.readTimeout p t) s = .next (checkStopped (readAnswered t r .timeout
         (setTag p t (.quarantine r.role.kind (s.port p).period) s)))) ∧
     ((s.tag p t).isBusy = false → exec (.readTimeout p t) s = .next s))

/-- A completion for a tag in QUARANTINE, and the expiry of its quarantine: the tag becomes FREE and the
arbiter acts; where nobody waits at the port nothing else happens, and nothing is recorded; the expiry of a
quarantine that is over changes nothing, which is the model's reading of R123 (log 3). A completion for a
FREE tag answers no read: a STRAY_COMPLETION notice is reported for its port and nothing else happens (R124,
R130). -/
def Obligations.UnexpectedCompletions : Prop :=
  (∀ (s : State) (p : Domain) (t : TagNo) (kind : ReadKind) (timer : Nat),
     s.tag p t = .quarantine kind timer →
     (∀ answer, exec (.lateAnswer p t answer) s = .next (arbitrate p (setTag p t .free s))) ∧
     exec (.quarantineExpiry p t) s = .next (arbitrate p (setTag p t .free s)) ∧
     (nobodyWaits p s → arbitrate p (setTag p t .free s) = setTag p t .free s)) ∧
  (∀ (s : State) (p : Domain) (t : TagNo), (s.tag p t).quarantined = false →
     exec (.quarantineExpiry p t) s = .next s) ∧
  (∀ (s : State) (p : Domain) (t : TagNo) (answer : Answer), s.tag p t = .free →
     ∃ u, exec (.strayCompletion p t answer) s = .next u ∧
       u = { s with faultRec := u.faultRec, further := u.further, raised := u.raised,
                    raisings := u.raisings } ∧
       FaultTaken .strayCompletion .port (match p with | .a => 0 | .b => 1) s u ∧
       CauseRaised .fault s u)

/-- A posted write issued on a port joins the writes it holds, behind all of them, and changes nothing else;
Port B discards it while the link is DOWN (R113, R127, R130). Port A sends its oldest posted write: the
others keep their order, the raisings that waited for it alone set their causes and the rest wait for one
write fewer (R126, R174); then comes the check of QUIESCING's end (R159), which outside QUIESCING changes
nothing. Port B, while the link is UP, sends the oldest
posted write it holds of a lane; every other write stays, in its order (R127); with the link DOWN, or no
write of the lane held, nothing is sent, which is the model's reading (log 3). -/
def Obligations.PostedWrites : Prop :=
  (∀ (s : State) (p : Domain) (w : PostedWrite),
     (p = .a ∨ s.linkUp = true →
       ∃ t, issueWrite p w s = t ∧ (t.port p).writes = (s.port p).writes ++ [w] ∧
         (t.port p).tags = (s.port p).tags ∧
         t = setPort p { s.port p with requests := (t.port p).requests } s) ∧
     (p = .b → s.linkUp = false → issueWrite p w s = s)) ∧
  (∀ (s : State) (w : PostedWrite) (rest : List PostedWrite), s.portA.writes = w :: rest →
     ∃ t, exec (.postedWriteSent .portA) s = .next (checkStopped t) ∧
       (s.bridge ≠ .quiescing → checkStopped t = t) ∧
       t = { s with portA := { s.portA with requests := t.portA.requests }, raised := t.raised,
                    raisings := t.raisings } ∧
       t.portA.writes = rest ∧
       t.raisings = (s.raisings.filter (fun r => decide (1 < r.2))).map (fun r => (r.1, r.2 - 1)) ∧
       ∀ i, t.raised.getLsbD i =
         (s.raised.getLsbD i || s.raisings.any (fun r => decide (r.2 ≤ 1) && r.1.bit.getLsbD i))) ∧
  (∀ (s : State) (lane : LaneNo),
     (s.linkUp = true → (∃ w ∈ s.portB.writes, w.lane = some lane) →
       ∃ t, exec (.postedWriteSent (.portB lane)) s = .next t ∧
         t = { s with portB := { s.portB with requests := t.portB.requests } } ∧
         t.portB.writes = s.portB.writes.eraseP (fun w => w.lane == some lane)) ∧
     (s.linkUp = false ∨ (∀ w ∈ s.portB.writes, w.lane ≠ some lane) →
       exec (.postedWriteSent (.portB lane)) s = .next s))

/-! ## Copy lanes -/

/-- A lane in MOVING that is granted a tag it still wants issues the read of the segment at its read point,
of min(256, LENGTH − 256 × n) bytes at the source address plus 256 × n, and asks again if it still may (R60,
R61). A lane in CONFIRMING or PARKING reads the last word written, 4 bytes at the destination address plus
Written − 4 (R65, R72). The lowest unwritten segment, once the buffer holds it, is written to the
destination address plus 256 × n on the destination port: Written rises by its length and its buffer entry
is freed; while an earlier segment is still out, nothing is written (R62). A data read that completes with
data: the bytes go into the segment's buffer entry, the read leaves the outstanding ones, and the lowest
segments held are written in order; then the lane enters CONFIRMING where every byte is written, asks for
its next read where one is not, and in PARKING waits for the reads still out, asks for its confirming read
or ends the park (R61, R62, R65, R72); that the Dispatcher acts on a park's end once, with the lane IDLE, is
the model's choice (log 35). -/
def Obligations.Segments : Prop :=
  (∀ (s : State) (p : Domain) (k : LaneNo) (t : TagNo),
     (s.lane k).state = .moving → (s.lane k).failure = none → (s.lane k).parkRequest = false →
     let l := s.lane k
     let n := l.readPoint / 256
     let len := min 256 (l.length - 256 * n)
     let u := grantLane p k t s
     u.tag p t = .busy ⟨.lane k, .segment n, l.srcAddr + BitVec.ofNat 64 (256 * n), len⟩
       (s.port p).period ∧
     (u.lane k).readPoint = l.readPoint + len ∧
     (u.lane k).outstanding = l.outstanding ++ [⟨n, t⟩] ∧
     (u.lane k).buffer = l.buffer ++ [⟨n, none⟩] ∧
     (u.lane k).written = l.written ∧
     ((u.lane k).tagRequest = some l.srcPort ∨ (u.lane k).tagRequest = none) ∧
     (let may := l.readPoint + len < l.length ∧ l.buffer.length + 1 < 8
      ((u.lane k).tagRequest = some l.srcPort → may) ∧
      ((∃ m, l.job = .service m) ∨ (∃ c, l.job = .errand c ∧ c.kind = some .copy) →
        may → (u.lane k).tagRequest = some l.srcPort)) ∧
     ∀ j, j ≠ k → u.lane j = s.lane j) ∧
  (∀ (s : State) (p : Domain) (k : LaneNo) (t : TagNo),
     (s.lane k).state = .confirming ∨ (s.lane k).state = .parking → (s.lane k).failure = none →
     let l := s.lane k
     let u := grantLane p k t s
     u.tag p t = .busy ⟨.lane k, .confirming, l.dstAddr + BitVec.ofNat 64 l.written - 4, 4⟩
       (s.port p).period ∧
     u.lane k = { l with tagRequest := none, confirmTag := some t } ∧
     ∀ j, j ≠ k → u.lane j = s.lane j) ∧
  (∀ (s : State) (k : LaneNo),
     let l := s.lane k
     let n := l.written / 256
     (∀ bytes, l.buffer.find? (fun b => b.segment == n && b.bytes.isSome) = some ⟨n, some bytes⟩ →
       writeSegment k s = some (setLane k
         { l with
           written := l.written + min 256 (l.length - 256 * n)
           buffer := l.buffer.filter (fun b => b.segment != n) }
         (issueWrite l.dstPort
           { addr := l.dstAddr + BitVec.ofNat 64 (256 * n), bytes, lane := some k } s))) ∧
     ((∀ b ∈ l.buffer, b.segment = n → b.bytes = none) → writeSegment k s = none) ∧
     (l.buffer.length ≤ 8 → writeSegment k (writeSegments k 8 s) = none)) ∧
  (∀ (s : State) (k : LaneNo) (i : Nat),
     (writeSegment k s = none → writeSegments k i s = s) ∧
     ∀ s1, writeSegment k s = some s1 → writeSegments k (i + 1) s = writeSegments k i s1) ∧
  (∀ (s : State) (k : LaneNo) (n : Nat) (tag : TagNo) (r : ReadInfo) (bytes : List Byte),
     r.requester = .lane k → r.role = .segment n →
     let l := s.lane k
     l.failure = none →
     let placed : Lane := { l with
       outstanding := l.outstanding.filter (fun x => x.tag != tag)
       buffer := l.buffer.map (fun b => if b.segment = n then { b with bytes := some bytes } else b) }
     let u := writeSegments k 8 (setLane k placed s)
     let m := u.lane k
     let t := readAnswered tag r (.data bytes) s
     m = { placed with written := m.written, buffer := m.buffer } ∧
     u = { s with lanes := u.lanes, portA := u.portA, portB := u.portB } ∧
     (∀ j, j ≠ k → u.lane j = s.lane j) ∧
     (l.state = .moving →
       (m.written = l.length → t = enterConfirming k u) ∧
       (m.written ≠ l.length → t = askSource k u)) ∧
     (l.state = .parking →
       (m.outstanding ≠ [] → t = u) ∧
       (m.outstanding = [] → l.startByte < m.written → t = askTag k l.dstPort u) ∧
       (m.outstanding = [] → m.written ≤ l.startByte → t = dispatch (parkComplete k u))))

/-- The first failure of a data read of a lane in MOVING or PARKING: READ_ERROR or READ_TIMEOUT is recorded,
Written stays, nothing is written, and the lane enters STAMPING with that outcome once no read of it is out,
staying in its state until then (R19, R66, R72); its waiting request is withdrawn, which may meet a grant
(R61; log 19), and the ports stay but for the rotation of that one. A lane that has recorded a failure takes
every later answer as the settling of that read: the failure and Written stand, the data is discarded and
nothing is written (R66, R67). A confirming read that fails or times out, in CONFIRMING or PARKING, is
WRITE_ERROR, with Written as it stands (R65, R72). That TALLY rises at the entry to STAMPING is log 10. -/
def Obligations.ReadFailures : Prop :=
  (∀ (s : State) (k : LaneNo) (n : Nat) (tag : TagNo) (r : ReadInfo) (a : ReadAnswer) (o : Outcome),
     a = .error ∧ o = .readError ∨ a = .timeout ∧ o = .readTimeout →
     r.requester = .lane k → r.role = .segment n →
     let l := s.lane k
     l.state = .moving ∨ l.state = .parking → l.job ≠ .none → l.failure = none →
     let failed : Lane := { l with
       outstanding := l.outstanding.filter (fun x => x.tag != tag), failure := some o
       buffer := (l.buffer.filter (fun b => b.segment != n)).filter (fun b => b.bytes.isNone) }
     let w := withdrawTag k (setLane k failed s)
     let t := readAnswered tag r a s
     (t.lane k).failure = some o ∧ (t.lane k).written = l.written ∧ (t.lane k).held = l.held ∧
     (t.lane k).tagRequest = none ∧ t.portA = w.portA ∧ t.portB = w.portB ∧ t.choice = w.choice ∧
     t.portA = { s.portA with lastServed := t.portA.lastServed } ∧
     t.portB = { s.portB with lastServed := t.portB.lastServed } ∧
     (l.confirmTag = none → (∀ x ∈ l.outstanding, x.tag = tag) → StampsOutcome k o s t) ∧
     (l.confirmTag ≠ none ∨ (∃ x ∈ l.outstanding, x.tag ≠ tag) → t = w ∧ (t.lane k).state = l.state)) ∧
  (∀ (s : State) (k : LaneNo) (n : Nat) (tag : TagNo) (r : ReadInfo) (a : ReadAnswer) (o : Outcome),
     r.requester = .lane k →
     let l := s.lane k
     l.state = .moving ∨ l.state = .confirming ∨ l.state = .parking → l.job ≠ .none →
     l.failure = some o → o ≠ .done →
     let t := readAnswered tag r a s
     (r.role = .segment n →
       (t.lane k).failure = some o ∧ (t.lane k).written = l.written ∧
       t.portA = s.portA ∧ t.portB = s.portB ∧
       (l.confirmTag = none → (∀ x ∈ l.outstanding, x.tag = tag) → StampsOutcome k o s t) ∧
       (l.confirmTag ≠ none ∨ (∃ x ∈ l.outstanding, x.tag ≠ tag) → (t.lane k).state = l.state)) ∧
     (r.role = .confirming →
       (t.lane k).failure = some o ∧ (t.lane k).written = l.written ∧
       t.portA = s.portA ∧ t.portB = s.portB ∧
       (l.outstanding = [] → StampsOutcome k o s t) ∧
       (l.outstanding ≠ [] → (t.lane k).state = l.state))) ∧
  (∀ (s : State) (k : LaneNo) (tag : TagNo) (r : ReadInfo) (a : ReadAnswer), a = .error ∨ a = .timeout →
     r.requester = .lane k → r.role = .confirming →
     let l := s.lane k
     l.state = .confirming ∨ l.state = .parking → l.job ≠ .none → l.failure = none → l.outstanding = [] →
     let t := readAnswered tag r a s
     StampsOutcome k .writeError s t ∧ (t.lane k).failure = some .writeError ∧
     (t.lane k).written = l.written ∧ (l.tagRequest = none → t.portA = s.portA ∧ t.portB = s.portB))

/-- A job whose confirming read completes. A service (R18, R20, R24): at the stamp tick f it is DONE, or
LATE where f is greater than T + DEADLINE; TALLY rises by one, LATES with a late service, the overrun misses
of an ARMED cadence with no resume mark are counted, its next due tick is the first grid instant after f,
and the mark is cleared. That the counts rise in the entry at the entry to STAMPING, and not with their
writes, is log 10. An errand (R65, R69, R92): it is DONE, with its card's four part-half writes left, and
nothing else changes. -/
def Obligations.ServiceCompletes : Prop :=
  (∀ (s : State) (k : LaneNo) (n : CadNo) (tag : TagNo) (r : ReadInfo) (bytes : List Byte),
    r.requester = .lane k → r.role = .confirming →
    (s.lane k).state = .confirming → (s.lane k).job = .service n → (s.lane k).failure = none →
    let e := s.cad n
    let c := s.cfg n
    let late := e.currentDue + c.deadline < s.tick
    let overrun :=
      if e.state = .armed ∧ e.resumeMark = false then (s.tick - e.currentDue) / c.period else 0
    let t := readAnswered tag r (.data bytes) s
    t = { s with lanes := t.lanes, cadences := t.cadences } ∧
    (t.lane k).state = .stamping ∧ (t.lane k).stampTick = s.tick ∧
    (t.lane k).outcome = some (if late then .late else .done) ∧
    (t.lane k).stampLeft =
      [.slotOutcome, .slotMoved, .slotDue, .slotDone, .tally] ++
        (if 0 < overrun then [.misses] else []) ++ (if late then [.lates] else []) ∧
    t.cad n = { e with
      misses := e.misses + BitVec.ofNat 32 overrun
      lates := if late then e.lates + 1 else e.lates
      tally := e.tally + 1
      nextDue := if e.state = .armed then firstGridAfter c.period c.phase s.tick else e.nextDue
      resumeMark := false } ∧
    (∀ m, m ≠ n → t.cad m = s.cad m) ∧ ∀ j, j ≠ k → t.lane j = s.lane j) ∧
  (∀ (s : State) (k : LaneNo) (c : Card) (tag : TagNo) (r : ReadInfo) (bytes : List Byte),
    r.requester = .lane k → r.role = .confirming →
    (s.lane k).state = .confirming → (s.lane k).job = .errand c → (s.lane k).failure = none →
    let l := s.lane k
    readAnswered tag r (.data bytes) s =
      setLane k { l with
        state := .stamping, confirmTag := none, tagRequest := none, stampTick := s.tick
        outcome := some .done, stampLeft := [.cardOutcome, .cardMoved, .cardDone, .cardState] } s)

/-- A FILL segment: a posted write in which every word holds PATTERN, Written and the read point raised by
its length, and the entry to CONFIRMING after the last (R64). Where the lane may not write, nothing happens,
which is the model's reading (log 3). At the entry to CONFIRMING the lane asks its destination port for a
tag, and while the link is DOWN Port B answers PEER_LOST at once, with which the lane enters STAMPING (R65,
R66, R117, R130; log 10 for TALLY). -/
def Obligations.FillSegmentWrite : Prop :=
  (∀ (s : State) (k : LaneNo) (c : Card), (s.lane k).job = .errand c →
     let l := s.lane k
     let n := l.readPoint / 256
     let len := min 256 (l.length - 256 * n)
     let t := setLane k { l with readPoint := l.readPoint + len, written := l.written + len }
       (issueWrite l.dstPort
         { addr := l.dstAddr + BitVec.ofNat 64 (256 * n), bytes := patternBytes c.pattern (len / 4),
           lane := some k } s)
     let fills := l.state = .moving ∧ c.kind = some .fill ∧ l.readPoint < l.length ∧
       l.failure = none ∧ l.parkRequest = false
     (fills → l.readPoint + len < l.length → exec (.fillSegmentWrite k) s = .next t) ∧
     (fills → l.length ≤ l.readPoint + len →
       exec (.fillSegmentWrite k) s = .next (enterConfirming k t)) ∧
     (¬fills → exec (.fillSegmentWrite k) s = .next s)) ∧
  (∀ (s : State) (k : LaneNo),
     let l := s.lane k
     (l.dstPort = .a ∨ s.linkUp = true →
       enterConfirming k s =
         arbitrate l.dstPort
           (setLane k { l with state := .confirming, tagRequest := some l.dstPort } s)) ∧
     (l.dstPort = .b → s.linkUp = false → l.job ≠ .none → l.failure = none → l.outstanding = [] →
       l.confirmTag = none →
       StampsOutcome k .peerLost s (enterConfirming k s) ∧
       ((enterConfirming k s).lane k).failure = some .peerLost ∧
       ((enterConfirming k s).lane k).written = l.written))

/-- A park request (R71): it does nothing to a lane with no ERRAND job; it is set in one that holds an
errand, and a lane in MOVING with bytes left and no failure withdraws its waiting request, which may meet a
grant (R61; log 19), and goes to PARKING. There it waits for the reads
that are out; with none out it asks for the confirming read, or, having written nothing in this run, ends
the park at once (R72). A park completes when its confirming read does: the entry RUNNING on the lane
becomes PARKED with the progress Written, keeping its place; the windows are given back and the lane becomes
IDLE, which is an event at the Dispatcher (R72, R87). That the entry's return and the lane's becoming free
are taken there as one, with the lane IDLE, is the model's choice (log 35). The park requests of one gate
closing or STOP reach every lane (R48, R158), in the lanes' order the model chose (log 31). -/
def Obligations.Parking : Prop :=
  (∀ s : State,
     parkRequestLanes s = parkRequestLane 3 (parkRequestLane 2 (parkRequestLane 1 (parkRequestLane 0 s)))) ∧
  (∀ (s : State) (k : LaneNo),
     let l := s.lane k
     let t := parkRequestLane k s
     ((∀ c, l.job ≠ .errand c) → t = s) ∧
     (∀ c, l.job = .errand c →
       let parks := l.state = .moving ∧ l.readPoint < l.length ∧ l.failure = none
       let asked : State := setLane k { l with parkRequest := true } s
       let parking : State :=
         setLane k { l with parkRequest := true, state := .parking, tagRequest := none }
           (withdrawTag k asked)
       (¬parks → t = asked) ∧
       (parks → l.outstanding ≠ [] → t = parking) ∧
       (parks → l.outstanding = [] → l.startByte < l.written → t = askTag k l.dstPort parking) ∧
       (parks → l.outstanding = [] → l.written ≤ l.startByte → t = parkComplete k parking ∧
         t.lane k = Lane.idle ∧ t.errands = s.errands.map (fun e =>
           if e.state = .running k then { e with state := .parked, progress := l.written } else e)))) ∧
  (∀ (s : State) (k : LaneNo),
     let l := s.lane k
     let t := parkComplete k s
     t.lane k = Lane.idle ∧ (∀ j, j ≠ k → t.lane j = s.lane j) ∧
     t.errands = s.errands.map
       (fun e => if e.state = .running k then { e with state := .parked, progress := l.written } else e) ∧
     (∀ n, n ∉ l.held → t.win n = s.win n) ∧
     ∀ n, (s.win n).state = .opened →
       t.win n = { s.win n with useCount := (s.win n).useCount - l.held.count n }) ∧
  (∀ (s : State) (k : LaneNo) (tag : TagNo) (r : ReadInfo) (bytes : List Byte),
     r.requester = .lane k → r.role = .confirming →
     (s.lane k).state = .parking → (s.lane k).failure = none →
     let l := s.lane k
     ∃ t, readAnswered tag r (.data bytes) s = dispatch t ∧ t.lane k = Lane.idle ∧
       (∀ j, j ≠ k → t.lane j = s.lane j) ∧
       t.errands = s.errands.map
         (fun e => if e.state = .running k then { e with state := .parked, progress := l.written } else e) ∧
       (∀ n, n ∉ l.held → t.win n = s.win n) ∧
       ∀ n, (s.win n).state = .opened →
         t.win n = { s.win n with useCount := (s.win n).useCount - l.held.count n })

/-! ## Services, errands and closing jobs -/

/-- The LENT read of a service (R5, R16): the value replaces Last LENT and gives the outstanding count; none
outstanding is a NO_SLOT miss, one to RING_SIZE leads to the read of slot TALLY mod RING_SIZE at RING_ADDR +
32 × index, and more is a LEND_OVERRUN, which ends the job at once, a command of the cadence coming between
its report and the job's end or not (R23, R25; log 37); the orders of that end are the model's choice (log
8). The slot read of a service (R17, R19): a misaligned offset, or one that runs past its window, is
BAD_SLOT; a link lost on the way is PEER_LOST; otherwise the lane enters MOVING with the translated
addresses (R105), at the read point it holds, and asks its source port for a tag. That TALLY rises at the
entry to STAMPING is log 10. -/
def Obligations.ServiceReads : Prop :=
  (∀ (s : State) (k : LaneNo) (n : CadNo) (tag : TagNo) (r : ReadInfo) (bytes : List Byte),
     r.requester = .lane k → r.role = .control →
     (s.lane k).job = .service n → (s.lane k).loadStep = .lent →
     let lent := BitVec.ofNat 32 (fieldAt 0 4 bytes)
     let c := s.cfg n
     let e := s.cad n
     let outstanding := (lent - e.tally).toNat
     let s1 := setCad n { e with lastLent := lent } s
     let t := readAnswered tag r (.data bytes) s
     (outstanding = 0 →
       (t.lane k).state = .stamping ∧ (t.lane k).outcome = none ∧ (t.lane k).stampLeft = [.misses] ∧
       (t.cad n).lastLent = lent ∧ (t.cad n).tally = e.tally ∧ (t.cad n).lates = e.lates ∧
       (t.cad n).misses = e.misses + 1 + BitVec.ofNat 32 (overrunCount e c.period s.tick) ∧
       t = { s with lanes := t.lanes, cadences := t.cadences }) ∧
     (1 ≤ outstanding → outstanding ≤ c.ringSize →
       let slot := c.ringAddr + BitVec.ofNat 64 (32 * (e.tally.toNat % c.ringSize))
       t = requestControl (.lane k) slot 8
         (setLane k { s.lane k with loadStep := .slot, slotAddr := slot } s1)) ∧
     (c.ringSize < outstanding → 1 ≤ outstanding →
       t = jobEnd k s.tick (takeBetween n (holdingFault .lendOverrun n s1)))) ∧
  (∀ (s : State) (k : LaneNo) (n : CadNo) (tag : TagNo) (r : ReadInfo) (bytes : List Byte)
     (src dst : WinConfig),
     r.requester = .lane k → r.role = .control →
     (s.lane k).job = .service n → (s.lane k).loadStep = .slot →
     let c := s.cfg n
     (s.win c.srcWindow).config = some src → (s.win c.dstWindow).config = some dst →
     let a := fieldAt 0 4 bytes
     let b := fieldAt 4 4 bytes
     let good := a % 4 = 0 ∧ a + c.length ≤ src.size ∧ b % 4 = 0 ∧ b + c.length ≤ dst.size
     let t := readAnswered tag r (.data bytes) s
     (¬good → StampsOutcome k .badSlot s t ∧ (t.lane k).job = .service n ∧
       (t.lane k).written = (s.lane k).written ∧ (t.cad n).tally = (s.cad n).tally + 1 ∧
       (t.cad n).state = (s.cad n).state) ∧
     (good → (s.lane k).peerMark = true →
       StampsOutcome k .peerLost s t ∧ (t.lane k).job = .service n ∧
       (t.lane k).written = (s.lane k).written ∧ (t.cad n).tally = (s.cad n).tally + 1) ∧
     (good → (s.lane k).peerMark = false →
       t = askSource k (setLane k
         { s.lane k with
           state := .moving
           srcAddr := src.base + BitVec.ofNat 64 a
           dstAddr := dst.base + BitVec.ofNat 64 b } s)))

/-- The dispatch checks of a service handed to a lane (R14, R15, R54, R55, R107): a window that is not OPEN
or lacks its right ends the job at once with WINDOW_LOST, and the cadence is placed (R25): HELD at place
NONE, or its closing entry in the ready queue where it is DRAINING. A command of the cadence that waits may
come between the report and the end (log 37): a RESUME taken there puts an ARMED cadence back onto the
calendar, at the first grid instant after the present. Port B DOWN under a window in domain B is a miss,
with MISSES to write and nothing else, LATES and TALLY staying (R22, R24; log 10); otherwise both windows
are held and LENT is asked for. -/
def Obligations.DispatchChecks : Prop :=
  ∀ (s : State) (k : LaneNo) (n : CadNo),
    let c := s.cfg n
    let t := startService k n s
    let admits (w : WinNo) (write : Bool) (x : WinConfig) :=
      (s.win w).state = .opened ∧ (s.win w).config = some x ∧ x.grants write = true
    ((∀ src dst, ¬(admits c.srcWindow false src ∧ admits c.dstWindow true dst)) →
      t.lane k = Lane.idle ∧ FaultTaken .windowLost .cadence n s t ∧ t.windows = s.windows ∧
      (t.cad n).tally = (s.cad n).tally ∧ (t.cad n).misses = (s.cad n).misses ∧
      (t.cad n).lates = (s.cad n).lates ∧
      (∃ u, t = setLane k .idle
          (placeAtJobEnd n s.tick (takeBetween n (holdingFault .windowLost n u))) ∧
        u = { s with lanes := u.lanes, cadences := u.cadences } ∧ (∀ j, j ≠ k → u.lane j = s.lane j) ∧
        u.cad n = { s.cad n with place := .lane k } ∧ ∀ m, m ≠ n → u.cad m = s.cad m) ∧
      ((∀ d, s.scanner = .delivered d → d.record = .cadence n → s.ack d.record = some d.seq) →
        ((s.cad n).state = .armed ∨ (s.cad n).state = .paused →
          t.cad n = { s.cad n with state := .held, place := .none, resumeMark := false } ∧
          t.calendar = s.calendar ∧ t.ready = s.ready) ∧
        ((s.cad n).state = .draining →
          t.cad n = { s.cad n with place := .ready, resumeMark := false } ∧
          t.calendar = s.calendar ∧ t.ready.Perm (.closing n :: s.ready))) ∧
      (∀ d, s.scanner = .delivered d → d.record = .cadence n → d.command = .resume →
        s.ack d.record ≠ some d.seq → (s.cad n).state = .armed →
        ∃ x, let v := startService k n { s with choice := x }
          v.cad n = { s.cad n with
            place := .calendar, resumeMark := false, nextDue := firstGridAfter c.period c.phase s.tick } ∧
          v.calendar.Perm (n :: s.calendar) ∧ v.ready = s.ready ∧ v.lane k = Lane.idle)) ∧
    ∀ src dst, admits c.srcWindow false src → admits c.dstWindow true dst →
      (s.linkUp = false → src.domain = .b ∨ dst.domain = .b →
        let e := s.cad n
        t.lane k = { Lane.idle with
          state := .stamping, job := .service n, length := c.length, stampTick := s.tick
          outcome := none, stampLeft := [.misses] } ∧
        t.cad n = { e with
          place := .lane k, resumeMark := false
          misses := e.misses + 1 + BitVec.ofNat 32 (overrunCount e c.period s.tick)
          nextDue := if e.state = .armed then firstGridAfter c.period c.phase s.tick else e.nextDue } ∧
        t = { s with lanes := t.lanes, cadences := t.cadences } ∧ (∀ j, j ≠ k → t.lane j = s.lane j) ∧
        ∀ m, m ≠ n → t.cad m = s.cad m) ∧
      (s.linkUp = true ∨ src.domain = .a ∧ dst.domain = .a →
        (t.lane k).held = [c.srcWindow, c.dstWindow] ∧ (t.lane k).state = .loading ∧
        (t.cad n).place = .lane k ∧
        (∃ u, t = requestControl (.lane k) (s.hdr.cadenceTable + BitVec.ofNat 64 (64 * n) + 28) 4 u ∧
          u = { s with lanes := u.lanes, cadences := u.cadences, windows := u.windows } ∧
          u.lane k = { Lane.idle with
            state := .loading, job := .service n, length := c.length
            held := [c.srcWindow, c.dstWindow], srcPort := src.domain, dstPort := dst.domain } ∧
          (∀ j, j ≠ k → u.lane j = s.lane j) ∧
          u.cad n = { s.cad n with place := .lane k } ∧ (∀ m, m ≠ n → u.cad m = s.cad m) ∧
          ∀ w, u.win w = { s.win w with
            useCount := (s.win w).useCount + [c.srcWindow, c.dstWindow].count w }) ∧
        ∀ w, (t.win w).useCount =
          (s.win w).useCount + [c.srcWindow, c.dstWindow].count w)

/-- The start checks of an errand handed to a lane (R45, R54, R56, R107): a window it uses, both for a COPY
and the destination for a FILL, that is not OPEN, lacks its right or ends before the range stamps
WINDOW_CLOSED; Port B DOWN under a window in domain B stamps PEER_LOST; both take nothing and leave Written
at the recorded progress; otherwise the windows are held and the run begins in MOVING at the progress, with
the ports of the windows and the translated addresses (R55, R105), the destination's alone for a FILL, whose
lane holds the source address 0 (log 23), and the source port is asked for a tag. In every case the entry
becomes RUNNING on the lane (R45, R87). -/
def Obligations.ErrandStartChecks : Prop :=
  (∀ (s : State) (c : Card),
     let lets (b : Byte) (write : Bool) (offset : Nat) (w : WinNo) (x : WinConfig) : Prop :=
       w.val = b.toNat ∧ (s.win w).state = .opened ∧ (s.win w).config = some x ∧
         x.grants write = true ∧ offset + c.length ≤ x.size
     (c.kind = some .fill →
       ((∀ w x, ¬lets c.dstWindow true c.dstOffset w x) → errandStart s c = .windowClosed) ∧
       ∀ w x, lets c.dstWindow true c.dstOffset w x →
         errandStart s c =
           if s.linkUp = false ∧ x.domain = .b then .peerLost else .take [w] x x) ∧
     (c.kind ≠ some .fill →
       ((∀ v src w dst, ¬(lets c.srcWindow false c.srcOffset v src ∧
           lets c.dstWindow true c.dstOffset w dst)) → errandStart s c = .windowClosed) ∧
       ∀ v src w dst, lets c.srcWindow false c.srcOffset v src →
         lets c.dstWindow true c.dstOffset w dst →
         errandStart s c =
           if s.linkUp = false ∧ (src.domain = .b ∨ dst.domain = .b) then .peerLost
           else .take [v, w] src dst)) ∧
  ∀ (s : State) (k : LaneNo) (e : Errand),
    let t := startErrand k e s
    (t.lane k).job = .errand e.card ∧ (t.lane k).startByte = e.progress ∧
    t.errands = s.errands.map
      (fun x => if x.card.addr = e.card.addr then { x with state := .running k } else x) ∧
    (errandStart s e.card = .windowClosed →
      StampsOutcome k .windowClosed s t ∧
      (t.lane k).written = e.progress ∧ (t.lane k).held = [] ∧ t.windows = s.windows) ∧
    (errandStart s e.card = .peerLost →
      StampsOutcome k .peerLost s t ∧
      (t.lane k).written = e.progress ∧ (t.lane k).held = [] ∧ t.windows = s.windows) ∧
    ∀ held src dst, errandStart s e.card = .take held src dst →
      (t.lane k).held = held ∧ (t.lane k).written = e.progress ∧
      (src.domain = .a ∨ s.linkUp = true → (t.lane k).state = .moving) ∧
      (∃ u, t = askSource k u ∧
        u = { s with lanes := u.lanes, windows := u.windows, errands := t.errands } ∧
        u.lane k = { Lane.idle with
          state := .moving, job := .errand e.card, length := e.card.length, held := held
          startByte := e.progress, readPoint := e.progress, written := e.progress
          srcPort := src.domain, dstPort := dst.domain
          srcAddr :=
            if e.card.kind = some .fill then 0 else src.base + BitVec.ofNat 64 e.card.srcOffset
          dstAddr := dst.base + BitVec.ofNat 64 e.card.dstOffset } ∧
        (∀ j, j ≠ k → u.lane j = s.lane j) ∧
        ∀ w, u.win w = { s.win w with useCount := (s.win w).useCount + held.count w }) ∧
      ∀ w, (t.win w).useCount = (s.win w).useCount + held.count w

/-- A closing job handed to a lane (R26, R54): its cadence stands in the lane, no window is held, and the
read of LENT is asked for; that the lane's record has the cadence's LENGTH is read from R52 (log 38). A
closing job whose LENT read is answered enters STAMPING, with the CANCELLED slots in ring order, one for
each count from TALLY up to LENT, each slot of the ring once where more are lent than it holds, and then
TALLY, and C_STATE with RESULT (R26, R27, R59); that the last two go out in one step is the model's choice
(log 30). The stamping writes of a closing job, but for those two: a cancelled slot's fields, and the TALLY
write that sets TALLY to the LENT read, after the LEND_OVERRUN of a ring overrun (R26, R27). -/
def Obligations.ClosingJob : Prop :=
  (∀ (s : State) (k : LaneNo) (n : CadNo),
     startClosing k n s =
       requestControl (.lane k) (s.hdr.cadenceTable + BitVec.ofNat 64 (64 * n) + 28) 4
         (setCad n { s.cad n with place := .lane k }
           (setLane k { Lane.idle with
             state := .loading, job := .closing n, length := (s.cfg n).length, held := [] } s))) ∧
  (∀ (s : State) (k : LaneNo) (n : CadNo) (tag : TagNo) (r : ReadInfo) (bytes : List Byte),
     r.requester = .lane k → r.role = .control → (s.lane k).job = .closing n →
     let lent := BitVec.ofNat 32 (fieldAt 0 4 bytes)
     let c := s.cfg n
     let e := s.cad n
     let outstanding := (lent - e.tally).toNat
     let cancelled (index : Nat) : List StampItem :=
       [.cancelOutcome index, .cancelMoved index, .cancelDue index, .cancelDone index]
     let t := readAnswered tag r (.data bytes) s
     t = { s with lanes := t.lanes, cadences := t.cadences } ∧
     t.cad n = { e with lastLent := lent } ∧ (t.lane k).state = .stamping ∧
     (outstanding ≤ c.ringSize →
       (t.lane k).stampLeft =
         (List.range outstanding).flatMap
             (fun j => cancelled ((e.tally + BitVec.ofNat 32 j).toNat % c.ringSize)) ++
           [.closeTally false, .closeEnd]) ∧
     (c.ringSize < outstanding →
       (t.lane k).stampLeft =
         (List.range c.ringSize).flatMap
             (fun j => cancelled ((e.tally.toNat % c.ringSize + j) % c.ringSize)) ++
           [.closeTally true, .closeEnd])) ∧
  (∀ (s : State) (k : LaneNo) (n : CadNo) (item : StampItem) (rest : List StampItem), rest ≠ [] →
     let l := s.lane k
     l.state = .stamping → l.job = .closing n → l.stampLeft = item :: rest →
     let e := s.cad n
     let slot (i : Nat) : Addr := (s.cfg n).ringAddr + BitVec.ofNat 64 (32 * i)
     let record := s.hdr.cadenceTable + BitVec.ofNat 64 (64 * n)
     let s1 := setLane k { l with stampLeft := rest } s
     (∀ i, item = .cancelOutcome i →
       exec (.stampingWrite k) s = .next (issueWrite .a (fieldWrite (slot i + 8) 4 6) s1)) ∧
     (∀ i, item = .cancelMoved i →
       exec (.stampingWrite k) s = .next (issueWrite .a (fieldWrite (slot i + 12) 4 0) s1)) ∧
     (∀ i, item = .cancelDue i →
       exec (.stampingWrite k) s = .next (issueWrite .a (fieldWrite (slot i + 16) 8 0) s1)) ∧
     (∀ i, item = .cancelDone i →
       exec (.stampingWrite k) s = .next (issueWrite .a (fieldWrite (slot i + 24) 8 s.tick) s1)) ∧
     (item = .closeTally false →
       exec (.stampingWrite k) s =
         .next (issueWrite .a (fieldWrite (record + 44) 4 e.lastLent.toNat)
           (setCad n { e with tally := e.lastLent } s1))) ∧
     (item = .closeTally true → e.state = .draining →
       exec (.stampingWrite k) s =
         .next (issueWrite .a (fieldWrite (record + 44) 4 e.lastLent.toNat)
           (setCad n { e with tally := e.lastLent } (reportFault .lendOverrun .cadence n s1)))))

/-- The stamping writes of a service and of an errand, but for the last of a job: each is one posted write
through Port A of the field, at its address and with the value the entry or the lane holds (R20, R21, R69,
R177, R182). Nothing else changes but a CADENCE_NOTE that TALLY brings (R21). The OUTCOME written is the
code of R186. -/
def Obligations.StampingWrites : Prop :=
  (∀ l : Lane, ∀ o, l.outcome = some o → l.outcomeCode = o.code) ∧
  (Outcome.done.code = 1 ∧ Outcome.late.code = 2 ∧ Outcome.readError.code = 3 ∧
   Outcome.readTimeout.code = 4 ∧ Outcome.peerLost.code = 5 ∧ Outcome.cancelled.code = 6 ∧
   Outcome.badCard.code = 7 ∧ Outcome.windowClosed.code = 8 ∧ Outcome.writeError.code = 9 ∧
   Outcome.badSlot.code = 10) ∧
  ∀ (s : State) (k : LaneNo) (item : StampItem) (rest : List StampItem), rest ≠ [] →
    let l := s.lane k
    l.state = .stamping → l.stampLeft = item :: rest →
    (∀ n, l.job = .service n →
      let e := s.cad n
      let record := s.hdr.cadenceTable + BitVec.ofNat 64 (64 * n)
      let field : Option PostedWrite :=
        match item with
        | .slotOutcome => some (fieldWrite (l.slotAddr + 8) 4 l.outcomeCode)
        | .slotMoved => some (fieldWrite (l.slotAddr + 12) 4 l.written)
        | .slotDue => some (fieldWrite (l.slotAddr + 16) 8 e.currentDue)
        | .slotDone => some (fieldWrite (l.slotAddr + 24) 8 l.stampTick)
        | .tally => some (fieldWrite (record + 44) 4 e.tally.toNat)
        | .misses => some (fieldWrite (record + 48) 4 e.misses.toNat)
        | .lates => some (fieldWrite (record + 52) 4 e.lates.toNat)
        | _ => none
      ∀ w, field = some w →
        ∃ u t, u = setLane k { l with stampLeft := rest } (issueWrite .a w s) ∧
          exec (.stampingWrite k) s = .next t ∧
          t = { u with raised := t.raised, raisings := t.raisings } ∧
          (item = .tally ∧ 0 < (s.cfg n).notifyEvery ∧ e.tally.toNat % (s.cfg n).notifyEvery = 0 →
            CauseRaised .cadenceNote u t) ∧
          (¬(item = .tally ∧ 0 < (s.cfg n).notifyEvery ∧
              e.tally.toNat % (s.cfg n).notifyEvery = 0) → t = u)) ∧
    (∀ c, l.job = .errand c →
      let field : Option PostedWrite :=
        match item with
        | .cardOutcome => some (fieldWrite (c.addr + 36) 4 l.outcomeCode)
        | .cardMoved => some (fieldWrite (c.addr + 40) 4 l.written)
        | .cardDone => some (fieldWrite (c.addr + 44) 4 l.stampTick)
        | .cardState => some (fieldWrite (c.addr + 32) 4 2)
        | _ => none
      ∀ w, field = some w →
        exec (.stampingWrite k) s =
          .next (setLane k { l with stampLeft := rest } (issueWrite .a w s)))

/-- The last stamping write of a job and the job end behind it (R69, R70): of a service that stamps its slot
(TALLY, or MISSES or LATES where they follow), with the CADENCE_NOTE it brings and then the SLOT_ERROR
notice of an outcome other than DONE and LATE (R19, R20, R21); of a service that missed, with the holding
fault MISS_HELD under HOLD (R22); of an errand, with ERRAND_NOTE where the card's NOTIFY was set and the
ERRAND_ERROR notice of any outcome but DONE (R92, R93); of a closing job, with the COMMAND_DONE of a RETIRE
that carried CMD_NOTIFY (R26), C_STATE and RESULT going out in one step, which is the model's choice (log
30). That MISS_HELD, SLOT_ERROR, ERRAND_NOTE and ERRAND_ERROR come after the last write and before the job
ends, with its window drains and hand-outs, is log 11; a command of the cadence may come between MISS_HELD
and the job's end (R23, R25; log 37). The last step is the check of QUIESCING's end (R159). -/
def Obligations.LastStampingWrite : Prop :=
  (∀ (s : State) (k : LaneNo) (n : CadNo) (o : Outcome) (item : StampItem) (w : PostedWrite),
     let l := s.lane k
     let e := s.cad n
     let record := s.hdr.cadenceTable + BitVec.ofNat 64 (64 * n)
     l.state = .stamping → l.job = .service n → l.stampLeft = [item] → l.outcome = some o →
     item = .tally ∧ w = fieldWrite (record + 44) 4 e.tally.toNat ∨
       item = .misses ∧ w = fieldWrite (record + 48) 4 e.misses.toNat ∨
       item = .lates ∧ w = fieldWrite (record + 52) 4 e.lates.toNat →
     let u := issueWrite .a w (setLane k { l with stampLeft := [] } s)
     let notes := item = .tally ∧ 0 < (s.cfg n).notifyEvery ∧
       e.tally.toNat % (s.cfg n).notifyEvery = 0
     let u1 := if notes then raise .cadenceNote u else u
     (o = .done ∨ o = .late →
       exec (.stampingWrite k) s = .next (checkStopped (jobEnd k l.stampTick u1))) ∧
     (o ≠ .done ∧ o ≠ .late →
       exec (.stampingWrite k) s =
         .next (checkStopped (jobEnd k l.stampTick (reportFault .slotError .cadence n u1))))) ∧
  (∀ (s : State) (k : LaneNo) (n : CadNo),
     let l := s.lane k
     let e := s.cad n
     l.state = .stamping → l.job = .service n → l.stampLeft = [.misses] → l.outcome = none →
     let u := issueWrite .a
       (fieldWrite (s.hdr.cadenceTable + BitVec.ofNat 64 (64 * n) + 48) 4 e.misses.toNat)
       (setLane k { l with stampLeft := [] } s)
     ((s.cfg n).missPolicy = .skip →
       exec (.stampingWrite k) s = .next (checkStopped (jobEnd k l.stampTick u))) ∧
     ((s.cfg n).missPolicy = .hold →
       exec (.stampingWrite k) s =
         .next (checkStopped (jobEnd k l.stampTick
           (takeBetween n (holdingFault .missHeld n u)))))) ∧
  (∀ (s : State) (k : LaneNo) (c : Card),
     let l := s.lane k
     l.state = .stamping → l.job = .errand c → l.stampLeft = [.cardState] →
     let u := issueWrite .a (fieldWrite (c.addr + 32) 4 2) (setLane k { l with stampLeft := [] } s)
     let u1 := if c.notify then raise .errandNote u else u
     (l.outcome = some .done →
       exec (.stampingWrite k) s = .next (checkStopped (jobEnd k l.stampTick u1))) ∧
     (l.outcome ≠ some .done →
       exec (.stampingWrite k) s = .next (checkStopped (jobEnd k l.stampTick
         (reportFault .errandError .errand c.takeNo.toNat u1))))) ∧
  (∀ (s : State) (k : LaneNo) (n : CadNo),
     let l := s.lane k
     l.state = .stamping → l.job = .closing n → l.stampLeft = [.closeEnd] →
     let e := s.cad n
     let record := s.hdr.cadenceTable + BitVec.ofNat 64 (64 * n)
     let u := issueWrite .a (fieldWrite (record + 41) 1 3)
       (issueWrite .a (fieldWrite (record + 40) 1 0)
         (setCad n { e with state := .idle, place := .none } (setLane k { l with stampLeft := [] } s)))
     exec (.stampingWrite k) s =
       .next (checkStopped (jobEnd k l.stampTick
         (if e.retireNotify then raise .commandDone u else u))))

/-- The end of a job (R57, R70, R89): the windows it held are given back, its cadence is placed or its
errand's entry leaves the queue, at which a reader in HOLDING checks again, the Dispatcher acts, and the
lane becomes IDLE, at which the Dispatcher acts again. A closing job has placed its cadence already (R26).
The order of the three is the model's choice (log 8); so is the order in which a job's two windows are
released (log 32), and that the reader's check comes before the Dispatcher acts on the departure (log 33).
Where a cadence goes when its service job ends (R25): `u` is the stamp tick, or the tick count where the job
has none. -/
def Obligations.JobEnd : Prop :=
  (∀ (s : State) (k : LaneNo) (u : Nat),
     let l := s.lane k
     let away := setLane k { l with held := [], job := .none } (releaseWindows l.held s)
     ∃ s1, jobEnd k u s = dispatch (setLane k .idle (dispatch s1)) ∧
       (∀ n, n ∉ l.held → s1.win n = s.win n) ∧
       (∀ n, (s.win n).state = .opened → s1.win n =
         { s.win n with useCount := (s.win n).useCount - l.held.count n }) ∧
       (∀ n, l.job = .service n → s1 = placeAtJobEnd n u away) ∧
       (∀ n, l.job = .closing n → s1 = away) ∧
       (∀ c, l.job = .errand c →
         s1 = recheckHolding { setLane k { l with held := [] } (releaseWindows l.held s) with
           errands := s.errands.filter (fun e => e.card.addr != c.addr) } ∧
         errandAddrs s1 = (errandAddrs s).filter (fun a => a != c.addr))) ∧
  (∀ (s : State) (n : CadNo) (u : Nat),
     let e := s.cad n
     let t := placeAtJobEnd n u s
     let due := firstGridAfter (s.cfg n).period (s.cfg n).phase u
     (e.state = .paused ∨ e.state = .held →
       t = setCad n { e with place := .none, resumeMark := false } s) ∧
     (e.state = .draining →
       t.cad n = { e with place := .ready, resumeMark := false } ∧
       t.ready.Perm (.closing n :: s.ready) ∧ t.calendar = s.calendar) ∧
     (e.state = .armed → s.bridge ≠ .running ∨ s.tick < due →
       t.cad n = { e with nextDue := due, place := .calendar, resumeMark := false } ∧
       t.calendar.Perm (n :: s.calendar) ∧ t.ready = s.ready) ∧
     (e.state = .armed → s.bridge = .running → due ≤ s.tick →
       t.cad n =
         { e with nextDue := due, currentDue := due, place := .ready, resumeMark := false } ∧
       n ∉ t.calendar ∧ t.ready.Perm (.service n :: s.ready)))

/-- The due grid (R4): the first grid instant strictly after a tick is the least later tick that is PHASE
modulo PERIOD. -/
def Obligations.FirstGridInstant : Prop :=
  ∀ (period phase u : Nat), 0 < period → phase < period →
    let t := firstGridAfter period phase u
    u < t ∧ t % period = phase ∧ (∀ v, u < v → v % period = phase → t ≤ v) ∧ t ≤ u + period

/-! ## Commands of the exchange area -/

/-- What every decision of a delivered command has in common (R7, R100, R141): the writes go out behind
`before`, with RESULT and then ACK_SEQ last; the record's acknowledged number is the CMD_SEQ delivered and
no other number moves; COMMAND_DONE is raised behind the writes for a final result whose CMD_NOTIFY was set,
and no cause else. The RESULT written is the code of R186. -/
def Obligations.CommandAnswer : Prop :=
  (Result.ok.code = 1 ∧ Result.inProgress.code = 2 ∧ Result.completed.code = 3 ∧
   Result.refusedState.code = 4 ∧ Result.refusedConfig.code = 5 ∧ Result.refusedRing.code = 6 ∧
   Result.refusedWindow.code = 7 ∧ Result.refusedBusy.code = 8 ∧ Result.unknown.code = 9) ∧
  ∀ (s : State) (d : Delivery) (result : Result),
    let t := answerCommand d result s
    t.portA.writes = s.portA.writes ++ answerWrites s d result ∧
    t.ack d.record = some d.seq ∧ (∀ r, r ≠ d.record → t.ack r = s.ack r) ∧
    t.raised = s.raised ∧
    t.raisings = s.raisings ++
      (if result ≠ .inProgress ∧ d.notify = true then [(Cause.commandDone, t.portA.writes.length)]
        else []) ∧
    t = { s with
      portA := { s.portA with requests := t.portA.requests }, ackWindows := t.ackWindows,
      ackCadences := t.ackCadences, raisings := t.raisings }

/-- An ARM of an IDLE cadence whose configuration, windows and ring pass is accepted (R8, R9, R10): the
configuration and LENT are copied, the cadence is ARMED on the calendar at the first grid instant after the
present, the counts stay, and C_STATE, RESULT OK and ACK_SEQ are written. The sweep then goes on. -/
def Obligations.ArmAccepted : Prop :=
  ∀ (s : State) (n : CadNo) (d : Delivery) (f : ArmFields) (c : CadConfig),
    s.scanner = .delivered d → d.record = .cadence n → d.command = .arm f → s.ack d.record ≠ some d.seq →
    (s.cad n).state = .idle → f.config = some c → armWindowsOk s c = true →
    f.lent = (s.cad n).tally →
    ∃ u t, exec (.arm n) s = .next t ∧ GoesOn d.record (answerCommand d .ok u) t ∧
      u = { s with
        cadences := u.cadences, calendar := u.calendar
        portA := { s.portA with requests := u.portA.requests } } ∧
      u.portA.writes = s.portA.writes ++
        [fieldWrite (s.hdr.cadenceTable + BitVec.ofNat 64 (64 * n) + 40) 1 1] ∧
      u.cad n = { s.cad n with
        config := some c, lastLent := f.lent, resumeMark := false, state := .armed, place := .calendar
        nextDue := firstGridAfter c.period c.phase s.tick } ∧
      (∀ m, m ≠ n → u.cad m = s.cad m) ∧ u.calendar.Perm (n :: s.calendar) ∧
      s.tick < (u.cad n).nextDue

/-- The cadence commands that are refused (R7 to R13): the result by the cadence's state, and nothing
changed but what the answer writes. -/
def Obligations.CadenceRefusals : Prop :=
  ∀ (s : State) (n : CadNo) (d : Delivery) (result : Result),
    s.scanner = .delivered d → d.record = .cadence n → s.ack d.record ≠ some d.seq →
    let state := (s.cad n).state
    (∀ f, d.command = .arm f →
      (state = .draining ∧ result = .refusedBusy ∨
        (state = .armed ∨ state = .paused ∨ state = .held) ∧ result = .refusedState ∨
        state = .idle ∧ f.config = none ∧ result = .refusedConfig ∨
        (∃ c, state = .idle ∧ f.config = some c ∧ armWindowsOk s c = false ∧
          result = .refusedWindow) ∨
        ∃ c, state = .idle ∧ f.config = some c ∧ armWindowsOk s c = true ∧
          f.lent ≠ (s.cad n).tally ∧ result = .refusedRing) →
      ∃ t, exec (.arm n) s = .next t ∧ GoesOn d.record (answerCommand d result s) t) ∧
    (d.command = .pause →
      state = .draining ∧ result = .refusedBusy ∨
        (state = .idle ∨ state = .paused) ∧ result = .refusedState →
      ∃ t, exec (.pause n) s = .next t ∧ GoesOn d.record (answerCommand d result s) t) ∧
    (d.command = .resume →
      state = .draining ∧ result = .refusedBusy ∨
        (state = .idle ∨ state = .armed) ∧ result = .refusedState →
      ∃ t, exec (.resume n) s = .next t ∧ GoesOn d.record (answerCommand d result s) t) ∧
    (d.command = .retire →
      state = .draining ∧ result = .refusedBusy ∨ state = .idle ∧ result = .refusedState →
      ∃ t, exec (.retire n) s = .next t ∧ GoesOn d.record (answerCommand d result s) t)

/-- A PAUSE of an ARMED or HELD cadence (R11): PAUSED, off the calendar and out of the ready queue, in its
lane where it is in one, with the mark cleared; C_STATE, RESULT OK and ACK_SEQ are written; where its entry
left the ready queue the Dispatcher acts (R42); and the sweep goes on. That the Dispatcher acts before the
scanner asks for its next read is the model's choice (log 33). -/
def Obligations.PauseAccepted : Prop :=
  ∀ (s : State) (n : CadNo) (d : Delivery),
    s.scanner = .delivered d → d.record = .cadence n → d.command = .pause →
    s.ack d.record ≠ some d.seq → (s.cad n).state = .armed ∨ (s.cad n).state = .held →
    let e := s.cad n
    let u := issueWrite .a (fieldWrite (s.hdr.cadenceTable + BitVec.ofNat 64 (64 * n) + 40) 1 2)
      (setCad n
        { e with
          state := .paused, resumeMark := false
          place := if e.place.isLane then e.place else .none }
        { s with
          calendar := s.calendar.filter (fun m => m != n)
          ready := s.ready.filter (fun x => x != .service n) })
    let v := answerCommand d .ok u
    ∃ t, exec (.pause n) s = .next t ∧
      (.service n ∉ s.ready → GoesOn d.record v t) ∧ (.service n ∈ s.ready → GoesOn d.record (dispatch v) t)

/-- A RESUME of a PAUSED or HELD cadence (R12): at place NONE it is ARMED on the calendar at the first grid
instant after the present; in a lane it is ARMED with the resume mark set. C_STATE, RESULT OK and ACK_SEQ
are written, MISSES stays, and the sweep goes on. -/
def Obligations.ResumeAccepted : Prop :=
  ∀ (s : State) (n : CadNo) (d : Delivery),
    s.scanner = .delivered d → d.record = .cadence n → d.command = .resume →
    s.ack d.record ≠ some d.seq → (s.cad n).state = .paused ∨ (s.cad n).state = .held →
    let e := s.cad n
    ∃ u t, exec (.resume n) s = .next t ∧ GoesOn d.record (answerCommand d .ok u) t ∧
      u = { s with
        cadences := u.cadences, calendar := u.calendar
        portA := { s.portA with requests := u.portA.requests } } ∧
      u.portA.writes = s.portA.writes ++
        [fieldWrite (s.hdr.cadenceTable + BitVec.ofNat 64 (64 * n) + 40) 1 1] ∧
      (∀ m, m ≠ n → u.cad m = s.cad m) ∧
      (e.place.isLane = false →
        u.cad n = { e with
          state := .armed, place := .calendar
          nextDue := firstGridAfter (s.cfg n).period (s.cfg n).phase s.tick } ∧
        u.calendar.Perm (n :: s.calendar)) ∧
      (e.place.isLane = true →
        u.cad n = { e with state := .armed, resumeMark := true } ∧ u.calendar = s.calendar)

/-- A RETIRE of an ARMED, PAUSED or HELD cadence (R13): DRAINING, off the calendar and out of the ready
queue, with CMD_NOTIFY kept; C_STATE, RESULT IN_PROGRESS and ACK_SEQ are written; unless it is in a lane,
its closing entry joins the ready queue; where the ready queue has changed the Dispatcher acts (R42); and
the sweep goes on. That the Dispatcher acts before the scanner asks for its next read is the model's choice
(log 33); that a service entry gives way to the closing entry in one change is its reading (log 24). -/
def Obligations.RetireAccepted : Prop :=
  ∀ (s : State) (n : CadNo) (d : Delivery),
    s.scanner = .delivered d → d.record = .cadence n → d.command = .retire →
    s.ack d.record ≠ some d.seq →
    (s.cad n).state = .armed ∨ (s.cad n).state = .paused ∨ (s.cad n).state = .held →
    let e := s.cad n
    let e1 : CadEntry :=
      { e with
        state := .draining, resumeMark := false, retireNotify := d.notify
        place := if e.place.isLane then e.place else .ready }
    let u := answerCommand d .inProgress
      (issueWrite .a (fieldWrite (s.hdr.cadenceTable + BitVec.ofNat 64 (64 * n) + 40) 1 4)
        (setCad n e1
          { s with
            calendar := s.calendar.filter (fun m => m != n)
            ready := s.ready.filter (fun x => x != .service n) }))
    ∃ v t, exec (.retire n) s = .next t ∧ v = { u with ready := v.ready } ∧
      (e.place.isLane = true → v.ready = u.ready) ∧
      (e.place.isLane = false → v.ready.Perm (.closing n :: u.ready)) ∧
      (v.ready = s.ready → GoesOn d.record v t) ∧ (v.ready ≠ s.ready → GoesOn d.record (dispatch v) t)

/-- An OPEN of a CLOSED window is accepted where the configuration passes (R101): the window is OPEN with it
and use count 0, W_STATE, RESULT OK and ACK_SEQ are written, and the sweep goes on; otherwise it is refused,
and nothing changes but what the answer writes. A CLOSE (R102): an OPEN window with use count 0 becomes
CLOSED, one that is held becomes CLOSING with CMD_NOTIFY kept, W_STATE, RESULT and ACK_SEQ are written, and
the sweep goes on; CLOSED and CLOSING windows refuse it. The release of a hold (R103, R104): the use count
falls by one; a CLOSING window whose count reaches 0 drains, with W_STATE CLOSED and RESULT COMPLETED
written and COMMAND_DONE raised where Close notify is set; any other release writes nothing. -/
def Obligations.WindowCommands : Prop :=
  (∀ (s : State) (n : WinNo) (d : Delivery) (f : OpenFields),
     s.scanner = .delivered d → d.record = .window n → d.command = .openWindow f →
     s.ack d.record ≠ some d.seq →
     ∃ t, exec (.openWindow n) s = .next t ∧
       (∀ c, (s.win n).state = .closed → f.config = some c →
         GoesOn d.record (answerCommand d .ok
           (issueWrite .a (fieldWrite (s.hdr.windowTable + BitVec.ofNat 64 (32 * n) + 24) 1 1)
             (setWin n { s.win n with state := .opened, config := some c, useCount := 0 } s))) t) ∧
       ((s.win n).state = .closed → f.config = none →
         GoesOn d.record (answerCommand d .refusedConfig s) t) ∧
       ((s.win n).state = .opened → GoesOn d.record (answerCommand d .refusedState s) t) ∧
       ((s.win n).state = .closing → GoesOn d.record (answerCommand d .refusedBusy s) t)) ∧
  (∀ (s : State) (n : WinNo) (d : Delivery),
     s.scanner = .delivered d → d.record = .window n → d.command = .closeWindow →
     s.ack d.record ≠ some d.seq →
     let stateField := s.hdr.windowTable + BitVec.ofNat 64 (32 * n) + 24
     ∃ t, exec (.closeWindow n) s = .next t ∧
       ((s.win n).state = .opened → (s.win n).useCount = 0 →
         GoesOn d.record (answerCommand d .ok
           (issueWrite .a (fieldWrite stateField 1 0)
             (setWin n { s.win n with state := .closed, config := none } s))) t) ∧
       ((s.win n).state = .opened → 0 < (s.win n).useCount →
         GoesOn d.record (answerCommand d .inProgress
           (issueWrite .a (fieldWrite stateField 1 2)
             (setWin n { s.win n with state := .closing, closeNotify := d.notify } s))) t) ∧
       ((s.win n).state = .closed → GoesOn d.record (answerCommand d .refusedState s) t) ∧
       ((s.win n).state = .closing → GoesOn d.record (answerCommand d .refusedBusy s) t)) ∧
  (∀ (s : State) (n : WinNo),
     let e := s.win n
     let record := s.hdr.windowTable + BitVec.ofNat 64 (32 * n)
     (¬(e.state = .closing ∧ e.useCount = 1) →
       releaseWindow n s = setWin n { e with useCount := e.useCount - 1 } s) ∧
     (e.state = .closing → e.useCount = 1 →
       let u := issueWrite .a (fieldWrite (record + 25) 1 3)
         (issueWrite .a (fieldWrite (record + 24) 1 0) (setWin n ⟨.closed, none, 0, false⟩ s))
       releaseWindow n s = if e.closeNotify then raise .commandDone u else u))

/-- A command whose CMD its owner does not know (R7, R100): UNKNOWN, or REFUSED_BUSY from a DRAINING cadence
or a CLOSING window; nothing changes but what the answer writes, and the sweep goes on. A row that does not
take the command handed over, since none is, or one of another record or another kind, has nothing to take:
the state stays as it is, which is the model's reading (log 1, log 3). A command of any kind that its owner
has taken already, so that its CMD_SEQ is the acknowledged number (R140, R141), is not taken again at its
row: the sweep goes on (log 37). -/
def Obligations.UnknownCommand : Prop :=
  (∀ (s : State) (r : Record) (d : Delivery),
     s.scanner = .delivered d → d.record = r → d.command = .unknown → s.ack d.record ≠ some d.seq →
     let busy : Prop := match r with
       | .window n => (s.win n).state = .closing
       | .cadence n => (s.cad n).state = .draining
     ∃ t, exec (.unknownCommand r) s = .next t ∧
       (busy → GoesOn d.record (answerCommand d .refusedBusy s) t) ∧
       (¬busy → GoesOn d.record (answerCommand d .unknown s) t)) ∧
  (∀ (s : State) (c : Instr),
     (∃ n, c = .arm n ∨ c = .pause n ∨ c = .resume n ∨ c = .retire n) ∨
       (∃ n, c = .openWindow n ∨ c = .closeWindow n) ∨ (∃ r, c = .unknownCommand r) →
     (∀ d, s.scanner = .delivered d → d.row ≠ some c) → exec c s = .next s) ∧
  (∀ (s : State) (c : Instr) (d : Delivery),
     s.scanner = .delivered d → d.row = some c → s.ack d.record = some d.seq →
     ∃ t, exec c s = .next t ∧ GoesOn d.record s t) ∧
  (∀ (n : CadNo) (w : WinNo) (r : Record) (seq : Byte) (notify : Bool),
     (∀ f, Delivery.row ⟨.cadence n, seq, notify, .arm f⟩ = some (.arm n)) ∧
     Delivery.row ⟨.cadence n, seq, notify, .pause⟩ = some (.pause n) ∧
     Delivery.row ⟨.cadence n, seq, notify, .resume⟩ = some (.resume n) ∧
     Delivery.row ⟨.cadence n, seq, notify, .retire⟩ = some (.retire n) ∧
     (∀ f, Delivery.row ⟨.window w, seq, notify, .openWindow f⟩ = some (.openWindow w)) ∧
     Delivery.row ⟨.window w, seq, notify, .closeWindow⟩ = some (.closeWindow w) ∧
     Delivery.row ⟨r, seq, notify, .unknown⟩ = some (.unknownCommand r))

/-- What is admitted: the configurations and windows an ARM may bring (R8, R9), the configurations an OPEN
may bring (R101), and the cards that are valid at their take (R82). The configuration copied is that of the
delivered fields (R10, R101, R179, R180). -/
def Obligations.AdmissionChecks : Prop :=
  ((∀ f : ArmFields, f.config.isSome = true ↔
     (f.cls = 1 ∨ f.cls = 2) ∧ (1 ≤ f.period ∧ f.period ≤ 65535) ∧ f.phase < f.period ∧
     (1 ≤ f.deadline ∧ f.deadline ≤ f.period) ∧ f.srcWindow ≤ 15 ∧ f.dstWindow ≤ 15 ∧
     (4 ≤ f.length ∧ f.length ≤ 1048576 ∧ f.length % 4 = 0) ∧ f.ringAddr % 32 = 0 ∧
     (2 ≤ f.ringSize ∧ f.ringSize ≤ 256) ∧ (f.missPolicy = 1 ∨ f.missPolicy = 2)) ∧
   ∀ (s : State) (c : CadConfig), armWindowsOk s c = true ↔
     ∃ src dst, (s.win c.srcWindow).state = .opened ∧ (s.win c.srcWindow).config = some src ∧
       (s.win c.dstWindow).state = .opened ∧ (s.win c.dstWindow).config = some dst ∧
       src.canRead = true ∧ dst.canWrite = true ∧ c.length ≤ src.size ∧ c.length ≤ dst.size) ∧
  (∀ f : OpenFields, f.config.isSome = true ↔
     (f.domain = 1 ∨ f.domain = 2) ∧ (f.rights.getLsbD 0 = true ∨ f.rights.getLsbD 1 = true) ∧
     f.base % 4096 = 0 ∧ (4096 ≤ f.size ∧ f.size ≤ 4294967296 ∧ f.size % 4096 = 0) ∧
     f.base + f.size ≤ 2 ^ 64) ∧
  (∀ (f : ArmFields) (c : CadConfig), f.config = some c →
     c.cls = (if f.cls = 1 then .urgent else .steady) ∧ c.period = f.period ∧ c.phase = f.phase ∧
     c.deadline = f.deadline ∧ c.srcWindow.val = f.srcWindow ∧ c.dstWindow.val = f.dstWindow ∧
     c.length = f.length ∧ c.ringAddr = BitVec.ofNat 64 f.ringAddr ∧ c.ringSize = f.ringSize ∧
     c.notifyEvery = f.notifyEvery ∧ c.missPolicy = (if f.missPolicy = 1 then .skip else .hold)) ∧
  (∀ (f : OpenFields) (c : WinConfig), f.config = some c →
     c.domain = (if f.domain = 1 then .a else .b) ∧ c.canRead = f.rights.getLsbD 0 ∧
     c.canWrite = f.rights.getLsbD 1 ∧ c.base = BitVec.ofNat 64 f.base ∧ c.size = f.size) ∧
  (∀ (s : State) (c : Card),
     let lets (b : Byte) (write : Bool) (offset : Nat) : Prop :=
       b.toNat < s.hdr.windowCount ∧ ∃ w : WinNo, w.val = b.toNat ∧ (s.win w).state = .opened ∧
         ∃ x, (s.win w).config = some x ∧ (if write then x.canWrite else x.canRead) = true ∧
           offset % 4 = 0 ∧ offset + c.length ≤ x.size
     cardValid s c = true ↔
       (4 ≤ c.length ∧ c.length ≤ 16777216 ∧ c.length % 4 = 0) ∧
       (c.kind = some .copy ∧ lets c.srcWindow false c.srcOffset ∧ lets c.dstWindow true c.dstOffset ∨
         c.kind = some .fill ∧ lets c.dstWindow true c.dstOffset))

/-! ## The Errand Reader -/

/-- The host half of the card being taken has been read (R77, R81): the card has the fields of R183 and
receives the take count as its take number, the count rises by one, and the reader goes on to write the part
half. The writes of a take but the last (R81, R83): OUTCOME 0, MOVED 0 and DONE_TICK 0 for a valid card,
BAD_CARD, MOVED 0 and the tick for an invalid one. In HALTED nothing is written (R96). The last write of a
take (R81, R83, R84): after TAKEN the card joins the back of the errand queue as WAITING and the Dispatcher
acts; after the DONE of a bad card ERRAND_ERROR is reported, and ERRAND_NOTE raised where NOTIFY was set;
then the reader moves on to the card's link, the Dispatcher acting before it, which is the model's choice
(log 33). -/
def Obligations.Takes : Prop :=
  (∀ (s : State) (addr : Addr) (tag : TagNo) (r : ReadInfo) (bytes : List Byte),
     r.requester = .reader → r.role = .control → s.reader = .takingRead addr →
     let c := decodeCard addr s.takeCount bytes
     readAnswered tag r (.data bytes) s =
       { s with
         takeCount := s.takeCount + 1
         reader := .takingWrite c (cardValid s c) [.outcome, .moved, .doneTick, .eState] } ∧
     c.addr = addr ∧ c.takeNo = s.takeCount ∧ c.nextCard = BitVec.ofNat 64 (fieldAt 0 8 bytes) ∧
     c.kind = (if fieldAt 8 1 bytes = 1 then some .copy
       else if fieldAt 8 1 bytes = 2 then some .fill else none) ∧
     c.fence = (byteAt 9 bytes).getLsbD 0 ∧ c.notify = (byteAt 9 bytes).getLsbD 1 ∧
     c.srcWindow = byteAt 10 bytes ∧ c.dstWindow = byteAt 11 bytes ∧
     c.srcOffset = fieldAt 12 4 bytes ∧ c.dstOffset = fieldAt 16 4 bytes ∧
     c.length = fieldAt 20 4 bytes ∧ c.pattern = BitVec.ofNat 32 (fieldAt 24 4 bytes)) ∧
  (∀ (s : State) (c : Card) (valid : Bool) (item : TakeItem) (rest : List TakeItem), rest ≠ [] →
     s.reader = .takingWrite c valid (item :: rest) →
     let w : PostedWrite :=
       match item with
       | .outcome => fieldWrite (c.addr + 36) 4 (if valid then 0 else 7)
       | .moved => fieldWrite (c.addr + 40) 4 0
       | .doneTick => fieldWrite (c.addr + 44) 4 (if valid then 0 else s.tick)
       | .eState => fieldWrite (c.addr + 32) 4 (if valid then 1 else 2)
     (s.bridge ≠ .halted →
       exec .takeWrite s = .next { issueWrite .a w s with reader := .takingWrite c valid rest }) ∧
     (s.bridge = .halted → exec .takeWrite s = .next s)) ∧
  (∀ (s : State) (c : Card) (valid : Bool), s.bridge ≠ .halted →
     s.reader = .takingWrite c valid [.eState] →
     let u := issueWrite .a (fieldWrite (c.addr + 32) 4 (if valid then 1 else 2)) s
     (valid = true →
       exec .takeWrite s = .next (checkStopped (afterTake c (dispatch
         { u with errands := s.errands ++ [⟨c, .waiting, 0⟩] })))) ∧
     (valid = false →
       let u1 := reportFault .errandError .errand c.takeNo.toNat u
       exec .takeWrite s = .next (checkStopped (afterTake c
         (if c.notify then raise .errandNote u1 else u1)))))

/-- What the Errand Reader does with a link it has read (R78, R80, R84): 0 leaves it watching, or in
NO_CARD; an address that is not usable is reported and not followed; a usable one is taken at once where the
bridge is RUNNING, the queue has room and holds no entry of that address, and held otherwise. `source` is
the card the link was read in, none for FIRST_CARD_ADDR. After a take (R84) the reader acts on the NEXT_CARD
the card held, and where that is 0 reads it again in RUNNING, and otherwise watches the card. The links it
acts on are those of that read, and of a sweep's chain read in RUNNING while it is in NO_CARD or WATCHING
(R79); the sweep then ends, and a pending request starts a new one (R146). A reader in HOLDING that checks
again takes the card where it may, and otherwise stays as it is (R80). -/
def Obligations.LinkFollowed : Prop :=
  (∀ (s : State) (link : Addr) (source : Option Addr),
    let usable := link ≠ 0 ∧ link.toNat % 64 = 0 ∧ source ≠ some link
    let rest : State := { s with
      reader := match source with
        | none => .noCard
        | some addr => .watching addr }
    let room := s.bridge = .running ∧ s.errands.length < 8 ∧ link ∉ errandAddrs s
    (link = 0 → actOnLink link source s = rest) ∧
    (link ≠ 0 → ¬usable →
      actOnLink link source s = reportFault .errandError .errand s.takeCount.toNat rest) ∧
    (usable → room →
      actOnLink link source s =
        requestControl .reader link 32 { s with reader := .takingRead link }) ∧
    (usable → ¬room → actOnLink link source s = { s with reader := .holding link })) ∧
  (∀ (s : State) (c : Card),
     (c.nextCard = 0 → s.bridge = .running →
       afterTake c s = requestControl .reader c.addr 8 { s with reader := .linking c.addr }) ∧
     (c.nextCard = 0 → s.bridge ≠ .running →
       afterTake c s = { s with reader := .watching c.addr }) ∧
     (c.nextCard ≠ 0 → afterTake c s = actOnLink c.nextCard (some c.addr) s)) ∧
  (∀ (s : State) (addr : Addr) (tag : TagNo) (r : ReadInfo) (b : List Byte),
     r.requester = .reader → r.role = .control → s.reader = .linking addr →
     readAnswered tag r (.data b) s = actOnLink (BitVec.ofNat 64 (fieldAt 0 8 b)) (some addr) s) ∧
  (∀ (s : State) (tag : TagNo) (r : ReadInfo) (b : List Byte),
     r.requester = .scanner → r.role = .control → s.scanner = .chain →
     let link : Addr := BitVec.ofNat 64 (fieldAt 0 8 b)
     ∃ u t, readAnswered tag r (.data b) s = t ∧
       (s.bridge = .running → s.reader = .noCard → u = actOnLink link none s) ∧
       (∀ addr, s.bridge = .running → s.reader = .watching addr →
         u = actOnLink link (some addr) s) ∧
       (s.bridge ≠ .running ∨ s.reader.busy = true ∨ (∃ addr, s.reader = .holding addr) → u = s) ∧
       (s.bridge ≠ .running ∨ s.sweepPending = false →
         t = { u with scanner := .idle, sweepPending := false }) ∧
       (s.bridge = .running → s.sweepPending = true →
         t = startSweep { u with scanner := .idle, sweepPending := false })) ∧
  (∀ s : State,
     (∀ addr, s.reader = .holding addr →
       let room := s.bridge = .running ∧ s.errands.length < 8 ∧ addr ∉ errandAddrs s
       (room → recheckHolding s =
         requestControl .reader addr 32 { s with reader := .takingRead addr }) ∧
       (¬room → recheckHolding s = s)) ∧
     ((∀ addr, s.reader ≠ .holding addr) → recheckHolding s = s))

/-! ## The Dispatcher -/

/-- What one lane is given (R43): in RUNNING, where it is IDLE, the head of the ready queue, and otherwise
the first eligible errand where the gate is OPEN and fewer than ERRAND_LANES lanes hold errands. The
hand-out of an event tries each lane once, the lowest-numbered first (R44). The first eligible errand (R88):
the first entry in chain order that is WAITING or PARKED and, where its FENCE is set, is the first of the
queue. The gate (R42, R47, R48): evaluated in RUNNING, QUIESCING and STOPPED; it closes at GATE_UPPER
entries or more, sending the park requests, in the lanes' order the model chose (log 31), and opens at
GATE_LOWER or fewer. The Dispatcher's work at an event (R42, R49): it hands out, then moves the gate, and
goes on with the events this has brought until nothing can be handed out and the gate rests; where that is
so at the start, the event leaves the state as it is. That the lane of a job that ends at once is tried
again only after the gate has been evaluated is the model's reading (log 13); that the Dispatcher goes on
after a closing of the gate once every lane has taken its park request is the model's choice (log 35). That
GATE_LOWER is below GATE_UPPER is R135, kept by the law `ClockLaw`. -/
def Obligations.Dispatcher : Prop :=
  (∀ (s : State) (k : LaneNo),
     (s.bridge ≠ .running ∨ (s.lane k).state ≠ .idle → handOutLane k s = none) ∧
     (s.bridge = .running → (s.lane k).state = .idle →
       (∀ n rest, s.ready = .service n :: rest →
         handOutLane k s = some (startService k n { s with ready := rest })) ∧
       (∀ n rest, s.ready = .closing n :: rest →
         handOutLane k s = some (startClosing k n { s with ready := rest })) ∧
       (s.ready = [] →
         let open' := s.gate = .opened ∧ errandLaneCount s < s.hdr.errandLanes
         (∀ e, open' → firstEligible s.errands = some e →
           handOutLane k s = some (startErrand k e s)) ∧
         (¬open' ∨ firstEligible s.errands = none → handOutLane k s = none)))) ∧
  (∀ s : State,
     let tried (k : LaneNo) (u : State) : State := (handOutLane k u).getD u
     handOut s = tried 3 (tried 2 (tried 1 (tried 0 s)))) ∧
  (∀ (errands : List Errand),
     let eligible (i : Nat) : Prop := ∃ e, errands[i]? = some e ∧
       (e.state = .waiting ∨ e.state = .parked) ∧ (e.card.fence = true → i = 0)
     (∀ e, firstEligible errands = some e →
       ∃ i, errands[i]? = some e ∧ eligible i ∧ ∀ j, j < i → ¬eligible j) ∧
     (firstEligible errands = none → ∀ i, ¬eligible i)) ∧
  (∀ s : State,
     let evaluated := s.bridge = .running ∨ s.bridge = .quiescing ∨ s.bridge = .stopped
     (¬evaluated → moveGate s = none) ∧
     (evaluated → s.gate = .opened →
       (s.hdr.gateUpper ≤ s.ready.length →
         moveGate s = some (parkRequestLanes { s with gate := .closed })) ∧
       (s.ready.length < s.hdr.gateUpper → moveGate s = none)) ∧
     (evaluated → s.gate = .closed →
       (s.ready.length ≤ s.hdr.gateLower → moveGate s = some { s with gate := .opened }) ∧
       (s.hdr.gateLower < s.ready.length → moveGate s = none))) ∧
  (∀ s : State,
     (handOut s = s → moveGate s = none → dispatch s = s) ∧
     (s.bridge = .off ∨ s.bridge = .loading ∨ s.bridge = .halted → dispatch s = s) ∧
     (s.hdr.gateLower < s.hdr.gateUpper →
       (∀ u, moveGate (handOut s) = some u → dispatch s = dispatch u) ∧
       (moveGate (handOut s) = none → dispatch s = dispatch (handOut s)) ∧
       (∀ k, handOutLane k (dispatch s) = none) ∧ moveGate (dispatch s) = none))

/-- The order of the Service Calendar (R34) and of the ready queue (R40), URGENT before STEADY: an entry
that joins an ordered queue leaves it ordered, with nothing lost; a closing entry stands behind those that
wait and ahead of every service. -/
def Obligations.QueueOrder : Prop :=
  CadClass.urgent.rank < CadClass.steady.rank ∧
  ∀ (s : State),
    (∀ (n : CadNo) (queue : List CadNo),
      queue.Pairwise (fun a b => keyBefore (calendarKey s b) (calendarKey s a) = false) →
      (calendarInsert s n queue).Perm (n :: queue) ∧
      (calendarInsert s n queue).Pairwise
        (fun a b => keyBefore (calendarKey s b) (calendarKey s a) = false)) ∧
    (∀ (e : ReadyEntry) (queue : List ReadyEntry),
      queue.Pairwise (fun a b => keyBefore (readyKey s b) (readyKey s a) = false) →
      (readyInsert s e queue).Perm (e :: queue) ∧
      (readyInsert s e queue).Pairwise
        (fun a b => keyBefore (readyKey s b) (readyKey s a) = false)) ∧
    (∀ (n : CadNo) (closing service : List CadNo),
      readyInsert s (.closing n) (closing.map .closing ++ service.map .service) =
        closing.map .closing ++ .closing n :: service.map .service) ∧
    ∀ a b : CadNo,
      (keyBefore (calendarKey s a) (calendarKey s b) = true ↔
        (s.cad a).nextDue < (s.cad b).nextDue ∨ (s.cad a).nextDue = (s.cad b).nextDue ∧
          ((s.cfg a).cls.rank < (s.cfg b).cls.rank ∨
            (s.cfg a).cls.rank = (s.cfg b).cls.rank ∧ a < b)) ∧
      (keyBefore (readyKey s (.service a)) (readyKey s (.service b)) = true ↔
        (s.cfg a).cls.rank < (s.cfg b).cls.rank ∨ (s.cfg a).cls.rank = (s.cfg b).cls.rank ∧
          ((s.cad a).currentDue < (s.cad b).currentDue ∨
            (s.cad a).currentDue = (s.cad b).currentDue ∧ a < b))

/-! ## START, STOP, LOADING and sweeps -/

/-- START from OFF (R136, R149, R154): LOADING begins, with the read of the 64 bytes of the header at
AREA_BASE; an AREA_BASE that is not a multiple of 64 is LAYOUT_INVALID instead, and the bridge is back in
OFF with STATE raised (R157, R167). START from STOPPED (R39, R154): RUNNING is entered, every cadence on the
calendar gets the first grid instant after the present as its due tick, the calendar keeps its entries, in
the order of R34 with the new due ticks, the sweep timer is 0, and then the Dispatcher acts and the reader
in HOLDING checks again. No sweep is started. -/
def Obligations.Start : Prop :=
  (∀ (s : State) (v : BitVec 32), s.reachable = true → s.bridge = .off →
     let s1 : State := { s with enables := v.extractLsb' 8 5, bridge := .loading }
     (s.areaBase.toNat % 64 = 0 →
       exec (.start v) s =
         .next (requestControl .scanner s.areaBase 64 { s1 with scanner := .header })) ∧
     (s.areaBase.toNat % 64 ≠ 0 →
       exec (.start v) s = .next (returnToOff (reportFault .layoutInvalid .bridge 0 s1)))) ∧
  (∀ (s : State) (v : BitVec 32), s.reachable = true → s.bridge = .stopped →
     ∃ u, exec (.start v) s = .next (recheckHolding (dispatch u)) ∧
       (recheckHolding (dispatch u)).scanner = s.scanner ∧
       u = { s with
         enables := v.extractLsb' 8 5, bridge := .running, sweepTimer := 0, calendar := u.calendar
         cadences := u.cadences } ∧
       u.calendar.Perm s.calendar ∧
       u.calendar.Pairwise (fun a b => keyBefore (calendarKey u b) (calendarKey u a) = false) ∧
       (∀ n ∈ s.calendar, u.cad n =
         { s.cad n with nextDue := firstGridAfter (s.cfg n).period (s.cfg n).phase s.tick }) ∧
       ∀ n, n ∉ s.calendar → u.cad n = s.cad n)

/-- STOP taken in RUNNING (R147, R155, R158): the bridge is QUIESCING, or STOPPED where nothing is left to
do (R159): the scanner's part is followed by the park requests, the Dispatcher and the check of R159. A
scanner that is IDLE stays so; one with a read in flight waits for its answer; a request that waits is
withdrawn and the sweep ends; and a command handed over is decided by its owner as its row decides it,
unless it has decided it already (log 37), and the sweep ends. That a command is handed over until its row
takes it, and a STOP lets its owner decide it first, is the model's reading (log 1); that the Dispatcher
acts on what it moved before the scanner's next read (log 33), and the lanes' order of the park requests
(log 31), are the model's choices. STOP taken in LOADING (R151, R155): during the writes the bridge returns
to OFF at once, and so it does with a request that waits; with a read in flight it waits for the answer. The
return of LOADING to OFF (R30, R120, R136, R151, R155, R167): the header values and acknowledged numbers are
discarded, the timer stops with the count at 0, the longest period is back, the scanner is IDLE, STATE is
raised, and nothing else changes. -/
def Obligations.Stop : Prop :=
  (∀ (s : State) (v : BitVec 32), s.reachable = true → s.bridge = .running →
     let s1 : State := { s with enables := v.extractLsb' 8 5 }
     let quiesce (u : State) : State := checkStopped (dispatch (parkRequestLanes u))
     let reading := (∃ r, s.scanner = .sweepWord r) ∨
       (∃ r seq notify, s.scanner = .sweepFurther r seq notify) ∨ s.scanner = .chain
     (∃ t, exec (.stop v) s = .next t ∧ (t.bridge = .quiescing ∨ t.bridge = .stopped) ∧
       t.enables = v.extractLsb' 8 5 ∧ t.tick = s.tick ∧ t.tickTimerOn = s.tickTimerOn) ∧
     (s.scanner = .idle ∨ reading ∧ controlWaits .scanner s = false →
       exec (.stop v) s = .next (quiesce { s1 with bridge := .quiescing })) ∧
     (reading → controlWaits .scanner s = true →
       exec (.stop v) s = .next (quiesce { s1 with
         bridge := .quiescing, scanner := .idle, sweepPending := false
         controlQueue := s.controlQueue.filter (fun r => r.requester != .scanner) })) ∧
     (∀ d, s.scanner = .delivered d →
       let w := if s.ack d.record = some d.seq then s1 else takeCommand d s1
       let w1 := if w.ready = s.ready then w else dispatch w
       (∀ c, d.row = some c → exec c s1 = .next (sweepAfter d.record w1)) ∧
       exec (.stop v) s = .next (quiesce { w1 with
         bridge := .quiescing, scanner := .idle, sweepPending := false }))) ∧
  (∀ (s : State) (v : BitVec 32), s.reachable = true → s.bridge = .loading →
     let s1 : State := { s with enables := v.extractLsb' 8 5 }
     ((∃ r i, s.scanner = .loadWrite r i) → exec (.stop v) s = .next (returnToOff s1)) ∧
     (s.scanner = .header ∨ (∃ r, s.scanner = .loadWord r) →
       (controlWaits .scanner s = false →
         exec (.stop v) s = .next { s1 with loadingStop := true }) ∧
       (controlWaits .scanner s = true →
         exec (.stop v) s = .next (returnToOff (withdrawControl .scanner s1))))) ∧
  (∀ s : State,
     let t := returnToOff s
     CauseRaised .state s t ∧
     t = { s with
       bridge := .off, settings := none, tick := 0, tickTimerOn := false, scanner := .idle
       loadingStop := false, ackWindows := .replicate 16 none, ackCadences := .replicate 64 none
       portA := { s.portA with period := 25500 }, portB := { s.portB with period := 25500 }
       raised := t.raised, raisings := t.raisings })

/-- The header (R135, R178): the values accepted, and the fields they are read from; the timeout period is
READ_TIMEOUT_COUNT times 1 µs or 100 µs (R120). The answer to the header read (R30, R120, R136, R149, R151):
a valid header puts its values, the tick timer and the period in force, and the first command word is asked
for, or LOADING is complete where both counts are 0; an invalid one is LAYOUT_INVALID; after a STOP the
answer is discarded. The answer to a command word in LOADING: its CMD_SEQ becomes the acknowledged number,
and the next record's word is asked for, or the writes begin; after a STOP it is discarded. A write of
LOADING but the last (R150, R177): the fields of a record's part half in order, and the next record's first
field after a record's last. The completion of LOADING (R150, R157, R167): RUNNING, STATE raised, the sweep
timer 0, the gate OPEN, the pending flag clear; the Dispatcher acts, and the first sweep starts, in the
order the model chose (log 33). -/
def Obligations.Loading : Prop :=
  (∀ (b : List Byte),
     let accepted := fieldAt 0 2 b = 1 ∧ (10 ≤ fieldAt 2 2 b ∧ fieldAt 2 2 b ≤ 10000) ∧
       fieldAt 6 1 b ≤ 16 ∧ fieldAt 7 1 b ≤ 64 ∧
       (0 < fieldAt 6 1 b → fieldAt 8 8 b % 64 = 0) ∧
       (0 < fieldAt 7 1 b → fieldAt 16 8 b % 64 = 0) ∧
       fieldAt 32 1 b ≤ 4 ∧ (1 ≤ fieldAt 33 1 b ∧ fieldAt 33 1 b ≤ 64) ∧
       fieldAt 34 1 b < fieldAt 33 1 b ∧ (fieldAt 35 1 b = 0 ∨ fieldAt 35 1 b = 1) ∧
       1 ≤ fieldAt 36 1 b
     (accepted → decodeHeader b = some
       { tickUs := fieldAt 2 2 b, sweepTicks := fieldAt 4 2 b, windowCount := fieldAt 6 1 b
         cadenceCount := fieldAt 7 1 b, windowTable := BitVec.ofNat 64 (fieldAt 8 8 b)
         cadenceTable := BitVec.ofNat 64 (fieldAt 16 8 b), errandLanes := fieldAt 32 1 b
         gateUpper := fieldAt 33 1 b, gateLower := fieldAt 34 1 b
         period := (if fieldAt 35 1 b = 0 then 1 else 100) * fieldAt 36 1 b }) ∧
     (¬accepted → decodeHeader b = none)) ∧
  (∀ (s : State) (tag : TagNo) (r : ReadInfo) (b : List Byte),
     r.requester = .scanner → r.role = .control → s.scanner = .header →
     let t := readAnswered tag r (.data b) s
     (s.loadingStop = true → t = returnToOff s) ∧
     (s.loadingStop = false → decodeHeader b = none →
       t = returnToOff (reportFault .layoutInvalid .bridge 0 s)) ∧
     (s.loadingStop = false → ∀ h, decodeHeader b = some h →
       let s1 : State := { s with
         settings := some h, tickTimerOn := true, portA := { s.portA with period := h.period }
         portB := { s.portB with period := h.period } }
       (0 < h.windowCount → t = requestControl .scanner (h.windowTable + 20) 4
         { s1 with scanner := .loadWord (.window 0) }) ∧
       (h.windowCount = 0 → 0 < h.cadenceCount → t = requestControl .scanner (h.cadenceTable + 32) 4
         { s1 with scanner := .loadWord (.cadence 0) }) ∧
       (h.windowCount = 0 → h.cadenceCount = 0 → t = completeLoading s1))) ∧
  (∀ (s : State) (rec : Record) (tag : TagNo) (r : ReadInfo) (word : List Byte),
     r.requester = .scanner → r.role = .control → s.scanner = .loadWord rec →
     let t := readAnswered tag r (.data word) s
     let s1 := setAck rec (byteAt 1 word) s
     s1.ack rec = some (byteAt 1 word) ∧
     (s.loadingStop = true → t = returnToOff s) ∧
     (s.loadingStop = false →
       (∀ n, nextRecord s.hdr rec = some (.window n) →
         t = requestControl .scanner (s.hdr.windowTable + BitVec.ofNat 64 (32 * n) + 20) 4
           { s1 with scanner := .loadWord (.window n) }) ∧
       (∀ n, nextRecord s.hdr rec = some (.cadence n) →
         t = requestControl .scanner (s.hdr.cadenceTable + BitVec.ofNat 64 (64 * n) + 32) 4
           { s1 with scanner := .loadWord (.cadence n) }) ∧
       ∀ r1, nextRecord s.hdr rec = none → firstRecord s.hdr = some r1 →
         t = { s1 with scanner := .loadWrite r1 0 })) ∧
  (∀ (s : State) (r : Record) (i : Nat) (offset size value : Nat), s.scanner = .loadWrite r i →
     let fields : List (Nat × Nat × Nat) :=
       match r with
       | .window _ => [(24, 1, 0), (25, 1, 0), (26, 1, ((s.ack r).getD 0).toNat)]
       | .cadence _ =>
         [(40, 1, 0), (41, 1, 0), (42, 1, ((s.ack r).getD 0).toNat), (44, 4, 0), (48, 4, 0),
           (52, 4, 0)]
     let record := match r with
       | .window n => s.hdr.windowTable + BitVec.ofNat 64 (32 * n)
       | .cadence n => s.hdr.cadenceTable + BitVec.ofNat 64 (64 * n)
     fields[i]? = some (offset, size, value) →
     let u := issueWrite .a (fieldWrite (record + BitVec.ofNat 64 offset) size value) s
     (i + 1 < fields.length → exec .loadingWrite s = .next { u with scanner := .loadWrite r (i + 1) }) ∧
     (i + 1 = fields.length → ∀ r1, nextRecord s.hdr r = some r1 →
       exec .loadingWrite s = .next { u with scanner := .loadWrite r1 0 }) ∧
     (i + 1 = fields.length → nextRecord s.hdr r = none →
       exec .loadingWrite s = .next (completeLoading u))) ∧
  (∀ s : State, ∃ u t, completeLoading s = t ∧ t = startSweep (dispatch u) ∧
     SweepsOn (dispatch u) t ∧ CauseRaised .state s u ∧
     u = { s with
       bridge := .running, sweepTimer := 0, gate := .opened, scanner := .idle
       sweepPending := false, raised := u.raised, raisings := u.raisings } ∧
     ∀ r, firstRecord s.hdr = some r → t.scanner = .sweepWord r)

/-- The order of a sweep's and of LOADING's records (R145, R149): the windows below WINDOW_COUNT, then the
cadences below CADENCE_COUNT, each by number. A sweep's command word in RUNNING (R140, R141, R181, R184): a
CMD_SEQ equal to the acknowledged number is no new command, and the sweep goes on; an OPEN or an ARM takes
the further read of its fields; any other command is handed to its owner. The answer to the further read
hands the command over with the record's fields. Outside RUNNING nothing is delivered and the sweep ends
(R147). After a record a sweep goes on to the next record's command word, then to the chain's link as the
Errand Reader names it, and ends; a pending request starts a new one at once (R79, R145, R146). -/
def Obligations.Sweeps : Prop :=
  (∀ h : Settings, h.windowCount ≤ 16 → h.cadenceCount ≤ 64 →
     (0 < h.windowCount → firstRecord h = some (.window 0)) ∧
     (h.windowCount = 0 → 0 < h.cadenceCount → firstRecord h = some (.cadence 0)) ∧
     (h.windowCount = 0 → h.cadenceCount = 0 → firstRecord h = none) ∧
     (∀ n m : WinNo, m.val = n.val + 1 → m.val < h.windowCount →
       nextRecord h (.window n) = some (.window m)) ∧
     (∀ n : WinNo, n.val + 1 = h.windowCount →
       nextRecord h (.window n) = if 0 < h.cadenceCount then some (.cadence 0) else none) ∧
     (∀ n m : CadNo, m.val = n.val + 1 → m.val < h.cadenceCount →
       nextRecord h (.cadence n) = some (.cadence m)) ∧
     (∀ n : CadNo, n.val + 1 = h.cadenceCount → nextRecord h (.cadence n) = none)) ∧
  (∀ (s : State) (rec : Record) (tag : TagNo) (r : ReadInfo) (word : List Byte),
     r.requester = .scanner → r.role = .control → s.scanner = .sweepWord rec →
     let t := readAnswered tag r (.data word) s
     let cmd := fieldAt 0 1 word
     let seq := byteAt 1 word
     let notify := fieldAt 2 1 word != 0
     (s.bridge ≠ .running → t = { s with scanner := .idle, sweepPending := false }) ∧
     (s.bridge = .running → s.ack rec = some seq → t = sweepAfter rec s) ∧
     (s.bridge = .running → s.ack rec ≠ some seq →
       (∀ n, rec = .window n →
         (cmd = 1 → t = requestControl .scanner (s.hdr.windowTable + BitVec.ofNat 64 (32 * n)) 20
           { s with scanner := .sweepFurther rec seq notify }) ∧
         (cmd ≠ 1 →
           let d : Delivery := ⟨rec, seq, notify, if cmd = 2 then .closeWindow else .unknown⟩
           t = { s with scanner := .delivered d })) ∧
       (∀ n, rec = .cadence n →
         (cmd = 3 → t = requestControl .scanner (s.hdr.cadenceTable + BitVec.ofNat 64 (64 * n)) 32
           { s with scanner := .sweepFurther rec seq notify }) ∧
         (cmd ≠ 3 →
           let d : Delivery :=
             ⟨rec, seq, notify,
               if cmd = 4 then .pause else if cmd = 5 then .resume else if cmd = 6 then .retire
               else .unknown⟩
           t = { s with scanner := .delivered d })))) ∧
  (∀ (s : State) (rec : Record) (seq : Byte) (notify : Bool) (tag : TagNo) (r : ReadInfo) (b : List Byte),
     r.requester = .scanner → r.role = .control → s.scanner = .sweepFurther rec seq notify →
     let t := readAnswered tag r (.data b) s
     (s.bridge ≠ .running → t = { s with scanner := .idle, sweepPending := false }) ∧
     (s.bridge = .running →
       (∀ n, rec = .window n →
         let d : Delivery := ⟨rec, seq, notify, .openWindow
           { base := fieldAt 0 8 b, size := fieldAt 8 8 b, domain := fieldAt 16 1 b
             rights := byteAt 17 b }⟩
         t = { s with scanner := .delivered d }) ∧
       (∀ n, rec = .cadence n →
         let d : Delivery := ⟨rec, seq, notify, .arm
           { ringAddr := fieldAt 0 8 b, period := fieldAt 8 2 b, phase := fieldAt 10 2 b
             deadline := fieldAt 12 2 b, ringSize := fieldAt 14 2 b, length := fieldAt 16 4 b
             cls := fieldAt 20 1 b, missPolicy := fieldAt 21 1 b, srcWindow := fieldAt 22 1 b
             dstWindow := fieldAt 23 1 b, notifyEvery := fieldAt 24 1 b
             lent := BitVec.ofNat 32 (fieldAt 28 4 b) }⟩
         t = { s with scanner := .delivered d }))) ∧
  (∀ (s : State) (rec : Record),
     let t := sweepAfter rec s
     (s.bridge ≠ .running → t = { s with scanner := .idle, sweepPending := false }) ∧
     (s.bridge = .running →
       (∀ n, nextRecord s.hdr rec = some (.window n) →
         t = requestControl .scanner (s.hdr.windowTable + BitVec.ofNat 64 (32 * n) + 20) 4
           { s with scanner := .sweepWord (.window n) }) ∧
       (∀ n, nextRecord s.hdr rec = some (.cadence n) →
         t = requestControl .scanner (s.hdr.cadenceTable + BitVec.ofNat 64 (64 * n) + 32) 4
           { s with scanner := .sweepWord (.cadence n) }) ∧
       (nextRecord s.hdr rec = none →
         (s.reader = .noCard →
           t = requestControl .scanner (s.areaBase + 24) 8 { s with scanner := .chain }) ∧
         (∀ addr, s.reader = .watching addr →
           t = requestControl .scanner addr 8 { s with scanner := .chain }) ∧
         (s.reader.busy = true ∨ (∃ addr, s.reader = .holding addr) →
           (s.sweepPending = false → t = { s with scanner := .idle, sweepPending := false }) ∧
           (s.sweepPending = true →
             t = startSweep { s with scanner := .idle, sweepPending := false })))))

/-! ## Formats -/

/-- Little-endian fields (R177): a value that fits its field is written with its bytes least significant
first, and reads back. A FILL's bytes hold PATTERN in every word (R64). -/
def Obligations.LittleEndian : Prop :=
  (∀ size value, (leBytes size value).length = size ∧
    leValue (leBytes size value) = value % 256 ^ size) ∧
  (∀ size value i, i < size → (leBytes size value)[i]? = some (BitVec.ofNat 8 (value / 256 ^ i))) ∧
  ∀ (pattern : BitVec 32) (words i : Nat), i < words →
    (patternBytes pattern words).length = 4 * words ∧
    fieldAt (4 * i) 4 (patternBytes pattern words) = pattern.toNat

/-! ## The laws of the device -/

/-- FURTHER lies in 0 to 255, and an empty fault record shows FURTHER 0: every step keeps it (R168). -/
def Obligations.FaultLawKept : Prop :=
  ∀ s t : State, FaultLaw s → step s = .next t → FaultLaw t

/-- The tick timer, the tick count and the header values go with the bridge state: every step keeps it (R30,
R31, R136, R152); the GATE_LOWER of the header values is below their GATE_UPPER (R135). -/
def Obligations.ClockLawKept : Prop :=
  ∀ s t : State, ClockLaw s → step s = .next t → ClockLaw t

/-- Data reads hold at most 20 Port A tags, and while the link is DOWN no Port B tag is BUSY and Port B
holds no request: every step keeps it (R115, R116, R127, R130). -/
def Obligations.TagLawKept : Prop :=
  ∀ s t : State, TagLaw s → step s = .next t → TagLaw t

/-- The errand queue holds at most 8 entries with no card address twice: every step keeps it, with the room
a take in progress needs (R80, R86). Every step keeps the laws of the units together: a cadence stands once
where its place says, on the calendar, in the ready queue or in a lane, and nowhere else (R2); a window's
use count is the number of holds the lanes' jobs have on it, and a CLOSING window has one (R98); each lane's
record is as its state has it, with at most 8 buffer entries and 8 reads out, and every BUSY tag holds a
read that its requester has on record (R52); no more lanes hold errands than ERRAND_LANES (R46); and with
the bridge at rest no lane works, no tag is BUSY and nobody waits for one (R131, R159). -/
def Obligations.ErrandLawKept : Prop :=
  (∀ s t : State, ErrandLaw s → step s = .next t → ErrandLaw t) ∧
  (∀ s t : State, UnitLaws s → step s = .next t → UnitLaws t) ∧
  (∀ s : State, UnitLaws s →
     (∀ n, (s.win n).useCount = windowHolds s n ∧ (s.win n).useCount ≤ 8) ∧
     (∀ k, (s.lane k).outstanding.length ≤ (s.lane k).buffer.length ∧ (s.lane k).buffer.length ≤ 8) ∧
     (∀ n, s.calendar.count n + s.ready.count (.service n) + s.ready.count (.closing n) +
       s.lanes.toList.countP (fun l => l.job.cadence == some n) ≤ 1) ∧
     errandLaneCount s ≤ s.hdr.errandLanes)

/-- The laws hold right after a power-on reset. -/
def Obligations.LawsAtReset : Prop :=
  FaultLaw State.reset ∧ ClockLaw State.reset ∧ TagLaw State.reset ∧ ErrandLaw State.reset ∧
  UnitLaws State.reset
end

