-- ==== Sys2Proof/Laws/State.lean ====
section
/-! SUPPORT. One lemma per field for each of the state's updates. -/

namespace Sys2Proof.Machine


/-! ## A Cadence Table entry -/

@[simp] theorem setCad_bridge (n : CadNo) (e : CadEntry) (s : State) : (setCad n e s).bridge = s.bridge := rfl
@[simp] theorem setCad_areaBase (n : CadNo) (e : CadEntry) (s : State) : (setCad n e s).areaBase = s.areaBase := rfl
@[simp] theorem setCad_enables (n : CadNo) (e : CadEntry) (s : State) : (setCad n e s).enables = s.enables := rfl
@[simp] theorem setCad_raised (n : CadNo) (e : CadEntry) (s : State) : (setCad n e s).raised = s.raised := rfl
@[simp] theorem setCad_raisings (n : CadNo) (e : CadEntry) (s : State) : (setCad n e s).raisings = s.raisings := rfl
@[simp] theorem setCad_faultRec (n : CadNo) (e : CadEntry) (s : State) : (setCad n e s).faultRec = s.faultRec := rfl
@[simp] theorem setCad_further (n : CadNo) (e : CadEntry) (s : State) : (setCad n e s).further = s.further := rfl
@[simp] theorem setCad_settings (n : CadNo) (e : CadEntry) (s : State) : (setCad n e s).settings = s.settings := rfl
@[simp] theorem setCad_tick (n : CadNo) (e : CadEntry) (s : State) : (setCad n e s).tick = s.tick := rfl
@[simp] theorem setCad_tickTimerOn (n : CadNo) (e : CadEntry) (s : State) : (setCad n e s).tickTimerOn = s.tickTimerOn := rfl
@[simp] theorem setCad_sweepTimer (n : CadNo) (e : CadEntry) (s : State) : (setCad n e s).sweepTimer = s.sweepTimer := rfl
@[simp] theorem setCad_calendar (n : CadNo) (e : CadEntry) (s : State) : (setCad n e s).calendar = s.calendar := rfl
@[simp] theorem setCad_ready (n : CadNo) (e : CadEntry) (s : State) : (setCad n e s).ready = s.ready := rfl
@[simp] theorem setCad_gate (n : CadNo) (e : CadEntry) (s : State) : (setCad n e s).gate = s.gate := rfl
@[simp] theorem setCad_windows (n : CadNo) (e : CadEntry) (s : State) : (setCad n e s).windows = s.windows := rfl
@[simp] theorem setCad_lanes (n : CadNo) (e : CadEntry) (s : State) : (setCad n e s).lanes = s.lanes := rfl
@[simp] theorem setCad_errands (n : CadNo) (e : CadEntry) (s : State) : (setCad n e s).errands = s.errands := rfl
@[simp] theorem setCad_reader (n : CadNo) (e : CadEntry) (s : State) : (setCad n e s).reader = s.reader := rfl
@[simp] theorem setCad_takeCount (n : CadNo) (e : CadEntry) (s : State) : (setCad n e s).takeCount = s.takeCount := rfl
@[simp] theorem setCad_scanner (n : CadNo) (e : CadEntry) (s : State) : (setCad n e s).scanner = s.scanner := rfl
@[simp] theorem setCad_sweepPending (n : CadNo) (e : CadEntry) (s : State) : (setCad n e s).sweepPending = s.sweepPending := rfl
@[simp] theorem setCad_loadingStop (n : CadNo) (e : CadEntry) (s : State) : (setCad n e s).loadingStop = s.loadingStop := rfl
@[simp] theorem setCad_ackWindows (n : CadNo) (e : CadEntry) (s : State) : (setCad n e s).ackWindows = s.ackWindows := rfl
@[simp] theorem setCad_ackCadences (n : CadNo) (e : CadEntry) (s : State) : (setCad n e s).ackCadences = s.ackCadences := rfl
@[simp] theorem setCad_portA (n : CadNo) (e : CadEntry) (s : State) : (setCad n e s).portA = s.portA := rfl
@[simp] theorem setCad_portB (n : CadNo) (e : CadEntry) (s : State) : (setCad n e s).portB = s.portB := rfl
@[simp] theorem setCad_controlQueue (n : CadNo) (e : CadEntry) (s : State) : (setCad n e s).controlQueue = s.controlQueue := rfl
@[simp] theorem setCad_linkUp (n : CadNo) (e : CadEntry) (s : State) : (setCad n e s).linkUp = s.linkUp := rfl
@[simp] theorem setCad_resetInput (n : CadNo) (e : CadEntry) (s : State) : (setCad n e s).resetInput = s.resetInput := rfl
@[simp] theorem setCad_portALinkUp (n : CadNo) (e : CadEntry) (s : State) : (setCad n e s).portALinkUp = s.portALinkUp := rfl
@[simp] theorem setCad_choice (n : CadNo) (e : CadEntry) (s : State) : (setCad n e s).choice = s.choice := rfl
@[simp] theorem setCad_freeCount (n : CadNo) (e : CadEntry) (s : State) : (setCad n e s).freeCount = s.freeCount := rfl
@[simp] theorem setCad_pending (n : CadNo) (e : CadEntry) (s : State) : (setCad n e s).pending = s.pending := rfl

/-! ## A Window Table entry -/

@[simp] theorem setWin_bridge (n : WinNo) (e : WinEntry) (s : State) : (setWin n e s).bridge = s.bridge := rfl
@[simp] theorem setWin_areaBase (n : WinNo) (e : WinEntry) (s : State) : (setWin n e s).areaBase = s.areaBase := rfl
@[simp] theorem setWin_enables (n : WinNo) (e : WinEntry) (s : State) : (setWin n e s).enables = s.enables := rfl
@[simp] theorem setWin_raised (n : WinNo) (e : WinEntry) (s : State) : (setWin n e s).raised = s.raised := rfl
@[simp] theorem setWin_raisings (n : WinNo) (e : WinEntry) (s : State) : (setWin n e s).raisings = s.raisings := rfl
@[simp] theorem setWin_faultRec (n : WinNo) (e : WinEntry) (s : State) : (setWin n e s).faultRec = s.faultRec := rfl
@[simp] theorem setWin_further (n : WinNo) (e : WinEntry) (s : State) : (setWin n e s).further = s.further := rfl
@[simp] theorem setWin_settings (n : WinNo) (e : WinEntry) (s : State) : (setWin n e s).settings = s.settings := rfl
@[simp] theorem setWin_tick (n : WinNo) (e : WinEntry) (s : State) : (setWin n e s).tick = s.tick := rfl
@[simp] theorem setWin_tickTimerOn (n : WinNo) (e : WinEntry) (s : State) : (setWin n e s).tickTimerOn = s.tickTimerOn := rfl
@[simp] theorem setWin_sweepTimer (n : WinNo) (e : WinEntry) (s : State) : (setWin n e s).sweepTimer = s.sweepTimer := rfl
@[simp] theorem setWin_calendar (n : WinNo) (e : WinEntry) (s : State) : (setWin n e s).calendar = s.calendar := rfl
@[simp] theorem setWin_ready (n : WinNo) (e : WinEntry) (s : State) : (setWin n e s).ready = s.ready := rfl
@[simp] theorem setWin_gate (n : WinNo) (e : WinEntry) (s : State) : (setWin n e s).gate = s.gate := rfl
@[simp] theorem setWin_cadences (n : WinNo) (e : WinEntry) (s : State) : (setWin n e s).cadences = s.cadences := rfl
@[simp] theorem setWin_lanes (n : WinNo) (e : WinEntry) (s : State) : (setWin n e s).lanes = s.lanes := rfl
@[simp] theorem setWin_errands (n : WinNo) (e : WinEntry) (s : State) : (setWin n e s).errands = s.errands := rfl
@[simp] theorem setWin_reader (n : WinNo) (e : WinEntry) (s : State) : (setWin n e s).reader = s.reader := rfl
@[simp] theorem setWin_takeCount (n : WinNo) (e : WinEntry) (s : State) : (setWin n e s).takeCount = s.takeCount := rfl
@[simp] theorem setWin_scanner (n : WinNo) (e : WinEntry) (s : State) : (setWin n e s).scanner = s.scanner := rfl
@[simp] theorem setWin_sweepPending (n : WinNo) (e : WinEntry) (s : State) : (setWin n e s).sweepPending = s.sweepPending := rfl
@[simp] theorem setWin_loadingStop (n : WinNo) (e : WinEntry) (s : State) : (setWin n e s).loadingStop = s.loadingStop := rfl
@[simp] theorem setWin_ackWindows (n : WinNo) (e : WinEntry) (s : State) : (setWin n e s).ackWindows = s.ackWindows := rfl
@[simp] theorem setWin_ackCadences (n : WinNo) (e : WinEntry) (s : State) : (setWin n e s).ackCadences = s.ackCadences := rfl
@[simp] theorem setWin_portA (n : WinNo) (e : WinEntry) (s : State) : (setWin n e s).portA = s.portA := rfl
@[simp] theorem setWin_portB (n : WinNo) (e : WinEntry) (s : State) : (setWin n e s).portB = s.portB := rfl
@[simp] theorem setWin_controlQueue (n : WinNo) (e : WinEntry) (s : State) : (setWin n e s).controlQueue = s.controlQueue := rfl
@[simp] theorem setWin_linkUp (n : WinNo) (e : WinEntry) (s : State) : (setWin n e s).linkUp = s.linkUp := rfl
@[simp] theorem setWin_resetInput (n : WinNo) (e : WinEntry) (s : State) : (setWin n e s).resetInput = s.resetInput := rfl
@[simp] theorem setWin_portALinkUp (n : WinNo) (e : WinEntry) (s : State) : (setWin n e s).portALinkUp = s.portALinkUp := rfl
@[simp] theorem setWin_choice (n : WinNo) (e : WinEntry) (s : State) : (setWin n e s).choice = s.choice := rfl
@[simp] theorem setWin_freeCount (n : WinNo) (e : WinEntry) (s : State) : (setWin n e s).freeCount = s.freeCount := rfl
@[simp] theorem setWin_pending (n : WinNo) (e : WinEntry) (s : State) : (setWin n e s).pending = s.pending := rfl

/-! ## A lane -/

@[simp] theorem setLane_bridge (k : LaneNo) (l : Lane) (s : State) : (setLane k l s).bridge = s.bridge := rfl
@[simp] theorem setLane_areaBase (k : LaneNo) (l : Lane) (s : State) : (setLane k l s).areaBase = s.areaBase := rfl
@[simp] theorem setLane_enables (k : LaneNo) (l : Lane) (s : State) : (setLane k l s).enables = s.enables := rfl
@[simp] theorem setLane_raised (k : LaneNo) (l : Lane) (s : State) : (setLane k l s).raised = s.raised := rfl
@[simp] theorem setLane_raisings (k : LaneNo) (l : Lane) (s : State) : (setLane k l s).raisings = s.raisings := rfl
@[simp] theorem setLane_faultRec (k : LaneNo) (l : Lane) (s : State) : (setLane k l s).faultRec = s.faultRec := rfl
@[simp] theorem setLane_further (k : LaneNo) (l : Lane) (s : State) : (setLane k l s).further = s.further := rfl
@[simp] theorem setLane_settings (k : LaneNo) (l : Lane) (s : State) : (setLane k l s).settings = s.settings := rfl
@[simp] theorem setLane_tick (k : LaneNo) (l : Lane) (s : State) : (setLane k l s).tick = s.tick := rfl
@[simp] theorem setLane_tickTimerOn (k : LaneNo) (l : Lane) (s : State) : (setLane k l s).tickTimerOn = s.tickTimerOn := rfl
@[simp] theorem setLane_sweepTimer (k : LaneNo) (l : Lane) (s : State) : (setLane k l s).sweepTimer = s.sweepTimer := rfl
@[simp] theorem setLane_calendar (k : LaneNo) (l : Lane) (s : State) : (setLane k l s).calendar = s.calendar := rfl
@[simp] theorem setLane_ready (k : LaneNo) (l : Lane) (s : State) : (setLane k l s).ready = s.ready := rfl
@[simp] theorem setLane_gate (k : LaneNo) (l : Lane) (s : State) : (setLane k l s).gate = s.gate := rfl
@[simp] theorem setLane_cadences (k : LaneNo) (l : Lane) (s : State) : (setLane k l s).cadences = s.cadences := rfl
@[simp] theorem setLane_windows (k : LaneNo) (l : Lane) (s : State) : (setLane k l s).windows = s.windows := rfl
@[simp] theorem setLane_errands (k : LaneNo) (l : Lane) (s : State) : (setLane k l s).errands = s.errands := rfl
@[simp] theorem setLane_reader (k : LaneNo) (l : Lane) (s : State) : (setLane k l s).reader = s.reader := rfl
@[simp] theorem setLane_takeCount (k : LaneNo) (l : Lane) (s : State) : (setLane k l s).takeCount = s.takeCount := rfl
@[simp] theorem setLane_scanner (k : LaneNo) (l : Lane) (s : State) : (setLane k l s).scanner = s.scanner := rfl
@[simp] theorem setLane_sweepPending (k : LaneNo) (l : Lane) (s : State) : (setLane k l s).sweepPending = s.sweepPending := rfl
@[simp] theorem setLane_loadingStop (k : LaneNo) (l : Lane) (s : State) : (setLane k l s).loadingStop = s.loadingStop := rfl
@[simp] theorem setLane_ackWindows (k : LaneNo) (l : Lane) (s : State) : (setLane k l s).ackWindows = s.ackWindows := rfl
@[simp] theorem setLane_ackCadences (k : LaneNo) (l : Lane) (s : State) : (setLane k l s).ackCadences = s.ackCadences := rfl
@[simp] theorem setLane_portA (k : LaneNo) (l : Lane) (s : State) : (setLane k l s).portA = s.portA := rfl
@[simp] theorem setLane_portB (k : LaneNo) (l : Lane) (s : State) : (setLane k l s).portB = s.portB := rfl
@[simp] theorem setLane_controlQueue (k : LaneNo) (l : Lane) (s : State) : (setLane k l s).controlQueue = s.controlQueue := rfl
@[simp] theorem setLane_linkUp (k : LaneNo) (l : Lane) (s : State) : (setLane k l s).linkUp = s.linkUp := rfl
@[simp] theorem setLane_resetInput (k : LaneNo) (l : Lane) (s : State) : (setLane k l s).resetInput = s.resetInput := rfl
@[simp] theorem setLane_portALinkUp (k : LaneNo) (l : Lane) (s : State) : (setLane k l s).portALinkUp = s.portALinkUp := rfl
@[simp] theorem setLane_choice (k : LaneNo) (l : Lane) (s : State) : (setLane k l s).choice = s.choice := rfl
@[simp] theorem setLane_freeCount (k : LaneNo) (l : Lane) (s : State) : (setLane k l s).freeCount = s.freeCount := rfl
@[simp] theorem setLane_pending (k : LaneNo) (l : Lane) (s : State) : (setLane k l s).pending = s.pending := rfl

/-! ## A cause -/

@[simp] theorem setCause_bridge (c : Cause) (s : State) : (setCause c s).bridge = s.bridge := rfl
@[simp] theorem setCause_areaBase (c : Cause) (s : State) : (setCause c s).areaBase = s.areaBase := rfl
@[simp] theorem setCause_enables (c : Cause) (s : State) : (setCause c s).enables = s.enables := rfl
@[simp] theorem setCause_raisings (c : Cause) (s : State) : (setCause c s).raisings = s.raisings := rfl
@[simp] theorem setCause_faultRec (c : Cause) (s : State) : (setCause c s).faultRec = s.faultRec := rfl
@[simp] theorem setCause_further (c : Cause) (s : State) : (setCause c s).further = s.further := rfl
@[simp] theorem setCause_settings (c : Cause) (s : State) : (setCause c s).settings = s.settings := rfl
@[simp] theorem setCause_tick (c : Cause) (s : State) : (setCause c s).tick = s.tick := rfl
@[simp] theorem setCause_tickTimerOn (c : Cause) (s : State) : (setCause c s).tickTimerOn = s.tickTimerOn := rfl
@[simp] theorem setCause_sweepTimer (c : Cause) (s : State) : (setCause c s).sweepTimer = s.sweepTimer := rfl
@[simp] theorem setCause_calendar (c : Cause) (s : State) : (setCause c s).calendar = s.calendar := rfl
@[simp] theorem setCause_ready (c : Cause) (s : State) : (setCause c s).ready = s.ready := rfl
@[simp] theorem setCause_gate (c : Cause) (s : State) : (setCause c s).gate = s.gate := rfl
@[simp] theorem setCause_cadences (c : Cause) (s : State) : (setCause c s).cadences = s.cadences := rfl
@[simp] theorem setCause_windows (c : Cause) (s : State) : (setCause c s).windows = s.windows := rfl
@[simp] theorem setCause_lanes (c : Cause) (s : State) : (setCause c s).lanes = s.lanes := rfl
@[simp] theorem setCause_errands (c : Cause) (s : State) : (setCause c s).errands = s.errands := rfl
@[simp] theorem setCause_reader (c : Cause) (s : State) : (setCause c s).reader = s.reader := rfl
@[simp] theorem setCause_takeCount (c : Cause) (s : State) : (setCause c s).takeCount = s.takeCount := rfl
@[simp] theorem setCause_scanner (c : Cause) (s : State) : (setCause c s).scanner = s.scanner := rfl
@[simp] theorem setCause_sweepPending (c : Cause) (s : State) : (setCause c s).sweepPending = s.sweepPending := rfl
@[simp] theorem setCause_loadingStop (c : Cause) (s : State) : (setCause c s).loadingStop = s.loadingStop := rfl
@[simp] theorem setCause_ackWindows (c : Cause) (s : State) : (setCause c s).ackWindows = s.ackWindows := rfl
@[simp] theorem setCause_ackCadences (c : Cause) (s : State) : (setCause c s).ackCadences = s.ackCadences := rfl
@[simp] theorem setCause_portA (c : Cause) (s : State) : (setCause c s).portA = s.portA := rfl
@[simp] theorem setCause_portB (c : Cause) (s : State) : (setCause c s).portB = s.portB := rfl
@[simp] theorem setCause_controlQueue (c : Cause) (s : State) : (setCause c s).controlQueue = s.controlQueue := rfl
@[simp] theorem setCause_linkUp (c : Cause) (s : State) : (setCause c s).linkUp = s.linkUp := rfl
@[simp] theorem setCause_resetInput (c : Cause) (s : State) : (setCause c s).resetInput = s.resetInput := rfl
@[simp] theorem setCause_portALinkUp (c : Cause) (s : State) : (setCause c s).portALinkUp = s.portALinkUp := rfl
@[simp] theorem setCause_choice (c : Cause) (s : State) : (setCause c s).choice = s.choice := rfl
@[simp] theorem setCause_freeCount (c : Cause) (s : State) : (setCause c s).freeCount = s.freeCount := rfl
@[simp] theorem setCause_pending (c : Cause) (s : State) : (setCause c s).pending = s.pending := rfl

/-! ## A port -/

@[simp] theorem setPort_bridge (p : Domain) (x : Port) (s : State) : (setPort p x s).bridge = s.bridge := by cases p <;> rfl
@[simp] theorem setPort_areaBase (p : Domain) (x : Port) (s : State) : (setPort p x s).areaBase = s.areaBase := by cases p <;> rfl
@[simp] theorem setPort_enables (p : Domain) (x : Port) (s : State) : (setPort p x s).enables = s.enables := by cases p <;> rfl
@[simp] theorem setPort_raised (p : Domain) (x : Port) (s : State) : (setPort p x s).raised = s.raised := by cases p <;> rfl
@[simp] theorem setPort_raisings (p : Domain) (x : Port) (s : State) : (setPort p x s).raisings = s.raisings := by cases p <;> rfl
@[simp] theorem setPort_faultRec (p : Domain) (x : Port) (s : State) : (setPort p x s).faultRec = s.faultRec := by cases p <;> rfl
@[simp] theorem setPort_further (p : Domain) (x : Port) (s : State) : (setPort p x s).further = s.further := by cases p <;> rfl
@[simp] theorem setPort_settings (p : Domain) (x : Port) (s : State) : (setPort p x s).settings = s.settings := by cases p <;> rfl
@[simp] theorem setPort_tick (p : Domain) (x : Port) (s : State) : (setPort p x s).tick = s.tick := by cases p <;> rfl
@[simp] theorem setPort_tickTimerOn (p : Domain) (x : Port) (s : State) : (setPort p x s).tickTimerOn = s.tickTimerOn := by cases p <;> rfl
@[simp] theorem setPort_sweepTimer (p : Domain) (x : Port) (s : State) : (setPort p x s).sweepTimer = s.sweepTimer := by cases p <;> rfl
@[simp] theorem setPort_calendar (p : Domain) (x : Port) (s : State) : (setPort p x s).calendar = s.calendar := by cases p <;> rfl
@[simp] theorem setPort_ready (p : Domain) (x : Port) (s : State) : (setPort p x s).ready = s.ready := by cases p <;> rfl
@[simp] theorem setPort_gate (p : Domain) (x : Port) (s : State) : (setPort p x s).gate = s.gate := by cases p <;> rfl
@[simp] theorem setPort_cadences (p : Domain) (x : Port) (s : State) : (setPort p x s).cadences = s.cadences := by cases p <;> rfl
@[simp] theorem setPort_windows (p : Domain) (x : Port) (s : State) : (setPort p x s).windows = s.windows := by cases p <;> rfl
@[simp] theorem setPort_lanes (p : Domain) (x : Port) (s : State) : (setPort p x s).lanes = s.lanes := by cases p <;> rfl
@[simp] theorem setPort_errands (p : Domain) (x : Port) (s : State) : (setPort p x s).errands = s.errands := by cases p <;> rfl
@[simp] theorem setPort_reader (p : Domain) (x : Port) (s : State) : (setPort p x s).reader = s.reader := by cases p <;> rfl
@[simp] theorem setPort_takeCount (p : Domain) (x : Port) (s : State) : (setPort p x s).takeCount = s.takeCount := by cases p <;> rfl
@[simp] theorem setPort_scanner (p : Domain) (x : Port) (s : State) : (setPort p x s).scanner = s.scanner := by cases p <;> rfl
@[simp] theorem setPort_sweepPending (p : Domain) (x : Port) (s : State) : (setPort p x s).sweepPending = s.sweepPending := by cases p <;> rfl
@[simp] theorem setPort_loadingStop (p : Domain) (x : Port) (s : State) : (setPort p x s).loadingStop = s.loadingStop := by cases p <;> rfl
@[simp] theorem setPort_ackWindows (p : Domain) (x : Port) (s : State) : (setPort p x s).ackWindows = s.ackWindows := by cases p <;> rfl
@[simp] theorem setPort_ackCadences (p : Domain) (x : Port) (s : State) : (setPort p x s).ackCadences = s.ackCadences := by cases p <;> rfl
@[simp] theorem setPort_controlQueue (p : Domain) (x : Port) (s : State) : (setPort p x s).controlQueue = s.controlQueue := by cases p <;> rfl
@[simp] theorem setPort_linkUp (p : Domain) (x : Port) (s : State) : (setPort p x s).linkUp = s.linkUp := by cases p <;> rfl
@[simp] theorem setPort_resetInput (p : Domain) (x : Port) (s : State) : (setPort p x s).resetInput = s.resetInput := by cases p <;> rfl
@[simp] theorem setPort_portALinkUp (p : Domain) (x : Port) (s : State) : (setPort p x s).portALinkUp = s.portALinkUp := by cases p <;> rfl
@[simp] theorem setPort_choice (p : Domain) (x : Port) (s : State) : (setPort p x s).choice = s.choice := by cases p <;> rfl
@[simp] theorem setPort_freeCount (p : Domain) (x : Port) (s : State) : (setPort p x s).freeCount = s.freeCount := by cases p <;> rfl
@[simp] theorem setPort_pending (p : Domain) (x : Port) (s : State) : (setPort p x s).pending = s.pending := by cases p <;> rfl

/-! ## An acknowledged number -/

@[simp] theorem setAck_bridge (r : Record) (q : Byte) (s : State) : (setAck r q s).bridge = s.bridge := by cases r <;> rfl
@[simp] theorem setAck_areaBase (r : Record) (q : Byte) (s : State) : (setAck r q s).areaBase = s.areaBase := by cases r <;> rfl
@[simp] theorem setAck_enables (r : Record) (q : Byte) (s : State) : (setAck r q s).enables = s.enables := by cases r <;> rfl
@[simp] theorem setAck_raised (r : Record) (q : Byte) (s : State) : (setAck r q s).raised = s.raised := by cases r <;> rfl
@[simp] theorem setAck_raisings (r : Record) (q : Byte) (s : State) : (setAck r q s).raisings = s.raisings := by cases r <;> rfl
@[simp] theorem setAck_faultRec (r : Record) (q : Byte) (s : State) : (setAck r q s).faultRec = s.faultRec := by cases r <;> rfl
@[simp] theorem setAck_further (r : Record) (q : Byte) (s : State) : (setAck r q s).further = s.further := by cases r <;> rfl
@[simp] theorem setAck_settings (r : Record) (q : Byte) (s : State) : (setAck r q s).settings = s.settings := by cases r <;> rfl
@[simp] theorem setAck_tick (r : Record) (q : Byte) (s : State) : (setAck r q s).tick = s.tick := by cases r <;> rfl
@[simp] theorem setAck_tickTimerOn (r : Record) (q : Byte) (s : State) : (setAck r q s).tickTimerOn = s.tickTimerOn := by cases r <;> rfl
@[simp] theorem setAck_sweepTimer (r : Record) (q : Byte) (s : State) : (setAck r q s).sweepTimer = s.sweepTimer := by cases r <;> rfl
@[simp] theorem setAck_calendar (r : Record) (q : Byte) (s : State) : (setAck r q s).calendar = s.calendar := by cases r <;> rfl
@[simp] theorem setAck_ready (r : Record) (q : Byte) (s : State) : (setAck r q s).ready = s.ready := by cases r <;> rfl
@[simp] theorem setAck_gate (r : Record) (q : Byte) (s : State) : (setAck r q s).gate = s.gate := by cases r <;> rfl
@[simp] theorem setAck_cadences (r : Record) (q : Byte) (s : State) : (setAck r q s).cadences = s.cadences := by cases r <;> rfl
@[simp] theorem setAck_windows (r : Record) (q : Byte) (s : State) : (setAck r q s).windows = s.windows := by cases r <;> rfl
@[simp] theorem setAck_lanes (r : Record) (q : Byte) (s : State) : (setAck r q s).lanes = s.lanes := by cases r <;> rfl
@[simp] theorem setAck_errands (r : Record) (q : Byte) (s : State) : (setAck r q s).errands = s.errands := by cases r <;> rfl
@[simp] theorem setAck_reader (r : Record) (q : Byte) (s : State) : (setAck r q s).reader = s.reader := by cases r <;> rfl
@[simp] theorem setAck_takeCount (r : Record) (q : Byte) (s : State) : (setAck r q s).takeCount = s.takeCount := by cases r <;> rfl
@[simp] theorem setAck_scanner (r : Record) (q : Byte) (s : State) : (setAck r q s).scanner = s.scanner := by cases r <;> rfl
@[simp] theorem setAck_sweepPending (r : Record) (q : Byte) (s : State) : (setAck r q s).sweepPending = s.sweepPending := by cases r <;> rfl
@[simp] theorem setAck_loadingStop (r : Record) (q : Byte) (s : State) : (setAck r q s).loadingStop = s.loadingStop := by cases r <;> rfl
@[simp] theorem setAck_portA (r : Record) (q : Byte) (s : State) : (setAck r q s).portA = s.portA := by cases r <;> rfl
@[simp] theorem setAck_portB (r : Record) (q : Byte) (s : State) : (setAck r q s).portB = s.portB := by cases r <;> rfl
@[simp] theorem setAck_controlQueue (r : Record) (q : Byte) (s : State) : (setAck r q s).controlQueue = s.controlQueue := by cases r <;> rfl
@[simp] theorem setAck_linkUp (r : Record) (q : Byte) (s : State) : (setAck r q s).linkUp = s.linkUp := by cases r <;> rfl
@[simp] theorem setAck_resetInput (r : Record) (q : Byte) (s : State) : (setAck r q s).resetInput = s.resetInput := by cases r <;> rfl
@[simp] theorem setAck_portALinkUp (r : Record) (q : Byte) (s : State) : (setAck r q s).portALinkUp = s.portALinkUp := by cases r <;> rfl
@[simp] theorem setAck_choice (r : Record) (q : Byte) (s : State) : (setAck r q s).choice = s.choice := by cases r <;> rfl
@[simp] theorem setAck_freeCount (r : Record) (q : Byte) (s : State) : (setAck r q s).freeCount = s.freeCount := by cases r <;> rfl
@[simp] theorem setAck_pending (r : Record) (q : Byte) (s : State) : (setAck r q s).pending = s.pending := by cases r <;> rfl

/-! ## Reading back -/

@[simp] theorem cad_setCad_same (n : CadNo) (e : CadEntry) (s : State) : (setCad n e s).cad n = e := by
  simp [State.cad, setCad]

theorem cad_setCad_ne {n m : CadNo} (h : n ≠ m) (e : CadEntry) (s : State) :
    (setCad n e s).cad m = s.cad m := by
  simp [State.cad, setCad, Fin.val_ne_of_ne h]

@[simp] theorem win_setWin_same (n : WinNo) (e : WinEntry) (s : State) : (setWin n e s).win n = e := by
  simp [State.win, setWin]

theorem win_setWin_ne {n m : WinNo} (h : n ≠ m) (e : WinEntry) (s : State) :
    (setWin n e s).win m = s.win m := by
  simp [State.win, setWin, Fin.val_ne_of_ne h]

@[simp] theorem lane_setLane_same (k : LaneNo) (l : Lane) (s : State) : (setLane k l s).lane k = l := by
  simp [State.lane, setLane]

theorem lane_setLane_ne {k j : LaneNo} (h : k ≠ j) (l : Lane) (s : State) :
    (setLane k l s).lane j = s.lane j := by
  simp [State.lane, setLane, Fin.val_ne_of_ne h]

@[simp] theorem port_setPort_same (p : Domain) (x : Port) (s : State) : (setPort p x s).port p = x := by
  cases p <;> rfl

theorem port_setPort_ne {p q : Domain} (h : p ≠ q) (x : Port) (s : State) :
    (setPort p x s).port q = s.port q := by
  cases p <;> cases q <;> first | rfl | exact absurd rfl h

@[simp] theorem tag_setTag_same (p : Domain) (t : TagNo) (x : Tag) (s : State) :
    (setTag p t x s).tag p t = x := by
  simp [State.tag, setTag]

theorem tag_setTag_ne {t u : TagNo} (h : t ≠ u) (p : Domain) (x : Tag) (s : State) :
    (setTag p t x s).tag p u = s.tag p u := by
  simp [State.tag, setTag, Fin.val_ne_of_ne h]

@[simp] theorem ack_setAck_same (r : Record) (q : Byte) (s : State) : (setAck r q s).ack r = some q := by
  cases r <;> simp [State.ack, setAck]

/-! ## The views of an update to another table -/

@[simp] theorem win_setCad (n : CadNo) (e : CadEntry) (m : WinNo) (s : State) :
   (setCad n e s).win m = s.win m := rfl
@[simp] theorem lane_setCad (n : CadNo) (e : CadEntry) (j : LaneNo) (s : State) :
   (setCad n e s).lane j = s.lane j := rfl
@[simp] theorem port_setCad (n : CadNo) (e : CadEntry) (q : Domain) (s : State) :
   (setCad n e s).port q = s.port q := by cases q <;> rfl
@[simp] theorem tag_setCad (n : CadNo) (e : CadEntry) (q : Domain) (u : TagNo) (s : State) :
   (setCad n e s).tag q u = s.tag q u := by cases q <;> rfl
@[simp] theorem ack_setCad (n : CadNo) (e : CadEntry) (r : Record) (s : State) :
   (setCad n e s).ack r = s.ack r := by cases r <;> rfl
@[simp] theorem hdr_setCad (n : CadNo) (e : CadEntry) (s : State) :
   (setCad n e s).hdr = s.hdr := rfl
@[simp] theorem cad_setWin (n : WinNo) (e : WinEntry) (m : CadNo) (s : State) :
   (setWin n e s).cad m = s.cad m := rfl
@[simp] theorem lane_setWin (n : WinNo) (e : WinEntry) (j : LaneNo) (s : State) :
   (setWin n e s).lane j = s.lane j := rfl
@[simp] theorem port_setWin (n : WinNo) (e : WinEntry) (q : Domain) (s : State) :
   (setWin n e s).port q = s.port q := by cases q <;> rfl
@[simp] theorem tag_setWin (n : WinNo) (e : WinEntry) (q : Domain) (u : TagNo) (s : State) :
   (setWin n e s).tag q u = s.tag q u := by cases q <;> rfl
@[simp] theorem ack_setWin (n : WinNo) (e : WinEntry) (r : Record) (s : State) :
   (setWin n e s).ack r = s.ack r := by cases r <;> rfl
@[simp] theorem hdr_setWin (n : WinNo) (e : WinEntry) (s : State) :
   (setWin n e s).hdr = s.hdr := rfl
@[simp] theorem cad_setLane (k : LaneNo) (l : Lane) (m : CadNo) (s : State) :
   (setLane k l s).cad m = s.cad m := rfl
@[simp] theorem win_setLane (k : LaneNo) (l : Lane) (m : WinNo) (s : State) :
   (setLane k l s).win m = s.win m := rfl
@[simp] theorem port_setLane (k : LaneNo) (l : Lane) (q : Domain) (s : State) :
   (setLane k l s).port q = s.port q := by cases q <;> rfl
@[simp] theorem tag_setLane (k : LaneNo) (l : Lane) (q : Domain) (u : TagNo) (s : State) :
   (setLane k l s).tag q u = s.tag q u := by cases q <;> rfl
@[simp] theorem ack_setLane (k : LaneNo) (l : Lane) (r : Record) (s : State) :
   (setLane k l s).ack r = s.ack r := by cases r <;> rfl
@[simp] theorem hdr_setLane (k : LaneNo) (l : Lane) (s : State) :
   (setLane k l s).hdr = s.hdr := rfl
@[simp] theorem cad_setPort (p : Domain) (x : Port) (m : CadNo) (s : State) :
   (setPort p x s).cad m = s.cad m := by cases p <;> rfl
@[simp] theorem win_setPort (p : Domain) (x : Port) (m : WinNo) (s : State) :
   (setPort p x s).win m = s.win m := by cases p <;> rfl
@[simp] theorem lane_setPort (p : Domain) (x : Port) (j : LaneNo) (s : State) :
   (setPort p x s).lane j = s.lane j := by cases p <;> rfl
@[simp] theorem ack_setPort (p : Domain) (x : Port) (r : Record) (s : State) :
   (setPort p x s).ack r = s.ack r := by cases p <;> cases r <;> rfl
@[simp] theorem hdr_setPort (p : Domain) (x : Port) (s : State) :
   (setPort p x s).hdr = s.hdr := by cases p <;> rfl
@[simp] theorem cad_setCause (c : Cause) (m : CadNo) (s : State) :
   (setCause c s).cad m = s.cad m := rfl
@[simp] theorem win_setCause (c : Cause) (m : WinNo) (s : State) :
   (setCause c s).win m = s.win m := rfl
@[simp] theorem lane_setCause (c : Cause) (j : LaneNo) (s : State) :
   (setCause c s).lane j = s.lane j := rfl
@[simp] theorem port_setCause (c : Cause) (q : Domain) (s : State) :
   (setCause c s).port q = s.port q := by cases q <;> rfl
@[simp] theorem tag_setCause (c : Cause) (q : Domain) (u : TagNo) (s : State) :
   (setCause c s).tag q u = s.tag q u := by cases q <;> rfl
@[simp] theorem ack_setCause (c : Cause) (r : Record) (s : State) :
   (setCause c s).ack r = s.ack r := by cases r <;> rfl
@[simp] theorem hdr_setCause (c : Cause) (s : State) :
   (setCause c s).hdr = s.hdr := rfl

theorem setLane_setLane (k : LaneNo) (l m : Lane) (s : State) :
    setLane k l (setLane k m s) = setLane k l s := by
  simp [setLane]

end Sys2Proof.Machine
end

