-- ==== Sys2Proof/Laws/Effects.lean ====
section
/-! SUPPORT. The raising of causes, fault reports, posted writes and the FREE tags, said once each in the
notions of Sys2Proof/Safety.lean. -/

namespace Sys2Proof.Machine

/-! ## Posted writes and causes -/

theorem heldWrites_eq (x : Port) : heldWrites x = x.writes.length := by
  unfold heldWrites Port.writes
  induction x.requests with
  | nil => rfl
  | cons r l ih => cases r <;> simp [List.countP_cons, List.filterMap_cons, Request.isWrite, Request.write?, ih]

theorem raise_causeRaised (c : Cause) (s : State) : CauseRaised c s (raise c s) := by
  unfold CauseRaised raise
  rw [heldWrites_eq]
  by_cases h : s.portA.writes = []
  · simp [h, setCause]
  · have : s.portA.writes.length ≠ 0 := by simpa using h
    simp [h, this]

theorem raise_frame (c : Cause) (s : State) :
    raise c s = { s with raised := (raise c s).raised, raisings := (raise c s).raisings } := by
  unfold raise setCause
  split <;> rfl

theorem reportFault_frame (code : FaultCode) (kind : ObjectKind) (number : Nat) (s : State) :
    reportFault code kind number s =
      { s with
        faultRec := (reportFault code kind number s).faultRec
        further := (reportFault code kind number s).further
        raised := (reportFault code kind number s).raised
        raisings := (reportFault code kind number s).raisings } := by
  unfold reportFault recordFault raise setCause
  repeat' split
  all_goals rfl

theorem setCauses_raised (l : List Cause) (s : State) (i : Nat) :
    (setCauses l s).raised.getLsbD i = (s.raised.getLsbD i || l.any (fun c => c.bit.getLsbD i)) := by
  induction l generalizing s with
  | nil => simp [setCauses]
  | cons c l ih => simp [setCauses, ih, setCause, Bool.or_assoc]

theorem setCauses_frame (l : List Cause) (s : State) :
    setCauses l s = { s with raised := (setCauses l s).raised } := by
  induction l generalizing s with
  | nil => simp [setCauses]
  | cons c l ih =>
    simp only [setCauses]
    rw [ih]
    rfl

theorem issueWrite_setLane (w : PostedWrite) (k : LaneNo) (l : Lane) (s : State) :
    issueWrite .a w (setLane k l s) = setLane k l (issueWrite .a w s) := by
  simp [issueWrite, setPort, setLane, State.port]

/-! ## FREE tags -/

theorem isFree_iff (g : Tag) : g.isFree = true ↔ g = .free := by cases g <;> simp [Tag.isFree]

theorem mem_freeTags (x : Port) (t : TagNo) : t ∈ freeTags x ↔ x.tags[t] = .free := by
  simp [freeTags, isFree_iff]

/-- Where a tag is FREE, the choice takes a FREE tag. -/
theorem pickTag_some (p : Domain) (s : State) (h : ∃ t, s.tag p t = .free) :
    ∃ t c, pickTag p s = some (t, c) ∧ s.tag p t = .free := by
  obtain ⟨t0, h0⟩ := h
  have hm : t0 ∈ freeTags (s.port p) := (mem_freeTags _ _).mpr h0
  have hl : 0 < (freeTags (s.port p)).length := List.length_pos_of_mem hm
  have hlt : s.choice % (freeTags (s.port p)).length < (freeTags (s.port p)).length :=
    Nat.mod_lt _ hl
  refine ⟨(freeTags (s.port p))[s.choice % (freeTags (s.port p)).length],
    s.choice / (freeTags (s.port p)).length, ?_, ?_⟩
  · unfold pickTag
    simp only [List.getElem?_eq_getElem hlt]
  · exact (mem_freeTags _ _).mp (List.getElem_mem hlt)

/-- Where no tag is FREE, nothing is taken. -/
theorem pickTag_none (p : Domain) (s : State) (h : ∀ t, s.tag p t ≠ .free) : pickTag p s = none := by
  have : freeTags (s.port p) = [] := by
    rw [List.eq_nil_iff_forall_not_mem]
    exact fun t ht => h t ((mem_freeTags _ _).mp ht)
  unfold pickTag
  simp [this]

end Sys2Proof.Machine
end

