-- ==== Sys2Proof/Laws/LaneRecord.lean ====
section
/-! SUPPORT. A lane's record keeps to the lanes' law: one lemma for each change of it. -/

namespace Sys2Proof.Machine.Lane.Lawful

theorem ofIdle : Lane.idle.Lawful where
  idle _ := rfl
  loading h := by cases h
  stamping h := by cases h
  confirming h := by cases h
  confirmTag h := absurd rfl h
  tagRequest p h := by cases h
  parking h := by cases h
  room := by decide
  buffered := by simp [Lane.idle]
  reads := by simp [Lane.idle]
  reserved r h := by cases h
  range b h := by cases h
  order := Nat.le_refl _
  readBound := Or.inl rfl
  writeBound := Or.inl rfl
  fill c h := by cases h
  closing n h := by cases h

theorem stampingOf {l : Lane} (h : l.Lawful) (tick : Nat) (o : Option Outcome) (left : List StampItem)
    (ho : l.outstanding = []) (hc : l.confirmTag = none)
    (hl : ∀ n, l.job = .closing n →
      left = [] ∨ left.getLast? = some .closeEnd ∧ .closeEnd ∉ left.dropLast) :
    (l.stamping tick o left).Lawful := by
  constructor <;> simp [Lane.stamping, ho, hc]
  case room => exact h.room
  case buffered => exact h.buffered
  case range => exact h.range
  case order => exact h.order
  case readBound => exact h.readBound
  case writeBound => exact h.writeBound
  case fill => exact fun c a b => ⟨(h.fill c a b).1, (h.fill c a b).2.2⟩
  case closing => exact hl

theorem failedOf {l : Lane} (h : l.Lawful) (o : Outcome) (hs : l.state ≠ .idle) : (l.failed o).Lawful := by
  constructor <;> simp [Lane.failed, hs]
  case tagRequest =>
    intro p a
    rcases h.tagRequest p a with ⟨a1, a2, a3, a4, a5⟩ | b
    · exact Or.inl ⟨a1, a2, a3, Nat.lt_of_le_of_lt (List.length_filter_le _ _) a4, a5⟩
    · exact Or.inr b
  case loading => exact fun a => by have := h.loading a; simp_all
  case stamping => exact fun a => by have := h.stamping a; simp_all
  case confirming => exact h.confirming
  case confirmTag => exact h.confirmTag
  case parking => exact h.parking
  case room => exact Nat.le_trans (List.length_filter_le _ _) h.room
  case buffered => exact h.buffered.sublist (List.filter_sublist.map _)
  case reads => exact h.reads
  case reserved => exact h.reserved
  case range => exact fun b a _ => h.range b a
  case order => exact h.order
  case readBound => exact h.readBound
  case writeBound => exact h.writeBound
  case fill => exact fun c a b => by have := h.fill c a b; simp_all
  case closing => exact h.closing

theorem segment_inj {l : List OutRead} (h : (l.map OutRead.segment).Nodup) {a b : OutRead} (ha : a ∈ l)
    (hb : b ∈ l) (e : a.segment = b.segment) : a = b := by
  induction l with
  | nil => cases ha
  | cons x l ih =>
    simp only [List.map_cons, List.nodup_cons, List.mem_map, not_exists, not_and] at h
    rcases List.mem_cons.mp ha with ea | ha' <;> rcases List.mem_cons.mp hb with eb | hb'
    · rw [ea, eb]
    · subst ea; exact absurd e.symm (h.1 b hb')
    · subst eb; exact absurd e (h.1 a ha')
    · exact ih h.2 ha' hb'

theorem buf_inj {l : List BufEntry} (h : (l.map BufEntry.segment).Nodup) {a b : BufEntry} (ha : a ∈ l)
    (hb : b ∈ l) (e : a.segment = b.segment) : a = b := by
  induction l with
  | nil => cases ha
  | cons x l ih =>
    simp only [List.map_cons, List.nodup_cons, List.mem_map, not_exists, not_and] at h
    rcases List.mem_cons.mp ha with ea | ha' <;> rcases List.mem_cons.mp hb with eb | hb'
    · rw [ea, eb]
    · subst ea; exact absurd e.symm (h.1 b hb')
    · subst eb; exact absurd e (h.1 a ha')
    · exact ih h.2 ha' hb'

/-- A read answered: it leaves the record, and its buffer entry may be discarded. -/
theorem discardOf {l : Lane} (h : l.Lawful) {n : Nat} {t : TagNo} (hm : ⟨n, t⟩ ∈ l.outstanding) :
    ({ l.dropRead t with buffer := l.buffer.filter (fun b => b.segment != n) } : Lane).Lawful := by
  have hne : ∀ r ∈ l.outstanding, r.tag ≠ t → r.segment ≠ n := fun r hr ht e =>
    ht (congrArg OutRead.tag (segment_inj h.reads hr hm e))
  have hs : l.outstanding ≠ [] := List.ne_nil_of_mem hm
  constructor <;> simp [Lane.dropRead]
  case idle => exact fun a => absurd (by rw [h.idle a]; rfl) hs
  case loading => exact fun a => absurd (h.loading a).1 hs
  case stamping => exact fun a => absurd (h.stamping a).1 hs
  case confirming => exact fun a => absurd (h.confirming a) hs
  case confirmTag => exact fun a => absurd (h.confirmTag a).2 hs
  case tagRequest =>
    intro p a
    rcases h.tagRequest p a with ⟨a1, a2, a3, a4, a5⟩ | ⟨_, _, a3, _⟩
    · exact Or.inl ⟨a1, a2, a3, Nat.lt_of_le_of_lt (List.length_filter_le _ _) a4, a5⟩
    · exact absurd a3 hs
  case parking => exact h.parking
  case room => exact Nat.le_trans (List.length_filter_le _ _) h.room
  case buffered => exact h.buffered.sublist (List.filter_sublist.map _)
  case reads => exact h.reads.sublist (List.filter_sublist.map _)
  case reserved => exact fun r hr ht => ⟨h.reserved r hr, hne r hr ht⟩
  case range => exact fun b a _ => h.range b a
  case order => exact h.order
  case readBound => exact h.readBound
  case writeBound => exact h.writeBound
  case fill => exact fun c a b => absurd (h.fill c a b).2.1 hs
  case closing => exact h.closing

/-- A read answered with data: it leaves the record, and its buffer entry holds the bytes. -/
theorem arrivedOf {l : Lane} (h : l.Lawful) {n : Nat} {t : TagNo} (bytes : List Byte)
    (hm : ⟨n, t⟩ ∈ l.outstanding) :
    ({ l.dropRead t with
        buffer := l.buffer.map (fun b => if b.segment = n then { b with bytes := some bytes } else b) } :
      Lane).Lawful := by
  have hne : ∀ r ∈ l.outstanding, r.tag ≠ t → r.segment ≠ n := fun r hr ht e =>
    ht (congrArg OutRead.tag (segment_inj h.reads hr hm e))
  have hs : l.outstanding ≠ [] := List.ne_nil_of_mem hm
  have hmap : (l.buffer.map (fun b => if b.segment = n then { b with bytes := some bytes } else b)).map
      BufEntry.segment = l.buffer.map BufEntry.segment := by
    rw [List.map_map]
    apply List.map_congr_left
    intro b _
    simp only [Function.comp]
    split <;> rfl
  constructor <;> simp only [Lane.dropRead]
  case idle => exact fun a => absurd (by rw [h.idle a]; rfl) hs
  case loading => exact fun a => absurd (h.loading a).1 hs
  case stamping => exact fun a => absurd (h.stamping a).1 hs
  case confirming => exact fun a => absurd (h.confirming a) hs
  case confirmTag => exact fun a => absurd (h.confirmTag a).2 hs
  case tagRequest =>
    intro p a
    rcases h.tagRequest p a with ⟨a1, a2, a3, a4, a5⟩ | ⟨_, _, a3, _⟩
    · exact Or.inl ⟨a1, a2, a3, by simpa using a4, a5⟩
    · exact absurd a3 hs
  case parking => exact h.parking
  case room => simpa using h.room
  case buffered => rw [hmap]; exact h.buffered
  case reads => exact h.reads.sublist (List.filter_sublist.map _)
  case reserved =>
    intro r hr
    simp only [List.mem_filter, bne_iff_ne] at hr
    exact List.mem_map.mpr ⟨⟨r.segment, none⟩, h.reserved r hr.1, by simp [hne r hr.1 hr.2]⟩
  case range =>
    intro b hb
    obtain ⟨b', hb', e⟩ := List.mem_map.mp hb
    have := h.range b' hb'
    subst e
    split <;> exact this
  case order => exact h.order
  case readBound => exact h.readBound
  case writeBound => exact h.writeBound
  case fill => exact fun c a b => absurd (h.fill c a b).2.1 hs
  case closing => exact h.closing

/-- The lowest unwritten segment is written. -/
theorem writtenOf {l : Lane} (h : l.Lawful) {bytes : List Byte}
    (hm : ⟨l.written / Config.segmentSize, some bytes⟩ ∈ l.buffer) :
    ({ l with
        written := l.written + segmentLength l.length (l.written / Config.segmentSize)
        buffer := l.buffer.filter (fun b => b.segment != l.written / Config.segmentSize) } : Lane).Lawful := by
  have hr := h.range _ hm
  have ho := h.order
  have hb := h.readBound
  have hbuf : l.buffer ≠ [] := List.ne_nil_of_mem hm
  have hout : ∀ r ∈ l.outstanding, r.segment ≠ l.written / Config.segmentSize := by
    intro r hr' e
    have := buf_inj h.buffered (h.reserved r hr') hm e
    simp at this
  have e : l.written + segmentLength l.length (l.written / Config.segmentSize) =
      min (Config.segmentSize * (l.written / Config.segmentSize + 1)) l.length := by
    simp only [segmentLength, Config.segmentSize] at *
    omega
  rw [e]
  simp only [Config.segmentSize] at *
  constructor <;> simp only
  case idle => exact fun a => absurd (by rw [h.idle a]; rfl) hbuf
  case loading => exact fun a => absurd (h.loading a).2.1 hbuf
  case stamping => exact h.stamping
  case confirming => exact h.confirming
  case confirmTag => exact h.confirmTag
  case tagRequest =>
    intro p a
    rcases h.tagRequest p a with ⟨a1, a2, a3, a4, a5⟩ | a
    · exact Or.inl ⟨a1, a2, a3, Nat.lt_of_le_of_lt (List.length_filter_le _ _) a4, a5⟩
    · exact Or.inr a
  case parking => exact h.parking
  case room => exact Nat.le_trans (List.length_filter_le _ _) h.room
  case buffered => exact h.buffered.sublist (List.filter_sublist.map _)
  case reads => exact h.reads
  case reserved => exact fun r hr => by simpa using ⟨h.reserved r hr, hout r hr⟩
  case range =>
    intro b hb'
    simp only [List.mem_filter, bne_iff_ne] at hb'
    have := h.range b hb'.1
    simp only [Config.segmentSize] at this ⊢
    omega
  case order => omega
  case readBound => exact h.readBound
  case writeBound => simp only [Config.segmentSize]; omega
  case fill => exact fun c a b => absurd (h.fill c a b).2.2 hbuf
  case closing => exact h.closing

/-- A lane in MOVING waits for a tag of its source port. -/
theorem askingSourceOf {l : Lane} (h : l.Lawful) (hw : l.wantsRead = true) :
    ({ l with tagRequest := some l.srcPort } : Lane).Lawful := by
  simp only [Lane.wantsRead, Bool.and_eq_true, beq_iff_eq, decide_eq_true_eq] at hw
  obtain ⟨⟨⟨⟨⟨⟨hs, hj⟩, hr⟩, hb⟩, _⟩, _⟩, _⟩ := hw
  constructor <;> simp [hs]
  case confirmTag =>
    refine Decidable.byContradiction fun a => ?_
    have := (h.confirmTag a).1
    simp [hs] at this
  case tagRequest =>
    refine ⟨hr, hb, ?_⟩
    unfold Job.readsData
    split <;> simp_all
  case room => exact h.room
  case buffered => exact h.buffered
  case reads => exact h.reads
  case reserved => exact h.reserved
  case range => exact h.range
  case order => exact h.order
  case readBound => exact h.readBound
  case writeBound => exact h.writeBound
  case fill => exact h.fill

/-- A lane in CONFIRMING or PARKING waits for a tag of its destination port. -/
theorem askingDestOf {l : Lane} (h : l.Lawful) (hs : l.state = .confirming ∨ l.state = .parking)
    (ho : l.outstanding = []) (hc : l.confirmTag = none) :
    ({ l with tagRequest := some l.dstPort } : Lane).Lawful := by
  constructor <;> simp [ho, hc, hs]
  case idle => rcases hs with e | e <;> simp [e]
  case loading => rcases hs with e | e <;> simp [e]
  case stamping => rcases hs with e | e <;> simp [e]
  case parking => exact h.parking
  case room => exact h.room
  case buffered => exact h.buffered
  case range => exact h.range
  case order => exact h.order
  case readBound => exact h.readBound
  case writeBound => exact h.writeBound
  case fill => exact fun c a b => ⟨(h.fill c a b).1, (h.fill c a b).2.2⟩
  case closing => exact h.closing

/-- A granted lane in MOVING has its segment's read on record. -/
theorem readingOf {l : Lane} (h : l.Lawful) {p : Domain} (t : TagNo) (hs : l.state = .moving)
    (hq : l.tagRequest = some p) :
    ({ l with
        tagRequest := none
        outstanding := l.outstanding ++ [⟨l.readPoint / Config.segmentSize, t⟩]
        buffer := l.buffer ++ [⟨l.readPoint / Config.segmentSize, none⟩]
        readPoint := l.readPoint + segmentLength l.length (l.readPoint / Config.segmentSize)
      } : Lane).Lawful := by
  have hq' : l.readPoint < l.length ∧ l.buffer.length < Config.bufferSize ∧ l.job.readsData = true := by
    rcases h.tagRequest p hq with ⟨_, _, a⟩ | ⟨a, _⟩
    · exact a
    · simp [hs] at a
  obtain ⟨hr, hb, hj⟩ := hq'
  have e : l.readPoint + segmentLength l.length (l.readPoint / Config.segmentSize) =
      min (Config.segmentSize * (l.readPoint / Config.segmentSize + 1)) l.length := by
    have := h.readBound
    simp only [segmentLength, Config.segmentSize] at *
    omega
  rw [e]
  have hro := h.readBound
  have hor := h.order
  simp only [Config.segmentSize, Config.bufferSize] at *
  constructor <;> simp only
  case idle => simp [hs]
  case loading => simp [hs]
  case stamping => simp [hs]
  case confirming => simp [hs]
  case confirmTag => exact fun a => by have := (h.confirmTag a).1; simp [hs] at this
  case tagRequest => simp
  case parking => simp [hs]
  case room => simp [Config.bufferSize]; omega
  case buffered =>
    rw [List.map_append, List.nodup_append]
    refine ⟨h.buffered, by simp, ?_⟩
    intro a ha b hb' e
    obtain ⟨x, hx, rfl⟩ := List.mem_map.mp ha
    have := (h.range x hx).2.1
    simp only [List.map_cons, List.map_nil, List.mem_singleton] at hb'
    simp only [Config.segmentSize] at this
    omega
  case reads =>
    rw [List.map_append, List.nodup_append]
    refine ⟨h.reads, by simp, ?_⟩
    intro a ha b hb' e
    obtain ⟨x, hx, rfl⟩ := List.mem_map.mp ha
    have := (h.range _ (h.reserved x hx)).2.1
    simp only [List.map_cons, List.map_nil, List.mem_singleton] at hb'
    simp only [Config.segmentSize] at this
    omega
  case reserved =>
    intro r hr'
    rcases List.mem_append.mp hr' with a | a
    · exact List.mem_append_left _ (h.reserved r a)
    · simp only [List.mem_singleton] at a
      subst a
      simp
  case range =>
    intro b hb'
    rcases List.mem_append.mp hb' with a | a
    · have := h.range b a
      simp only [Config.segmentSize] at *
      omega
    · simp only [List.mem_singleton] at a
      subst a
      simp only [Config.segmentSize] at *
      omega
  case order => omega
  case readBound => simp only [Config.segmentSize]; omega
  case writeBound => exact h.writeBound
  case fill =>
    intro c hc hk
    simp only [Job.readsData] at hj
    rw [hc] at hj
    simp at hj
    exact absurd hj hk
  case closing => exact h.closing

/-- A granted lane in CONFIRMING or PARKING has its confirming read on record. -/
theorem confirmingOf {l : Lane} (h : l.Lawful) {p : Domain} (t : TagNo) (hs : l.state ≠ .moving)
    (hq : l.tagRequest = some p) :
    ({ l with tagRequest := none, confirmTag := some t } : Lane).Lawful := by
  rcases h.tagRequest p hq with ⟨a, _⟩ | ⟨hs', hp, ho, _⟩
  · exact absurd a hs
  constructor <;> simp [ho, hs']
  case idle => rcases hs' with e | e <;> simp [e]
  case loading => rcases hs' with e | e <;> simp [e]
  case stamping => rcases hs' with e | e <;> simp [e]
  case parking => exact h.parking
  case room => exact h.room
  case buffered => exact h.buffered
  case range => exact h.range
  case order => exact h.order
  case readBound => exact h.readBound
  case writeBound => exact h.writeBound
  case fill => exact fun c a b => ⟨(h.fill c a b).1, (h.fill c a b).2.2⟩
  case closing => exact h.closing

/-- A lane in MOVING that has written every byte has no read out. -/
theorem writtenAll {l : Lane} (h : l.Lawful) (hw : l.written = l.length) :
    l.outstanding = [] ∧ l.buffer = [] := by
  have hb : l.buffer = [] := by
    rw [List.eq_nil_iff_forall_not_mem]
    intro b hb
    have := h.range b hb
    omega
  refine ⟨?_, hb⟩
  rw [List.eq_nil_iff_forall_not_mem]
  intro r hr
  have := h.reserved r hr
  rw [hb] at this
  cases this

/-- A lane in MOVING with no read out enters CONFIRMING. -/
theorem toConfirming {l : Lane} (h : l.Lawful) (hs : l.state = .moving) (ho : l.outstanding = [])
    (hq : l.tagRequest = none) : ({ l with state := .confirming } : Lane).Lawful := by
  have hc : l.confirmTag = none := by
    refine Decidable.byContradiction fun a => ?_
    have := (h.confirmTag a).1
    simp [hs] at this
  constructor <;> simp [ho, hc, hq]
  case room => exact h.room
  case buffered => exact h.buffered
  case range => exact h.range
  case order => exact h.order
  case readBound => exact h.readBound
  case writeBound => exact h.writeBound
  case fill => exact fun c a b => ⟨(h.fill c a b).1, (h.fill c a b).2.2⟩

theorem noConfirm {l : Lane} (h : l.Lawful) (h1 : l.state ≠ .confirming) (h2 : l.state ≠ .parking) :
    l.confirmTag = none := by
  refine Decidable.byContradiction fun a => ?_
  rcases (h.confirmTag a).1 with e | e
  · exact h1 e
  · exact h2 e

/-- A lane in MOVING with bytes left enters PARKING. -/
theorem toParking {l : Lane} (h : l.Lawful) (hs : l.state = .moving) (hr : l.readPoint < l.length)
    (hj : l.job.cadence = none) :
    ({ l with parkRequest := true, tagRequest := none, state := .parking } : Lane).Lawful := by
  have hc := h.noConfirm (by simp [hs]) (by simp [hs])
  constructor <;> simp [hc]
  case parking => exact ⟨hr, hj⟩
  case room => exact h.room
  case buffered => exact h.buffered
  case reads => exact h.reads
  case reserved => exact h.reserved
  case range => exact h.range
  case order => exact h.order
  case readBound => exact h.readBound
  case writeBound => exact h.writeBound
  case fill => exact h.fill

/-- No request waits any more. -/
theorem unaskedOf {l : Lane} (h : l.Lawful) : ({ l with tagRequest := none } : Lane).Lawful :=
  { h with
    idle := fun a => by rw [h.idle a]; rfl
    loading := fun a => by
      obtain ⟨a1, a2, a3, _, a5⟩ := h.loading a
      exact ⟨a1, a2, a3, rfl, a5⟩
    stamping := fun a => ⟨(h.stamping a).1, (h.stamping a).2.1, rfl⟩
    tagRequest := fun _ a => by cases a }

/-- A park request is set. -/
theorem parkRequested {l : Lane} (h : l.Lawful) (hs : l.state ≠ .idle) :
    ({ l with parkRequest := true } : Lane).Lawful :=
  { h with idle := fun a => absurd a hs }

/-- The peer mark is set. -/
theorem peerMarked {l : Lane} (h : l.Lawful) (hs : l.state ≠ .idle) :
    ({ l with peerMark := true } : Lane).Lawful :=
  { h with idle := fun a => absurd a hs }

/-- The next FILL segment is written. -/
theorem filledOf {l : Lane} (h : l.Lawful) {c : Card} (hj : l.job = .errand c) (hk : c.kind = some .fill)
    (hs : l.state = .moving) (hr : l.readPoint < l.length) :
    ({ l with
        readPoint := l.readPoint + segmentLength l.length (l.readPoint / Config.segmentSize)
        written := l.written + segmentLength l.length (l.readPoint / Config.segmentSize) } : Lane).Lawful := by
  obtain ⟨e1, e2, e3⟩ := h.fill c hj (by simp [hk])
  have hc := h.noConfirm (by simp [hs]) (by simp [hs])
  have e : l.readPoint + segmentLength l.length (l.readPoint / Config.segmentSize) =
      min (Config.segmentSize * (l.readPoint / Config.segmentSize + 1)) l.length := by
    have := h.readBound
    simp only [segmentLength, Config.segmentSize] at *
    omega
  rw [e1, e]
  have hq : l.tagRequest = none := by
    cases hq : l.tagRequest with
    | none => rfl
    | some p =>
      rcases h.tagRequest p hq with ⟨_, _, _, _, a⟩ | ⟨a, _⟩
      · simp [Job.readsData, hj, hk] at a
      · simp [hs] at a
  simp only [Config.segmentSize]
  constructor <;> simp [hs, e2, e3, hc, hq]
  case readBound => simp only [Config.segmentSize]; omega
  case writeBound => simp only [Config.segmentSize]; omega

/-- Port B has answered the lane's reads PEER_LOST. -/
theorem lostOf {l : Lane} (h : l.Lawful) (h1 : l.state ≠ .idle) (h2 : l.state ≠ .loading) :
    l.loseB.Lawful := by
  have hsub : l.loseB.outstanding = [] ∨
      l.loseB.outstanding = l.outstanding ∧ l.loseB.buffer = l.buffer := by
    simp only [Lane.loseB]
    split
    · exact Or.inl rfl
    · exact Or.inr ⟨rfl, rfl⟩
  have hbuf : l.loseB.buffer.Sublist l.buffer := by
    simp only [Lane.loseB]
    split
    · exact List.filter_sublist
    · exact List.Sublist.refl _
  have hnil : l.outstanding = [] → l.loseB.outstanding = [] := by
    rcases hsub with a | a
    · exact fun _ => a
    · rw [a.1]; exact id
  have hcon : l.confirmTag = none → l.loseB.confirmTag = none := by
    simp only [Lane.loseB]; split <;> simp
  have hcon' : l.loseB.confirmTag ≠ none → l.confirmTag ≠ none := fun a b => a (hcon b)
  have htag : ∀ p, l.loseB.tagRequest = some p → l.tagRequest = some p := by
    simp only [Lane.loseB]; intro p; split <;> simp
  constructor
  case idle => exact fun a => absurd a h1
  case loading => exact fun a => absurd a h2
  case stamping =>
    intro a
    have := h.stamping a
    refine ⟨hnil this.1, hcon this.2.1, ?_⟩
    cases hq : l.loseB.tagRequest with
    | none => rfl
    | some p => have := htag p hq; simp_all
  case confirming => exact fun a => hnil (h.confirming a)
  case confirmTag => exact fun a => ⟨(h.confirmTag (hcon' a)).1, hnil (h.confirmTag (hcon' a)).2⟩
  case tagRequest =>
    intro p a
    rcases h.tagRequest p (htag p a) with ⟨a1, a2, a3, a4, a5⟩ | ⟨a1, a2, a3, a4⟩
    · exact Or.inl ⟨a1, a2, a3, Nat.lt_of_le_of_lt hbuf.length_le a4, a5⟩
    · exact Or.inr ⟨a1, a2, hnil a3, hcon a4⟩
  case parking => exact h.parking
  case room => exact Nat.le_trans hbuf.length_le h.room
  case buffered => exact h.buffered.sublist (hbuf.map _)
  case reads =>
    rcases hsub with a | a
    · rw [a]; simp
    · rw [a.1]; exact h.reads
  case reserved =>
    rcases hsub with a | a
    · rw [a]; simp
    · rw [a.1, a.2]; exact h.reserved
  case range => exact fun b hb => h.range b (hbuf.subset hb)
  case order => exact h.order
  case readBound => exact h.readBound
  case writeBound => exact h.writeBound
  case fill =>
    intro c a b
    obtain ⟨e1, e2, e3⟩ := h.fill c a b
    refine ⟨e1, hnil e2, ?_⟩
    have := hbuf.length_le
    rw [e3] at this
    exact List.length_eq_zero_iff.mp (Nat.le_zero.mp this)
  case closing => exact h.closing

/-- The record of a service or closing job in LOADING. -/
theorem loadingOf (job : Job) (length : Nat) (held : List WinNo) (src dst : Domain) :
    ({ Lane.idle with
        state := .loading, job := job, length := length, held := held, srcPort := src, dstPort := dst } :
      Lane).Lawful := by
  constructor <;> simp [Lane.idle]

/-- The slot has been read, and the move begins. -/
theorem toMoving {l : Lane} (h : l.Lawful) (hs : l.state = .loading) (src dst : Addr) :
    ({ l with state := .moving, srcAddr := src, dstAddr := dst } : Lane).Lawful := by
  obtain ⟨h1, h2, h3, h4, h5, h6⟩ := h.loading hs
  constructor <;> simp [h1, h2, h3, h4, h5, h6]

/-- The record of an errand at its hand-out. -/
theorem errandOf (e : Errand) (he : e.progress % Config.segmentSize = 0) (held : List WinNo)
    (src dst : Domain) (srcAddr dstAddr : Addr) :
    ({ errandLane e with
        held := held, srcPort := src, dstPort := dst, srcAddr := srcAddr, dstAddr := dstAddr } :
      Lane).Lawful := by
  constructor <;> simp [errandLane, Lane.idle, he]

/-- A lane that is asked for nothing goes on as it is; one that wants a read waits for its tag. -/
theorem askingOf {l : Lane} (h : l.Lawful) : l.asking.Lawful := by
  unfold Lane.asking
  split
  · rename_i a
    exact h.askingSourceOf a
  · exact h

/-- The job, the windows and the addresses are no part of a lane's law but where a FILL is in the lane. -/
theorem leavingOf {l : Lane} (h : l.Lawful) (hs : l.state ≠ .idle) (hm : l.state ≠ .moving) :
    l.leaving.Lawful := by
  constructor <;> simp only [Lane.leaving]
  case idle => exact fun a => absurd a hs
  case loading => exact h.loading
  case stamping => exact h.stamping
  case confirming => exact h.confirming
  case confirmTag => exact h.confirmTag
  case tagRequest =>
    intro p a
    rcases h.tagRequest p a with ⟨b, _⟩ | b
    · exact absurd b hm
    · exact Or.inr b
  case parking =>
    intro a
    refine ⟨(h.parking a).1, ?_⟩
    cases l.job <;> rfl
  case room => exact h.room
  case buffered => exact h.buffered
  case reads => exact h.reads
  case reserved => exact h.reserved
  case range => exact h.range
  case order => exact h.order
  case readBound => exact h.readBound
  case writeBound => exact h.writeBound
  case fill =>
    intro c a b
    cases hj : l.job <;> rw [hj] at a <;> simp at a
    subst a
    exact h.fill _ hj b
  case closing =>
    intro n a
    cases hj : l.job <;> rw [hj] at a <;> simp at a

end Sys2Proof.Machine.Lane.Lawful
end

