-- ==== Sys2Proof/Laws/DispatchSteps.lean ====
section
/-! SUPPORT. The Dispatcher's work is hand-outs to one lane and moves of the gate: what each of them does to
the state, an event and all of the Dispatcher's work do. -/

namespace Sys2Proof.Machine

/-- A hand-out gives an IDLE lane the head of the ready queue or the first eligible errand, in RUNNING
(R43). -/
theorem handOutLane_some {k : LaneNo} {s t : State} (h : handOutLane k s = some t) :
    s.bridge = .running ∧ (s.lane k).state = .idle ∧
      ((∃ n rest, s.ready = .service n :: rest ∧ t = startService k n { s with ready := rest }) ∨
       (∃ n rest, s.ready = .closing n :: rest ∧ t = startClosing k n { s with ready := rest }) ∨
       ∃ e, errandToStart s = some e ∧ t = startErrand k e s) := by
  unfold handOutLane at h
  split at h
  · rename_i a
    refine ⟨a.1, a.2, ?_⟩
    split at h
    · rename_i x rest hr
      cases h
      cases x with
      | service n => exact Or.inl ⟨n, rest, hr, rfl⟩
      | closing n => exact Or.inr (Or.inl ⟨n, rest, hr, rfl⟩)
    · rw [Option.map_eq_some_iff] at h
      obtain ⟨e, he, ht⟩ := h
      exact Or.inr (Or.inr ⟨e, he, ht.symm⟩)
  · cases h

/-- The gate moves by closing, with the park requests, or by opening (R47, R48). -/
theorem moveGate_some {s t : State} (h : moveGate s = some t) :
    gateEvaluated s = true ∧
      (s.gate = .opened ∧ s.hdr.gateUpper ≤ s.ready.length ∧
          t = parkRequestLanes { s with gate := .closed } ∨
        s.gate = .closed ∧ s.ready.length ≤ s.hdr.gateLower ∧ t = { s with gate := .opened }) := by
  unfold moveGate at h
  split at h
  · rename_i a
    refine ⟨a, ?_⟩
    split at h
    · rename_i g
      split at h
      · rename_i b; cases h; exact Or.inl ⟨g, b, rfl⟩
      · cases h
    · rename_i g
      split at h
      · rename_i b; cases h; exact Or.inr ⟨g, b, rfl⟩
      · cases h
  · cases h

/-- What stands through every hand-out and every move of the gate stands through the Dispatcher's work. -/
structure Follows (R : State → State → Prop) : Prop where
  refl : ∀ s, R s s
  trans : ∀ {s t u}, R s t → R t u → R s u
  give : ∀ k s t, handOutLane k s = some t → R s t
  gate : ∀ s t, moveGate s = some t → R s t

namespace Follows

variable {R : State → State → Prop}

theorem handOutTo (h : Follows R) (k : LaneNo) (s : State) : R s (handOutTo k s) := by
  unfold Machine.handOutTo
  cases e : handOutLane k s with
  | none => exact h.refl s
  | some t => exact h.give k s t e

theorem handOut (h : Follows R) (s : State) : R s (handOut s) :=
  h.trans (h.trans (h.trans (h.handOutTo 0 s) (h.handOutTo 1 _)) (h.handOutTo 2 _)) (h.handOutTo 3 _)

theorem handleEvent (h : Follows R) (s : State) : R s (handleEvent s) := by
  refine h.trans (h.handOut s) ?_
  show R _ ((Machine.moveGate (Machine.handOut s)).getD (Machine.handOut s))
  cases e : Machine.moveGate (Machine.handOut s) with
  | none => exact h.refl _
  | some t => exact h.gate _ t e

theorem dispatchFuel (h : Follows R) (fuel : Nat) (s : State) : R s (dispatchFuel fuel s) := by
  induction fuel generalizing s with
  | zero => exact h.refl s
  | succ n ih =>
    unfold Machine.dispatchFuel
    split
    · exact h.refl s
    · exact h.trans (h.handleEvent s) (ih _)

theorem dispatch (h : Follows R) (s : State) : R s (dispatch s) := h.dispatchFuel _ s

end Follows

end Sys2Proof.Machine
end

