-- ==== Sys2Proof/Laws/Quiet.lean ====
section
/-! SUPPORT. What the work inside a step leaves alone: the relation `Quiet`, one lemma for each shared
operation up to the Dispatcher's work and the decision of a command. -/

namespace Sys2Proof.Machine

/-- What the lanes, the arbiter, the Dispatcher and the owners of commands leave alone, and the laws they
keep. -/
structure Quiet (s t : State) : Prop where
  bridge : t.bridge = s.bridge
  areaBase : t.areaBase = s.areaBase
  enables : t.enables = s.enables
  settings : t.settings = s.settings
  tick : t.tick = s.tick
  tickTimerOn : t.tickTimerOn = s.tickTimerOn
  sweepTimer : t.sweepTimer = s.sweepTimer
  linkUp : t.linkUp = s.linkUp
  resetInput : t.resetInput = s.resetInput
  portALinkUp : t.portALinkUp = s.portALinkUp
  pending : t.pending = s.pending
  takeCount : t.takeCount = s.takeCount
  scanner : t.scanner = s.scanner
  sweepPending : t.sweepPending = s.sweepPending
  loadingStop : t.loadingStop = s.loadingStop
  freeCount : t.freeCount = s.freeCount
  reader : t.reader = s.reader
  addrs : errandAddrs t = errandAddrs s
  faultLaw : FaultLaw s → FaultLaw t
  tagLaw : TagLaw s → TagLaw t
  writesA : s.portA.writes <+: t.portA.writes
  writesB : s.portB.writes <+: t.portB.writes

namespace Quiet

theorem refl (s : State) : Quiet s s :=
  ⟨rfl, rfl, rfl, rfl, rfl, rfl, rfl, rfl, rfl, rfl, rfl, rfl, rfl, rfl, rfl, rfl, rfl, rfl, id, id,
    List.prefix_refl _, List.prefix_refl _⟩

theorem trans {s t u : State} (h : Quiet s t) (g : Quiet t u) : Quiet s u :=
  ⟨g.bridge.trans h.bridge, g.areaBase.trans h.areaBase, g.enables.trans h.enables,
    g.settings.trans h.settings, g.tick.trans h.tick, g.tickTimerOn.trans h.tickTimerOn,
    g.sweepTimer.trans h.sweepTimer, g.linkUp.trans h.linkUp, g.resetInput.trans h.resetInput,
    g.portALinkUp.trans h.portALinkUp, g.pending.trans h.pending, g.takeCount.trans h.takeCount,
    g.scanner.trans h.scanner, g.sweepPending.trans h.sweepPending,
    g.loadingStop.trans h.loadingStop, g.freeCount.trans h.freeCount, g.reader.trans h.reader,
    g.addrs.trans h.addrs, fun x => g.faultLaw (h.faultLaw x), fun x => g.tagLaw (h.tagLaw x),
    h.writesA.trans g.writesA, h.writesB.trans g.writesB⟩

/-! ## The tables and the queues -/

theorem setCad (n : CadNo) (e : CadEntry) (s : State) : Quiet s (setCad n e s) := { refl s with }

theorem setWin (n : WinNo) (e : WinEntry) (s : State) : Quiet s (setWin n e s) := { refl s with }

theorem setLane (k : LaneNo) (l : Lane) (s : State) : Quiet s (setLane k l s) := { refl s with }

theorem setAck (r : Record) (q : Byte) (s : State) : Quiet s (setAck r q s) := by
  cases r <;> exact { refl s with }

theorem calendar (x : List CadNo) (s : State) : Quiet s { s with calendar := x } := { refl s with }

theorem ready (x : List ReadyEntry) (s : State) : Quiet s { s with ready := x } := { refl s with }

theorem gate (x : Gate) (s : State) : Quiet s { s with gate := x } := { refl s with }

theorem choice (x : Nat) (s : State) : Quiet s { s with choice := x } := { refl s with }

theorem controlQueue (x : List ControlRequest) (s : State) :
    Quiet s { s with controlQueue := x } := { refl s with }

theorem setCause (c : Cause) (s : State) : Quiet s (setCause c s) := { refl s with }

theorem raisings (x : List (Cause × Nat)) (s : State) : Quiet s { s with raisings := x } :=
  { refl s with }

theorem errands (x : List Errand) (s : State)
    (h : x.map (fun e => e.card.addr) = s.errands.map (fun e => e.card.addr)) :
    Quiet s { s with errands := x } :=
  { refl s with addrs := h }

/-! ## Causes and faults -/

theorem raise (c : Cause) (s : State) : Quiet s (raise c s) := by
  unfold Machine.raise
  split
  · exact setCause c s
  · exact raisings _ s

theorem recordFault (code : FaultCode) (kind : ObjectKind) (number : Nat) (s : State) :
    Quiet s (recordFault code kind number s) := by
  unfold Machine.recordFault
  split
  · exact { refl s with faultLaw := fun h => ⟨h.1, fun e => by simp at e⟩ }
  · rename_i f hf
    exact
      { refl s with
        faultLaw := fun h => ⟨Nat.min_le_left _ _, fun e => by
          have e : s.faultRec = none := e
          simp [hf] at e⟩ }

theorem reportFault (code : FaultCode) (kind : ObjectKind) (number : Nat) (s : State) :
    Quiet s (reportFault code kind number s) :=
  (recordFault code kind number s).trans (raise _ _)

/-! ## The ports -/

end Quiet

theorem sendReads_writes (p : Domain) (ahead : List PostedWrite) (l : List Request) :
    (sendReads p ahead l).filterMap Request.write? = l.filterMap Request.write? := by
  induction l generalizing ahead with
  | nil => rfl
  | cons r rest ih =>
    cases r with
    | write w => simp [sendReads, Request.write?, ih]
    | read addr length tag lane =>
      unfold sendReads
      split <;> simp [List.filterMap_cons, Request.write?, ih]

/-- A set tag changes the data-held count by at most one, and not at all where the tag it puts in is not
counted. -/
theorem dataHeld_set (x : Port) (t : TagNo) (g : Tag) (requests : List Request) :
    dataHeld { x with tags := x.tags.set t g, requests := requests } ≤
      dataHeld x + (if g.holdsData then 1 else 0) := by
  simp only [dataHeld, Port.tagList, Vector.toList_set]
  rw [List.countP_set (by simp)]
  omega

namespace Quiet

theorem setPortRequests (p : Domain) (requests : List Request) (s : State)
    (hw : (s.port p).writes <+: requests.filterMap Request.write?)
    (hb : p = .b → s.linkUp = false → s.portB.requests = [] → requests = []) :
    Quiet s (setPort p { s.port p with requests := requests } s) := by
  cases p with
  | a => exact { refl s with writesA := hw }
  | b =>
    exact
      { refl s with
        writesB := hw
        tagLaw := fun h => ⟨h.1, fun l => ⟨(h.2 l).1, hb rfl l (h.2 l).2⟩⟩ }

theorem issueWrite (p : Domain) (w : PostedWrite) (s : State) : Quiet s (issueWrite p w s) := by
  unfold Machine.issueWrite
  split
  · exact refl s
  · rename_i h
    refine setPortRequests p _ s ?_ ?_
    · simp [Port.writes, Request.write?]
    · intro hp hl
      exact absurd ⟨hp, hl⟩ h

theorem areaWrite (addr : Addr) (size value : Nat) (s : State) :
    Quiet s (areaWrite addr size value s) := issueWrite _ _ _

theorem recordWrite (r : Record) (offset size value : Nat) (s : State) :
    Quiet s (recordWrite r offset size value s) := areaWrite _ _ _ _

theorem setTag_free (p : Domain) (t : TagNo) (s : State) : Quiet s (setTag p t .free s) := by
  cases p with
  | a =>
    refine { refl s with tagLaw := fun h => ⟨Nat.le_trans (dataHeld_set s.portA t .free _) ?_, h.2⟩ }
    simpa [Tag.holdsData] using h.1
  | b =>
    refine { refl s with tagLaw := fun h => ⟨h.1, fun l => ⟨?_, (h.2 l).2⟩⟩ }
    have hb := (h.2 l).1
    simp only [noBusy, Port.tagList, List.all_eq_true] at hb ⊢
    intro x hx
    have hx : x ∈ (s.portB.tags.set t .free).toList := hx
    rw [Vector.toList_set] at hx
    rcases List.mem_or_eq_of_mem_set hx with h1 | h1
    · exact hb x h1
    · subst h1; rfl

/-- A read issued on Port A whose kind leaves the limit of 20 kept (R116). -/
theorem issueRead_a (t : TagNo) (r : ReadInfo) (s : State)
    (h : r.role.kind = .data → dataHeld s.portA < Config.dataTagLimit) :
    Quiet s (issueRead .a t r s) := by
  refine { refl s with tagLaw := fun l => ⟨?_, l.2⟩, writesA := ?_ }
  · refine Nat.le_trans (dataHeld_set s.portA t _ _) ?_
    have hl := l.1
    cases hk : r.role.kind with
    | control => simpa [Tag.holdsData, hk] using hl
    | data => have := h hk; simp [Tag.holdsData, hk]; omega
  · show s.portA.writes <+: (sendReads _ _ _).filterMap _
    rw [sendReads_writes, List.filterMap_append]
    exact List.prefix_append _ _

/-- A read issued on Port B while the link is UP. -/
theorem issueRead_b (t : TagNo) (r : ReadInfo) (s : State) (h : s.linkUp = true) :
    Quiet s (issueRead .b t r s) := by
  refine { refl s with tagLaw := fun l => ⟨l.1, fun d => ?_⟩, writesB := ?_ }
  · have d : s.linkUp = false := d
    simp [h] at d
  · show s.portB.writes <+: (sendReads _ _ _).filterMap _
    rw [sendReads_writes, List.filterMap_append]
    exact List.prefix_append _ _

theorem issueRead (p : Domain) (t : TagNo) (r : ReadInfo) (s : State) (h : dataAllowed p s = true) :
    Quiet s (issueRead p t r s) := by
  cases p with
  | a => exact issueRead_a t r s (fun _ => by simpa [dataAllowed] using h)
  | b => exact issueRead_b t r s (by simpa [dataAllowed] using h)

theorem issueSegment (p : Domain) (k : LaneNo) (t : TagNo) (s : State) (h : dataAllowed p s = true) :
    Quiet s (issueSegment p k t s) :=
  (issueRead p t _ s h).trans (setLane _ _ _)

theorem issueConfirm (p : Domain) (k : LaneNo) (t : TagNo) (s : State) (h : dataAllowed p s = true) :
    Quiet s (issueConfirm p k t s) :=
  (issueRead p t _ s h).trans (setLane _ _ _)

theorem lastServed (p : Domain) (k : LaneNo) (s : State) :
    Quiet s (setPort p { s.port p with lastServed := k } s) := by
  cases p <;> exact { refl s with }

theorem grantLane (p : Domain) (k : LaneNo) (t : TagNo) (s : State) (h : dataAllowed p s = true) :
    Quiet s (grantLane p k t s) := by
  have h1 : dataAllowed p (setPort p { s.port p with lastServed := k } s) = true := by
    cases p <;> exact h
  unfold Machine.grantLane
  split
  · exact (lastServed p k s).trans (setLane _ _ _)
  · split
    · exact (lastServed p k s).trans (issueSegment p k t _ h1)
    · exact (lastServed p k s).trans (issueConfirm p k t _ h1)

theorem grantControl (r : ControlRequest) (rest : List ControlRequest) (t : TagNo) (s : State) :
    Quiet s (grantControl r rest t s) :=
  (controlQueue rest s).trans (issueRead_a t _ _ (by simp [ReadRole.kind]))

theorem dataAllowed_choice (p : Domain) (c : Nat) (s : State) :
    dataAllowed p { s with choice := c } = dataAllowed p s := by cases p <;> rfl

theorem arbitrateOnce (p : Domain) (s t : State) (h : arbitrateOnce p s = some t) : Quiet s t := by
  unfold Machine.arbitrateOnce at h
  split at h
  · simp at h
  · rename_i g c hg
    split at h
    · cases h
      exact (choice c s).trans (grantControl _ _ _ _)
    · split at h
      · split at h
        · rename_i hd
          cases h
          exact (choice c s).trans (grantLane _ _ _ _ ((dataAllowed_choice _ c s).trans hd))
        · simp at h
      · simp at h

theorem arbitrateFuel (p : Domain) (fuel : Nat) (s : State) : Quiet s (arbitrateFuel p fuel s) := by
  induction fuel generalizing s with
  | zero => exact refl s
  | succ n ih =>
    unfold Machine.arbitrateFuel
    split
    · rename_i s1 h
      exact (arbitrateOnce p s s1 h).trans (ih s1)
    · exact refl s

theorem arbitrate (p : Domain) (s : State) : Quiet s (arbitrate p s) := arbitrateFuel _ _ _

theorem meetGrant (k : LaneNo) (s : State) : Quiet s (meetGrant k s) := by
  unfold Machine.meetGrant
  dsimp only
  split
  · exact refl s
  · split
    · split
      · refine (choice (s.choice / 2) s).trans ?_
        cases h : Machine.arbitrateOnce _ _ with
        | none => exact refl _
        | some u => exact arbitrateOnce _ _ u h
      · exact choice _ s
    · exact refl s

theorem withdrawTag (k : LaneNo) (s : State) : Quiet s (withdrawTag k s) :=
  (meetGrant k s).trans (setLane _ _ _)

theorem requestControl (who : Requester) (addr : Addr) (length : Nat) (s : State) :
    Quiet s (requestControl who addr length s) :=
  (controlQueue _ s).trans (arbitrate _ _)

end Quiet

end Sys2Proof.Machine
end

