-- ==== Sys2Proof/Laws/QuietWork.lean ====
section
/-! SUPPORT. `Quiet` for the owners' work: windows, cadences, lanes, the errand queue, the Dispatcher and
the decision of a command. -/

namespace Sys2Proof.Machine.Quiet

/-! ## Windows -/

theorem setWinState (n : WinNo) (e : WinEntry) (s : State) : Quiet s (setWinState n e s) :=
  (setWin n e s).trans (recordWrite _ _ _ _ _)

theorem holdWindow (n : WinNo) (s : State) : Quiet s (holdWindow n s) := setWin _ _ _

theorem holdWindows (l : List WinNo) (s : State) : Quiet s (holdWindows l s) := by
  induction l generalizing s with
  | nil => exact refl s
  | cons n rest ih => exact (holdWindow n s).trans (ih _)

theorem drainWindow (n : WinNo) (s : State) : Quiet s (drainWindow n s) := by
  unfold Machine.drainWindow
  dsimp only
  split
  · exact ((setWinState _ _ s).trans (recordWrite _ _ _ _ _)).trans (raise _ _)
  · exact (setWinState _ _ s).trans (recordWrite _ _ _ _ _)

theorem releaseWindow (n : WinNo) (s : State) : Quiet s (releaseWindow n s) := by
  unfold Machine.releaseWindow
  dsimp only
  split
  · exact (setWin _ _ s).trans (drainWindow _ _)
  · exact setWin _ _ s

theorem releaseWindows (l : List WinNo) (s : State) : Quiet s (releaseWindows l s) := by
  induction l generalizing s with
  | nil => exact refl s
  | cons n rest ih => exact (releaseWindow n s).trans (ih _)

theorem quietRelease (n : WinNo) (s : State) : Quiet s (quietRelease n s) := by
  unfold Machine.quietRelease
  dsimp only
  split <;> exact setWin _ _ s

theorem quietReleases (l : List WinNo) (s : State) : Quiet s (quietReleases l s) := by
  induction l generalizing s with
  | nil => exact refl s
  | cons n rest ih => exact (quietRelease n s).trans (ih _)

theorem answerCommand (d : Delivery) (result : Result) (s : State) :
    Quiet s (answerCommand d result s) := by
  unfold Machine.answerCommand
  dsimp only
  split
  · exact (((setAck _ _ s).trans (recordWrite _ _ _ _ _)).trans (recordWrite _ _ _ _ _)).trans
      (raise _ _)
  · exact ((setAck _ _ s).trans (recordWrite _ _ _ _ _)).trans (recordWrite _ _ _ _ _)

theorem takeOpen (n : WinNo) (f : OpenFields) (d : Delivery) (s : State) :
    Quiet s (takeOpen n f d s) := by
  unfold Machine.takeOpen
  split
  · exact answerCommand _ _ s
  · exact answerCommand _ _ s
  · split
    · exact answerCommand _ _ s
    · exact (setWinState _ _ s).trans (answerCommand _ _ _)

theorem takeClose (n : WinNo) (d : Delivery) (s : State) : Quiet s (takeClose n d s) := by
  unfold Machine.takeClose
  split
  · exact answerCommand _ _ s
  · exact answerCommand _ _ s
  · split
    · exact (setWinState _ _ s).trans (answerCommand _ _ _)
    · exact (setWinState _ _ s).trans (answerCommand _ _ _)

theorem takeUnknownWindow (n : WinNo) (d : Delivery) (s : State) :
    Quiet s (takeUnknownWindow n d s) := by
  unfold Machine.takeUnknownWindow
  split <;> exact answerCommand _ _ s

/-! ## Cadences -/

theorem setCadState (n : CadNo) (e : CadEntry) (s : State) : Quiet s (setCadState n e s) :=
  (setCad n e s).trans (recordWrite _ _ _ _ _)

theorem readyJoin (e : ReadyEntry) (s : State) : Quiet s (readyJoin e s) := ready _ s

theorem releaseEntry (n : CadNo) (s : State) : Quiet s (releaseEntry n s) :=
  ((calendar _ s).trans (setCad _ _ _)).trans (readyJoin _ _)

theorem calendarJoin (n : CadNo) (s : State) : Quiet s (calendarJoin n s) := by
  unfold Machine.calendarJoin
  dsimp only
  split
  · exact ((setCad _ _ s).trans (calendar _ _)).trans (releaseEntry _ _)
  · exact (setCad _ _ s).trans (calendar _ _)

theorem takeOff (n : CadNo) (s : State) : Quiet s (takeOff n s) := { refl s with }

theorem recomputeDue (l : List CadNo) (s : State) : Quiet s (recomputeDue l s) := by
  induction l generalizing s with
  | nil => exact refl s
  | cons n rest ih => exact (setCad _ _ s).trans (ih _)

theorem recomputeCalendar (s : State) : Quiet s (recomputeCalendar s) :=
  (recomputeDue _ s).trans (calendar _ _)

theorem holdingFault (code : FaultCode) (n : CadNo) (s : State) :
    Quiet s (holdingFault code n s) := by
  unfold Machine.holdingFault
  dsimp only
  split
  · exact (setCadState _ _ s).trans (reportFault _ _ _ _)
  · exact reportFault _ _ _ s

theorem countMiss (n : CadNo) (s : State) : Quiet s (countMiss n s) := setCad _ _ s

theorem settleService (n : CadNo) (consumes late : Bool) (s : State) :
    Quiet s (settleService n consumes late s) := setCad _ _ s

theorem placeAtJobEnd (n : CadNo) (u : Nat) (s : State) : Quiet s (placeAtJobEnd n u s) := by
  unfold Machine.placeAtJobEnd
  dsimp only
  split
  · exact (setCad _ _ s).trans (calendarJoin _ _)
  · exact (setCad _ _ s).trans (readyJoin _ _)
  all_goals exact setCad _ _ s

theorem takeArm (n : CadNo) (f : ArmFields) (d : Delivery) (s : State) :
    Quiet s (takeArm n f d s) := by
  unfold Machine.takeArm
  dsimp only
  split
  case h_5 =>
    split
    · exact answerCommand _ _ s
    · split
      · exact answerCommand _ _ s
      · split
        · exact answerCommand _ _ s
        · exact (((setCad _ _ s).trans (calendarJoin _ _)).trans (recordWrite _ _ _ _ _)).trans
            (answerCommand _ _ _)
  all_goals exact answerCommand _ _ s

theorem pauseCadence (n : CadNo) (s : State) : Quiet s (pauseCadence n s) :=
  (takeOff n s).trans (setCadState _ _ _)

theorem takePause (n : CadNo) (d : Delivery) (s : State) : Quiet s (takePause n d s) := by
  unfold Machine.takePause
  split
  case h_4 | h_5 => exact (pauseCadence n s).trans (answerCommand _ _ _)
  all_goals exact answerCommand _ _ s

theorem resumeCadence (n : CadNo) (s : State) : Quiet s (resumeCadence n s) := by
  unfold Machine.resumeCadence
  dsimp only
  split
  · exact setCadState _ _ s
  · exact ((setCad _ _ s).trans (calendarJoin _ _)).trans (recordWrite _ _ _ _ _)

theorem takeResume (n : CadNo) (d : Delivery) (s : State) : Quiet s (takeResume n d s) := by
  unfold Machine.takeResume
  split
  case h_4 | h_5 => exact (resumeCadence n s).trans (answerCommand _ _ _)
  all_goals exact answerCommand _ _ s

theorem retireCadence (n : CadNo) (d : Delivery) (s : State) : Quiet s (retireCadence n d s) := by
  unfold Machine.retireCadence
  dsimp only
  split
  · refine trans ?_ (answerCommand d .inProgress _)
    exact (takeOff n s).trans (setCadState n _ _)
  · refine trans ?_ (readyJoin (.closing n) _)
    refine trans ?_ (answerCommand d .inProgress _)
    exact (takeOff n s).trans (setCadState n _ _)

theorem takeRetire (n : CadNo) (d : Delivery) (s : State) : Quiet s (takeRetire n d s) := by
  unfold Machine.takeRetire
  split
  case h_3 | h_4 | h_5 => exact retireCadence n d s
  all_goals exact answerCommand _ _ s

theorem takeUnknownCadence (n : CadNo) (d : Delivery) (s : State) :
    Quiet s (takeUnknownCadence n d s) := by
  unfold Machine.takeUnknownCadence
  split <;> exact answerCommand _ _ s

theorem takeCadenceCommand (n : CadNo) (d : Delivery) (s : State) :
    Quiet s (takeCadenceCommand n d s) := by
  unfold Machine.takeCadenceCommand
  split
  · exact takeArm _ _ _ s
  · exact takePause _ _ s
  · exact takeResume _ _ s
  · exact takeRetire _ _ s
  · exact takeUnknownCadence _ _ s

theorem takeBetween (n : CadNo) (s : State) : Quiet s (takeBetween n s) := by
  unfold Machine.takeBetween
  split
  · exact refl s
  · dsimp only
    split
    · exact (choice _ s).trans (takeCadenceCommand _ _ _)
    · exact choice _ s

/-! ## Lanes -/

theorem stampService (k : LaneNo) (n : CadNo) (o : Option Outcome) (s : State) :
    Quiet s (stampService k n o s) := (settleService _ _ _ s).trans (setLane _ _ _)

theorem enterStamping (k : LaneNo) (o : Option Outcome) (s : State) :
    Quiet s (enterStamping k o s) := by
  unfold Machine.enterStamping
  split
  · exact refl s
  · exact stampService _ _ _ s
  · exact setLane _ _ s
  · exact setLane _ _ s

theorem settleLane (k : LaneNo) (s : State) : Quiet s (settleLane k s) := by
  unfold Machine.settleLane
  dsimp only
  split
  · exact refl s
  · split
    · exact enterStamping _ _ s
    · exact refl s

theorem failLane (k : LaneNo) (o : Outcome) (s : State) : Quiet s (failLane k o s) :=
  ((setLane _ _ s).trans (withdrawTag _ _)).trans (settleLane _ _)

theorem askTag (k : LaneNo) (p : Domain) (s : State) : Quiet s (askTag k p s) := by
  unfold Machine.askTag
  split
  · exact failLane _ _ s
  · exact (setLane _ _ s).trans (arbitrate _ _)

theorem askSource (k : LaneNo) (s : State) : Quiet s (askSource k s) := by
  unfold Machine.askSource
  split
  · exact askTag _ _ s
  · exact refl s

theorem writeSegment (k : LaneNo) (s t : State) (h : writeSegment k s = some t) : Quiet s t := by
  unfold Machine.writeSegment at h
  dsimp only at h
  split at h
  · cases h
    exact (issueWrite _ _ s).trans (setLane _ _ _)
  · simp at h

theorem writeSegments (k : LaneNo) (fuel : Nat) (s : State) : Quiet s (writeSegments k fuel s) := by
  induction fuel generalizing s with
  | zero => exact refl s
  | succ n ih =>
    unfold Machine.writeSegments
    split
    · rename_i s1 h
      exact (writeSegment k s s1 h).trans (ih s1)
    · exact refl s

theorem enterConfirming (k : LaneNo) (s : State) : Quiet s (enterConfirming k s) :=
  (setLane _ _ s).trans (askTag _ _ _)

theorem parkEntry_addrs (k : LaneNo) (progress : Nat) (l : List Errand) :
    (parkEntry k progress l).map (fun e => e.card.addr) = l.map (fun e => e.card.addr) := by
  simp only [parkEntry, List.map_map]
  congr 1
  funext e
  simp only [Function.comp]
  split <;> rfl

theorem parkComplete (k : LaneNo) (s : State) : Quiet s (parkComplete k s) :=
  ((errands _ s (parkEntry_addrs _ _ _)).trans (releaseWindows _ _)).trans (setLane _ _ _)

theorem parkProgress (k : LaneNo) (s : State) : Quiet s (parkProgress k s) := by
  unfold Machine.parkProgress
  dsimp only
  split
  · split
    · exact askTag _ _ s
    · exact parkComplete _ s
  · exact refl s

theorem parkRequestLane (k : LaneNo) (s : State) : Quiet s (parkRequestLane k s) := by
  unfold Machine.parkRequestLane
  dsimp only
  split
  case h_4 =>
    split
    · exact (((setLane _ _ s).trans (withdrawTag _ _)).trans (setLane _ _ _)).trans (parkProgress _ _)
    · exact setLane _ _ s
  all_goals exact refl s

theorem parkRequestLanes (s : State) : Quiet s (parkRequestLanes s) :=
  (((parkRequestLane 0 s).trans (parkRequestLane 1 _)).trans (parkRequestLane 2 _)).trans
    (parkRequestLane 3 _)

theorem moveOn (k : LaneNo) (s : State) : Quiet s (moveOn k s) := by
  unfold Machine.moveOn
  dsimp only
  split
  · exact parkProgress _ s
  · split
    · exact enterConfirming _ s
    · exact askSource _ s

theorem segmentAnswered (k : LaneNo) (n : Nat) (t : TagNo) (a : ReadAnswer) (s : State) :
    Quiet s (segmentAnswered k n t a s) := by
  unfold Machine.segmentAnswered
  dsimp only
  split
  · exact (setLane _ _ s).trans (settleLane _ _)
  · split
    · exact ((setLane _ _ s).trans (writeSegments _ _ _)).trans (moveOn _ _)
    · exact (setLane _ _ s).trans (failLane _ _ _)
    · exact (setLane _ _ s).trans (failLane _ _ _)

theorem confirmAnswered (k : LaneNo) (a : ReadAnswer) (s : State) :
    Quiet s (confirmAnswered k a s) := by
  unfold Machine.confirmAnswered
  dsimp only
  split
  · exact (setLane _ _ s).trans (settleLane _ _)
  · split
    · split
      · exact (setLane _ _ s).trans (parkComplete _ _)
      · exact (setLane _ _ s).trans (enterStamping _ _ _)
    · exact (setLane _ _ s).trans (failLane _ _ _)
    · exact (setLane _ _ s).trans (failLane _ _ _)

theorem fillSegment (k : LaneNo) (pattern : BitVec 32) (s : State) :
    Quiet s (fillSegment k pattern s) := by
  unfold Machine.fillSegment
  dsimp only
  split
  · exact (issueWrite _ _ s).trans (setLane _ _ _)
  · exact ((issueWrite _ _ s).trans (setLane _ _ _)).trans (enterConfirming _ _)

theorem linkDownLane (k : LaneNo) (s : State) : Quiet s (linkDownLane k s) := by
  unfold Machine.linkDownLane
  dsimp only
  split
  · exact refl s
  · exact refl s
  · split
    · exact setLane _ _ s
    · exact refl s
  all_goals
    split
    · exact (setLane _ _ s).trans (failLane _ _ _)
    · exact refl s

theorem linkDownLanes (s : State) : Quiet s (linkDownLanes s) :=
  (((linkDownLane 0 s).trans (linkDownLane 1 _)).trans (linkDownLane 2 _)).trans
    (linkDownLane 3 _)

/-! ## The Dispatcher -/

theorem runEntry_addrs (k : LaneNo) (addr : Addr) (l : List Errand) :
    (runEntry k addr l).map (fun e => e.card.addr) = l.map (fun e => e.card.addr) := by
  simp only [runEntry, List.map_map]
  congr 1
  funext e
  simp only [Function.comp]
  split <;> rfl

theorem loseWindow (k : LaneNo) (n : CadNo) (s : State) : Quiet s (loseWindow k n s) :=
  (((holdingFault _ _ s).trans (takeBetween _ _)).trans (placeAtJobEnd _ _ _)).trans (setLane _ _ _)

theorem missPeerDown (k : LaneNo) (n : CadNo) (s : State) : Quiet s (missPeerDown k n s) :=
  (countMiss _ s).trans (enterStamping _ _ _)

theorem takeService (k : LaneNo) (n : CadNo) (src dst : WinConfig) (s : State) :
    Quiet s (takeService k n src dst s) :=
  ((holdWindows _ s).trans (setLane _ _ _)).trans (requestControl _ _ _ _)

theorem startService (k : LaneNo) (n : CadNo) (s : State) : Quiet s (startService k n s) := by
  unfold Machine.startService
  dsimp only
  split
  · split
    · exact ((setLane _ _ s).trans (setCad _ _ _)).trans (missPeerDown _ _ _)
    · exact ((setLane _ _ s).trans (setCad _ _ _)).trans (takeService _ _ _ _ _)
  · exact ((setLane _ _ s).trans (setCad _ _ _)).trans (loseWindow _ _ _)

theorem startClosing (k : LaneNo) (n : CadNo) (s : State) : Quiet s (startClosing k n s) :=
  ((setLane _ _ s).trans (setCad _ _ _)).trans (requestControl _ _ _ _)

theorem startErrand (k : LaneNo) (e : Errand) (s : State) : Quiet s (startErrand k e s) := by
  unfold Machine.startErrand
  dsimp only
  have h := (errands _ s (runEntry_addrs k e.card.addr s.errands)).trans (setLane k (errandLane e) _)
  split
  · exact h.trans (enterStamping _ _ _)
  · exact h.trans (enterStamping _ _ _)
  · exact ((h.trans (holdWindows _ _)).trans (setLane _ _ _)).trans (askSource _ _)

theorem handOutLane (k : LaneNo) (s t : State) (h : handOutLane k s = some t) : Quiet s t := by
  obtain ⟨-, -, ⟨n, rest, -, rfl⟩ | ⟨n, rest, -, rfl⟩ | ⟨e, -, rfl⟩⟩ := handOutLane_some h
  · exact (ready _ s).trans (startService _ _ _)
  · exact (ready _ s).trans (startClosing _ _ _)
  · exact startErrand _ _ s

theorem moveGate (s t : State) (h : moveGate s = some t) : Quiet s t := by
  obtain ⟨-, ⟨-, -, rfl⟩ | ⟨-, -, rfl⟩⟩ := moveGate_some h
  · exact (gate _ s).trans (parkRequestLanes _)
  · exact gate _ s

/-- The Dispatcher's hand-outs and the gate's moves are quiet, and so is all of its work. -/
theorem follows : Follows Quiet := ⟨refl, trans, handOutLane, moveGate⟩

theorem dispatch (s : State) : Quiet s (dispatch s) := follows.dispatch s

theorem dispatchIfIdle (k : LaneNo) (s : State) : Quiet s (dispatchIfIdle k s) := by
  unfold Machine.dispatchIfIdle
  split
  · exact dispatch s
  · exact refl s

theorem dispatchIfMoved (before s : State) : Quiet s (dispatchIfMoved before s) := by
  unfold Machine.dispatchIfMoved
  split
  · exact refl s
  · exact dispatch s

theorem releaseDueFuel (fuel : Nat) (s : State) : Quiet s (releaseDueFuel fuel s) := by
  induction fuel generalizing s with
  | zero => exact refl s
  | succ n ih =>
    unfold Machine.releaseDueFuel
    split
    · exact refl s
    · split
      · exact ((releaseEntry _ s).trans (dispatch _)).trans (ih _)
      · exact refl s

theorem releaseDue (s : State) : Quiet s (releaseDue s) := releaseDueFuel _ s

/-! ## The decision of a command -/

theorem takeCommand (d : Delivery) (s : State) : Quiet s (takeCommand d s) := by
  unfold Machine.takeCommand
  split
  · split
    · exact takeOpen _ _ _ s
    · exact takeClose _ _ s
    · exact takeUnknownWindow _ _ s
  · exact takeCadenceCommand _ _ s

theorem ifUndecided (d : Delivery) (take : State → State) (s : State) (h : Quiet s (take s)) :
    Quiet s (ifUndecided d take s) := by
  unfold Machine.ifUndecided
  split
  · exact h
  · exact refl s

theorem settleDelivery (s : State) : Quiet s (settleDelivery s) := by
  unfold Machine.settleDelivery
  split
  · exact (ifUndecided _ _ s (takeCommand _ s)).trans (dispatchIfMoved _ _)
  · exact refl s

end Sys2Proof.Machine.Quiet
end

