-- ==== Sys2Proof/Laws/Steady.lean ====
section
/-! SUPPORT. What the Errand Reader's, the Command Scanner's and the job ends' work leaves alone: the
relation `Steady`, one lemma for each operation above the Dispatcher. -/

namespace Sys2Proof.Machine

/-- What the work inside a step leaves alone where the Errand Reader or the Command Scanner may move on,
and the laws it keeps. -/
structure Steady (s t : State) : Prop where
  bridge : t.bridge = s.bridge
  areaBase : t.areaBase = s.areaBase
  enables : t.enables = s.enables
  settings : t.settings = s.settings
  tick : t.tick = s.tick
  tickTimerOn : t.tickTimerOn = s.tickTimerOn
  sweepTimer : t.sweepTimer = s.sweepTimer
  linkUp : t.linkUp = s.linkUp
  resetInput : t.resetInput = s.resetInput
  portALinkUp : t.portALinkUp = s.portALinkUp
  pending : t.pending = s.pending
  loadingStop : t.loadingStop = s.loadingStop
  freeCount : t.freeCount = s.freeCount
  notLoads : s.scanner.loads = false → t.scanner.loads = false
  faultLaw : FaultLaw s → FaultLaw t
  tagLaw : TagLaw s → TagLaw t
  errandLaw : ErrandLaw s → ErrandLaw t
  writesA : s.portA.writes <+: t.portA.writes
  writesB : s.portB.writes <+: t.portB.writes

theorem errandLaw_of_eq {s t : State} (ha : errandAddrs t = errandAddrs s) (hr : t.reader = s.reader)
    (h : ErrandLaw s) : ErrandLaw t := by
  unfold ErrandLaw takeHasRoom at *
  rw [ha, hr]
  exact h

theorem Quiet.steady {s t : State} (h : Quiet s t) : Steady s t :=
  ⟨h.bridge, h.areaBase, h.enables, h.settings, h.tick, h.tickTimerOn, h.sweepTimer, h.linkUp,
    h.resetInput, h.portALinkUp, h.pending, h.loadingStop, h.freeCount,
    fun l => by rw [h.scanner]; exact l, h.faultLaw, h.tagLaw,
    errandLaw_of_eq h.addrs h.reader, h.writesA, h.writesB⟩

namespace Steady

theorem refl (s : State) : Steady s s := (Quiet.refl s).steady

theorem trans {s t u : State} (h : Steady s t) (g : Steady t u) : Steady s u :=
  ⟨g.bridge.trans h.bridge, g.areaBase.trans h.areaBase, g.enables.trans h.enables,
    g.settings.trans h.settings, g.tick.trans h.tick, g.tickTimerOn.trans h.tickTimerOn,
    g.sweepTimer.trans h.sweepTimer, g.linkUp.trans h.linkUp, g.resetInput.trans h.resetInput,
    g.portALinkUp.trans h.portALinkUp, g.pending.trans h.pending,
    g.loadingStop.trans h.loadingStop, g.freeCount.trans h.freeCount,
    fun x => g.notLoads (h.notLoads x), fun x => g.faultLaw (h.faultLaw x),
    fun x => g.tagLaw (h.tagLaw x), fun x => g.errandLaw (h.errandLaw x),
    h.writesA.trans g.writesA, h.writesB.trans g.writesB⟩

theorem scanner (x : Scanner) (s : State) (h : x.loads = false) :
    Steady s { s with scanner := x } := { refl s with notLoads := fun _ => h }

theorem sweepPending (x : Bool) (s : State) : Steady s { s with sweepPending := x } :=
  { refl s with }

theorem scannerPending (x : Scanner) (y : Bool) (s : State) (h : x.loads = false) :
    Steady s { s with scanner := x, sweepPending := y } := { refl s with notLoads := fun _ => h }

/-! ## The Errand Reader -/

/-- A reader that moves to a position with no take in progress keeps the errand queue's law. -/
theorem readerRest (x : ReaderPos) (s : State) (h1 : ∀ a, x ≠ .takingRead a)
    (h2 : ∀ c v l, x ≠ .takingWrite c v l) : Steady s { s with reader := x } := by
  refine { refl s with errandLaw := fun h => ⟨h.1, h.2.1, ?_⟩ }
  cases x with
  | takingRead a => exact absurd rfl (h1 a)
  | takingWrite c v l => exact absurd rfl (h2 c v l)
  | noCard => trivial
  | linking a => trivial
  | watching a => trivial
  | holding a => trivial

theorem restingPos (source : Option Addr) (s : State) :
    Steady s { s with reader := restingPos source } := by
  cases source <;> exact readerRest _ s (by simp [Machine.restingPos]) (by simp [Machine.restingPos])

theorem mayTake_room {s : State} {addr : Addr} (h : mayTake s addr = true) : takeHasRoom s addr := by
  simp only [mayTake, Bool.and_eq_true, decide_eq_true_eq, List.all_eq_true] at h
  refine ⟨by simpa [errandAddrs] using h.1.2, ?_⟩
  intro hm
  obtain ⟨e, he, ha⟩ := List.mem_map.mp hm
  have := h.2 e he
  simp [ha] at this

theorem followLink (addr : Addr) (s : State) : Steady s (followLink addr s) := by
  unfold Machine.followLink
  split
  · rename_i h
    have h1 : Steady s { s with reader := .takingRead addr } :=
      { refl s with errandLaw := fun l => ⟨l.1, l.2.1, mayTake_room h⟩ }
    exact h1.trans (Quiet.requestControl _ _ _ _).steady
  · exact readerRest _ s (by simp) (by simp)

theorem recheckHolding (s : State) : Steady s (recheckHolding s) := by
  unfold Machine.recheckHolding
  split
  · split
    · exact followLink _ s
    · exact refl s
  · exact refl s

theorem actOnLink (link : Addr) (source : Option Addr) (s : State) :
    Steady s (actOnLink link source s) := by
  unfold Machine.actOnLink
  split
  · exact restingPos _ s
  · split
    · exact followLink _ s
    · exact (restingPos source s).trans (Quiet.reportFault _ _ _ _).steady

theorem chainValue (link : Addr) (s : State) : Steady s (chainValue link s) := by
  unfold Machine.chainValue
  split
  · split
    · exact actOnLink _ _ s
    · exact actOnLink _ _ s
    · exact refl s
  · exact refl s

theorem linkRead (addr : Addr) (bytes : List Byte) (s : State) : Steady s (linkRead addr bytes s) :=
  actOnLink _ _ s

theorem reportBadCard (c : Card) (s : State) : Quiet s (reportBadCard c s) := by
  unfold Machine.reportBadCard
  dsimp only
  split
  · exact (Quiet.reportFault _ _ _ s).trans (Quiet.raise _ _)
  · exact Quiet.reportFault _ _ _ s

theorem takeWrite (c : Card) (valid : Bool) (item : TakeItem) (s : State) :
    Quiet s (takeWrite c valid item s) := by
  cases item <;> exact Quiet.areaWrite _ _ _ s

theorem afterTake (c : Card) (s : State) : Steady s (afterTake c s) := by
  unfold Machine.afterTake
  split
  · exact (readerRest (.linking c.addr) s (by simp) (by simp)).trans
      (Quiet.requestControl _ _ _ _).steady
  · exact actOnLink _ _ s

theorem departErrand (addr : Addr) (s : State) : Steady s (departErrand addr s) := by
  have h1 : Steady s { s with errands := s.errands.filter (fun e => e.card.addr != addr) } := by
    have sub : (List.map (fun e : Errand => e.card.addr)
        (s.errands.filter (fun e => e.card.addr != addr))).Sublist (errandAddrs s) :=
      List.filter_sublist.map _
    have room : ∀ x, takeHasRoom s x →
        takeHasRoom { s with errands := s.errands.filter (fun e => e.card.addr != addr) } x :=
      fun x h => ⟨Nat.lt_of_le_of_lt sub.length_le h.1, fun m => h.2 (sub.subset m)⟩
    refine { refl s with errandLaw := fun h => ⟨Nat.le_trans sub.length_le h.1, h.2.1.sublist sub, ?_⟩ }
    have h3 := h.2.2
    show match s.reader with
      | .takingRead addr => _
      | .takingWrite c _ _ => _
      | _ => True
    revert h3
    cases s.reader <;> intro h3 <;> first | trivial | exact room _ h3
  exact h1.trans (recheckHolding _)

/-! ## The end of a job -/

theorem ownerEnd (l : Lane) (u : Nat) (s : State) : Steady s (ownerEnd l u s) := by
  unfold Machine.ownerEnd
  split
  · exact refl s
  · exact (Quiet.placeAtJobEnd _ _ s).steady
  · exact refl s
  · exact departErrand _ s

theorem jobEnd (k : LaneNo) (u : Nat) (s : State) : Steady s (jobEnd k u s) :=
  ((((((Quiet.releaseWindows _ s).trans (Quiet.setLane _ _ _)).steady.trans (ownerEnd _ _ _)).trans
    (Quiet.dispatch _).steady).trans (Quiet.setLane _ _ _).steady)).trans (Quiet.dispatch _).steady

/-! ## The Command Scanner in a sweep -/

theorem sweepRecord (r : Record) (s : State) : Steady s (sweepRecord r s) :=
  (scanner _ s rfl).trans (Quiet.requestControl _ _ _ _).steady

theorem startSweep (s : State) : Steady s (startSweep s) := by
  unfold Machine.startSweep
  split
  · exact sweepRecord _ s
  · split
    · exact (scanner _ s rfl).trans (Quiet.requestControl _ _ _ _).steady
    · exact scanner _ s rfl

theorem endSweep (s : State) : Steady s (endSweep s) := by
  unfold Machine.endSweep
  dsimp only
  split
  · exact (scannerPending _ _ s rfl).trans (startSweep _)
  · exact scannerPending _ _ s rfl

theorem sweepChain (s : State) : Steady s (sweepChain s) := by
  unfold Machine.sweepChain
  split
  · exact (scanner _ s rfl).trans (Quiet.requestControl _ _ _ _).steady
  · exact endSweep s

theorem sweepAfter (r : Record) (s : State) : Steady s (sweepAfter r s) := by
  unfold Machine.sweepAfter
  split
  · split
    · exact sweepRecord _ s
    · exact sweepChain s
  · exact endSweep s

theorem requestSweep (s : State) : Steady s (requestSweep s) := by
  unfold Machine.requestSweep
  split
  · split
    · exact startSweep s
    · exact sweepPending _ s
  · exact refl s

theorem sweepWordRead (r : Record) (word : List Byte) (s : State) :
    Steady s (sweepWordRead r word s) := by
  unfold Machine.sweepWordRead
  split
  · exact endSweep s
  · split
    · exact sweepAfter _ s
    · split
      · exact (scanner _ s rfl).trans (Quiet.requestControl _ _ _ _).steady
      · exact scanner _ s rfl

theorem sweepFurtherRead (r : Record) (seq : Byte) (notify : Bool) (bytes : List Byte) (s : State) :
    Steady s (sweepFurtherRead r seq notify bytes s) := by
  unfold Machine.sweepFurtherRead
  split
  · exact endSweep s
  · exact scanner _ s rfl

theorem chainRead (bytes : List Byte) (s : State) : Steady s (chainRead bytes s) :=
  (chainValue _ s).trans (endSweep _)

theorem withdrawControl (who : Requester) (s : State) : Quiet s (withdrawControl who s) :=
  Quiet.controlQueue _ s

theorem stopSweep (s : State) : Steady s (stopSweep s) := by
  unfold Machine.stopSweep
  split
  · exact endSweep s
  · split
    · exact (withdrawControl _ s).steady.trans (endSweep _)
    · exact refl s
  · split
    · exact (withdrawControl _ s).steady.trans (endSweep _)
    · exact refl s
  · split
    · exact (withdrawControl _ s).steady.trans (endSweep _)
    · exact refl s
  all_goals exact refl s

/-! ## The stamping writes -/

theorem stampServiceItem (k : LaneNo) (n : CadNo) (item : StampItem) (s : State) :
    Quiet s (stampServiceItem k n item s) := by
  unfold Machine.stampServiceItem
  dsimp only
  split
  case h_5 =>
    unfold Machine.writeServiceTally
    dsimp only
    split
    · exact (Quiet.recordWrite _ _ _ _ s).trans (Quiet.raise _ _)
    · exact Quiet.recordWrite _ _ _ _ s
  case h_8 => exact Quiet.refl s
  all_goals exact Quiet.areaWrite _ _ _ s

theorem stampClosingItem (n : CadNo) (item : StampItem) (s : State) :
    Quiet s (stampClosingItem n item s) := by
  unfold Machine.stampClosingItem
  dsimp only
  split
  case h_5 =>
    unfold Machine.writeClosingTally
    dsimp only
    split
    · exact ((Quiet.holdingFault _ _ s).trans (Quiet.setCad _ _ _)).trans
        (Quiet.recordWrite _ _ _ _ _)
    · exact (Quiet.setCad _ _ s).trans (Quiet.recordWrite _ _ _ _ _)
  case h_6 =>
    unfold Machine.writeClosingEnd
    dsimp only
    split
    · exact ((Quiet.setCadState _ _ s).trans (Quiet.recordWrite _ _ _ _ _)).trans (Quiet.raise _ _)
    · exact (Quiet.setCadState _ _ s).trans (Quiet.recordWrite _ _ _ _ _)
  case h_7 => exact Quiet.refl s
  all_goals exact Quiet.areaWrite _ _ _ s

theorem stampErrandItem (k : LaneNo) (c : Card) (item : StampItem) (s : State) :
    Quiet s (stampErrandItem k c item s) := by
  unfold Machine.stampErrandItem
  dsimp only
  split
  case h_5 => exact Quiet.refl s
  all_goals exact Quiet.areaWrite _ _ _ s

theorem stampItem (k : LaneNo) (item : StampItem) (s : State) : Quiet s (stampItem k item s) := by
  unfold Machine.stampItem
  split
  · exact Quiet.refl s
  · exact stampServiceItem _ _ _ s
  · exact stampClosingItem _ _ s
  · exact stampErrandItem _ _ _ s

theorem afterStamp (l : Lane) (s : State) : Quiet s (afterStamp l s) := by
  unfold Machine.afterStamp
  split
  · exact Quiet.refl s
  · unfold Machine.afterService
    split
    · split
      · exact (Quiet.holdingFault _ _ s).trans (Quiet.takeBetween _ _)
      · exact Quiet.refl s
    · exact Quiet.refl s
    · exact Quiet.refl s
    · exact Quiet.reportFault _ _ _ s
  · exact Quiet.refl s
  · unfold Machine.afterErrand
    dsimp only
    split
    · split
      · exact Quiet.raise _ s
      · exact Quiet.refl s
    · split
      · exact (Quiet.raise _ s).trans (Quiet.reportFault _ _ _ _)
      · exact Quiet.reportFault _ _ _ s

/-! ## The scanner across the Errand Reader's work and the end of a job -/

theorem followLink_scanner (addr : Addr) (s : State) : (Machine.followLink addr s).scanner = s.scanner := by
  unfold Machine.followLink
  split
  · exact (Quiet.requestControl _ _ _ _).scanner
  · rfl

theorem actOnLink_scanner (link : Addr) (source : Option Addr) (s : State) :
    (Machine.actOnLink link source s).scanner = s.scanner := by
  unfold Machine.actOnLink
  split
  · rfl
  · split
    · exact followLink_scanner _ s
    · exact (Quiet.reportFault _ _ _ _).scanner

theorem chainValue_scanner (link : Addr) (s : State) :
    (Machine.chainValue link s).scanner = s.scanner := by
  unfold Machine.chainValue
  split
  · split
    · exact actOnLink_scanner _ _ s
    · exact actOnLink_scanner _ _ s
    · rfl
  · rfl

theorem afterTake_scanner (c : Card) (s : State) : (Machine.afterTake c s).scanner = s.scanner := by
  unfold Machine.afterTake
  split
  · exact (Quiet.requestControl _ _ _ _).scanner
  · exact actOnLink_scanner _ _ s

theorem recheckHolding_scanner (s : State) : (Machine.recheckHolding s).scanner = s.scanner := by
  unfold Machine.recheckHolding
  split
  · split
    · exact followLink_scanner _ s
    · rfl
  · rfl

theorem ownerEnd_scanner (l : Lane) (u : Nat) (s : State) :
    (Machine.ownerEnd l u s).scanner = s.scanner := by
  unfold Machine.ownerEnd
  split
  · rfl
  · exact (Quiet.placeAtJobEnd _ _ s).scanner
  · rfl
  · exact recheckHolding_scanner _

theorem jobEnd_scanner (k : LaneNo) (u : Nat) (s : State) : (Machine.jobEnd k u s).scanner = s.scanner := by
  unfold Machine.jobEnd
  dsimp only
  rw [(Quiet.dispatch _).scanner, setLane_scanner, (Quiet.dispatch _).scanner, ownerEnd_scanner,
    setLane_scanner, (Quiet.releaseWindows _ s).scanner]

end Steady

end Sys2Proof.Machine
end

