-- ==== Sys2Proof/Laws/UnitFrame.lean ====
section
/-! SUPPORT. What the unit laws read, and the operations they do not see. -/

namespace Sys2Proof.Machine

/-! ## The lanes one by one -/

theorem lane_cases : ∀ k : LaneNo, k = 0 ∨ k = 1 ∨ k = 2 ∨ k = 3 := by decide

theorem lanes_toList (s : State) : s.lanes.toList = [s.lane 0, s.lane 1, s.lane 2, s.lane 3] := by
  apply List.ext_getElem
  · simp
  · intro i h1 h2
    have : i = 0 ∨ i = 1 ∨ i = 2 ∨ i = 3 := by simp at h2; omega
    rcases this with rfl | rfl | rfl | rfl <;> simp [State.lane] <;> rfl

theorem holdsErrand_congr {l m : Lane} (h : l.job = m.job) : l.holdsErrand = m.holdsErrand := by
  unfold Lane.holdsErrand
  rw [h]

theorem errandLaneCount_eq (s : State) : errandLaneCount s =
    (if (s.lane 0).holdsErrand then 1 else 0) + (if (s.lane 1).holdsErrand then 1 else 0) +
    (if (s.lane 2).holdsErrand then 1 else 0) + (if (s.lane 3).holdsErrand then 1 else 0) := by
  simp only [errandLaneCount, lanes_toList, List.countP_cons, List.countP_nil]
  omega

theorem windowHolds_eq (s : State) (n : WinNo) : windowHolds s n =
    (s.lane 0).held.count n + (s.lane 1).held.count n + (s.lane 2).held.count n +
      (s.lane 3).held.count n := by
  simp only [windowHolds, lanes_toList, List.map_cons, List.map_nil, List.sum_cons, List.sum_nil]
  omega

theorem lane_setLane (k j : LaneNo) (l : Lane) (s : State) :
    (setLane k l s).lane j = if k = j then l else s.lane j := by
  split
  · rename_i h; subst h; simp
  · rename_i h; exact lane_setLane_ne h l s

theorem windowHolds_setLane (k : LaneNo) (l : Lane) (s : State) (n : WinNo) :
    windowHolds (setLane k l s) n + (s.lane k).held.count n = windowHolds s n + l.held.count n := by
  simp only [windowHolds_eq, lane_setLane]
  rcases lane_cases k with rfl | rfl | rfl | rfl <;> simp <;> omega

theorem errandLaneCount_setLane (k : LaneNo) (l : Lane) (s : State) :
    errandLaneCount (setLane k l s) + (if (s.lane k).holdsErrand then 1 else 0) =
      errandLaneCount s + (if l.holdsErrand then 1 else 0) := by
  simp only [errandLaneCount_eq, lane_setLane]
  rcases lane_cases k with rfl | rfl | rfl | rfl <;> simp <;> omega

/-! ## What the laws read -/

/-- The two states agree in everything the unit laws read. -/
structure Frame (s t : State) : Prop where
  bridge : t.bridge = s.bridge
  scanner : t.scanner = s.scanner
  reader : t.reader = s.reader
  settings : t.settings = s.settings
  lanes : t.lanes = s.lanes
  tagsA : t.portA.tags = s.portA.tags
  tagsB : t.portB.tags = s.portB.tags
  controlQueue : t.controlQueue = s.controlQueue
  windows : t.windows = s.windows
  calendar : t.calendar = s.calendar
  ready : t.ready = s.ready
  errands : t.errands = s.errands
  cads : ∀ n, (t.cad n).state = (s.cad n).state ∧ (t.cad n).place = (s.cad n).place

namespace Frame

theorem refl (s : State) : Frame s s :=
  ⟨rfl, rfl, rfl, rfl, rfl, rfl, rfl, rfl, rfl, rfl, rfl, rfl, fun _ => ⟨rfl, rfl⟩⟩

theorem trans {s t u : State} (h : Frame s t) (g : Frame t u) : Frame s u :=
  ⟨g.bridge.trans h.bridge, g.scanner.trans h.scanner, g.reader.trans h.reader,
    g.settings.trans h.settings, g.lanes.trans h.lanes, g.tagsA.trans h.tagsA,
    g.tagsB.trans h.tagsB, g.controlQueue.trans h.controlQueue, g.windows.trans h.windows,
    g.calendar.trans h.calendar, g.ready.trans h.ready, g.errands.trans h.errands,
    fun n => ⟨(g.cads n).1.trans (h.cads n).1, (g.cads n).2.trans (h.cads n).2⟩⟩

theorem lane {s t : State} (h : Frame s t) (k : LaneNo) : t.lane k = s.lane k := by
  simp only [State.lane, h.lanes]

theorem win {s t : State} (h : Frame s t) (n : WinNo) : t.win n = s.win n := by
  simp only [State.win, h.windows]

theorem tag {s t : State} (h : Frame s t) (p : Domain) (u : TagNo) : t.tag p u = s.tag p u := by
  cases p
  · simp only [State.tag, State.port, h.tagsA]
  · simp only [State.tag, State.port, h.tagsB]

theorem hdr {s t : State} (h : Frame s t) : t.hdr = s.hdr := by
  simp only [State.hdr, h.settings]

theorem controlReads {s t : State} (h : Frame s t) (who : Requester) :
    controlReads t who = controlReads s who := by
  simp only [Machine.controlReads, Port.tagList, h.tagsA, h.controlQueue]

theorem placed {s t : State} (h : Frame s t) {n : CadNo} (g : CadencePlaced s n) :
    CadencePlaced t n := by
  obtain ⟨e1, e2⟩ := h.cads n
  constructor
  · have := g.admitted
    unfold placeAdmitted at *
    rw [e1, e2, h.bridge]; exact this
  · rw [h.calendar, e2]; exact g.calendar
  · rw [h.ready, e1, e2]; exact g.service
  · rw [h.ready, e1, e2]; exact g.closing
  · intro k; rw [h.lane, e2]; exact g.lanes k
  · intro k; rw [h.lane, e1]; exact g.drains k

theorem windowLaw {s t : State} (h : Frame s t) (g : WindowLaw s) : WindowLaw t := by
  refine ⟨fun n => ?_, fun k => ?_⟩
  · rw [h.win, windowHolds, h.lanes]; exact g.1 n
  · rw [h.lane]; exact g.2 k

theorem laneLaw {s t : State} (h : Frame s t) (g : LaneLaw s) : LaneLaw t := by
  constructor
  · intro k; rw [h.lane]; exact g.lawful k
  · intro p u r timer e
    rw [h.tag] at e
    have := g.recorded p u r timer e
    unfold readRecorded at *
    split <;> rename_i hr <;> rw [hr] at this
    · rw [h.lane]; exact this
    · exact this
    · exact this
  · intro q hq k; rw [h.lane]; rw [h.controlQueue] at hq; exact g.waits q hq k
  · intro k; rw [h.controlReads]; exact g.control k
  · rw [h.errands]; exact g.progress

theorem errandLaneLaw {s t : State} (h : Frame s t) (g : ErrandLaneLaw s) : ErrandLaneLaw t := by
  unfold ErrandLaneLaw errandLaneCount at *
  rw [h.lanes, h.hdr]; exact g

theorem restLaw {s t : State} (h : Frame s t) (g : RestLaw s) : RestLaw t := by
  constructor
  · rw [h.scanner, h.bridge]; exact g.loads
  · rw [h.bridge, h.scanner, h.controlQueue, h.reader]
    simp only [h.lane, h.tag]
    exact g.rest
  · rw [h.bridge, h.scanner, h.controlQueue, h.reader, h.controlReads]
    simp only [h.lane, h.tag]
    exact g.loading

theorem laws {s t : State} (h : Frame s t) (g : UnitLaws s) : UnitLaws t :=
  ⟨fun n => h.placed (g.cadences n), h.windowLaw g.windows, h.laneLaw g.lanes,
    h.errandLaneLaw g.errandLanes, h.restLaw g.rest⟩

/-! ## The operations the laws do not see -/

theorem setPortRequests (p : Domain) (x : List Request) (s : State) :
    Frame s (setPort p { s.port p with requests := x } s) := by
  cases p <;> exact { refl s with }

theorem issueWrite (p : Domain) (w : PostedWrite) (s : State) : Frame s (issueWrite p w s) := by
  unfold Machine.issueWrite
  split
  · exact refl s
  · exact setPortRequests _ _ s

theorem areaWrite (addr : Addr) (size value : Nat) (s : State) : Frame s (areaWrite addr size value s) :=
  issueWrite _ _ _

theorem recordWrite (r : Record) (offset size value : Nat) (s : State) :
    Frame s (recordWrite r offset size value s) := areaWrite _ _ _ _

theorem setCause (c : Cause) (s : State) : Frame s (setCause c s) := { refl s with }

theorem raise (c : Cause) (s : State) : Frame s (raise c s) := by
  unfold Machine.raise
  split
  · exact setCause c s
  · exact { refl s with }

theorem reportFault (code : FaultCode) (kind : ObjectKind) (number : Nat) (s : State) :
    Frame s (reportFault code kind number s) := by
  refine trans ?_ (raise _ _)
  unfold recordFault
  split <;> exact { refl s with }

theorem setCad (n : CadNo) (e : CadEntry) (s : State) (h1 : e.state = (s.cad n).state)
    (h2 : e.place = (s.cad n).place) : Frame s (setCad n e s) := by
  refine { refl s with cads := fun m => ?_ }
  by_cases h : n = m
  · subst h; simp [h1, h2]
  · rw [cad_setCad_ne h]; exact ⟨rfl, rfl⟩

theorem setAck (r : Record) (q : Byte) (s : State) : Frame s (setAck r q s) := by
  cases r <;> exact { refl s with }

theorem answerCommand (d : Delivery) (result : Result) (s : State) :
    Frame s (answerCommand d result s) := by
  unfold Machine.answerCommand
  dsimp only
  split
  · exact (((setAck _ _ s).trans (recordWrite _ _ _ _ _)).trans (recordWrite _ _ _ _ _)).trans
      (raise _ _)
  · exact ((setAck _ _ s).trans (recordWrite _ _ _ _ _)).trans (recordWrite _ _ _ _ _)

theorem setCauses (l : List Cause) (s : State) : Frame s (setCauses l s) := by
  induction l generalizing s with
  | nil => exact refl s
  | cons c l ih => exact (setCause c s).trans (ih _)

theorem settleRaisings (s : State) : Frame s (settleRaisings s) :=
  trans (t := { s with
    raisings := (s.raisings.filter (fun r => decide (1 < r.2))).map (fun r => (r.1, r.2 - 1)) })
    { refl s with } (setCauses _ _)

theorem countMiss (n : CadNo) (s : State) : Frame s (countMiss n s) := setCad _ _ _ rfl rfl

theorem settleService (n : CadNo) (consumes late : Bool) (s : State) :
    Frame s (settleService n consumes late s) := setCad _ _ _ rfl rfl

theorem recomputeDue (l : List CadNo) (s : State) : Frame s (recomputeDue l s) := by
  induction l generalizing s with
  | nil => exact refl s
  | cons n rest ih =>
    exact (setCad n { s.cad n with nextDue := nextInstant s n s.tick } s rfl rfl).trans (ih _)

end Frame

end Sys2Proof.Machine
end

