-- ==== Sys2Proof/Laws/UnitGrants.lean ====
section
/-! SUPPORT. The unit laws across a change of one lane's record and an arbiter's grants. -/

namespace Sys2Proof.Machine

/-! ## The laws across a change of one lane -/

/-- Whether the bridge is in RUNNING or QUIESCING, where lanes work. -/
def Active (s : State) : Prop := s.bridge = .running ∨ s.bridge = .quiescing

theorem RestLaw.ofActive {s : State} (h : Active s) (hl : s.scanner.loads = false) : RestLaw s := by
  unfold Active at h
  constructor
  · rw [hl]; rcases h with h | h <;> simp [h]
  · rcases h with h | h <;> simp [h]
  · rcases h with h | h <;> simp [h]

theorem RestLaw.notLoads {s : State} (h : RestLaw s) (ha : Active s) : s.scanner.loads = false := by
  unfold Active at ha
  cases hl : s.scanner.loads with
  | false => rfl
  | true => have := h.loads.mp hl; rcases ha with ha | ha <;> simp [ha] at this

/-- A lane is at work only in RUNNING and QUIESCING. -/
theorem UnitLaws.active {s : State} (h : UnitLaws s) {k : LaneNo} (hs : (s.lane k).state ≠ .idle) :
    Active s := by
  unfold Active
  cases hb : s.bridge with
  | running => exact Or.inl rfl
  | quiescing => exact Or.inr rfl
  | loading => exact absurd ((h.rest.loading hb).1 k) hs
  | off => exact absurd ((h.rest.rest (Or.inl hb)).2.1 k) hs
  | stopped => exact absurd ((h.rest.rest (Or.inr (Or.inl hb))).2.1 k) hs
  | halted => exact absurd ((h.rest.rest (Or.inr (Or.inr hb))).2.1 k) hs

theorem tag_mem (s : State) (t : TagNo) : s.tag .a t ∈ s.portA.tagList := by
  simp only [State.tag, State.port, Port.tagList]
  exact Vector.mem_toList_iff.mpr (Vector.getElem_mem _)

/-- A lane that does not load has no control read, waiting or out. -/
theorem LaneLaw.noControl {s : State} (h : LaneLaw s) {k : LaneNo} (hs : (s.lane k).state ≠ .loading) :
    controlReads s (.lane k) = 0 := by
  unfold controlReads
  rw [Nat.add_eq_zero_iff, List.countP_eq_zero, List.countP_eq_zero]
  constructor
  · intro g hg hc
    simp only [Port.tagList, Vector.mem_toList_iff, Vector.mem_iff_getElem] at hg
    obtain ⟨i, hi, e⟩ := hg
    cases g with
    | free => simp [Tag.controls] at hc
    | quarantine a b => simp [Tag.controls] at hc
    | busy r timer =>
      simp only [Tag.controls, Bool.and_eq_true, beq_iff_eq] at hc
      have := h.recorded .a ⟨i, hi⟩ r timer (by simpa [State.tag, State.port] using e)
      simp only [readRecorded, hc.1, hc.2, Lane.records] at this
      exact hs this.2
  · intro q hq hc
    exact hs (h.waits q hq k (by simpa using hc))

theorem noControl_tag {s : State} {who : Requester} (h : controlReads s who = 0) {t : TagNo} {r : ReadInfo}
    {timer : Nat} (e : s.tag .a t = .busy r timer) (hw : r.requester = who) : r.role ≠ .control := by
  intro hr
  have h1 : s.portA.tagList.countP (Tag.controls who) = 0 := by unfold controlReads at h; omega
  rw [List.countP_eq_zero] at h1
  have := h1 _ (tag_mem s t)
  simp [e, Tag.controls, hw, hr] at this

theorem noControl_queue {s : State} {who : Requester} (h : controlReads s who = 0) {q : ControlRequest}
    (hq : q ∈ s.controlQueue) : q.requester ≠ who := by
  intro hr
  have h1 : s.controlQueue.countP (fun q => q.requester == who) = 0 := by unfold controlReads at h; omega
  rw [List.countP_eq_zero] at h1
  exact h1 q hq (by simpa using hr)

@[simp] theorem controlReads_setLane (k : LaneNo) (l : Lane) (s : State) (who : Requester) :
    controlReads (setLane k l s) who = controlReads s who := rfl

theorem LaneLaw.setLane {s : State} (h : LaneLaw s) {k : LaneNo} {l : Lane} (hl : l.Lawful)
    (hc : l.state = .loading ∨ controlReads s (.lane k) = 0)
    (hr : ∀ p t r timer, s.tag p t = .busy r timer → r.requester = .lane k → r.role ≠ .control →
      (s.lane k).records p t r.role → l.records p t r.role) : LaneLaw (setLane k l s) := by
  constructor
  · intro j
    rw [lane_setLane]
    split
    · exact hl
    · exact h.lawful j
  · intro p t r timer e
    rw [tag_setLane] at e
    have g := h.recorded p t r timer e
    unfold readRecorded at *
    split <;> rename_i hw <;> rw [hw] at g <;> dsimp only at g
    · rename_i j
      rw [lane_setLane]
      split
      · rename_i hj
        subst hj
        by_cases hrole : r.role = .control
        · rw [hrole] at g ⊢
          refine ⟨g.1, ?_⟩
          rcases hc with a | a
          · exact a
          · obtain ⟨rfl, _⟩ := g
            exact absurd hrole (noControl_tag a e hw)
        · exact hr p t r timer e hw hrole g
      · exact g
    · exact g
    · exact g
  · intro q hq j hj
    rw [lane_setLane]
    split
    · rename_i e
      subst e
      rcases hc with a | a
      · exact a
      · exact absurd hj (noControl_queue a hq)
    · exact h.waits q hq j hj
  · exact h.control
  · exact h.progress

/-- A lane's record changes, and its job and its windows do not. -/
theorem UnitLaws.setLane {s : State} (h : UnitLaws s) {k : LaneNo} {l : Lane} (ha : Active s)
    (hl : LaneLaw (setLane k l s)) (hj : l.job = (s.lane k).job) (hh : l.held = (s.lane k).held) :
    UnitLaws (setLane k l s) := by
  have job : ∀ j, ((Machine.setLane k l s).lane j).job = (s.lane j).job := by
    intro j; rw [lane_setLane]; split
    · rename_i e; subst e; exact hj
    · rfl
  have held : ∀ j, ((Machine.setLane k l s).lane j).held = (s.lane j).held := by
    intro j; rw [lane_setLane]; split
    · rename_i e; subst e; exact hh
    · rfl
  refine ⟨fun n => ?_, ⟨fun n => ?_, fun j => ?_⟩, hl, ?_, ?_⟩
  · have g := h.cadences n
    exact ⟨g.admitted, g.calendar, g.service, g.closing, fun j => by rw [job]; exact g.lanes j,
      fun j => by rw [job]; exact g.drains j⟩
  · have := windowHolds_setLane k l s n
    rw [hh] at this
    have e : windowHolds (Machine.setLane k l s) n = windowHolds s n := by omega
    rw [e]; exact h.windows.1 n
  · rw [held]; exact h.windows.2 j
  · have := errandLaneCount_setLane k l s
    have e : l.holdsErrand = (s.lane k).holdsErrand := by simp only [Lane.holdsErrand, hj]
    rw [e] at this
    have g := h.errandLanes
    unfold ErrandLaneLaw at *
    rw [hdr_setLane]; omega
  · exact RestLaw.ofActive ha (h.rest.notLoads ha)

/-! ## The arbiter -/

theorem tag_setPort_tags (p q : Domain) (x : Port) (u : TagNo) (s : State) :
    (setPort p x s).tag q u = if p = q then x.tags[u] else s.tag q u := by
  cases p <;> cases q <;> rfl

/-- The tags after a read is issued. -/
theorem tag_issueRead (p q : Domain) (t u : TagNo) (r : ReadInfo) (s : State) :
    (issueRead p t r s).tag q u = if p = q ∧ t = u then .busy r (s.port p).period else s.tag q u := by
  unfold issueRead
  dsimp only
  rw [tag_setPort_tags]
  by_cases hp : p = q
  · subst hp
    by_cases ht : t = u
    · subst ht; simp
    · simp [ht, State.tag, Fin.val_ne_of_ne ht]
  · simp [hp]

/-- The control reads after a read is issued at a FREE tag. -/
theorem controlReads_issueRead (p : Domain) (t : TagNo) (r : ReadInfo) (s : State) (who : Requester)
    (hf : s.tag p t = .free) :
    controlReads (issueRead p t r s) who =
      controlReads s who + if p = .a ∧ r.requester = who ∧ r.role = .control then 1 else 0 := by
  cases p with
  | b => simp [controlReads, issueRead, setPort]
  | a =>
    have hf' : s.portA.tags.toList[t.val]'(by simp) = .free := by
      simpa [State.tag, State.port] using hf
    simp only [controlReads, issueRead, setPort, State.port, Port.tagList, Vector.toList_set]
    rw [List.countP_set (by simp), hf']
    simp only [Tag.controls]
    by_cases h : r.requester = who ∧ r.role = .control
    · simp [h.1, h.2]; omega
    · have : (r.requester == who && r.role == .control) = false := by
        simp only [Bool.and_eq_false_iff, beq_eq_false_iff_ne]
        by_cases a : r.requester = who
        · exact Or.inr fun b => h ⟨a, b⟩
        · exact Or.inl a
      simp [this, h]

theorem issueRead_lane (p : Domain) (t : TagNo) (r : ReadInfo) (s : State) (k : LaneNo) :
    (issueRead p t r s).lane k = s.lane k := by cases p <;> rfl

/-- A read is issued at a FREE tag: the lanes' law holds once its requester has it on record. -/
theorem LaneLaw.issueRead {s : State} (h : LaneLaw s) {p : Domain} {t : TagNo} {r : ReadInfo}
    (hf : s.tag p t = .free) (hr : readRecorded s p t r)
    (hc : ∀ k, r.requester = .lane k → r.role = .control → controlReads s (.lane k) = 0) :
    LaneLaw (issueRead p t r s) := by
  constructor
  · intro k; rw [issueRead_lane]; exact h.lawful k
  · intro q u r' timer e
    rw [tag_issueRead] at e
    have conv : ∀ q u r', readRecorded (Machine.issueRead p t r s) q u r' ↔ readRecorded s q u r' := by
      intro q u r'
      unfold readRecorded
      simp only [issueRead_lane]
    rw [conv]
    split at e
    · rename_i a
      obtain ⟨rfl, rfl⟩ := a
      cases e
      exact hr
    · exact h.recorded q u r' timer e
  · intro q hq k hk
    rw [issueRead_lane]
    refine h.waits q ?_ k hk
    cases p <;> exact hq
  · intro k
    rw [controlReads_issueRead _ _ _ _ _ hf]
    split
    · rename_i a
      have := hc k a.2.1 a.2.2
      omega
    · exact h.control k
  · cases p <;> exact h.progress

/-- What an arbiter's work leaves to the other laws. -/
structure Grants (s t : State) : Prop where
  bridge : t.bridge = s.bridge
  scanner : t.scanner = s.scanner
  reader : t.reader = s.reader
  settings : t.settings = s.settings
  windows : t.windows = s.windows
  calendar : t.calendar = s.calendar
  ready : t.ready = s.ready
  errands : t.errands = s.errands
  cadences : t.cadences = s.cadences
  job : ∀ k, (t.lane k).job = (s.lane k).job
  held : ∀ k, (t.lane k).held = (s.lane k).held
  state : ∀ k, (t.lane k).state = (s.lane k).state

namespace Grants

theorem refl (s : State) : Grants s s :=
  ⟨rfl, rfl, rfl, rfl, rfl, rfl, rfl, rfl, rfl, fun _ => rfl, fun _ => rfl, fun _ => rfl⟩

theorem trans {s t u : State} (h : Grants s t) (g : Grants t u) : Grants s u :=
  ⟨g.bridge.trans h.bridge, g.scanner.trans h.scanner, g.reader.trans h.reader,
    g.settings.trans h.settings, g.windows.trans h.windows, g.calendar.trans h.calendar,
    g.ready.trans h.ready, g.errands.trans h.errands, g.cadences.trans h.cadences,
    fun k => (g.job k).trans (h.job k), fun k => (g.held k).trans (h.held k),
    fun k => (g.state k).trans (h.state k)⟩

theorem setLane (k : LaneNo) (l : Lane) (s : State) (h1 : l.job = (s.lane k).job)
    (h2 : l.held = (s.lane k).held) (h3 : l.state = (s.lane k).state) : Grants s (setLane k l s) := by
  refine { refl s with job := fun j => ?_, held := fun j => ?_, state := fun j => ?_ } <;>
    rw [lane_setLane] <;> split <;> first | rfl | (rename_i e; subst e; assumption)

theorem issueRead (p : Domain) (t : TagNo) (r : ReadInfo) (s : State) : Grants s (issueRead p t r s) := by
  cases p <;> exact { refl s with }

theorem asking_job (l : Lane) :
    l.asking.job = l.job ∧ l.asking.held = l.held ∧ l.asking.state = l.state := by
  unfold Lane.asking
  split <;> exact ⟨rfl, rfl, rfl⟩

theorem grantLane (p : Domain) (k : LaneNo) (t : TagNo) (s : State) : Grants s (grantLane p k t s) := by
  have h0 : Grants s (setPort p { s.port p with lastServed := k } s) := by
    cases p <;> exact { refl s with }
  unfold Machine.grantLane
  dsimp only
  split
  · exact h0.trans (setLane k _ _ rfl rfl rfl)
  · split
    · refine (h0.trans (issueRead _ _ _ _)).trans (setLane k _ _ ?_ ?_ ?_)
      · rw [(asking_job _).1]; simp [issueRead_lane]
      · rw [(asking_job _).2.1]; simp [issueRead_lane]
      · rw [(asking_job _).2.2]; simp [issueRead_lane]
    · refine (h0.trans (issueRead _ _ _ _)).trans (setLane k _ _ ?_ ?_ ?_) <;> simp [issueRead_lane]

theorem arbitrateOnce (p : Domain) (s t : State) (h : arbitrateOnce p s = some t) : Grants s t := by
  unfold Machine.arbitrateOnce at h
  split at h
  · simp at h
  · rename_i g c hg
    have h0 : Grants s { s with choice := c } := { refl s with }
    split at h
    · cases h
      rename_i rest _
      have h1 : Grants { s with choice := c } { s with choice := c, controlQueue := rest } :=
        { refl { s with choice := c } with }
      exact h0.trans (h1.trans (issueRead _ _ _ _))
    · split at h
      · split at h
        · cases h
          exact h0.trans (grantLane _ _ _ _)
        · simp at h
      · simp at h

theorem errandLaneLaw {s t : State} (h : Grants s t) (g : ErrandLaneLaw s) : ErrandLaneLaw t := by
  unfold ErrandLaneLaw at *
  have e : errandLaneCount t = errandLaneCount s := by
    simp only [errandLaneCount_eq, holdsErrand_congr (h.job _)]
  have e2 : t.hdr = s.hdr := by simp only [State.hdr, h.settings]
  rw [e, e2]; exact g

theorem windowLaw {s t : State} (h : Grants s t) (g : WindowLaw s) : WindowLaw t := by
  refine ⟨fun n => ?_, fun k => by rw [h.held]; exact g.2 k⟩
  have e : windowHolds t n = windowHolds s n := by simp only [windowHolds_eq, h.held]
  have e2 : t.win n = s.win n := by simp only [State.win, h.windows]
  rw [e, e2]; exact g.1 n

theorem placed {s t : State} (h : Grants s t) {n : CadNo} (g : CadencePlaced s n) : CadencePlaced t n := by
  have e : t.cad n = s.cad n := by simp only [State.cad, h.cadences]
  constructor
  · rw [e, h.bridge]; exact g.admitted
  · rw [e, h.calendar]; exact g.calendar
  · rw [e, h.ready]; exact g.service
  · rw [e, h.ready]; exact g.closing
  · intro k; rw [e, h.job]; exact g.lanes k
  · intro k; rw [e, h.job]; exact g.drains k

/-- The laws across an arbiter's work, where the lanes' law and the law of rest are kept. -/
theorem laws {s t : State} (h : Grants s t) (g : UnitLaws s) (hl : LaneLaw t) (hr : RestLaw t) :
    UnitLaws t :=
  ⟨fun n => h.placed (g.cadences n), h.windowLaw g.windows, hl, h.errandLaneLaw g.errandLanes, hr⟩

end Grants

theorem pickTag_free {p : Domain} {s : State} {t : TagNo} {c : Nat} (h : pickTag p s = some (t, c)) :
    s.tag p t = .free := by
  unfold pickTag at h
  dsimp only at h
  split at h
  · rename_i u hu
    cases h
    have := List.mem_of_getElem? hu
    simp only [freeTags, List.mem_filter] at this
    have := this.2
    simp only [State.tag]
    revert this
    cases (s.port p).tags[t.val] <;> simp_all [Tag.isFree]
  · simp at h

theorem issueRead_setLane (p : Domain) (t : TagNo) (r : ReadInfo) (k : LaneNo) (l : Lane) (s : State) :
    setLane k l (issueRead p t r s) = issueRead p t r (setLane k l s) := by cases p <;> rfl

theorem lastServed_frame (p : Domain) (k : LaneNo) (s : State) :
    Frame s (setPort p { s.port p with lastServed := k } s) := by
  cases p <;> exact { Frame.refl s with }

theorem readRecorded_lane {s : State} {p : Domain} {t : TagNo} {r : ReadInfo} {k : LaneNo}
    (h : r.requester = .lane k) : readRecorded s p t r = (s.lane k).records p t r.role := by
  unfold readRecorded
  rw [h]

/-- A lane is granted a tag of a port it waits at. -/
theorem LaneLaw.grantLane {s : State} (h : LaneLaw s) {p : Domain} {k : LaneNo} {t : TagNo}
    (hf : s.tag p t = .free) (hq : (s.lane k).tagRequest = some p) : LaneLaw (grantLane p k t s) := by
  have hl := h.lawful k
  have hne : (s.lane k).state ≠ .loading := fun a => by have := (hl.loading a).2.2.2.1; simp [hq] at this
  have fr := lastServed_frame p k s
  have h1 := fr.laneLaw h
  unfold Machine.grantLane
  dsimp only
  generalize hs1 : setPort p { s.port p with lastServed := k } s = s1 at fr h1
  have hf1 : s1.tag p t = .free := by rw [fr.tag]; exact hf
  have hlane : s1.lane k = s.lane k := fr.lane k
  have hc := h1.noControl (k := k) (by rw [hlane]; exact hne)
  split
  · unfold returnTag
    rw [hlane]
    exact h1.setLane hl.unaskedOf (Or.inr hc) fun _ _ _ _ _ _ _ g => by rw [hlane] at g; exact g
  split
  · rename_i hm
    unfold issueSegment
    dsimp only
    rw [issueRead_setLane]
    have hr := hl.readingOf t hm hq
    have he := hr.askingOf
    rw [hlane]
    refine LaneLaw.issueRead (h1.setLane (k := k) he (Or.inr hc) ?_) (by rw [tag_setLane]; exact hf1) ?_ ?_
    · intro q u r timer _ _ _ hrec
      rw [hlane] at hrec
      unfold Lane.asking
      cases hrole : r.role with
      | control => exact absurd hrole (by assumption)
      | segment n =>
        rw [hrole] at hrec
        split <;> exact ⟨List.mem_append_left _ hrec.1, hrec.2⟩
      | confirming => rw [hrole] at hrec; split <;> exact hrec
    · have hp : p = (s.lane k).srcPort := by
        rcases hl.tagRequest p hq with a | a
        · exact a.2.1
        · simp [hm] at a
      rw [readRecorded_lane (k := k) rfl, lane_setLane_same]
      unfold Lane.asking
      split <;> exact ⟨by simp, hp.symm⟩
    · intro j _ a
      simp at a
  · rename_i hm
    unfold issueConfirm
    dsimp only
    rw [issueRead_setLane, hlane]
    have hcf := hl.confirmingOf t hm hq
    have hd : p = (s.lane k).dstPort ∧ (s.lane k).confirmTag = none := by
      rcases hl.tagRequest p hq with a | a
      · exact absurd a.1 hm
      · exact ⟨a.2.1, a.2.2.2⟩
    refine LaneLaw.issueRead (h1.setLane (k := k) hcf (Or.inr hc) ?_) (by rw [tag_setLane]; exact hf1) ?_ ?_
    · intro q u r timer _ _ _ hrec
      rw [hlane] at hrec
      cases hrole : r.role with
      | control => exact absurd hrole (by assumption)
      | segment n => rw [hrole] at hrec; exact hrec
      | confirming => rw [hrole] at hrec; have := hrec.1; simp [hd.2] at this
    · rw [readRecorded_lane (k := k) rfl, lane_setLane_same]
      exact ⟨rfl, hd.1.symm⟩
    · intro j _ a
      simp at a

/-- The first control requester is granted a tag of Port A. -/
theorem LaneLaw.grantControl {s : State} (h : LaneLaw s) {t : TagNo} {r : ControlRequest}
    {rest : List ControlRequest} (hf : s.tag .a t = .free) (hq : s.controlQueue = r :: rest) :
    LaneLaw (grantControl r rest t s) := by
  have reads : ∀ who, controlReads s who =
      controlReads { s with controlQueue := rest } who + if r.requester = who then 1 else 0 := by
    intro who
    simp only [controlReads, hq, List.countP_cons, beq_iff_eq]
    omega
  have h1 : LaneLaw { s with controlQueue := rest } := by
    refine { h with waits := fun q a => h.waits q ?_, control := fun k => ?_ }
    · rw [hq]; exact List.mem_cons_of_mem _ a
    · have := reads (.lane k)
      have := h.control k
      omega
  refine h1.issueRead hf ?_ ?_
  · unfold readRecorded
    split
    · rename_i k a
      exact ⟨rfl, h.waits r (by rw [hq]; simp) k a⟩
    · exact ⟨rfl, rfl⟩
    · exact ⟨rfl, rfl⟩
  · intro k a _
    have := reads (.lane k)
    have := h.control k
    dsimp only at a
    simp only [a, if_true] at *
    omega

theorem controlReads_grantControl {s : State} {t : TagNo} {r : ControlRequest}
    {rest : List ControlRequest} (hf : s.tag .a t = .free) (hq : s.controlQueue = r :: rest)
    (who : Requester) : controlReads (grantControl r rest t s) who = controlReads s who := by
  unfold grantControl
  rw [controlReads_issueRead _ _ _ _ _ (by exact hf)]
  simp only [controlReads, hq, List.countP_cons, beq_iff_eq]
  by_cases a : r.requester = who <;> simp [a] <;> omega

/-- One grant of an arbiter keeps the laws. -/
theorem UnitLaws.arbitrateOnce {s t : State} (p : Domain) (h : UnitLaws s) (e : arbitrateOnce p s = some t) :
    UnitLaws t := by
  have hg := Grants.arbitrateOnce p s t e
  unfold Machine.arbitrateOnce at e
  split at e
  · simp at e
  · rename_i g c hp
    have hf := pickTag_free hp
    have h0 : Frame s { s with choice := c } := { Frame.refl s with }
    split at e
    · rename_i r rest hq
      cases e
      refine hg.laws h ((h0.laneLaw h.lanes).grantControl hf hq) ?_
      have r0 := h0.restLaw h.rest
      constructor
      · exact r0.loads
      · intro a
        have := (r0.rest a).2.2.2.1
        rw [hq] at this
        cases this
      · intro a
        obtain ⟨b1, b2, b3, b4, b5, b6⟩ := r0.loading a
        refine ⟨b1, b2, b3, ?_, ?_, ?_⟩
        · intro u r' timer e
          unfold grantControl at e
          rw [tag_issueRead] at e
          split at e
          · cases e
            exact b5 r (by rw [hq]; simp)
          · exact b4 u r' timer e
        · intro q a
          exact b5 q (by rw [hq]; exact List.mem_cons_of_mem _ a)
        · rw [controlReads_grantControl (by exact hf) (by exact hq)]; exact b6
    · split at e
      · rename_i k hk
        split at e
        · cases e
          have hq := List.find?_some hk
          simp only [beq_iff_eq] at hq
          refine hg.laws h ((h0.laneLaw h.lanes).grantLane hf hq) ?_
          have ha : Active s := h.active (k := k) fun a => by
            have := (h.lanes.lawful k).idle a
            rw [this] at hq
            cases hq
          refine RestLaw.ofActive (by unfold Active at *; rw [hg.bridge]; exact ha) ?_
          rw [hg.scanner]
          exact h.rest.notLoads ha
        · simp at e
      · simp at e

theorem UnitLaws.arbitrate {s : State} (p : Domain) (h : UnitLaws s) : UnitLaws (arbitrate p s) := by
  unfold Machine.arbitrate
  generalize 28 = fuel
  induction fuel generalizing s with
  | zero => exact h
  | succ n ih =>
    unfold arbitrateFuel
    split
    · rename_i t e
      exact ih (h.arbitrateOnce p e)
    · exact h

theorem Grants.arbitrate (p : Domain) (s : State) : Grants s (arbitrate p s) := by
  unfold Machine.arbitrate
  generalize 28 = fuel
  induction fuel generalizing s with
  | zero => exact refl s
  | succ n ih =>
    unfold arbitrateFuel
    split
    · rename_i t e
      exact (arbitrateOnce p s t e).trans (ih t)
    · exact refl s

namespace Grants

theorem meetGrant (k : LaneNo) (s : State) : Grants s (meetGrant k s) := by
  have hc : ∀ c, Grants s { s with choice := c } := fun _ => { refl s with }
  unfold Machine.meetGrant
  dsimp only
  split
  · exact refl s
  · split
    · split
      · refine (hc (s.choice / 2)).trans ?_
        cases h : Machine.arbitrateOnce _ _ with
        | none => exact refl _
        | some u => exact arbitrateOnce _ _ u h
      · exact hc _
    · exact refl s

theorem withdrawTag (k : LaneNo) (s : State) : Grants s (withdrawTag k s) :=
  (meetGrant k s).trans (setLane k _ _ rfl rfl rfl)

end Grants

theorem UnitLaws.meetGrant {s : State} (h : UnitLaws s) (k : LaneNo) : UnitLaws (meetGrant k s) := by
  have hc : ∀ c, UnitLaws { s with choice := c } := fun _ => Frame.laws (s := s) { Frame.refl s with } h
  unfold Machine.meetGrant
  dsimp only
  split
  · exact h
  · split
    · split
      · cases e : Machine.arbitrateOnce _ _ with
        | none => exact hc _
        | some u => exact (hc (s.choice / 2)).arbitrateOnce _ e
      · exact hc _
    · exact h

end Sys2Proof.Machine
end

