-- ==== Sys2Proof/Laws/Withdrawal.lean ====
section
/-! SUPPORT. A lane that no longer wants its tag (R61): a grant to it gives no read, and its withdrawal
changes its request alone, with the rotation of one port and the choices left. -/

namespace Sys2Proof.Machine

/-- A grant to a lane that no longer wants the tag: the tag stays FREE and no read is issued (R61). -/
theorem grantLane_unwanted {p : Domain} {k : LaneNo} {t : TagNo} {s : State}
    (h : (s.lane k).wantsTag = false) :
    grantLane p k t s =
      setLane k { s.lane k with tagRequest := none } (setPort p { s.port p with lastServed := k } s) := by
  unfold grantLane
  dsimp only
  rw [if_pos h]
  cases p <;> rfl

/-- An act of the arbiter that goes to a lane (R118). -/
theorem arbitrateOnce_lane {p : Domain} {s : State} {t : TagNo} {c : Nat} {k : LaneNo}
    (hp : pickTag p s = some (t, c)) (hq : p = .a → s.controlQueue = []) (hd : dataAllowed p s = true)
    (hn : nextLane p s = some k) : arbitrateOnce p s = some (grantLane p k t { s with choice := c }) := by
  unfold arbitrateOnce
  rw [hp]
  cases p with
  | a =>
    dsimp only
    split
    · rename_i e
      rw [hq rfl] at e
      cases e
    · rw [hn, hd]; rfl
  | b =>
    dsimp only
    rw [hn, hd]; rfl

/-- Where the port's next grant goes to lane `k`, its arbiter's next act is that grant (R118), whatever the
choices left are. -/
theorem servedLane_grants {p : Domain} {s : State} {k : LaneNo} (h : servedLane p s = some k) (x : Nat) :
    ∃ t c, s.tag p t = .free ∧ (s.lane k).tagRequest = some p ∧
      arbitrateOnce p { s with choice := x } = some (grantLane p k t { s with choice := c }) := by
  unfold servedLane at h
  split at h
  · rename_i g
    obtain ⟨hp, hq, hd⟩ := g
    have hp' : (pickTag p { s with choice := x }).isSome = true := by
      obtain ⟨⟨t, c⟩, e⟩ := Option.isSome_iff_exists.mp hp
      obtain ⟨t, c, e, -⟩ := pickTag_some p { s with choice := x } ⟨t, pickTag_free (s := s) e⟩
      rw [e]; rfl
    obtain ⟨⟨t, c⟩, hp'⟩ := Option.isSome_iff_exists.mp hp'
    have hr := List.find?_some (p := fun k => (s.lane k).tagRequest == some p) h
    have hf : s.tag p t = .free := pickTag_free (s := { s with choice := x }) hp'
    refine ⟨t, c, hf, beq_iff_eq.mp hr, ?_⟩
    exact arbitrateOnce_lane (s := { s with choice := x }) hp' hq hd h
  · cases h

/-- The withdrawal of a lane that no longer wants its tag (R61): its request goes, and where a grant was first
the lane is the last one served at the port. -/
theorem withdrawTag_cases {k : LaneNo} {s : State} (h : (s.lane k).wantsTag = false) :
    (∃ c, withdrawTag k s = setLane k { s.lane k with tagRequest := none } { s with choice := c }) ∨
      ∃ p c, withdrawTag k s =
        setLane k { s.lane k with tagRequest := none }
          (setPort p { s.port p with lastServed := k } { s with choice := c }) := by
  unfold withdrawTag meetGrant
  dsimp only
  split
  · exact Or.inl ⟨s.choice, rfl⟩
  · rename_i p e
    split
    · rename_i g
      split
      · obtain ⟨t, c, -, -, a⟩ := servedLane_grants g (s.choice / 2)
        refine Or.inr ⟨p, c, ?_⟩
        rw [a, Option.getD_some, grantLane_unwanted (s := { s with choice := c }) h]
        unfold returnTag
        rw [lane_setLane_same, setLane_setLane]
        rfl
      · exact Or.inl ⟨s.choice / 2, rfl⟩
    · exact Or.inl ⟨s.choice, rfl⟩

/-- A withdrawal takes the lane's request and leaves the rest of its record (R61). -/
theorem withdrawTag_lane {k : LaneNo} {s : State} (h : (s.lane k).wantsTag = false) :
    (withdrawTag k s).lane k = { s.lane k with tagRequest := none } := by
  rcases withdrawTag_cases h with ⟨c, e⟩ | ⟨p, c, e⟩ <;> rw [e, lane_setLane_same]

/-- A withdrawal leaves the records of the other lanes. -/
theorem withdrawTag_lane_ne {k j : LaneNo} {s : State} (h : (s.lane k).wantsTag = false) (hj : k ≠ j) :
    (withdrawTag k s).lane j = s.lane j := by
  rcases withdrawTag_cases h with ⟨c, e⟩ | ⟨p, c, e⟩
  · rw [e, lane_setLane_ne hj]; rfl
  · rw [e, lane_setLane_ne hj]; cases p <;> rfl

/-- A withdrawal from Port A, or from neither port, leaves Port B. -/
theorem withdrawTag_portB {k : LaneNo} {s : State} (h : (s.lane k).tagRequest ≠ some .b)
    (hw : (s.lane k).wantsTag = false) : (withdrawTag k s).portB = s.portB := by
  unfold withdrawTag meetGrant
  dsimp only
  split
  · rfl
  · rename_i p e
    cases p with
    | b => exact absurd e h
    | a =>
      split
      · rename_i g
        split
        · obtain ⟨t, c, -, -, a⟩ := servedLane_grants g (s.choice / 2)
          rw [a, Option.getD_some, grantLane_unwanted (s := { s with choice := c }) hw]
          rfl
        · rfl
      · rfl

theorem UnitLaws.withdrawTag {s : State} (h : UnitLaws s) (k : LaneNo) (hs : (s.lane k).state ≠ .idle)
    (hn : (s.lane k).state ≠ .loading) : UnitLaws (withdrawTag k s) := by
  have g := h.meetGrant k
  have st := (Grants.meetGrant k s).state k
  exact g.setLane (g.active (k := k) (by rw [st]; exact hs))
    (g.lanes.setLane (g.lanes.lawful k).unaskedOf (Or.inr (g.lanes.noControl (by rw [st]; exact hn)))
      fun _ _ _ _ _ _ _ a => a) rfl rfl

end Sys2Proof.Machine
end

