-- ==== Sys2Proof/Laws/UnitWindows.lean ====
section
/-! SUPPORT. The unit laws across a lane's own work, and the windows' law across holds and releases. -/

namespace Sys2Proof.Machine

/-! ## A lane's own work -/

/-- A record that keeps the reads keeps them on record. -/
theorem Lane.records_of_eq {l m : Lane} (h1 : m.outstanding = l.outstanding) (h2 : m.srcPort = l.srcPort)
    (h3 : m.confirmTag = l.confirmTag) (h4 : m.dstPort = l.dstPort) {p : Domain} {t : TagNo}
    {role : ReadRole} (hr : role ≠ .control) (h : l.records p t role) : m.records p t role := by
  cases role with
  | control => exact absurd rfl hr
  | segment n => exact ⟨h1 ▸ h.1, h2 ▸ h.2⟩
  | confirming => exact ⟨h3 ▸ h.1, h4 ▸ h.2⟩

/-- A lane's record changes, with the job, the windows and the reads kept. -/
theorem UnitLaws.lane {s : State} (h : UnitLaws s) {k : LaneNo} {l : Lane}
    (hs : (s.lane k).state ≠ .idle) (hl : l.Lawful)
    (hc : l.state = .loading ∨ controlReads s (.lane k) = 0) (hj : l.job = (s.lane k).job)
    (hh : l.held = (s.lane k).held) (h1 : l.outstanding = (s.lane k).outstanding)
    (h2 : l.srcPort = (s.lane k).srcPort) (h3 : l.confirmTag = (s.lane k).confirmTag)
    (h4 : l.dstPort = (s.lane k).dstPort) : UnitLaws (Machine.setLane k l s) :=
  h.setLane (h.active hs)
    (h.lanes.setLane hl hc fun _ _ _ _ _ _ hr g => Lane.records_of_eq h1 h2 h3 h4 hr g) hj hh

/-- The stamping writes of a closing job have its end as their last. -/
theorem closingItems_end (c : CadConfig) (e : CadEntry) :
    (closingItems c e).getLast? = some .closeEnd ∧ .closeEnd ∉ (closingItems c e).dropLast := by
  have h : closingItems c e = ((cancelIndices c e).flatMap cancelItems ++
      [.closeTally (decide (c.ringSize < outstandingCount e))]) ++ [.closeEnd] := by
    simp [closingItems]
  rw [h, List.getLast?_concat, List.dropLast_concat]
  simp [cancelItems]

theorem UnitLaws.enterStamping {s : State} (h : UnitLaws s) (k : LaneNo) (o : Option Outcome)
    (hs : (s.lane k).state ≠ .idle) (hc : controlReads s (.lane k) = 0)
    (h1 : (s.lane k).outstanding = []) (h2 : (s.lane k).confirmTag = none) :
    UnitLaws (enterStamping k o s) := by
  have hl := h.lanes.lawful k
  unfold Machine.enterStamping
  split
  · exact h
  · rename_i n e
    unfold stampService
    dsimp only
    refine UnitLaws.lane ((Frame.settleService _ _ _ s).laws h) hs
      (hl.stampingOf _ _ _ h1 h2 fun m a => by rw [e] at a; cases a) (Or.inr hc) ?_ ?_ ?_ ?_ ?_ ?_ <;> rfl
  · exact h.lane hs (hl.stampingOf _ _ _ h1 h2 fun _ _ => Or.inr (closingItems_end _ _))
      (Or.inr hc) rfl rfl rfl rfl rfl rfl
  · rename_i c e
    exact h.lane hs (hl.stampingOf _ _ _ h1 h2 fun m a => by rw [e] at a; cases a) (Or.inr hc) rfl rfl rfl
      rfl rfl rfl

theorem UnitLaws.settleLane {s : State} (h : UnitLaws s) (k : LaneNo) (hs : (s.lane k).state ≠ .idle)
    (hn : (s.lane k).state ≠ .loading) : UnitLaws (settleLane k s) := by
  unfold Machine.settleLane
  dsimp only
  split
  · exact h
  · split
    · rename_i a
      simp only [Lane.settled, Bool.and_eq_true, List.isEmpty_iff, Option.isNone_iff_eq_none] at a
      exact h.enterStamping k _ hs (h.lanes.noControl hn) a.1 a.2
    · exact h

theorem UnitLaws.failLane {s : State} (h : UnitLaws s) (k : LaneNo) (o : Outcome)
    (hs : (s.lane k).state ≠ .idle) (hn : (s.lane k).state ≠ .loading) : UnitLaws (failLane k o s) := by
  unfold Machine.failLane
  have g : UnitLaws (Machine.setLane k ((s.lane k).failed o) s) :=
    h.lane hs ((h.lanes.lawful k).failedOf o hs) (Or.inr (h.lanes.noControl hn)) rfl rfl rfl rfl rfl rfl
  refine UnitLaws.settleLane (g.withdrawTag k ?_ ?_) k ?_ ?_
  · simpa [Lane.failed] using hs
  · simpa [Lane.failed] using hn
  · rw [(Grants.withdrawTag _ _).state]; simpa [Lane.failed] using hs
  · rw [(Grants.withdrawTag _ _).state]; simpa [Lane.failed] using hn

theorem UnitLaws.askTag {s : State} (h : UnitLaws s) (k : LaneNo) (p : Domain)
    (hs : (s.lane k).state ≠ .idle) (hn : (s.lane k).state ≠ .loading)
    (hl : ({ s.lane k with tagRequest := some p } : Lane).Lawful) : UnitLaws (askTag k p s) := by
  unfold Machine.askTag
  split
  · exact h.failLane k _ hs hn
  · exact UnitLaws.arbitrate p
      (h.lane hs hl (Or.inr (h.lanes.noControl hn)) rfl rfl rfl rfl rfl rfl)

theorem UnitLaws.askSource {s : State} (h : UnitLaws s) (k : LaneNo) : UnitLaws (askSource k s) := by
  unfold Machine.askSource
  split
  · rename_i hw
    have hm : (s.lane k).state = .moving := by
      simp only [Lane.wantsRead, Bool.and_eq_true, beq_iff_eq] at hw
      exact hw.1.1.1.1.1.1
    exact h.askTag k _ (by simp [hm]) (by simp [hm]) ((h.lanes.lawful k).askingSourceOf hw)
  · exact h

theorem UnitLaws.enterConfirming {s : State} (h : UnitLaws s) (k : LaneNo)
    (hs : (s.lane k).state = .moving) (ho : (s.lane k).outstanding = [])
    (hq : (s.lane k).tagRequest = none) : UnitLaws (enterConfirming k s) := by
  have hl := h.lanes.lawful k
  have hc := hl.noConfirm (by simp [hs]) (by simp [hs])
  have hl1 := hl.toConfirming hs ho hq
  unfold Machine.enterConfirming
  refine UnitLaws.askTag ?_ k _ ?_ ?_ ?_
  · exact h.lane (by simp [hs]) hl1 (Or.inr (h.lanes.noControl (by simp [hs]))) rfl rfl rfl rfl rfl rfl
  · simp
  · simp
  · rw [lane_setLane_same]
    exact hl1.askingDestOf (Or.inl rfl) ho hc

theorem UnitLaws.writeSegment {s t : State} (h : UnitLaws s) (k : LaneNo) (e : writeSegment k s = some t) :
    UnitLaws t ∧ (t.lane k).state = (s.lane k).state ∧ (t.lane k).outstanding = (s.lane k).outstanding ∧
      (t.lane k).confirmTag = (s.lane k).confirmTag ∧ (t.lane k).srcPort = (s.lane k).srcPort := by
  unfold Machine.writeSegment at e
  dsimp only at e
  split at e
  · rename_i n bytes hf
    cases e
    have hm := List.mem_of_find?_eq_some hf
    have hn := List.find?_some hf
    simp only [Bool.and_eq_true, beq_iff_eq] at hn
    obtain ⟨rfl, _⟩ := hn
    have hl := h.lanes.lawful k
    have fr := Frame.issueWrite (s.lane k).dstPort
      { addr := (s.lane k).dstAddr +
          BitVec.ofNat 64 (Config.segmentSize * ((s.lane k).written / Config.segmentSize))
        bytes := bytes, lane := some k } s
    have hbuf : (s.lane k).buffer ≠ [] := List.ne_nil_of_mem hm
    have hi : (s.lane k).state ≠ .idle := fun a => hbuf (by rw [hl.idle a]; rfl)
    have hn : (s.lane k).state ≠ .loading := fun a => hbuf (hl.loading a).2.1
    refine ⟨UnitLaws.lane (fr.laws h) ?_ (hl.writtenOf hm) (Or.inr ?_) ?_ ?_ ?_ ?_ ?_ ?_, ?_⟩
    · rw [fr.lane]; exact hi
    · rw [fr.controlReads]; exact h.lanes.noControl hn
    all_goals simp [fr.lane]
  · simp at e

theorem UnitLaws.writeSegments {s : State} (h : UnitLaws s) (k : LaneNo) (fuel : Nat) :
    UnitLaws (writeSegments k fuel s) ∧ ((writeSegments k fuel s).lane k).state = (s.lane k).state ∧
      ((writeSegments k fuel s).lane k).outstanding = (s.lane k).outstanding ∧
      ((writeSegments k fuel s).lane k).confirmTag = (s.lane k).confirmTag ∧
      ((writeSegments k fuel s).lane k).srcPort = (s.lane k).srcPort := by
  induction fuel generalizing s with
  | zero => exact ⟨h, rfl, rfl, rfl, rfl⟩
  | succ n ih =>
    unfold Machine.writeSegments
    split
    · rename_i t e
      obtain ⟨h1, e1, e2, e3, e4⟩ := h.writeSegment k e
      obtain ⟨g1, f1, f2, f3, f4⟩ := ih h1
      exact ⟨g1, f1.trans e1, f2.trans e2, f3.trans e3, f4.trans e4⟩
    · exact ⟨h, rfl, rfl, rfl, rfl⟩

/-! ## Windows -/

/-- The two states agree in everything but the windows. -/
structure WinFrame (s t : State) : Prop where
  bridge : t.bridge = s.bridge
  scanner : t.scanner = s.scanner
  reader : t.reader = s.reader
  settings : t.settings = s.settings
  lanes : t.lanes = s.lanes
  tagsA : t.portA.tags = s.portA.tags
  tagsB : t.portB.tags = s.portB.tags
  controlQueue : t.controlQueue = s.controlQueue
  calendar : t.calendar = s.calendar
  ready : t.ready = s.ready
  errands : t.errands = s.errands
  cadences : t.cadences = s.cadences

namespace WinFrame

theorem refl (s : State) : WinFrame s s :=
  ⟨rfl, rfl, rfl, rfl, rfl, rfl, rfl, rfl, rfl, rfl, rfl, rfl⟩

theorem trans {s t u : State} (h : WinFrame s t) (g : WinFrame t u) : WinFrame s u :=
  ⟨g.bridge.trans h.bridge, g.scanner.trans h.scanner, g.reader.trans h.reader,
    g.settings.trans h.settings, g.lanes.trans h.lanes, g.tagsA.trans h.tagsA,
    g.tagsB.trans h.tagsB, g.controlQueue.trans h.controlQueue,
    g.calendar.trans h.calendar, g.ready.trans h.ready, g.errands.trans h.errands,
    g.cadences.trans h.cadences⟩

theorem setWin (n : WinNo) (e : WinEntry) (s : State) : WinFrame s (setWin n e s) := { refl s with }

theorem issueWrite (p : Domain) (w : PostedWrite) (s : State) : WinFrame s (issueWrite p w s) := by
  unfold Machine.issueWrite
  split
  · exact refl s
  · cases p <;> exact { refl s with }

theorem recordWrite (r : Record) (offset size value : Nat) (s : State) :
    WinFrame s (recordWrite r offset size value s) := by
  unfold Machine.recordWrite areaWrite
  exact issueWrite _ _ _

theorem raise (c : Cause) (s : State) : WinFrame s (raise c s) := by
  unfold Machine.raise
  split <;> exact { refl s with }

/-- With the windows of the second in the first, the unit laws read the same. -/
theorem frame {s t : State} (h : WinFrame s t) : Frame { s with windows := t.windows } t :=
  ⟨h.bridge, h.scanner, h.reader, h.settings, h.lanes, h.tagsA, h.tagsB, h.controlQueue, rfl,
    h.calendar, h.ready, h.errands, fun n => by
      have e : t.cad n = s.cad n := by simp only [State.cad, h.cadences]
      rw [e]; exact ⟨rfl, rfl⟩⟩

theorem lane {s t : State} (h : WinFrame s t) (k : LaneNo) : t.lane k = s.lane k := h.frame.lane k

theorem placed {s t : State} (h : WinFrame s t) {n : CadNo} (g : CadencePlaced s n) : CadencePlaced t n :=
  h.frame.placed ⟨g.admitted, g.calendar, g.service, g.closing, g.lanes, g.drains⟩

theorem laneLaw {s t : State} (h : WinFrame s t) (g : LaneLaw s) : LaneLaw t :=
  h.frame.laneLaw ⟨g.lawful, g.recorded, g.waits, g.control, g.progress⟩

theorem errandLaneLaw {s t : State} (h : WinFrame s t) (g : ErrandLaneLaw s) : ErrandLaneLaw t :=
  h.frame.errandLaneLaw g

theorem restLaw {s t : State} (h : WinFrame s t) (g : RestLaw s) : RestLaw t :=
  h.frame.restLaw ⟨g.loads, g.rest, g.loading⟩

theorem laws {s t : State} (h : WinFrame s t) (g : UnitLaws s) (hw : WindowLaw t) : UnitLaws t :=
  ⟨fun n => h.placed (g.cadences n), hw, h.laneLaw g.lanes, h.errandLaneLaw g.errandLanes,
    h.restLaw g.rest⟩

end WinFrame

/-- The windows' law with holds on the windows that no lane has (yet, or any more). -/
def WindowsWith (extra : WinNo → Nat) (s : State) : Prop :=
  ∀ n, (s.win n).useCount = windowHolds s n + extra n ∧
    ((s.win n).state = .closed → (s.win n).useCount = 0) ∧
    ((s.win n).state = .closing → 0 < (s.win n).useCount)

theorem raise_win (c : Cause) (s : State) (n : WinNo) : (raise c s).win n = s.win n :=
  (Frame.raise c s).win n

theorem recordWrite_win (r : Record) (offset size value : Nat) (s : State) (n : WinNo) :
    (recordWrite r offset size value s).win n = s.win n := (Frame.recordWrite r offset size value s).win n

theorem setWinState_win (n : WinNo) (e : WinEntry) (s : State) (m : WinNo) :
    (setWinState n e s).win m = if n = m then e else s.win m := by
  unfold setWinState
  rw [recordWrite_win]
  split
  · rename_i h; subst h; simp
  · rename_i h; exact win_setWin_ne h e s

theorem WinFrame.setWinState (n : WinNo) (e : WinEntry) (s : State) : WinFrame s (setWinState n e s) :=
  (WinFrame.setWin n e s).trans (WinFrame.recordWrite _ _ _ _ _)

theorem WinFrame.drainWindow (n : WinNo) (s : State) : WinFrame s (drainWindow n s) := by
  unfold Machine.drainWindow
  dsimp only
  split
  · exact ((WinFrame.setWinState _ _ s).trans (WinFrame.recordWrite _ _ _ _ _)).trans
      (WinFrame.raise _ _)
  · exact (WinFrame.setWinState _ _ s).trans (WinFrame.recordWrite _ _ _ _ _)

theorem WinFrame.releaseWindow (n : WinNo) (s : State) : WinFrame s (releaseWindow n s) := by
  unfold Machine.releaseWindow
  dsimp only
  split
  · exact (WinFrame.setWin _ _ s).trans (WinFrame.drainWindow _ _)
  · exact WinFrame.setWin _ _ s

theorem WinFrame.releaseWindows (l : List WinNo) (s : State) : WinFrame s (releaseWindows l s) := by
  induction l generalizing s with
  | nil => exact WinFrame.refl s
  | cons n l ih => exact (WinFrame.releaseWindow n s).trans (ih _)

theorem WinFrame.holdWindows (l : List WinNo) (s : State) : WinFrame s (holdWindows l s) := by
  induction l generalizing s with
  | nil => exact WinFrame.refl s
  | cons n l ih => exact (WinFrame.setWin n _ s).trans (ih _)

/-- What one release leaves in the windows. -/
theorem releaseWindow_win (n m : WinNo) (s : State) :
    (releaseWindow n s).win m =
      if n = m then
        if (s.win n).state = .closing ∧ (s.win n).useCount = 1 then ⟨.closed, none, 0, false⟩
        else { s.win n with useCount := (s.win n).useCount - 1 }
      else s.win m := by
  unfold releaseWindow drainWindow
  dsimp only
  by_cases hd : (s.win n).state = .closing ∧ (s.win n).useCount = 1
  · have hd' : drains (s.win n) = true := by simp [drains, hd.1, hd.2]
    rw [if_pos hd']
    have key : ∀ u : State,
        (if (setWin n { s.win n with useCount := (s.win n).useCount - 1 } s).win n |>.closeNotify
          then raise .commandDone u else u).win m = u.win m := by
      intro u; split <;> simp [raise_win]
    rw [key, recordWrite_win, setWinState_win]
    by_cases e : n = m
    · subst e; simp [hd.1, hd.2]
    · simp [e, win_setWin_ne e]
  · have hd' : drains (s.win n) = false := by
      simp only [drains, Bool.and_eq_false_iff, beq_eq_false_iff_ne]
      by_cases a : (s.win n).state = .closing
      · exact Or.inr fun b => hd ⟨a, b⟩
      · exact Or.inl a
    rw [hd', if_neg (by simp), if_neg hd]
    by_cases e : n = m
    · subst e; simp
    · simp [e, win_setWin_ne e]

theorem WinFrame.windowHolds {s t : State} (h : WinFrame s t) (n : WinNo) :
    windowHolds t n = windowHolds s n := by
  unfold Machine.windowHolds
  rw [h.lanes]

theorem WindowsWith.releaseWindow {s : State} {extra : WinNo → Nat} {n : WinNo}
    (h : WindowsWith (fun m => [n].count m + extra m) s) :
    WindowsWith extra (releaseWindow n s) := by
  intro m
  rw [releaseWindow_win, (WinFrame.releaseWindow n s).windowHolds]
  have g := h m
  by_cases e : n = m
  · subst e
    simp only [if_true, List.count_singleton_self] at *
    split
    · rename_i a
      simp [a.2] at g ⊢
      omega
    · rename_i a
      simp only at *
      refine ⟨by omega, fun b => ?_, fun b => ?_⟩
      · have := g.2.1 b; omega
      · have : ¬(s.win n).useCount = 1 := fun c => a ⟨b, c⟩
        omega
  · have e' : ¬m = n := fun a => e a.symm
    simp only [e, if_false, List.count_singleton, beq_iff_eq] at *
    simpa [e'] using g

theorem WindowsWith.releaseWindows {s : State} {extra : WinNo → Nat} {l : List WinNo}
    (h : WindowsWith (fun m => l.count m + extra m) s) : WindowsWith extra (releaseWindows l s) := by
  induction l generalizing s extra with
  | nil => simpa [WindowsWith, Machine.releaseWindows] using h
  | cons n l ih =>
    unfold Machine.releaseWindows
    refine ih (WindowsWith.releaseWindow ?_)
    intro m
    have := h m
    simp only [List.count_cons, List.count_nil] at *
    refine ⟨?_, this.2⟩
    omega

theorem WindowsWith.holdWindow {s : State} {extra : WinNo → Nat} {n : WinNo} (ho : (s.win n).state = .opened)
    (h : WindowsWith extra s) : WindowsWith (fun m => [n].count m + extra m) (holdWindow n s) := by
  intro m
  have hw : windowHolds (Machine.holdWindow n s) m = windowHolds s m := (WinFrame.setWin n _ s).windowHolds m
  rw [hw]
  unfold Machine.holdWindow
  have g := h m
  by_cases e : n = m
  · subst e
    rw [win_setWin_same]
    simp only [List.count_singleton_self, ho] at *
    exact ⟨by omega, by simp, by simp⟩
  · rw [win_setWin_ne e]
    have e' : ¬m = n := fun a => e a.symm
    simp only [List.count_singleton, beq_iff_eq]
    simpa [e, e'] using g

theorem WindowsWith.holdWindows {s : State} {extra : WinNo → Nat} {l : List WinNo}
    (ho : ∀ n ∈ l, (s.win n).state = .opened) (h : WindowsWith extra s) :
    WindowsWith (fun m => l.count m + extra m) (holdWindows l s) := by
  induction l generalizing s extra with
  | nil => simpa [WindowsWith, Machine.holdWindows] using h
  | cons n l ih =>
    unfold Machine.holdWindows
    have h1 := WindowsWith.holdWindow (ho n (by simp)) h
    have ho' : ∀ m ∈ l, ((Machine.holdWindow n s).win m).state = .opened := by
      intro m hm
      unfold Machine.holdWindow
      by_cases e : n = m
      · subst e; simpa using ho n (by simp)
      · rw [win_setWin_ne e]; exact ho m (List.mem_cons_of_mem _ hm)
    have h2 := ih ho' h1
    intro m
    have := h2 m
    simp only [List.count_cons, List.count_nil] at *
    refine ⟨?_, this.2⟩
    omega

theorem WindowLaw.with {s : State} (h : WindowLaw s) : WindowsWith (fun _ => 0) s := h.1

/-- A lane's holds move between the lane's record and the holds no lane has. -/
theorem WindowsWith.setLane {s : State} {extra extra' : WinNo → Nat} {k : LaneNo} {l : Lane}
    (h : WindowsWith extra s)
    (he : ∀ n, (s.lane k).held.count n + extra n = l.held.count n + extra' n) :
    WindowsWith extra' (setLane k l s) := by
  intro n
  have g := h n
  have e := windowHolds_setLane k l s n
  have := he n
  rw [win_setLane]
  exact ⟨by omega, g.2⟩

end Sys2Proof.Machine
end

