-- ==== Sys2Proof/Laws/UnitCadence.lean ====
section
/-! SUPPORT. The unit laws across a cadence's change of place, and the commands of the exchange area. -/

namespace Sys2Proof.Machine

/-! ## A cadence on its way between two places -/

/-- The unit laws with one cadence in no place. -/
structure LooseLaws (n : CadNo) (s : State) : Prop where
  others : ∀ m, m ≠ n → CadencePlaced s m
  calendar : s.calendar.count n = 0
  service : s.ready.count (.service n) = 0
  closing : s.ready.count (.closing n) = 0
  noLane : ∀ k, (s.lane k).job.cadence ≠ some n
  windows : WindowLaw s
  lanes : LaneLaw s
  errandLanes : ErrandLaneLaw s
  rest : RestLaw s

theorem Frame.loose {s t : State} (h : Frame s t) {n : CadNo} (g : LooseLaws n s) : LooseLaws n t :=
  ⟨fun m a => h.placed (g.others m a), by rw [h.calendar]; exact g.calendar,
    by rw [h.ready]; exact g.service, by rw [h.ready]; exact g.closing,
    fun k => by rw [h.lane]; exact g.noLane k, h.windowLaw g.windows, h.laneLaw g.lanes,
    h.errandLaneLaw g.errandLanes, h.restLaw g.rest⟩

/-- The two states agree in everything the unit laws read but the cadences, the calendar and the ready
queue. -/
theorem laneLaw_of_eq {s t : State} (h1 : t.lanes = s.lanes) (h2 : t.portA = s.portA)
    (h3 : t.portB = s.portB) (h4 : t.controlQueue = s.controlQueue) (h5 : t.errands = s.errands)
    (g : LaneLaw s) : LaneLaw t := by
  have e : ∀ k, t.lane k = s.lane k := fun k => by simp only [State.lane, h1]
  have et : ∀ p u, t.tag p u = s.tag p u := fun p u => by
    cases p
    · simp only [State.tag, State.port, h2]
    · simp only [State.tag, State.port, h3]
  constructor
  · intro k; rw [e]; exact g.lawful k
  · intro p u r timer a
    rw [et] at a
    have := g.recorded p u r timer a
    unfold readRecorded at *
    split <;> rename_i hr <;> rw [hr] at this
    · rw [e]; exact this
    · exact this
    · exact this
  · intro q hq k; rw [e]; rw [h4] at hq; exact g.waits q hq k
  · intro k
    have : controlReads t (.lane k) = controlReads s (.lane k) := by
      simp only [controlReads, h2, h4]
    rw [this]; exact g.control k
  · rw [h5]; exact g.progress

theorem LaneLaw.setCad {s : State} (h : LaneLaw s) (n : CadNo) (e : CadEntry) : LaneLaw (setCad n e s) :=
  laneLaw_of_eq (s := s) rfl rfl rfl rfl rfl h

theorem RestLaw.setCad {s : State} (h : RestLaw s) (n : CadNo) (e : CadEntry) : RestLaw (setCad n e s) :=
  ⟨h.loads, h.rest, h.loading⟩

theorem LooseLaws.setCad {s : State} {n : CadNo} (h : LooseLaws n s) (e : CadEntry) :
    LooseLaws n (setCad n e s) :=
  ⟨fun m a => by
      have g := h.others m a
      exact ⟨by rw [cad_setCad_ne (Ne.symm a)]; exact g.admitted,
        by rw [cad_setCad_ne (Ne.symm a)]; exact g.calendar,
        by rw [cad_setCad_ne (Ne.symm a)]; exact g.service,
        by rw [cad_setCad_ne (Ne.symm a)]; exact g.closing,
        fun k => by rw [cad_setCad_ne (Ne.symm a)]; exact g.lanes k,
        fun k => by rw [cad_setCad_ne (Ne.symm a)]; exact g.drains k⟩,
    h.calendar, h.service, h.closing, h.noLane, h.windows, h.lanes.setCad _ _, h.errandLanes,
    h.rest.setCad _ _⟩

theorem Job.cadence_service {j : Job} {n : CadNo} (h : j = .closing n) : j.cadence = some n := by
  subst h; rfl

/-- A cadence that stands at place NONE is settled where its state admits that. -/
theorem LooseLaws.atNone {s : State} {n : CadNo} (h : LooseLaws n s) (hp : (s.cad n).place = .none)
    (ha : placeAdmitted s.bridge (s.cad n)) : UnitLaws s := by
  refine ⟨fun m => ?_, h.windows, h.lanes, h.errandLanes, h.rest⟩
  by_cases e : m = n
  · subst e
    exact ⟨ha, by rw [hp, h.calendar]; simp, by rw [hp, h.service]; simp, by rw [hp, h.closing]; simp,
      fun k => by rw [hp]; exact ⟨fun a => absurd a (h.noLane k), fun a => by cases a⟩,
      fun k a => absurd (Job.cadence_service a) (h.noLane k)⟩
  · exact h.others m e

theorem readyInsert_count (s : State) (e x : ReadyEntry) (q : List ReadyEntry) :
    (readyInsert s e q).count x = q.count x + if e = x then 1 else 0 := by
  induction q with
  | nil => simp [readyInsert, List.count_cons, List.count_nil, beq_iff_eq]
  | cons m q ih =>
    unfold readyInsert
    split <;> simp only [List.count_cons, beq_iff_eq, ih] <;> omega

theorem calendarInsert_count (s : State) (n x : CadNo) (q : List CadNo) :
    (calendarInsert s n q).count x = q.count x + if n = x then 1 else 0 := by
  induction q with
  | nil => simp [calendarInsert, List.count_cons, List.count_nil, beq_iff_eq]
  | cons m q ih =>
    unfold calendarInsert
    split <;> simp only [List.count_cons, beq_iff_eq, ih] <;> omega

/-- A cadence at place READY is settled once its entry stands in the ready queue. -/
theorem LooseLaws.atReady {s : State} {n : CadNo} (h : LooseLaws n s) (hp : (s.cad n).place = .ready)
    (e : ReadyEntry)
    (he : e = .service n ∧ (s.cad n).state = .armed ∨ e = .closing n ∧ (s.cad n).state = .draining) :
    UnitLaws (readyJoin e s) := by
  refine ⟨fun m => ?_, h.windows, laneLaw_of_eq (s := s) rfl rfl rfl rfl rfl h.lanes, h.errandLanes,
    ⟨h.rest.loads, h.rest.rest, h.rest.loading⟩⟩
  by_cases a : m = n
  · subst a
    refine ⟨?_, ?_, ?_, ?_, ?_, ?_⟩
    · show placeAdmitted s.bridge (s.cad m)
      unfold placeAdmitted
      rcases he with ⟨_, b⟩ | ⟨_, b⟩ <;> simp [b, hp]
    · show s.calendar.count m = if (s.cad m).place = .calendar then 1 else 0
      rw [hp, h.calendar]; simp
    · show (readyInsert s e s.ready).count (.service m) =
        if (s.cad m).place = .ready ∧ (s.cad m).state = .armed then 1 else 0
      rw [readyInsert_count, h.service]
      rcases he with ⟨rfl, b⟩ | ⟨rfl, b⟩ <;> simp [b, hp]
    · show (readyInsert s e s.ready).count (.closing m) =
        if (s.cad m).place = .ready ∧ (s.cad m).state = .draining then 1 else 0
      rw [readyInsert_count, h.closing]
      rcases he with ⟨rfl, b⟩ | ⟨rfl, b⟩ <;> simp [b, hp]
    · intro k
      show (s.lane k).job.cadence = some m ↔ (s.cad m).place = .lane k
      rw [hp]; exact ⟨fun a => absurd a (h.noLane k), fun a => by cases a⟩
    · intro k b
      exact absurd (Job.cadence_service b) (h.noLane k)
  · have g := h.others m a
    have ne : ∀ x : ReadyEntry, x = .service m ∨ x = .closing m →
        (readyInsert s e s.ready).count x = s.ready.count x := by
      intro x hx
      rw [readyInsert_count]
      have : e ≠ x := by
        rintro rfl
        rcases he with ⟨b, _⟩ | ⟨b, _⟩ <;> rcases hx with c | c <;> rw [b] at c <;> cases c <;>
          exact a rfl
      simp [this]
    exact ⟨g.admitted, g.calendar, (ne _ (Or.inl rfl)).trans g.service,
      (ne _ (Or.inr rfl)).trans g.closing, g.lanes, g.drains⟩

/-- An ARMED cadence at place CALENDAR is settled once its entry stands in the calendar. -/
theorem LooseLaws.atCalendar {s : State} {n : CadNo} (h : LooseLaws n s) (hp : (s.cad n).place = .calendar)
    (ha : (s.cad n).state = .armed) :
    UnitLaws { s with calendar := calendarInsert s n s.calendar } := by
  refine ⟨fun m => ?_, h.windows, laneLaw_of_eq (s := s) rfl rfl rfl rfl rfl h.lanes, h.errandLanes,
    ⟨h.rest.loads, h.rest.rest, h.rest.loading⟩⟩
  by_cases a : m = n
  · subst a
    refine ⟨?_, ?_, ?_, ?_, ?_, ?_⟩
    · show placeAdmitted s.bridge (s.cad m)
      unfold placeAdmitted
      simp [ha, hp]
    · show (calendarInsert s m s.calendar).count m = if (s.cad m).place = .calendar then 1 else 0
      rw [calendarInsert_count, hp, h.calendar]; simp
    · show s.ready.count (.service m) =
        if (s.cad m).place = .ready ∧ (s.cad m).state = .armed then 1 else 0
      rw [hp, h.service]; simp
    · show s.ready.count (.closing m) =
        if (s.cad m).place = .ready ∧ (s.cad m).state = .draining then 1 else 0
      rw [hp, h.closing]; simp
    · intro k
      show (s.lane k).job.cadence = some m ↔ (s.cad m).place = .lane k
      rw [hp]; exact ⟨fun a => absurd a (h.noLane k), fun a => by cases a⟩
    · intro k b
      exact absurd (Job.cadence_service b) (h.noLane k)
  · have g := h.others m a
    refine ⟨g.admitted, ?_, g.service, g.closing, g.lanes, g.drains⟩
    show (calendarInsert s n s.calendar).count m = if (s.cad m).place = .calendar then 1 else 0
    rw [calendarInsert_count, if_neg (fun b => a b.symm)]
    exact g.calendar

theorem count_filter_ne {α : Type} [DecidableEq α] (l : List α) (a x : α) :
    (l.filter (fun m => m != a)).count x = if x = a then 0 else l.count x := by
  split
  · rename_i h
    subst h
    rw [List.count_eq_zero]
    simp
  · rename_i h
    exact List.count_filter (by simpa using h)

/-- A cadence taken off the calendar and out of the ready queue, from any place but a lane. -/
@[simp] theorem takeOff_cad (n m : CadNo) (s : State) : (takeOff n s).cad m = s.cad m := rfl

@[simp] theorem takeOff_bridge (n : CadNo) (s : State) : (takeOff n s).bridge = s.bridge := rfl

theorem UnitLaws.takeOff {s : State} (h : UnitLaws s) (n : CadNo) (hp : (s.cad n).place.isLane = false)
    (hd : (s.cad n).state ≠ .draining) : LooseLaws n (takeOff n s) := by
  have g := h.cadences n
  refine ⟨fun m a => ?_, ?_, ?_, ?_, ?_, h.windows, laneLaw_of_eq (s := s) rfl rfl rfl rfl rfl h.lanes,
    h.errandLanes, ⟨h.rest.loads, h.rest.rest, h.rest.loading⟩⟩
  · have g := h.cadences m
    refine ⟨g.admitted, ?_, ?_, ?_, g.lanes, g.drains⟩
    · show (s.calendar.filter (fun m => m != n)).count m = _
      rw [count_filter_ne, if_neg a]; exact g.calendar
    · show (s.ready.filter (fun e => e != .service n)).count (.service m) = _
      rw [count_filter_ne, if_neg (by simpa using a)]; exact g.service
    · show (s.ready.filter (fun e => e != .service n)).count (.closing m) = _
      rw [count_filter_ne, if_neg (by simp)]; exact g.closing
  · show (s.calendar.filter (fun m => m != n)).count n = 0
    rw [count_filter_ne, if_pos rfl]
  · show (s.ready.filter (fun e => e != .service n)).count (.service n) = 0
    rw [count_filter_ne, if_pos rfl]
  · show (s.ready.filter (fun e => e != .service n)).count (.closing n) = 0
    rw [count_filter_ne, if_neg (by simp), g.closing]
    simp [hd]
  · intro k a
    have := (g.lanes k).mp a
    rw [this] at hp
    cases hp

/-- A cadence in a lane stands in no queue to be taken off. -/
theorem UnitLaws.takeOff_lane {s : State} (h : UnitLaws s) (n : CadNo) (hp : (s.cad n).place.isLane = true) :
    UnitLaws (Machine.takeOff n s) := by
  have gn := h.cadences n
  have p1 : (s.cad n).place ≠ .calendar := fun a => by rw [a] at hp; cases hp
  have p2 : (s.cad n).place ≠ .ready := fun a => by rw [a] at hp; cases hp
  have c1 : s.calendar.count n = 0 := by rw [gn.calendar, if_neg p1]
  have c2 : s.ready.count (.service n) = 0 := by rw [gn.service, if_neg (fun a => p2 a.1)]
  refine ⟨fun m => ?_, h.windows, laneLaw_of_eq (s := s) rfl rfl rfl rfl rfl h.lanes, h.errandLanes,
    ⟨h.rest.loads, h.rest.rest, h.rest.loading⟩⟩
  have g := h.cadences m
  refine ⟨g.admitted, ?_, ?_, ?_, g.lanes, g.drains⟩
  · show (s.calendar.filter (fun m => m != n)).count m = if (s.cad m).place = .calendar then 1 else 0
    rw [← g.calendar, count_filter_ne]
    split
    · rename_i a; rw [a, c1]
    · rfl
  · show (s.ready.filter (fun e => e != .service n)).count (.service m) =
      if (s.cad m).place = .ready ∧ (s.cad m).state = .armed then 1 else 0
    rw [← g.service, count_filter_ne]
    split
    · rename_i a; cases a; rw [c2]
    · rfl
  · show (s.ready.filter (fun e => e != .service n)).count (.closing m) =
      if (s.cad m).place = .ready ∧ (s.cad m).state = .draining then 1 else 0
    rw [← g.closing, count_filter_ne, if_neg (by simp)]

/-- The calendar lets go of a cadence. -/
theorem UnitLaws.releaseEntry {s : State} (h : UnitLaws s) (n : CadNo) (hp : (s.cad n).place = .calendar) :
    UnitLaws (releaseEntry n s) := by
  have g := h.cadences n
  have ha : (s.cad n).state = .armed := by
    have := g.admitted
    unfold placeAdmitted at this
    cases e : (s.cad n).state <;> rw [e, hp] at this <;> simp [Place.isLane] at this ⊢
  have l1 : LooseLaws n (Machine.takeOff n s) := UnitLaws.takeOff h n (by rw [hp]; rfl) (by rw [ha]; simp)
  have hready : s.ready.filter (fun e => e != .service n) = s.ready := by
    rw [List.filter_eq_self]
    intro e he
    simp only [bne_iff_ne]
    rintro rfl
    have := g.service
    rw [hp] at this
    simp only [reduceCtorEq, false_and, if_false] at this
    exact List.count_eq_zero.mp this he
  have e : Machine.takeOff n s = { s with calendar := s.calendar.filter (fun m => m != n) } := by
    unfold Machine.takeOff
    rw [hready]
  rw [e] at l1
  unfold Machine.releaseEntry
  dsimp only
  refine LooseLaws.atReady (n := n) (l1.setCad _) ?_ _ (Or.inl ⟨rfl, ?_⟩)
  · simp
  · simpa using ha

/-- An ARMED cadence joins the calendar. -/
theorem LooseLaws.calendarJoin {s : State} {n : CadNo} (h : LooseLaws n s) (ha : (s.cad n).state = .armed) :
    UnitLaws (calendarJoin n s) := by
  have h1 : UnitLaws { Machine.setCad n { s.cad n with place := .calendar } s with
      calendar := calendarInsert (Machine.setCad n { s.cad n with place := .calendar } s) n s.calendar } :=
    (h.setCad _).atCalendar (by simp) (by simpa using ha)
  unfold Machine.calendarJoin
  dsimp only
  split
  · exact h1.releaseEntry n (by
      show ((Machine.setCad n { s.cad n with place := .calendar } s).cad n).place = .calendar
      simp)
  · exact h1

/-- The Cadence Unit places a cadence at the end of its job. -/
theorem LooseLaws.placeAtJobEnd {s : State} {n : CadNo} (h : LooseLaws n s) (u : Nat) :
    UnitLaws (placeAtJobEnd n u s) := by
  unfold Machine.placeAtJobEnd
  dsimp only
  split <;> rename_i e
  · exact (h.setCad _).calendarJoin (by simpa using e)
  · exact (h.setCad _).atReady (by simp) _ (Or.inr ⟨rfl, by simpa using e⟩)
  all_goals exact (h.setCad _).atNone (by simp) (by simp [placeAdmitted, e])

/-- A change of a cadence's entry that keeps its place, between states that the place admits alike. -/
theorem UnitLaws.setCad {s : State} (h : UnitLaws s) (n : CadNo) (e : CadEntry)
    (hp : e.place = (s.cad n).place) (ha : placeAdmitted s.bridge e)
    (hq : (s.cad n).place ≠ .ready ∨ e.state = (s.cad n).state)
    (hd : (s.cad n).state = .draining → e.state = .draining) : UnitLaws (setCad n e s) := by
  refine ⟨fun m => ?_, h.windows, h.lanes.setCad _ _, h.errandLanes, h.rest.setCad _ _⟩
  have g := h.cadences m
  by_cases a : n = m
  · subst a
    refine ⟨?_, ?_, ?_, ?_, ?_, ?_⟩
    · rw [cad_setCad_same]; exact ha
    · rw [cad_setCad_same, hp]; exact g.calendar
    · rw [cad_setCad_same, hp, setCad_ready, g.service]
      rcases hq with b | b
      · simp [b]
      · rw [b]
    · rw [cad_setCad_same, hp, setCad_ready, g.closing]
      rcases hq with b | b
      · simp [b]
      · rw [b]
    · intro k; rw [cad_setCad_same, hp]; exact g.lanes k
    · intro k b; rw [cad_setCad_same]; exact hd (g.drains k b)
  · rw [← Ne.eq_def] at a
    exact ⟨by rw [cad_setCad_ne a]; exact g.admitted, by rw [cad_setCad_ne a]; exact g.calendar,
      by rw [cad_setCad_ne a]; exact g.service, by rw [cad_setCad_ne a]; exact g.closing,
      fun k => by rw [cad_setCad_ne a]; exact g.lanes k,
      fun k => by rw [cad_setCad_ne a]; exact g.drains k⟩

theorem UnitLaws.setCadState {s : State} (h : UnitLaws s) (n : CadNo) (e : CadEntry)
    (hp : e.place = (s.cad n).place) (ha : placeAdmitted s.bridge e)
    (hq : (s.cad n).place ≠ .ready ∨ e.state = (s.cad n).state)
    (hd : (s.cad n).state = .draining → e.state = .draining) : UnitLaws (setCadState n e s) :=
  (Frame.recordWrite _ _ _ _ _).laws (h.setCad n e hp ha hq hd)

/-- A holding fault of a cadence in a lane. -/
theorem UnitLaws.holdingFault {s : State} (h : UnitLaws s) (code : FaultCode) (n : CadNo)
    (hp : (s.cad n).place.isLane = true) : UnitLaws (holdingFault code n s) := by
  unfold Machine.holdingFault
  dsimp only
  refine (Frame.reportFault _ _ _ _).laws ?_
  split
  · rename_i a
    refine h.setCadState n _ rfl ?_ (Or.inl fun b => by rw [b] at hp; cases hp) ?_
    · exact Or.inr hp
    · intro b; rcases a with a | a <;> rw [b] at a <;> cases a
  · exact h

/-! ## Commands of the exchange area -/

theorem UnitLaws.pauseCadence {s : State} (h : UnitLaws s) (n : CadNo)
    (ha : (s.cad n).state = .armed ∨ (s.cad n).state = .held) : UnitLaws (pauseCadence n s) := by
  have hd : (s.cad n).state ≠ .draining := by rcases ha with a | a <;> simp [a]
  unfold Machine.pauseCadence
  dsimp only
  by_cases hp : (s.cad n).place.isLane = true
  · rw [if_pos hp]
    refine (h.takeOff_lane n hp).setCadState n _ ?_ ?_ ?_ ?_
    · rw [takeOff_cad]
    · exact Or.inr hp
    · rw [takeOff_cad]; exact Or.inl fun b => by rw [b] at hp; cases hp
    · rw [takeOff_cad]; exact fun b => absurd b hd
  · rw [Bool.not_eq_true] at hp
    refine (Frame.recordWrite _ _ _ _ _).laws (((h.takeOff n hp hd).setCad _).atNone ?_ ?_)
    · simp [hp]
    · simp [placeAdmitted, hp]

theorem UnitLaws.loose_none {s : State} (h : UnitLaws s) (n : CadNo) (hp : (s.cad n).place = .none) :
    LooseLaws n s := by
  have g := h.cadences n
  have g1 := g.calendar
  have g2 := g.service
  have g3 := g.closing
  rw [hp] at g1 g2 g3
  refine ⟨fun m _ => h.cadences m, by simpa using g1, by simpa using g2, by simpa using g3, fun k a => ?_,
    h.windows, h.lanes, h.errandLanes, h.rest⟩
  have := (g.lanes k).mp a
  rw [hp] at this
  cases this

theorem UnitLaws.resumeCadence {s : State} (h : UnitLaws s) (n : CadNo)
    (ha : (s.cad n).state = .paused ∨ (s.cad n).state = .held) : UnitLaws (resumeCadence n s) := by
  have hd : (s.cad n).state ≠ .draining := by rcases ha with a | a <;> simp [a]
  unfold Machine.resumeCadence
  dsimp only
  split
  · rename_i hp
    refine h.setCadState n _ rfl ?_ ?_ ?_
    · exact fun b => by have b : (s.cad n).place = .none := b; rw [b] at hp; cases hp
    · exact Or.inl fun b => by rw [b] at hp; cases hp
    · exact fun b => absurd b hd
  · rename_i hp
    have hn : (s.cad n).place = .none := by
      have := (h.cadences n).admitted
      unfold placeAdmitted at this
      rcases ha with a | a <;> rw [a] at this <;> exact this.resolve_right hp
    exact (Frame.recordWrite _ _ _ _ _).laws (((h.loose_none n hn).setCad _).calendarJoin (by simp))

theorem UnitLaws.retireCadence {s : State} (h : UnitLaws s) (n : CadNo) (d : Delivery)
    (hd : (s.cad n).state ≠ .draining) : UnitLaws (retireCadence n d s) := by
  unfold Machine.retireCadence
  dsimp only
  split
  · rename_i hp
    refine (Frame.answerCommand _ _ _).laws ((h.takeOff_lane n hp).setCadState n _ ?_ ?_ ?_ ?_)
    · rw [takeOff_cad]
    · refine ⟨fun b => ?_, fun b => ?_⟩ <;> dsimp only at b <;> rw [b] at hp <;> cases hp
    · rw [takeOff_cad]; exact Or.inl fun b => by rw [b] at hp; cases hp
    · rw [takeOff_cad]; exact fun b => absurd b hd
  · rename_i hp
    rw [Bool.not_eq_true] at hp
    refine LooseLaws.atReady (n := n) ((Frame.answerCommand _ _ _).loose
      ((Frame.recordWrite _ _ _ _ _).loose ((h.takeOff n hp hd).setCad _))) ?_ _ (Or.inr ⟨rfl, ?_⟩)
    · rw [((Frame.answerCommand _ _ _).cads n).2, ((Frame.recordWrite _ _ _ _ _).cads n).2]
      simp
    · rw [((Frame.answerCommand _ _ _).cads n).1, ((Frame.recordWrite _ _ _ _ _).cads n).1]
      simp

theorem UnitLaws.takeArm {s : State} (h : UnitLaws s) (n : CadNo) (f : ArmFields) (d : Delivery) :
    UnitLaws (takeArm n f d s) := by
  unfold Machine.takeArm
  dsimp only
  split
  case h_5 e =>
    split
    · exact (Frame.answerCommand _ _ _).laws h
    · split
      · exact (Frame.answerCommand _ _ _).laws h
      · split
        · exact (Frame.answerCommand _ _ _).laws h
        · have hn : (s.cad n).place = .none := by
            have := (h.cadences n).admitted
            unfold placeAdmitted at this
            rw [e] at this
            exact this
          exact (Frame.answerCommand _ _ _).laws ((Frame.recordWrite _ _ _ _ _).laws
            (((h.loose_none n hn).setCad _).calendarJoin (by simp)))
  all_goals exact (Frame.answerCommand _ _ _).laws h

theorem UnitLaws.takePause {s : State} (h : UnitLaws s) (n : CadNo) (d : Delivery) :
    UnitLaws (takePause n d s) := by
  unfold Machine.takePause
  split
  case h_4 e => exact (Frame.answerCommand _ _ _).laws (h.pauseCadence n (Or.inl e))
  case h_5 e => exact (Frame.answerCommand _ _ _).laws (h.pauseCadence n (Or.inr e))
  all_goals exact (Frame.answerCommand _ _ _).laws h

theorem UnitLaws.takeResume {s : State} (h : UnitLaws s) (n : CadNo) (d : Delivery) :
    UnitLaws (takeResume n d s) := by
  unfold Machine.takeResume
  split
  case h_4 e => exact (Frame.answerCommand _ _ _).laws (h.resumeCadence n (Or.inl e))
  case h_5 e => exact (Frame.answerCommand _ _ _).laws (h.resumeCadence n (Or.inr e))
  all_goals exact (Frame.answerCommand _ _ _).laws h

theorem UnitLaws.takeRetire {s : State} (h : UnitLaws s) (n : CadNo) (d : Delivery) :
    UnitLaws (takeRetire n d s) := by
  unfold Machine.takeRetire
  split
  case h_3 e => exact h.retireCadence n d (by rw [e]; simp)
  case h_4 e => exact h.retireCadence n d (by rw [e]; simp)
  case h_5 e => exact h.retireCadence n d (by rw [e]; simp)
  all_goals exact (Frame.answerCommand _ _ _).laws h

/-- A window's entry changes, its use count being kept. -/
theorem UnitLaws.setWinState {s : State} (h : UnitLaws s) (n : WinNo) (e : WinEntry)
    (h1 : e.useCount = (s.win n).useCount) (h2 : e.state = .closed → e.useCount = 0)
    (h3 : e.state = .closing → 0 < e.useCount) : UnitLaws (setWinState n e s) := by
  refine (WinFrame.setWinState n e s).laws h ⟨fun m => ?_, fun k => ?_⟩
  · rw [setWinState_win, (WinFrame.setWinState n e s).windowHolds]
    split
    · rename_i a
      subst a
      exact ⟨h1.trans (h.windows.1 n).1, h2, h3⟩
    · exact h.windows.1 m
  · have : (Machine.setWinState n e s).lane k = s.lane k := by
      simp only [State.lane, (WinFrame.setWinState n e s).lanes]
    rw [this]; exact h.windows.2 k

theorem UnitLaws.takeOpen {s : State} (h : UnitLaws s) (n : WinNo) (f : OpenFields) (d : Delivery) :
    UnitLaws (takeOpen n f d s) := by
  unfold Machine.takeOpen
  split
  · exact (Frame.answerCommand _ _ _).laws h
  · exact (Frame.answerCommand _ _ _).laws h
  · rename_i e
    split
    · exact (Frame.answerCommand _ _ _).laws h
    · refine (Frame.answerCommand _ _ _).laws (h.setWinState n _ ?_ (by simp) (by simp))
      exact ((h.windows.1 n).2.1 e).symm

theorem UnitLaws.takeClose {s : State} (h : UnitLaws s) (n : WinNo) (d : Delivery) :
    UnitLaws (takeClose n d s) := by
  unfold Machine.takeClose
  split
  · exact (Frame.answerCommand _ _ _).laws h
  · exact (Frame.answerCommand _ _ _).laws h
  · split
    · rename_i e
      exact (Frame.answerCommand _ _ _).laws (h.setWinState n _ rfl (fun _ => e) (by simp))
    · rename_i e
      exact (Frame.answerCommand _ _ _).laws (h.setWinState n _ rfl (by simp) (fun _ => Nat.pos_of_ne_zero e))

theorem UnitLaws.takeCadenceCommand {s : State} (h : UnitLaws s) (n : CadNo) (d : Delivery) :
    UnitLaws (takeCadenceCommand n d s) := by
  unfold Machine.takeCadenceCommand
  split
  · exact h.takeArm _ _ d
  · exact h.takePause _ d
  · exact h.takeResume _ d
  · exact h.takeRetire _ d
  · unfold takeUnknownCadence; split <;> exact (Frame.answerCommand _ _ _).laws h

theorem UnitLaws.takeCommand {s : State} (h : UnitLaws s) (d : Delivery) : UnitLaws (takeCommand d s) := by
  unfold Machine.takeCommand
  split
  · split
    · exact h.takeOpen _ _ d
    · exact h.takeClose _ d
    · unfold takeUnknownWindow; split <;> exact (Frame.answerCommand _ _ _).laws h
  · exact h.takeCadenceCommand _ d

end Sys2Proof.Machine
end

