-- ==== Sys2Proof/Laws/Between.lean ====
section
/-! SUPPORT. What a command taken between a holding fault and the end of the job can do (R23, R25; log 37):
the lanes, the ports' reads and the gate stay, the calendar gets nothing that is due, the ready queue gets
nothing for a cadence in a lane, and the unit laws are kept. -/

namespace Sys2Proof.Machine

/-! ## The command that waits -/

theorem undecided_iff (d : Delivery) (s : State) : undecided d s = true ↔ s.ack d.record ≠ some d.seq := by
  unfold undecided
  exact bne_iff_ne

/-- The command that waits for a cadence is the one handed over for it and not yet decided. -/
theorem waitingCommand_iff (n : CadNo) (d : Delivery) (s : State) :
    waitingCommand n s = some d ↔
      s.scanner = .delivered d ∧ d.record = .cadence n ∧ s.ack d.record ≠ some d.seq := by
  unfold waitingCommand
  split
  · rename_i e hs
    rw [hs]
    split
    · rename_i a
      constructor
      · rintro ⟨⟩
        exact ⟨rfl, a.1, (undecided_iff _ _).mp a.2⟩
      · rintro ⟨⟨⟩, -⟩
        rfl
    · rename_i a
      constructor
      · rintro ⟨⟩
      · rintro ⟨⟨⟩, b, c⟩
        exact absurd ⟨b, (undecided_iff _ _).mpr c⟩ a
  · rename_i hs
    constructor
    · rintro ⟨⟩
    · rintro ⟨a, -⟩
      exact absurd a (hs d)

/-- Where no command waits for the cadence, none is taken. -/
theorem takeBetween_none {n : CadNo} {s : State} (h : waitingCommand n s = none) : takeBetween n s = s := by
  unfold takeBetween
  rw [h]

/-- A command that waits is taken where the digit of `choice` is 1. -/
theorem takeBetween_some {n : CadNo} {s : State} {d : Delivery} (h : waitingCommand n s = some d) :
    takeBetween n s =
      if s.choice % 2 = 1 then takeCadenceCommand n d { s with choice := s.choice / 2 }
      else { s with choice := s.choice / 2 } := by
  unfold takeBetween
  rw [h]

/-! ## What stays -/

/-- From `s` to `t` the lanes, the control reads of Port A, the gate and the tick count stand as they were. -/
structure Aside (s t : State) : Prop where
  lanes : t.lanes = s.lanes
  tagsA : t.portA.tags = s.portA.tags
  controlQueue : t.controlQueue = s.controlQueue
  gate : t.gate = s.gate
  tick : t.tick = s.tick

namespace Aside

theorem refl (s : State) : Aside s s := ⟨rfl, rfl, rfl, rfl, rfl⟩

theorem trans {s t u : State} (h : Aside s t) (g : Aside t u) : Aside s u :=
  ⟨g.lanes.trans h.lanes, g.tagsA.trans h.tagsA, g.controlQueue.trans h.controlQueue, g.gate.trans h.gate,
    g.tick.trans h.tick⟩

theorem lane {s t : State} (h : Aside s t) (k : LaneNo) : t.lane k = s.lane k := by
  simp only [State.lane, h.lanes]

theorem controlReads {s t : State} (h : Aside s t) (who : Requester) :
    controlReads t who = controlReads s who := by
  simp only [Machine.controlReads, Port.tagList, h.tagsA, h.controlQueue]

theorem setCad (n : CadNo) (e : CadEntry) (s : State) : Aside s (setCad n e s) := ⟨rfl, rfl, rfl, rfl, rfl⟩

theorem ready (x : List ReadyEntry) (s : State) : Aside s { s with ready := x } := ⟨rfl, rfl, rfl, rfl, rfl⟩

theorem calendar (x : List CadNo) (s : State) : Aside s { s with calendar := x } := ⟨rfl, rfl, rfl, rfl, rfl⟩

theorem recordWrite (r : Record) (offset size value : Nat) (s : State) :
    Aside s (recordWrite r offset size value s) := by
  unfold Machine.recordWrite areaWrite issueWrite
  split <;> exact ⟨rfl, rfl, rfl, rfl, rfl⟩

theorem raise (c : Cause) (s : State) : Aside s (raise c s) := by
  unfold Machine.raise
  split <;> exact ⟨rfl, rfl, rfl, rfl, rfl⟩

theorem reportFault (code : FaultCode) (kind : ObjectKind) (number : Nat) (s : State) :
    Aside s (reportFault code kind number s) := by
  refine trans ?_ (raise _ _)
  unfold recordFault
  split <;> exact ⟨rfl, rfl, rfl, rfl, rfl⟩

theorem holdingFault (code : FaultCode) (n : CadNo) (s : State) : Aside s (holdingFault code n s) := by
  unfold Machine.holdingFault setCadState
  dsimp only
  refine trans ?_ (reportFault _ _ _ _)
  split
  · exact (setCad _ _ s).trans (recordWrite _ _ _ _ _)
  · exact refl s

theorem answerCommand (d : Delivery) (result : Result) (s : State) : Aside s (answerCommand d result s) := by
  have h0 : Aside s (setAck d.record d.seq s) := by
    cases d.record <;> exact ⟨rfl, rfl, rfl, rfl, rfl⟩
  unfold Machine.answerCommand
  dsimp only
  split
  · exact ((h0.trans (recordWrite _ _ _ _ _)).trans (recordWrite _ _ _ _ _)).trans (raise _ _)
  · exact (h0.trans (recordWrite _ _ _ _ _)).trans (recordWrite _ _ _ _ _)

theorem calendarJoin (n : CadNo) (s : State) : Aside s (calendarJoin n s) := by
  unfold Machine.calendarJoin
  dsimp only
  split <;> exact ⟨rfl, rfl, rfl, rfl, rfl⟩

theorem takeOff (n : CadNo) (s : State) : Aside s (takeOff n s) := ⟨rfl, rfl, rfl, rfl, rfl⟩

theorem takeCadenceCommand (n : CadNo) (d : Delivery) (s : State) :
    Aside s (takeCadenceCommand n d s) := by
  unfold Machine.takeCadenceCommand
  split
  · unfold takeArm
    dsimp only
    split
    case h_5 =>
      split
      · exact answerCommand _ _ s
      · split
        · exact answerCommand _ _ s
        · split
          · exact answerCommand _ _ s
          · exact (((setCad _ _ s).trans (calendarJoin _ _)).trans (recordWrite _ _ _ _ _)).trans
              (answerCommand _ _ _)
    all_goals exact answerCommand _ _ s
  · unfold takePause
    split
    case h_4 | h_5 =>
      exact (((takeOff n s).trans (setCad _ _ _)).trans (recordWrite _ _ _ _ _)).trans (answerCommand _ _ _)
    all_goals exact answerCommand _ _ s
  · have h : Aside s (resumeCadence n s) := by
      unfold resumeCadence
      dsimp only
      split
      · exact (setCad _ _ s).trans (recordWrite _ _ _ _ _)
      · exact ((setCad _ _ s).trans (calendarJoin _ _)).trans (recordWrite _ _ _ _ _)
    unfold takeResume
    split
    case h_4 | h_5 => exact h.trans (answerCommand _ _ _)
    all_goals exact answerCommand _ _ s
  · have h : Aside s (retireCadence n d s) := by
      unfold retireCadence
      dsimp only
      split
      · exact (((takeOff n s).trans (setCad _ _ _)).trans (recordWrite _ _ _ _ _)).trans
          (answerCommand _ _ _)
      · exact ((((takeOff n s).trans (setCad _ _ _)).trans (recordWrite _ _ _ _ _)).trans
          (answerCommand _ _ _)).trans (ready _ _)
    unfold takeRetire
    split
    case h_3 | h_4 | h_5 => exact h
    all_goals exact answerCommand _ _ s
  · unfold takeUnknownCadence
    split <;> exact answerCommand _ _ s

theorem withChoice (c : Nat) (s : State) : Aside s { s with choice := c } := ⟨rfl, rfl, rfl, rfl, rfl⟩

theorem takeBetween (n : CadNo) (s : State) : Aside s (takeBetween n s) := by
  unfold Machine.takeBetween
  split
  · exact refl s
  · dsimp only
    split
    · exact (withChoice _ s).trans (takeCadenceCommand _ _ _)
    · exact withChoice _ s

end Aside

/-! ## The unit laws -/

theorem UnitLaws.withChoice {s : State} (h : UnitLaws s) (c : Nat) : UnitLaws { s with choice := c } :=
  Frame.laws (s := s) { Frame.refl s with } h

theorem UnitLaws.takeBetween {s : State} (h : UnitLaws s) (n : CadNo) : UnitLaws (takeBetween n s) := by
  unfold Machine.takeBetween
  split
  · exact h
  · dsimp only
    split
    · exact (h.withChoice _).takeCadenceCommand n _
    · exact h.withChoice _

/-- A cadence in a lane stays in it. -/
theorem UnitLaws.takeBetween_place {s : State} (h : UnitLaws s) {n : CadNo} {k : LaneNo}
    (hp : (s.cad n).place = .lane k) : ((Machine.takeBetween n s).cad n).place = .lane k := by
  rw [← ((h.takeBetween n).cadences n).lanes k, (Aside.takeBetween n s).lane, (h.cadences n).lanes k]
  exact hp

end Sys2Proof.Machine
end

