-- ==== Sys2Proof/Laws/UnitLeaving.lean ====
section
/-! SUPPORT. The unit laws across a control request, and a job's leaving of its lane. -/

namespace Sys2Proof.Machine

/-! ## Control requests -/

/-- A control requester joins the list: a lane in LOADING with no control read, or anyone while lanes
work. -/
theorem UnitLaws.joinQueue {s : State} (h : UnitLaws s) (q : ControlRequest) (ha : Active s)
    (hq : ∀ k, q.requester = .lane k → (s.lane k).state = .loading ∧ controlReads s (.lane k) = 0) :
    UnitLaws { s with controlQueue := s.controlQueue ++ [q] } := by
  refine ⟨fun n => ?_, h.windows, ⟨h.lanes.lawful, h.lanes.recorded, ?_, ?_, h.lanes.progress⟩,
    h.errandLanes, RestLaw.ofActive ha (h.rest.notLoads ha)⟩
  · have g := h.cadences n
    exact ⟨g.admitted, g.calendar, g.service, g.closing, g.lanes, g.drains⟩
  · intro r hr k a
    rcases List.mem_append.mp hr with b | b
    · exact h.lanes.waits r b k a
    · rw [List.mem_singleton] at b
      subst b
      exact (hq k a).1
  · intro k
    have e : controlReads { s with controlQueue := s.controlQueue ++ [q] } (.lane k) =
        controlReads s (.lane k) + if q.requester = .lane k then 1 else 0 := by
      simp only [controlReads, List.countP_append, List.countP_cons, List.countP_nil, beq_iff_eq]
      omega
    rw [e]
    split
    · rename_i a; have := (hq k a).2; omega
    · exact h.lanes.control k

theorem UnitLaws.requestControl {s : State} (h : UnitLaws s) (who : Requester) (addr : Addr) (length : Nat)
    (ha : Active s)
    (hq : ∀ k, who = .lane k → (s.lane k).state = .loading ∧ controlReads s (.lane k) = 0) :
    UnitLaws (requestControl who addr length s) :=
  UnitLaws.arbitrate .a (h.joinQueue _ ha hq)

/-! ## A job leaves its lane -/

/-- The unit laws with the cadence of a lane's job in no other place, wherever its entry says it stands. -/
structure LeavingLaws (n : CadNo) (k : LaneNo) (s : State) : Prop where
  others : ∀ m, m ≠ n → CadencePlaced s m
  calendar : s.calendar.count n = 0
  service : s.ready.count (.service n) = 0
  closing : s.ready.count (.closing n) = 0
  lane : ∀ j, (s.lane j).job.cadence = some n → j = k
  windows : WindowLaw s
  lanes : LaneLaw s
  errandLanes : ErrandLaneLaw s
  rest : RestLaw s

theorem UnitLaws.leaving {s : State} (h : UnitLaws s) {n : CadNo} {k : LaneNo}
    (hp : (s.cad n).place = .lane k) : LeavingLaws n k s := by
  have g := h.cadences n
  have g1 := g.calendar
  have g2 := g.service
  have g3 := g.closing
  rw [hp] at g1 g2 g3
  refine ⟨fun m _ => h.cadences m, by simpa using g1, by simpa using g2, by simpa using g3, fun j a => ?_,
    h.windows, h.lanes, h.errandLanes, h.rest⟩
  have := (g.lanes j).mp a
  rw [hp] at this
  exact (Place.lane.inj this).symm

theorem Frame.leaving {s t : State} (h : Frame s t) {n : CadNo} {k : LaneNo} (g : LeavingLaws n k s) :
    LeavingLaws n k t :=
  ⟨fun m a => h.placed (g.others m a), by rw [h.calendar]; exact g.calendar,
    by rw [h.ready]; exact g.service, by rw [h.ready]; exact g.closing,
    fun j => by rw [h.lane]; exact g.lane j, h.windowLaw g.windows, h.laneLaw g.lanes,
    h.errandLaneLaw g.errandLanes, h.restLaw g.rest⟩

theorem LeavingLaws.setCad {s : State} {n : CadNo} {k : LaneNo} (h : LeavingLaws n k s) (e : CadEntry) :
    LeavingLaws n k (setCad n e s) :=
  ⟨fun m a => by
      have g := h.others m a
      exact ⟨by rw [cad_setCad_ne (Ne.symm a)]; exact g.admitted,
        by rw [cad_setCad_ne (Ne.symm a)]; exact g.calendar,
        by rw [cad_setCad_ne (Ne.symm a)]; exact g.service,
        by rw [cad_setCad_ne (Ne.symm a)]; exact g.closing,
        fun k => by rw [cad_setCad_ne (Ne.symm a)]; exact g.lanes k,
        fun k => by rw [cad_setCad_ne (Ne.symm a)]; exact g.drains k⟩,
    h.calendar, h.service, h.closing, h.lane, h.windows, h.lanes.setCad _ _, h.errandLanes,
    h.rest.setCad _ _⟩

theorem CadencePlaced.setLane {s : State} {n : CadNo} (g : CadencePlaced s n) {k : LaneNo} {l : Lane}
    (h1 : (s.lane k).job.cadence ≠ some n) (h2 : l.job.cadence ≠ some n) :
    CadencePlaced (setLane k l s) n := by
  refine ⟨g.admitted, g.calendar, g.service, g.closing, fun j => ?_, fun j a => ?_⟩
  · rw [cad_setLane, lane_setLane]
    split
    · rename_i e
      subst e
      exact ⟨fun a => absurd a h2, fun a => absurd ((g.lanes k).mpr a) h1⟩
    · exact g.lanes j
  · rw [lane_setLane] at a
    split at a
    · exact absurd (Job.cadence_service a) h2
    · exact g.drains j a

/-- A lane whose work is done takes another record. -/
theorem LaneLaw.replace {s : State} (h : LaneLaw s) {k : LaneNo} {l : Lane} (hl : l.Lawful)
    (h1 : (s.lane k).outstanding = []) (h2 : (s.lane k).confirmTag = none)
    (hc : l.state = .loading ∨ controlReads s (.lane k) = 0) : LaneLaw (Machine.setLane k l s) := by
  refine h.setLane hl hc ?_
  intro p t r timer _ _ hr g
  cases hrole : r.role with
  | control => exact absurd hrole hr
  | segment n => rw [hrole] at g; have := g.1; rw [h1] at this; cases this
  | confirming => rw [hrole] at g; have := g.1; rw [h2] at this; cases this

theorem RestLaw.setIdle {s : State} (h : RestLaw s) (k : LaneNo) : RestLaw (setLane k .idle s) := by
  have st : ∀ j, (s.lane j).state = .idle → ((Machine.setLane k .idle s).lane j).state = .idle := by
    intro j a
    rw [lane_setLane]
    split
    · rfl
    · exact a
  refine ⟨h.loads, fun a => ?_, fun a => ?_⟩
  · obtain ⟨b1, b2, b3, b4, b5⟩ := h.rest a
    exact ⟨b1, fun j => st j (b2 j), fun p t => by rw [tag_setLane]; exact b3 p t, b4, b5⟩
  · obtain ⟨b1, b2⟩ := h.loading a
    exact ⟨fun j => st j (b1 j), b2⟩

/-- A lane with nothing left to give back becomes IDLE. -/
theorem UnitLaws.setIdle {s : State} (h : UnitLaws s) (k : LaneNo) (hj : (s.lane k).job.cadence = none)
    (hh : (s.lane k).held = []) (h1 : (s.lane k).outstanding = []) (h2 : (s.lane k).confirmTag = none)
    (hc : controlReads s (.lane k) = 0) : UnitLaws (Machine.setLane k .idle s) := by
  refine ⟨fun n => (h.cadences n).setLane (by rw [hj]; simp) (by simp [Lane.idle, Job.cadence]),
    ⟨fun n => ?_, fun j => ?_⟩, h.lanes.replace .ofIdle h1 h2 (Or.inr hc), ?_, h.rest.setIdle k⟩
  · have e := windowHolds_setLane k .idle s n
    rw [hh] at e
    have e2 : windowHolds (Machine.setLane k .idle s) n = windowHolds s n := by
      simpa [Lane.idle] using e
    rw [e2]; exact h.windows.1 n
  · rw [lane_setLane]
    split
    · exact Nat.zero_le _
    · exact h.windows.2 j
  · have e := errandLaneCount_setLane k .idle s
    have g := h.errandLanes
    have x : Lane.idle.holdsErrand = false := rfl
    rw [x] at e
    unfold ErrandLaneLaw at *
    rw [hdr_setLane]
    simp at e
    omega

theorem setLane_raise (k : LaneNo) (l : Lane) (c : Cause) (s : State) :
    setLane k l (raise c s) = raise c (setLane k l s) := by
  unfold raise
  by_cases h : heldWrites s.portA = 0
  · rw [if_pos h, if_pos (by exact h)]; rfl
  · rw [if_neg h, if_neg (by exact h)]; rfl

theorem setLane_issueWrite (k : LaneNo) (l : Lane) (p : Domain) (w : PostedWrite) (s : State) :
    setLane k l (issueWrite p w s) = issueWrite p w (setLane k l s) := by
  unfold issueWrite
  by_cases h : p = .b ∧ s.linkUp = false
  · rw [if_pos h, if_pos (by exact h)]
  · rw [if_neg h, if_neg (by exact h)]
    cases p <;> rfl

theorem setLane_recordWrite (k : LaneNo) (l : Lane) (r : Record) (offset size value : Nat) (s : State) :
    setLane k l (recordWrite r offset size value s) = recordWrite r offset size value (setLane k l s) := by
  unfold recordWrite areaWrite
  rw [setLane_issueWrite]
  cases r <;> rfl

theorem setLane_setWinState (k : LaneNo) (l : Lane) (n : WinNo) (e : WinEntry) (s : State) :
    setLane k l (setWinState n e s) = setWinState n e (setLane k l s) := by
  unfold setWinState
  rw [setLane_recordWrite]
  rfl

theorem setLane_drainWindow (k : LaneNo) (l : Lane) (n : WinNo) (s : State) :
    setLane k l (drainWindow n s) = drainWindow n (setLane k l s) := by
  unfold drainWindow
  dsimp only
  rw [win_setLane]
  split
  · rw [setLane_raise, setLane_recordWrite, setLane_setWinState]
  · rw [setLane_recordWrite, setLane_setWinState]

theorem setLane_releaseWindow (k : LaneNo) (l : Lane) (n : WinNo) (s : State) :
    setLane k l (releaseWindow n s) = releaseWindow n (setLane k l s) := by
  unfold releaseWindow
  dsimp only
  rw [win_setLane]
  split
  · rw [setLane_drainWindow]; rfl
  · rfl

theorem setLane_releaseWindows (k : LaneNo) (l : Lane) (ws : List WinNo) (s : State) :
    setLane k l (releaseWindows ws s) = releaseWindows ws (setLane k l s) := by
  induction ws generalizing s with
  | nil => rfl
  | cons n ws ih =>
    unfold releaseWindows
    rw [ih, setLane_releaseWindow]

/-- The windows once a lane has given back all it held. -/
theorem WindowLaw.giveBack {s : State} (h : WindowLaw s) {k : LaneNo} {l : Lane} (hl : l.held = []) :
    WindowLaw (setLane k l (releaseWindows (s.lane k).held s)) := by
  rw [setLane_releaseWindows]
  have h1 : WindowsWith (fun n => (s.lane k).held.count n + 0) (Machine.setLane k l s) :=
    h.with.setLane fun n => by simp [hl]
  refine ⟨h1.releaseWindows, fun j => ?_⟩
  rw [(WinFrame.releaseWindows _ _).lane, lane_setLane]
  split
  · rw [hl]; exact Nat.zero_le _
  · exact h.2 j

/-- A lane gives back its windows and, where its job is a cadence's, the cadence. -/
theorem LeavingLaws.giveBack {s : State} {n : CadNo} {k : LaneNo} (h : LeavingLaws n k s)
    (hj : (s.lane k).job.cadence = some n) (hs : (s.lane k).state ≠ .idle) (hm : (s.lane k).state ≠ .moving)
    (h1 : (s.lane k).outstanding = []) (h2 : (s.lane k).confirmTag = none)
    (hc : controlReads s (.lane k) = 0) (ha : Active s) :
    LooseLaws n (setLane k (s.lane k).leaving (releaseWindows (s.lane k).held s)) := by
  have fr := WinFrame.releaseWindows (s.lane k).held s
  have hne : (s.lane k).holdsErrand = false := by
    unfold Lane.holdsErrand
    cases e : (s.lane k).job <;> simp [e, Job.cadence] at hj ⊢
  have hjob : (s.lane k).leaving.job = .none := by
    unfold Lane.leaving
    cases e : (s.lane k).job <;> simp [e, Job.cadence] at hj ⊢
  have le := fr.lane k
  have lall := fr.lane
  have rd : controlReads (releaseWindows (s.lane k).held s) (.lane k) = controlReads s (.lane k) := by
    simp only [controlReads, Port.tagList, fr.tagsA, fr.controlQueue]
  have ll := (fr.laneLaw h.lanes).replace (k := k) (l := (s.lane k).leaving)
    ((h.lanes.lawful k).leavingOf hs hm) (by rw [le]; exact h1) (by rw [le]; exact h2)
    (Or.inr (by rw [rd]; exact hc))
  refine ⟨fun m a => (fr.placed (h.others m a)).setLane ?_ ?_, ?_, ?_, ?_, fun j => ?_,
    h.windows.giveBack rfl, ll, ?_, ?_⟩
  · rw [le, hj]; exact fun b => a (Option.some.inj b).symm
  · rw [hjob]; simp [Job.cadence]
  · rw [setLane_calendar, fr.calendar]; exact h.calendar
  · rw [setLane_ready, fr.ready]; exact h.service
  · rw [setLane_ready, fr.ready]; exact h.closing
  · rw [lane_setLane]
    split
    · rw [hjob]; simp [Job.cadence]
    · rename_i a
      rw [lall]
      exact fun b => a (h.lane j b).symm
  · have e := errandLaneCount_setLane k (s.lane k).leaving (releaseWindows (s.lane k).held s)
    have g := fr.errandLaneLaw h.errandLanes
    have x : (s.lane k).leaving.holdsErrand = false := by unfold Lane.holdsErrand; rw [hjob]
    rw [le, hne, x] at e
    unfold ErrandLaneLaw at *
    rw [hdr_setLane]
    omega
  · refine RestLaw.ofActive ?_ ?_
    · unfold Active at *; rw [setLane_bridge, fr.bridge]; exact ha
    · rw [setLane_scanner, fr.scanner]; exact h.rest.notLoads ha

/-- A lane whose job is no cadence's gives back its windows. -/
theorem UnitLaws.giveBack {s : State} {k : LaneNo} {l : Lane} (h : UnitLaws s)
    (hj : l.job = (s.lane k).job) (hh : l.held = []) (hl : l.Lawful)
    (h1 : (s.lane k).outstanding = []) (h2 : (s.lane k).confirmTag = none)
    (hc : controlReads s (.lane k) = 0) (ha : Active s) (hn : (s.lane k).job.cadence = none) :
    UnitLaws (Machine.setLane k l (releaseWindows (s.lane k).held s)) := by
  have fr := WinFrame.releaseWindows (s.lane k).held s
  have le := fr.lane k
  have rd : controlReads (releaseWindows (s.lane k).held s) (.lane k) = controlReads s (.lane k) := by
    simp only [controlReads, Port.tagList, fr.tagsA, fr.controlQueue]
  have ll := (fr.laneLaw h.lanes).replace (k := k) hl (by rw [le]; exact h1) (by rw [le]; exact h2)
    (Or.inr (by rw [rd]; exact hc))
  refine ⟨fun m => (fr.placed (h.cadences m)).setLane ?_ ?_, h.windows.giveBack hh, ll, ?_, ?_⟩
  · rw [le, hn]; simp
  · rw [hj, hn]; simp
  · have e := errandLaneCount_setLane k l (releaseWindows (s.lane k).held s)
    have g := fr.errandLaneLaw h.errandLanes
    have x := holdsErrand_congr hj
    rw [le, x] at e
    unfold ErrandLaneLaw at *
    rw [hdr_setLane]
    omega
  · refine RestLaw.ofActive ?_ ?_
    · unfold Active at *; rw [setLane_bridge, fr.bridge]; exact ha
    · rw [setLane_scanner, fr.scanner]; exact h.rest.notLoads ha

end Sys2Proof.Machine
end

