-- ==== Sys2Proof/Laws/UnitAnswers.lean ====
section
/-! SUPPORT. The unit laws across parks, the answers to a lane's data reads, fills and a link-down. -/

namespace Sys2Proof.Machine

/-! ## Parking -/

theorem UnitLaws.errands {s : State} (h : UnitLaws s) (x : List Errand)
    (hx : ∀ e ∈ x, e.progress % Config.segmentSize = 0) : UnitLaws { s with errands := x } := by
  refine ⟨fun n => ?_, h.windows,
    ⟨h.lanes.lawful, h.lanes.recorded, h.lanes.waits, h.lanes.control, hx⟩, h.errandLanes,
    ⟨h.rest.loads, h.rest.rest, h.rest.loading⟩⟩
  have g := h.cadences n
  exact ⟨g.admitted, g.calendar, g.service, g.closing, g.lanes, g.drains⟩

theorem parkEntry_progress {k : LaneNo} {progress : Nat} {l : List Errand}
    (hp : progress % Config.segmentSize = 0) (h : ∀ e ∈ l, e.progress % Config.segmentSize = 0) :
    ∀ e ∈ parkEntry k progress l, e.progress % Config.segmentSize = 0 := by
  intro e he
  obtain ⟨x, hx, rfl⟩ := List.mem_map.mp he
  split
  · exact hp
  · exact h x hx

theorem runEntry_progress {k : LaneNo} {addr : Addr} {l : List Errand}
    (h : ∀ e ∈ l, e.progress % Config.segmentSize = 0) :
    ∀ e ∈ runEntry k addr l, e.progress % Config.segmentSize = 0 := by
  intro e he
  obtain ⟨x, hx, rfl⟩ := List.mem_map.mp he
  split <;> exact h x hx

/-- Giving back the windows and clearing the record is one change of the lane's record. -/
theorem setLane_twice (k : LaneNo) (l m : Lane) (s : State) :
    setLane k l s = setLane k l (setLane k m s) := (setLane_setLane k l m s).symm

theorem UnitLaws.parkComplete {s : State} (h : UnitLaws s) (k : LaneNo)
    (hs : (s.lane k).state = .parking) (h1 : (s.lane k).outstanding = [])
    (h2 : (s.lane k).confirmTag = none) : UnitLaws (parkComplete k s) := by
  have hl := h.lanes.lawful k
  have hj := (hl.parking hs).2
  have hw : (s.lane k).written % Config.segmentSize = 0 := by
    have := (hl.parking hs).1
    have := hl.order
    rcases hl.writeBound with a | a
    · exact a
    · omega
  have hn : (s.lane k).state ≠ .loading := by simp [hs]
  have hi : (s.lane k).state ≠ .idle := by simp [hs]
  have hu := h.errands _ (parkEntry_progress (k := k) hw h.lanes.progress)
  unfold Machine.parkComplete
  dsimp only
  generalize hS : ({ s with errands := parkEntry k (s.lane k).written s.errands } : State) = S at hu
  have le : S.lane k = s.lane k := by rw [← hS]; rfl
  have rd : controlReads S (.lane k) = 0 := by
    rw [← hS]; exact h.lanes.noControl hn
  have ha : Active S := hu.active (k := k) (by rw [le]; exact hi)
  have hl' : ({ s.lane k with held := [] } : Lane).Lawful :=
    { hl with idle := fun a => absurd a hi }
  have g := hu.giveBack (k := k) (l := { s.lane k with held := [] }) (by rw [le]) rfl hl'
    (by rw [le]; exact h1) (by rw [le]; exact h2) rd ha (by rw [le]; exact hj)
  rw [le] at g
  rw [setLane_twice k .idle { s.lane k with held := [] }]
  refine g.setIdle k ?_ ?_ ?_ ?_ ?_
  · rw [lane_setLane_same]; exact hj
  · rw [lane_setLane_same]
  · rw [lane_setLane_same]; exact h1
  · rw [lane_setLane_same]; exact h2
  · have fr := WinFrame.releaseWindows (s.lane k).held S
    rw [controlReads_setLane]
    simpa only [controlReads, Port.tagList, fr.tagsA, fr.controlQueue] using rd

theorem UnitLaws.parkProgress {s : State} (h : UnitLaws s) (k : LaneNo)
    (hs : (s.lane k).state = .parking) (h2 : (s.lane k).confirmTag = none) :
    UnitLaws (parkProgress k s) := by
  unfold Machine.parkProgress
  dsimp only
  split
  · rename_i ho
    rw [List.isEmpty_iff] at ho
    split
    · exact h.askTag k _ (by simp [hs]) (by simp [hs])
        ((h.lanes.lawful k).askingDestOf (Or.inr hs) ho h2)
    · exact h.parkComplete k hs ho h2
  · exact h

theorem UnitLaws.parkRequestLane {s : State} (h : UnitLaws s) (k : LaneNo) :
    UnitLaws (parkRequestLane k s) := by
  have hl := h.lanes.lawful k
  unfold Machine.parkRequestLane
  dsimp only
  split
  case h_4 c e =>
    have hi : (s.lane k).state ≠ .idle := fun a => by
      have := hl.idle a; rw [this] at e; cases e
    split
    · rename_i a
      obtain ⟨hm, hr, _⟩ := a
      have hc := hl.noConfirm (by simp [hm]) (by simp [hm])
      have g := h.lane hi (hl.parkRequested hi) (Or.inr (h.lanes.noControl (by simp [hm]))) rfl rfl rfl rfl rfl rfl
      generalize hS : Machine.setLane k { s.lane k with parkRequest := true } s = S at g
      have le : S.lane k = { s.lane k with parkRequest := true } := by subst hS; exact lane_setLane_same _ _ _
      have g1 := g.withdrawTag k (by rw [le]; simp [hm]) (by rw [le]; simp [hm])
      have lw : (Machine.withdrawTag k S).lane k = { s.lane k with parkRequest := true, tagRequest := none } := by
        rw [withdrawTag_lane (by rw [le]; simp [Lane.wantsTag, hm]), le]
      refine UnitLaws.parkProgress ?_ k ?_ ?_
      · refine g1.lane (by rw [lw]; simp [hm]) ?_
          (Or.inr (g1.lanes.noControl (by rw [lw]; simp [hm]))) rfl rfl rfl rfl rfl rfl
        rw [lw]
        exact hl.toParking hm hr (by rw [e]; rfl)
      · simp
      · rw [lane_setLane_same, lw]; exact hc
    · by_cases hn : (s.lane k).state = .loading
      · exact h.lane hi (hl.parkRequested hi) (Or.inl hn) rfl rfl rfl rfl rfl rfl
      · exact h.lane hi (hl.parkRequested hi) (Or.inr (h.lanes.noControl hn)) rfl rfl rfl rfl rfl rfl
  all_goals exact h

theorem UnitLaws.parkRequestLanes {s : State} (h : UnitLaws s) : UnitLaws (parkRequestLanes s) :=
  (((h.parkRequestLane 0).parkRequestLane 1).parkRequestLane 2).parkRequestLane 3

/-! ## Answers to a lane's data reads -/

theorem UnitLaws.moveOn {s : State} (h : UnitLaws s) (k : LaneNo)
    (hs : (s.lane k).state = .moving ∨ (s.lane k).state = .parking)
    (h2 : (s.lane k).confirmTag = none) : UnitLaws (moveOn k s) := by
  have hl := h.lanes.lawful k
  unfold Machine.moveOn
  dsimp only
  split
  · rename_i e; exact h.parkProgress k e h2
  · rename_i e
    split
    · rename_i hw
      have hm := hs.resolve_right e
      have := hl.order
      refine h.enterConfirming k hm (hl.writtenAll hw).1 ?_
      cases hq : (s.lane k).tagRequest with
      | none => rfl
      | some p =>
        rcases hl.tagRequest p hq with a | a
        · have := a.2.2.1; omega
        · simp [hm] at a
    · exact h.askSource k

theorem tag_setTag (p q : Domain) (t u : TagNo) (x : Tag) (s : State) :
    (setTag p t x s).tag q u = if p = q ∧ t = u then x else s.tag q u := by
  unfold setTag
  rw [tag_setPort_tags]
  by_cases hp : p = q
  · subst hp
    by_cases ht : t = u
    · subst ht; simp
    · simp [ht, State.tag, Fin.val_ne_of_ne ht]
  · simp [hp]

/-- A lane's read has been answered, and its record follows. -/
theorem UnitLaws.answered {s : State} (h : UnitLaws s) {k : LaneNo} {n : Nat} {t : TagNo} {l : Lane}
    (hm : ⟨n, t⟩ ∈ (s.lane k).outstanding) (ht : (s.tag (s.lane k).srcPort t).isBusy = false)
    (hl : l.Lawful) (ho : l.outstanding = ((s.lane k).dropRead t).outstanding)
    (hj : l.job = (s.lane k).job) (hh : l.held = (s.lane k).held)
    (h2 : l.srcPort = (s.lane k).srcPort) : UnitLaws (Machine.setLane k l s) := by
  have hk := h.lanes.lawful k
  have hne : (s.lane k).outstanding ≠ [] := List.ne_nil_of_mem hm
  have hi : (s.lane k).state ≠ .idle := fun a => hne (by rw [hk.idle a]; rfl)
  have hn : (s.lane k).state ≠ .loading := fun a => hne (hk.loading a).1
  have hc : (s.lane k).confirmTag = none :=
    Decidable.byContradiction fun a => hne (hk.confirmTag a).2
  refine h.setLane (h.active hi) (h.lanes.setLane hl (Or.inr (h.lanes.noControl hn)) ?_) hj hh
  intro p u r timer e _ hr g
  cases hrole : r.role with
  | control => exact absurd hrole hr
  | segment m =>
    rw [hrole] at g
    refine ⟨?_, h2.trans g.2⟩
    rw [ho]
    refine List.mem_filter.mpr ⟨g.1, ?_⟩
    simp only [bne_iff_ne]
    rintro rfl
    rw [g.2, e] at ht
    cases ht
  | confirming => rw [hrole] at g; have := g.1; rw [hc] at this; cases this

theorem UnitLaws.segmentAnswered {s : State} (h : UnitLaws s) (k : LaneNo) (n : Nat) (t : TagNo)
    (a : ReadAnswer) (hm : ⟨n, t⟩ ∈ (s.lane k).outstanding)
    (ht : (s.tag (s.lane k).srcPort t).isBusy = false) : UnitLaws (segmentAnswered k n t a s) := by
  have hk := h.lanes.lawful k
  have hne : (s.lane k).outstanding ≠ [] := List.ne_nil_of_mem hm
  have hs : (s.lane k).state = .moving ∨ (s.lane k).state = .parking := by
    cases e : (s.lane k).state with
    | moving => exact Or.inl rfl
    | parking => exact Or.inr rfl
    | idle => exact absurd (by rw [hk.idle e]; rfl) hne
    | loading => exact absurd (hk.loading e).1 hne
    | stamping => exact absurd (hk.stamping e).1 hne
    | confirming => exact absurd (hk.confirming e) hne
  have hi : (s.lane k).state ≠ .idle := by rcases hs with e | e <;> simp [e]
  have hn : (s.lane k).state ≠ .loading := by rcases hs with e | e <;> simp [e]
  have hc : (s.lane k).confirmTag = none :=
    Decidable.byContradiction fun a => hne (hk.confirmTag a).2
  have drop : UnitLaws (Machine.setLane k
      { (s.lane k).dropRead t with
        buffer := ((s.lane k).dropRead t).buffer.filter (fun b => b.segment != n) } s) :=
    h.answered hm ht (hk.discardOf hm) rfl rfl rfl rfl
  unfold Machine.segmentAnswered
  dsimp only
  split
  · exact drop.settleLane k (by simpa [Lane.dropRead] using hi) (by simpa [Lane.dropRead] using hn)
  · split
    · rename_i bytes
      have arr : UnitLaws (Machine.setLane k
          { (s.lane k).dropRead t with
            buffer := ((s.lane k).dropRead t).buffer.map
              (fun b => if b.segment = n then { b with bytes := some bytes } else b) } s) :=
        h.answered hm ht (hk.arrivedOf bytes hm) rfl rfl rfl rfl
      obtain ⟨g, e1, _, e3, _⟩ := arr.writeSegments k Config.bufferSize
      refine g.moveOn k ?_ ?_
      · rw [e1, lane_setLane_same]; exact hs
      · rw [e3, lane_setLane_same]; exact hc
    · exact drop.failLane k _ (by simpa [Lane.dropRead] using hi) (by simpa [Lane.dropRead] using hn)
    · exact drop.failLane k _ (by simpa [Lane.dropRead] using hi) (by simpa [Lane.dropRead] using hn)

theorem UnitLaws.confirmAnswered {s : State} (h : UnitLaws s) (k : LaneNo) (t : TagNo) (a : ReadAnswer)
    (hm : (s.lane k).confirmTag = some t) (ht : (s.tag (s.lane k).dstPort t).isBusy = false) :
    UnitLaws (confirmAnswered k a s) := by
  have hk := h.lanes.lawful k
  obtain ⟨hs, ho⟩ := hk.confirmTag (by rw [hm]; simp)
  have hi : (s.lane k).state ≠ .idle := by rcases hs with e | e <;> simp [e]
  have hn : (s.lane k).state ≠ .loading := by rcases hs with e | e <;> simp [e]
  have hl : ({ s.lane k with confirmTag := none } : Lane).Lawful :=
    { hk with
      idle := fun a => absurd a hi
      loading := fun a => absurd a hn
      stamping := fun a => by rcases hs with e | e <;> (rw [e] at a; cases a)
      confirmTag := fun a => absurd rfl a
      tagRequest := fun p a => by
        rcases hk.tagRequest p a with ⟨b, _⟩ | ⟨_, _, _, b⟩
        · rcases hs with e | e <;> (rw [e] at b; cases b)
        · rw [hm] at b; cases b }
  have g : UnitLaws (Machine.setLane k { s.lane k with confirmTag := none } s) := by
    refine h.setLane (h.active hi) (h.lanes.setLane hl (Or.inr (h.lanes.noControl hn)) ?_) rfl rfl
    intro p u r timer e _ hr g
    cases hrole : r.role with
    | control => exact absurd hrole hr
    | segment m => rw [hrole] at g; exact g
    | confirming =>
      rw [hrole] at g
      have e1 := g.1
      rw [hm] at e1
      cases e1
      rw [g.2, e] at ht
      cases ht
  have rd : controlReads (Machine.setLane k { s.lane k with confirmTag := none } s) (.lane k) = 0 :=
    h.lanes.noControl hn
  unfold Machine.confirmAnswered
  dsimp only
  split
  · exact g.settleLane k (by simpa using hi) (by simpa using hn)
  · split
    · split
      · rename_i e
        exact g.parkComplete k (by simpa using e) (by simpa using ho) (by simp)
      · exact g.enterStamping k _ (by simpa using hi) rd (by simpa using ho) (by simp)
    · exact g.failLane k _ (by simpa using hi) (by simpa using hn)
    · exact g.failLane k _ (by simpa using hi) (by simpa using hn)

theorem UnitLaws.fillSegment {s : State} (h : UnitLaws s) (k : LaneNo) (c : Card)
    (hj : (s.lane k).job = .errand c) (hf : (s.lane k).fills c = true) :
    UnitLaws (fillSegment k c.pattern s) := by
  simp only [Lane.fills, Bool.and_eq_true, beq_iff_eq, decide_eq_true_eq] at hf
  obtain ⟨⟨⟨⟨hm, hk⟩, hr⟩, _⟩, _⟩ := hf
  have hl := h.lanes.lawful k
  have hf1 := hl.filledOf hj hk hm hr
  have hq : (s.lane k).tagRequest = none := by
    cases e : (s.lane k).tagRequest with
    | none => rfl
    | some p =>
      rcases hl.tagRequest p e with ⟨_, _, _, _, a⟩ | ⟨a, _⟩
      · simp [Job.readsData, hj, hk] at a
      · simp [hm] at a
  have ho := (hl.fill c hj (by simp [hk])).2.1
  unfold Machine.fillSegment
  dsimp only
  generalize ({ addr := _, bytes := _, lane := some k } : PostedWrite) = w
  have fr := Frame.issueWrite (s.lane k).dstPort w s
  have g : UnitLaws (Machine.setLane k
      { s.lane k with
        readPoint := (s.lane k).readPoint +
          segmentLength (s.lane k).length ((s.lane k).readPoint / Config.segmentSize)
        written := (s.lane k).written +
          segmentLength (s.lane k).length ((s.lane k).readPoint / Config.segmentSize) }
      (issueWrite (s.lane k).dstPort w s)) := by
    refine UnitLaws.lane (fr.laws h) ?_ hf1 (Or.inr ?_) ?_ ?_ ?_ ?_ ?_ ?_
    · rw [fr.lane]; simp [hm]
    · rw [fr.controlReads]; exact h.lanes.noControl (by simp [hm])
    all_goals simp [fr.lane]
  split
  · exact g
  · exact g.enterConfirming k (by simpa using hm) (by simpa using ho) (by simpa using hq)

theorem UnitLaws.linkDownLane {s : State} (h : UnitLaws s) (k : LaneNo)
    (hb : ∀ t, (s.tag .b t).isBusy = false) : UnitLaws (linkDownLane k s) := by
  have hl := h.lanes.lawful k
  have lost : (s.lane k).state ≠ .idle → (s.lane k).state ≠ .loading →
      UnitLaws (Machine.failLane k .peerLost (Machine.setLane k (s.lane k).loseB s)) := by
    intro hi hn
    refine UnitLaws.failLane ?_ k _ (by simpa [Lane.loseB] using hi) (by simpa [Lane.loseB] using hn)
    refine h.setLane (h.active hi)
      (h.lanes.setLane (hl.lostOf hi hn) (Or.inr (h.lanes.noControl hn)) ?_) rfl rfl
    intro p u r timer e _ hr g
    have hp : p = .a := by
      cases p with
      | a => rfl
      | b => have := hb u; rw [e] at this; cases this
    subst hp
    cases hrole : r.role with
    | control => exact absurd hrole hr
    | segment m =>
      rw [hrole] at g
      simp only [Lane.records, Lane.loseB] at g ⊢
      rw [if_neg (by rw [g.2]; simp)]
      exact g
    | confirming =>
      rw [hrole] at g
      simp only [Lane.records, Lane.loseB] at g ⊢
      rw [if_neg (by rw [g.2]; simp)]
      exact g
  unfold Machine.linkDownLane
  dsimp only
  split <;> rename_i e
  · exact h
  · exact h
  · split
    · exact h.lane (by simp [e]) (hl.peerMarked (by simp [e])) (Or.inl e) rfl rfl rfl rfl rfl rfl
    · exact h
  all_goals
    split
    · exact lost (by simp [e]) (by simp [e])
    · exact h

end Sys2Proof.Machine
end

