-- ==== Sys2Proof/Laws/Calendar.lean ====
section
/-! SUPPORT. The Dispatcher's work puts nothing on the Service Calendar that is due: one lemma for each operation
in it. -/

namespace Sys2Proof.Machine

/-! ## The due entries of the calendar -/

/-- Whether a cadence's next due tick is reached. -/
def dueNow (s : State) (n : CadNo) : Bool := decide ((s.cad n).nextDue ≤ s.tick)

/-- How many entries of the calendar are due. -/
def dueCount (s : State) : Nat := s.calendar.countP (dueNow s)

/-- From `s` to `t` the tick count stands and the calendar gets no entry that is due. -/
structure NoneDue (s t : State) : Prop where
  tick : t.tick = s.tick
  due : dueCount t ≤ dueCount s

theorem firstGridAfter_gt (period phase u : Nat) : u < firstGridAfter period phase u := by
  unfold firstGridAfter
  omega

theorem calendarInsert_perm (s : State) (n : CadNo) (q : List CadNo) :
    (calendarInsert s n q).Perm (n :: q) := by
  induction q with
  | nil => exact List.Perm.refl _
  | cons m q ih =>
    unfold calendarInsert
    split
    · exact List.Perm.refl _
    · exact (List.Perm.cons m ih).trans (List.Perm.swap n m q)

namespace NoneDue

theorem refl (s : State) : NoneDue s s := ⟨rfl, Nat.le_refl _⟩

theorem trans {s t u : State} (h : NoneDue s t) (g : NoneDue t u) : NoneDue s u :=
  ⟨g.tick.trans h.tick, Nat.le_trans g.due h.due⟩

/-- The calendar and the cadences stand as they were. -/
theorem same {s t : State} (h1 : t.tick = s.tick := by rfl) (h2 : t.calendar = s.calendar := by rfl)
    (h3 : t.cadences = s.cadences := by rfl) : NoneDue s t := by
  refine ⟨h1, Nat.le_of_eq ?_⟩
  have : dueNow t = dueNow s := by
    funext n
    unfold dueNow State.cad
    rw [h1, h3]
  rw [dueCount, h2, this, dueCount]

theorem setLane (k : LaneNo) (l : Lane) (s : State) : NoneDue s (setLane k l s) := same

theorem setCad (n : CadNo) (e : CadEntry) (s : State)
    (h : e.nextDue ≤ s.tick → (s.cad n).nextDue ≤ s.tick := by exact id) : NoneDue s (setCad n e s) := by
  refine ⟨rfl, List.countP_mono_left fun m _ g => ?_⟩
  have g : ((Machine.setCad n e s).cad m).nextDue ≤ s.tick := of_decide_eq_true g
  show decide ((s.cad m).nextDue ≤ s.tick) = true
  rw [decide_eq_true_eq]
  by_cases a : n = m
  · subst a
    rw [cad_setCad_same] at g
    exact h g
  · rw [cad_setCad_ne a] at g
    exact g

theorem readyJoin (e : ReadyEntry) (s : State) : NoneDue s (readyJoin e s) := same

theorem recordWrite (r : Record) (offset size value : Nat) (s : State) :
    NoneDue s (recordWrite r offset size value s) := by
  unfold Machine.recordWrite areaWrite issueWrite
  split <;> exact same

theorem raise (c : Cause) (s : State) : NoneDue s (raise c s) := by
  unfold Machine.raise
  split <;> exact same

theorem reportFault (code : FaultCode) (kind : ObjectKind) (number : Nat) (s : State) :
    NoneDue s (reportFault code kind number s) := by
  refine trans ?_ (raise _ _)
  unfold recordFault
  split <;> exact same

theorem holdingFault (code : FaultCode) (n : CadNo) (s : State) : NoneDue s (holdingFault code n s) := by
  unfold Machine.holdingFault setCadState
  dsimp only
  refine trans ?_ (reportFault _ _ _ _)
  split
  · exact (setCad _ _ s).trans (recordWrite _ _ _ _ _)
  · exact refl s

theorem answerCommand (d : Delivery) (result : Result) (s : State) :
    NoneDue s (answerCommand d result s) := by
  have h0 : NoneDue s (setAck d.record d.seq s) := by
    cases d.record <;> exact same
  unfold Machine.answerCommand
  dsimp only
  split
  · exact ((h0.trans (recordWrite _ _ _ _ _)).trans (recordWrite _ _ _ _ _)).trans (raise _ _)
  · exact (h0.trans (recordWrite _ _ _ _ _)).trans (recordWrite _ _ _ _ _)

theorem takeOff (n : CadNo) (s : State) : NoneDue s (takeOff n s) :=
  ⟨rfl, (List.filter_sublist).countP_le⟩

/-- A cadence that is not due joins the calendar, and stays on it. -/
theorem calendarJoin (n : CadNo) (s : State) (h : s.tick < (s.cad n).nextDue) :
    NoneDue s (calendarJoin n s) ∧ (calendarJoin n s).ready = s.ready := by
  have h1 := setCad n { s.cad n with place := .calendar } s id
  have nd : dueNow (Machine.setCad n { s.cad n with place := .calendar } s) n = false := by
    simp only [dueNow, cad_setCad_same, setCad_tick, decide_eq_false_iff_not]
    omega
  unfold Machine.calendarJoin
  dsimp only
  generalize hS : Machine.setCad n { s.cad n with place := .calendar } s = S at h1 nd
  have hr : S.ready = s.ready := by subst hS; rfl
  split
  · rename_i a
    have a2 : (S.cad n).nextDue ≤ S.tick := a.2
    simp only [dueNow, decide_eq_false_iff_not] at nd
    exact absurd a2 nd
  · refine ⟨h1.trans ⟨rfl, ?_⟩, hr⟩
    show (calendarInsert S n S.calendar).countP (dueNow S) ≤ S.calendar.countP (dueNow S)
    rw [(calendarInsert_perm S n S.calendar).countP_eq, List.countP_cons, nd]
    simp

/-- A cadence that takes a new due tick after the present joins the calendar. -/
theorem rejoin (n : CadNo) (e : CadEntry) (s : State) (h : s.tick < e.nextDue) :
    NoneDue s (Machine.calendarJoin n (Machine.setCad n e s)) ∧
      (Machine.calendarJoin n (Machine.setCad n e s)).ready = s.ready := by
  have g := calendarJoin n (Machine.setCad n e s) (by simpa using h)
  exact ⟨(setCad n e s fun a => by omega).trans g.1, g.2⟩

theorem placeAtJobEnd (n : CadNo) (s : State) : NoneDue s (placeAtJobEnd n s.tick s) := by
  unfold Machine.placeAtJobEnd
  dsimp only
  split
  · exact (rejoin n _ s (firstGridAfter_gt _ _ _)).1
  · exact (setCad _ _ s).trans (readyJoin _ _)
  all_goals exact setCad _ _ s

theorem takeArm (n : CadNo) (f : ArmFields) (d : Delivery) (s : State) : NoneDue s (takeArm n f d s) := by
  unfold Machine.takeArm
  dsimp only
  split
  case h_5 =>
    split
    · exact answerCommand _ _ s
    · split
      · exact answerCommand _ _ s
      · split
        · exact answerCommand _ _ s
        · exact ((rejoin n _ s (firstGridAfter_gt _ _ _)).1.trans (recordWrite _ _ _ _ _)).trans
            (answerCommand _ _ _)
  all_goals exact answerCommand _ _ s

theorem takePause (n : CadNo) (d : Delivery) (s : State) : NoneDue s (takePause n d s) := by
  unfold Machine.takePause
  split
  case h_4 | h_5 =>
    exact (((takeOff n s).trans (setCad n _ _)).trans (recordWrite _ _ _ _ _)).trans (answerCommand _ _ _)
  all_goals exact answerCommand _ _ s

theorem takeResume (n : CadNo) (d : Delivery) (s : State) : NoneDue s (takeResume n d s) := by
  have h : NoneDue s (resumeCadence n s) := by
    unfold resumeCadence
    dsimp only
    split
    · exact (setCad _ _ s).trans (recordWrite _ _ _ _ _)
    · exact (rejoin n _ s (firstGridAfter_gt _ _ _)).1.trans (recordWrite _ _ _ _ _)
  unfold Machine.takeResume
  split
  case h_4 | h_5 => exact h.trans (answerCommand _ _ _)
  all_goals exact answerCommand _ _ s

theorem takeRetire (n : CadNo) (d : Delivery) (s : State) : NoneDue s (takeRetire n d s) := by
  have h : NoneDue s (retireCadence n d s) := by
    unfold retireCadence
    dsimp only
    split
    · exact (((takeOff n s).trans (setCad n _ _)).trans (recordWrite _ _ _ _ _)).trans
        (answerCommand _ _ _)
    · exact ((((takeOff n s).trans (setCad n _ _)).trans (recordWrite _ _ _ _ _)).trans
        (answerCommand _ _ _)).trans (readyJoin _ _)
  unfold Machine.takeRetire
  split
  case h_3 | h_4 | h_5 => exact h
  all_goals exact answerCommand _ _ s

theorem takeBetween (n : CadNo) (s : State) : NoneDue s (takeBetween n s) := by
  have h : ∀ d u, NoneDue u (takeCadenceCommand n d u) := by
    intro d u
    unfold takeCadenceCommand
    split
    · exact takeArm _ _ _ u
    · exact takePause _ _ u
    · exact takeResume _ _ u
    · exact takeRetire _ _ u
    · unfold takeUnknownCadence
      split <;> exact answerCommand _ _ u
  have h0 : ∀ c : Nat, NoneDue s { s with choice := c } := fun _ => same
  unfold Machine.takeBetween
  split
  · exact refl s
  · dsimp only
    split
    · exact (h0 _).trans (h _ _)
    · exact h0 _

/-! ## Lanes and windows -/

theorem arbitrate (p : Domain) (s : State) : NoneDue s (arbitrate p s) :=
  same (Quiet.arbitrate p s).tick (Grants.arbitrate p s).calendar (Grants.arbitrate p s).cadences

theorem withdrawTag (k : LaneNo) (s : State) : NoneDue s (withdrawTag k s) :=
  same (Quiet.withdrawTag k s).tick (Grants.withdrawTag k s).calendar (Grants.withdrawTag k s).cadences

theorem requestControl (who : Requester) (addr : Addr) (length : Nat) (s : State) :
    NoneDue s (requestControl who addr length s) :=
  trans (t := { s with controlQueue := s.controlQueue ++ [{ requester := who, addr, length }] })
    (same) (arbitrate _ _)

theorem releaseWindows (l : List WinNo) (s : State) : NoneDue s (releaseWindows l s) :=
  same (Quiet.releaseWindows l s).tick (WinFrame.releaseWindows l s).calendar
    (WinFrame.releaseWindows l s).cadences

theorem holdWindows (l : List WinNo) (s : State) : NoneDue s (holdWindows l s) :=
  same (Quiet.holdWindows l s).tick (WinFrame.holdWindows l s).calendar
    (WinFrame.holdWindows l s).cadences

theorem enterStamping (k : LaneNo) (o : Option Outcome) (s : State) :
    NoneDue s (enterStamping k o s) := by
  unfold Machine.enterStamping
  split
  · exact refl s
  · refine trans (setCad _ _ s fun h => ?_) (setLane _ _ _)
    dsimp only at h
    split at h
    · exact absurd (firstGridAfter_gt _ _ _) (Nat.not_lt.mpr h)
    · exact h
  · exact setLane _ _ s
  · exact setLane _ _ s

theorem failLane (k : LaneNo) (o : Outcome) (s : State) : NoneDue s (failLane k o s) := by
  unfold Machine.failLane settleLane
  dsimp only
  refine trans ((setLane k ((s.lane k).failed o) s).trans (withdrawTag k _)) ?_
  split
  · exact refl _
  · split
    · exact enterStamping _ _ _
    · exact refl _

theorem askTag (k : LaneNo) (p : Domain) (s : State) : NoneDue s (askTag k p s) := by
  unfold Machine.askTag
  split
  · exact failLane _ _ s
  · exact (setLane _ _ s).trans (arbitrate _ _)

theorem askSource (k : LaneNo) (s : State) : NoneDue s (askSource k s) := by
  unfold Machine.askSource
  split
  · exact askTag _ _ s
  · exact refl s

theorem parkRequestLane (k : LaneNo) (s : State) : NoneDue s (parkRequestLane k s) := by
  have h : ∀ u, NoneDue u (parkProgress k u) := by
    intro u
    unfold parkProgress parkComplete
    dsimp only
    split
    · split
      · exact askTag _ _ u
      · exact (trans (t := { u with errands := parkEntry k (u.lane k).written u.errands })
          same (releaseWindows _ _)).trans (setLane k .idle _)
    · exact refl u
  unfold Machine.parkRequestLane
  dsimp only
  split
  case h_4 =>
    split
    · exact (((setLane _ _ s).trans (withdrawTag _ _)).trans (setLane _ _ _)).trans (h _)
    · exact setLane _ _ s
  all_goals exact refl s

/-! ## The Dispatcher -/

theorem startService (k : LaneNo) (n : CadNo) (s : State) : NoneDue s (startService k n s) := by
  unfold Machine.startService
  dsimp only
  generalize hS : Machine.setCad n { s.cad n with place := .lane k } (Machine.setLane k
    { Lane.idle with state := .loading, job := .service n, length := (s.cfg n).length } s) = S
  have h0 : NoneDue s S := by
    rw [← hS]
    exact (setLane k _ s).trans (setCad n _ _)
  refine h0.trans ?_
  split
  · split
    · exact (setCad n _ _).trans (enterStamping _ _ _)
    · exact ((holdWindows _ _).trans (setLane _ _ _)).trans (requestControl _ _ _ _)
  · exact (((holdingFault _ n _).trans (takeBetween n _)).trans (placeAtJobEnd n _)).trans (setLane _ _ _)

theorem startErrand (k : LaneNo) (e : Errand) (s : State) : NoneDue s (startErrand k e s) := by
  have h : NoneDue s (Machine.setLane k (errandLane e)
      { s with errands := runEntry k e.card.addr s.errands }) := same
  unfold Machine.startErrand
  dsimp only
  split
  · exact h.trans (enterStamping _ _ _)
  · exact h.trans (enterStamping _ _ _)
  · exact ((h.trans (holdWindows _ _)).trans (setLane _ _ _)).trans (askSource _ _)

theorem handOutLane (k : LaneNo) (s u : State) (h : handOutLane k s = some u) : NoneDue s u := by
  have h0 : ∀ x, NoneDue s { s with ready := x } := fun _ => same
  obtain ⟨-, -, ⟨n, rest, -, rfl⟩ | ⟨n, rest, -, rfl⟩ | ⟨e, -, rfl⟩⟩ := handOutLane_some h
  · exact (h0 _).trans (startService _ _ _)
  · exact (((h0 _).trans (setLane _ _ _)).trans (setCad n _ _)).trans (requestControl _ _ _ _)
  · exact startErrand _ _ s

theorem moveGate (s u : State) (h : moveGate s = some u) : NoneDue s u := by
  have h0 : ∀ x, NoneDue s { s with gate := x } := fun _ => same
  obtain ⟨-, ⟨-, -, rfl⟩ | ⟨-, -, rfl⟩⟩ := moveGate_some h
  · exact ((((h0 _).trans (parkRequestLane 0 _)).trans (parkRequestLane 1 _)).trans
      (parkRequestLane 2 _)).trans (parkRequestLane 3 _)
  · exact h0 _

/-- The Dispatcher's work puts nothing on the calendar that is due. -/
theorem dispatch (s : State) : NoneDue s (dispatch s) :=
  Follows.dispatch (R := NoneDue) ⟨refl, trans, handOutLane, moveGate⟩ s

end NoneDue

/-! ## A holding fault -/

theorem reportFault_cad (code : FaultCode) (kind : ObjectKind) (number : Nat) (n : CadNo) (s : State) :
    (reportFault code kind number s).cad n = s.cad n := by
  unfold reportFault recordFault raise setCause
  repeat' split
  all_goals rfl

theorem setCadState_cad (n : CadNo) (e : CadEntry) (s : State) : (setCadState n e s).cad n = e := by
  unfold setCadState recordWrite areaWrite
  simp [issueWrite, setPort, State.cad, setCad]

/-! ## The release -/

/-- The release of the calendar's first entry leaves one due entry less. -/
theorem releaseEntry_due {n : CadNo} {rest : List CadNo} {s : State} (hc : s.calendar = n :: rest)
    (hd : (s.cad n).nextDue ≤ s.tick) : dueCount (releaseEntry n s) + 1 ≤ dueCount s := by
  have e : dueNow (releaseEntry n s) = dueNow s := by
    funext m
    simp only [dueNow, decide_eq_decide]
    show ((Machine.setCad n { s.cad n with currentDue := (s.cad n).nextDue, place := .ready } s).cad m).nextDue ≤
      s.tick ↔ _
    by_cases a : n = m
    · subst a
      rw [cad_setCad_same]
    · rw [cad_setCad_ne a]
  have c : (releaseEntry n s).calendar = rest.filter (fun m => m != n) := by
    simp [releaseEntry, readyJoin, hc]
  unfold dueCount
  rw [e, c, hc, List.countP_cons]
  have : dueNow s n = true := by simpa [dueNow] using hd
  have := (List.filter_sublist (l := rest) (p := fun m => m != n)).countP_le (p := dueNow s)
  simp [*]

/-- The calendar's release with a unit of fuel for each due entry does what it does with more. -/
theorem releaseDueFuel_enough (fuel : Nat) (s : State) (h : dueCount s ≤ fuel) :
    releaseDueFuel fuel s = releaseDueFuel (dueCount s) s := by
  induction fuel using Nat.strongRecOn generalizing s with
  | ind fuel ih =>
    cases hc : s.calendar with
    | nil => cases fuel <;> cases dueCount s <;> simp [releaseDueFuel, hc]
    | cons n rest =>
      by_cases hd : (s.cad n).nextDue ≤ s.tick
      · have e := releaseEntry_due hc hd
        have d := (NoneDue.dispatch (releaseEntry n s)).due
        have step : ∀ m, releaseDueFuel (m + 1) s = releaseDueFuel m (dispatch (releaseEntry n s)) := by
          intro m
          rw [releaseDueFuel, hc]
          simp [hd]
        obtain ⟨m, rfl⟩ : ∃ m, fuel = m + 1 := ⟨fuel - 1, by omega⟩
        obtain ⟨c, hm⟩ : ∃ c, dueCount s = c + 1 := ⟨dueCount s - 1, by omega⟩
        rw [hm, step, step, ih m (Nat.lt_succ_self _) _ (by omega)]
        by_cases a : c = m
        · subst a; exact (ih c (Nat.lt_succ_self _) _ (by omega)).symm
        · exact (ih c (by omega) _ (by omega)).symm
      · cases fuel <;> cases dueCount s <;> simp [releaseDueFuel, hc, hd]

/-- The calendar's release has a unit of fuel for each due entry. -/
theorem dueCount_le (s : State) : dueCount s ≤ s.calendar.length := List.countP_le_length

end Sys2Proof.Machine
end

