-- ==== Sys2Proof/Laws/UnitStart.lean ====
section
/-! SUPPORT. The unit laws across the start of a job and the Dispatcher's work. -/

namespace Sys2Proof.Machine

/-! ## The start of a job -/

theorem idle_lane {s : State} (h : UnitLaws s) {k : LaneNo} (hi : (s.lane k).state = .idle) :
    s.lane k = Lane.idle := (h.lanes.lawful k).idle hi

/-- A cadence that stands nowhere is handed to a free lane. -/
theorem LooseLaws.atLane {s : State} {n : CadNo} (h : LooseLaws n s) {k : LaneNo} {l : Lane} {e : CadEntry}
    (hk : s.lane k = Lane.idle) (hl : l.Lawful) (hs : l.state = .loading) (hh : l.held = [])
    (hj : l.job.cadence = some n) (hp : e.place = .lane k) (ha : Active s)
    (hst : e.state = .armed ∨ e.state = .draining) (hd : l.job = .closing n → e.state = .draining) :
    UnitLaws (Machine.setCad n e (Machine.setLane k l s)) := by
  have ne : ∀ m, m ≠ n → some m ≠ l.job.cadence := fun m a b => a (Option.some.inj (b.trans hj))
  refine ⟨fun m => ?_, ⟨fun m => ?_, fun j => ?_⟩, ?_, ?_, ?_⟩
  · by_cases a : m = n
    · subst a
      refine ⟨?_, ?_, ?_, ?_, fun j => ?_, fun j => ?_⟩
      · rw [cad_setCad_same]
        unfold placeAdmitted
        rcases hst with b | b <;> simp [b, hp]
      · rw [cad_setCad_same, hp, setCad_calendar, setLane_calendar, h.calendar]; simp
      · rw [cad_setCad_same, hp, setCad_ready, setLane_ready, h.service]; simp
      · rw [cad_setCad_same, hp, setCad_ready, setLane_ready, h.closing]; simp
      · rw [cad_setCad_same, lane_setCad, lane_setLane, hp]
        split
        · rename_i b; subst b; exact ⟨fun _ => rfl, fun _ => hj⟩
        · rename_i b
          exact ⟨fun c => absurd c (h.noLane j), fun c => absurd (Place.lane.inj c) b⟩
      · rw [cad_setCad_same, lane_setCad, lane_setLane]
        split
        · exact hd
        · exact fun c => absurd (Job.cadence_service c) (h.noLane j)
    · have g : CadencePlaced (Machine.setLane k l s) m :=
        (h.others m a).setLane (by rw [hk]; simp [Lane.idle, Job.cadence]) (fun b => ne m a b.symm)
      have a' : n ≠ m := Ne.symm a
      exact ⟨by rw [cad_setCad_ne a']; exact g.admitted, by rw [cad_setCad_ne a']; exact g.calendar,
        by rw [cad_setCad_ne a']; exact g.service, by rw [cad_setCad_ne a']; exact g.closing,
        fun k => by rw [cad_setCad_ne a']; exact g.lanes k,
        fun k => by rw [cad_setCad_ne a']; exact g.drains k⟩
  · have e := windowHolds_setLane k l s m
    rw [hk, hh] at e
    have e2 : windowHolds (Machine.setLane k l s) m = windowHolds s m := by simpa [Lane.idle] using e
    show (s.win m).useCount = windowHolds (Machine.setLane k l s) m ∧ _
    rw [e2]; exact h.windows.1 m
  · rw [lane_setCad, lane_setLane]
    split
    · rw [hh]; exact Nat.zero_le _
    · exact h.windows.2 j
  · exact (h.lanes.replace hl (by rw [hk]; rfl) (by rw [hk]; rfl) (Or.inl hs)).setCad _ _
  · have e1 := errandLaneCount_setLane k l s
    have x : l.holdsErrand = false := by
      unfold Lane.holdsErrand
      cases e : l.job <;> rw [e] at hj <;> simp [Job.cadence] at hj ⊢
    rw [x] at e1
    have g := h.errandLanes
    unfold ErrandLaneLaw at *
    have e2 : errandLaneCount (Machine.setCad n e (Machine.setLane k l s)) =
        errandLaneCount (Machine.setLane k l s) := rfl
    rw [e2, hdr_setCad, hdr_setLane]
    simp at e1
    omega
  · exact (RestLaw.ofActive (by exact ha) (by exact h.rest.notLoads ha)).setCad _ _

/-- The head of the ready queue leaves it. -/
theorem UnitLaws.popReady {s : State} (h : UnitLaws s) {e : ReadyEntry} {rest : List ReadyEntry} {n : CadNo}
    (hr : s.ready = e :: rest) (he : e = .service n ∨ e = .closing n) :
    LooseLaws n { s with ready := rest } ∧
      (e = .service n → (s.cad n).state = .armed) ∧ (e = .closing n → (s.cad n).state = .draining) := by
  have g := h.cadences n
  have g2 := g.service
  have g3 := g.closing
  rw [hr, List.count_cons] at g2 g3
  have hp : (s.cad n).place = .ready ∧ (e = .service n → (s.cad n).state = .armed) ∧
      (e = .closing n → (s.cad n).state = .draining) ∧ rest.count (.service n) = 0 ∧
      rest.count (.closing n) = 0 := by
    rcases he with rfl | rfl
    · simp only [beq_self_eq_true, if_true, beq_iff_eq, reduceCtorEq, if_false] at g2 g3
      split at g2
      · rename_i a
        rw [a.2] at g3
        simp at g3
        exact ⟨a.1, fun _ => a.2, (fun b => by cases b), by omega, g3⟩
      · omega
    · simp only [beq_self_eq_true, if_true, beq_iff_eq, reduceCtorEq, if_false] at g2 g3
      split at g3
      · rename_i a
        rw [a.2] at g2
        simp at g2
        exact ⟨a.1, (fun b => by cases b), fun _ => a.2, g2, by omega⟩
      · omega
  obtain ⟨p1, p2, p3, p4, p5⟩ := hp
  refine ⟨⟨fun m a => ?_, ?_, p4, p5, fun k b => ?_, h.windows,
    laneLaw_of_eq (s := s) rfl rfl rfl rfl rfl h.lanes, h.errandLanes,
    ⟨h.rest.loads, h.rest.rest, h.rest.loading⟩⟩, p2, p3⟩
  · have gm := h.cadences m
    have c2 := gm.service
    have c3 := gm.closing
    rw [hr, List.count_cons] at c2 c3
    have n1 : ¬e = .service m := by rcases he with rfl | rfl <;> simp [Ne.symm a]
    have n2 : ¬e = .closing m := by rcases he with rfl | rfl <;> simp [Ne.symm a]
    simp only [beq_iff_eq, n1, n2, if_false, Nat.add_zero] at c2 c3
    exact ⟨gm.admitted, gm.calendar, c2, c3, gm.lanes, gm.drains⟩
  · have := g.calendar
    rw [p1] at this
    simpa using this
  · have := (g.lanes k).mp b
    rw [p1] at this
    cases this

theorem holdingFault_lanes (code : FaultCode) (n : CadNo) (s : State) :
    (holdingFault code n s).lanes = s.lanes := by
  unfold holdingFault
  dsimp only
  rw [(Frame.reportFault _ _ _ _).lanes]
  split
  · exact (Frame.recordWrite _ _ _ _ _).lanes
  · rfl

theorem holdingFault_lane (code : FaultCode) (n : CadNo) (s : State) (k : LaneNo) :
    (holdingFault code n s).lane k = s.lane k := by
  simp only [State.lane, holdingFault_lanes]

theorem holdingFault_place (code : FaultCode) (n m : CadNo) (s : State) :
    ((holdingFault code n s).cad m).place = (s.cad m).place := by
  unfold holdingFault
  dsimp only
  rw [((Frame.reportFault _ _ _ _).cads m).2]
  split
  · unfold setCadState
    rw [((Frame.recordWrite _ _ _ _ _).cads m).2]
    by_cases a : n = m
    · subst a; simp
    · rw [cad_setCad_ne a]
  · rfl

theorem UnitLaws.dropJob {s : State} (h : UnitLaws s) {n : CadNo} {k : LaneNo}
    (hp : (s.cad n).place = .lane k) (hh : (s.lane k).held = []) (h1 : (s.lane k).outstanding = [])
    (h2 : (s.lane k).confirmTag = none) (hc : controlReads s (.lane k) = 0) :
    LooseLaws n (Machine.setLane k .idle s) := by
  have g := h.leaving hp
  have hj := ((h.cadences n).lanes k).mpr hp
  refine ⟨fun m a => (g.others m a).setLane (by rw [hj]; exact fun b => a (Option.some.inj b).symm)
      (by simp [Lane.idle, Job.cadence]), g.calendar, g.service, g.closing, fun j => ?_,
    ⟨fun m => ?_, fun j => ?_⟩, h.lanes.replace .ofIdle h1 h2 (Or.inr hc), ?_, h.rest.setIdle k⟩
  · rw [lane_setLane]
    split
    · simp [Lane.idle, Job.cadence]
    · rename_i a; exact fun b => a (g.lane j b).symm
  · have e := windowHolds_setLane k .idle s m
    rw [hh] at e
    have e2 : windowHolds (Machine.setLane k .idle s) m = windowHolds s m := by
      simpa [Lane.idle] using e
    rw [e2]; exact h.windows.1 m
  · rw [lane_setLane]
    split
    · exact Nat.zero_le _
    · exact h.windows.2 j
  · have e := errandLaneCount_setLane k .idle s
    have g := h.errandLanes
    have x : Lane.idle.holdsErrand = false := rfl
    rw [x] at e
    unfold ErrandLaneLaw at *
    rw [hdr_setLane]
    simp at e
    omega

theorem controlReads_holdingFault (code : FaultCode) (n : CadNo) (s : State) (who : Requester) :
    controlReads (holdingFault code n s) who = controlReads s who := by
  unfold holdingFault
  dsimp only
  rw [(Frame.reportFault _ _ _ _).controlReads]
  split
  · unfold setCadState
    rw [(Frame.recordWrite _ _ _ _ _).controlReads]
    rfl
  · rfl

theorem calendarInsert_setLane (k : LaneNo) (l : Lane) (n : CadNo) (s : State) (q : List CadNo) :
    calendarInsert (Machine.setLane k l s) n q = calendarInsert s n q := by
  induction q with
  | nil => rfl
  | cons m q ih => simp only [calendarInsert, ih]; rfl

theorem readyInsert_setLane (k : LaneNo) (l : Lane) (e : ReadyEntry) (s : State) (q : List ReadyEntry) :
    readyInsert (Machine.setLane k l s) e q = readyInsert s e q := by
  have h : ∀ x, readyKey (Machine.setLane k l s) x = readyKey s x := fun x => by cases x <;> rfl
  induction q with
  | nil => rfl
  | cons m q ih => simp only [readyInsert, ih, h]

theorem setLane_readyJoin (k : LaneNo) (l : Lane) (e : ReadyEntry) (s : State) :
    Machine.setLane k l (readyJoin e s) = readyJoin e (Machine.setLane k l s) := by
  unfold Machine.readyJoin
  rw [readyInsert_setLane]
  rfl

theorem setLane_releaseEntry (k : LaneNo) (l : Lane) (n : CadNo) (s : State) :
    Machine.setLane k l (releaseEntry n s) = releaseEntry n (Machine.setLane k l s) := by
  unfold Machine.releaseEntry
  dsimp only
  rw [setLane_readyJoin]
  rfl

theorem setLane_calendarJoin (k : LaneNo) (l : Lane) (n : CadNo) (s : State) :
    Machine.setLane k l (calendarJoin n s) = calendarJoin n (Machine.setLane k l s) := by
  have e : ∀ x, Machine.setCad n x (Machine.setLane k l s) = Machine.setLane k l (Machine.setCad n x s) :=
    fun _ => rfl
  unfold Machine.calendarJoin
  dsimp only
  rw [apply_ite (Machine.setLane k l), setLane_releaseEntry, e, calendarInsert_setLane]
  rfl

/-- A cadence's place at the end of its job does not depend on what the lanes hold. -/
theorem setLane_placeAtJobEnd (k : LaneNo) (l : Lane) (n : CadNo) (u : Nat) (s : State) :
    Machine.setLane k l (placeAtJobEnd n u s) = placeAtJobEnd n u (Machine.setLane k l s) := by
  unfold Machine.placeAtJobEnd
  dsimp only
  rw [cad_setLane]
  cases (s.cad n).state with
  | armed => exact setLane_calendarJoin _ _ _ _
  | draining => exact setLane_readyJoin _ _ _ _
  | _ => rfl

theorem UnitLaws.loseWindow {s : State} (h : UnitLaws s) {k : LaneNo} {n : CadNo}
    (hp : (s.cad n).place = .lane k) (hh : (s.lane k).held = []) (h1 : (s.lane k).outstanding = [])
    (h2 : (s.lane k).confirmTag = none) (hc : controlReads s (.lane k) = 0) : UnitLaws (loseWindow k n s) := by
  have g := h.holdingFault .windowLost n (by rw [hp]; rfl)
  have a := (Aside.holdingFault .windowLost n s).trans (Aside.takeBetween n _)
  have b := g.takeBetween_place (by rw [holdingFault_place]; exact hp)
  have d := (g.takeBetween n).dropJob b (by rw [a.lane]; exact hh) (by rw [a.lane]; exact h1)
    (by rw [a.lane]; exact h2) (by rw [a.controlReads]; exact hc)
  unfold Machine.loseWindow
  dsimp only
  rw [setLane_placeAtJobEnd]
  exact d.placeAtJobEnd _

theorem admitted_opened {s : State} {n : WinNo} {write : Bool} {c : WinConfig}
    (h : admitted s n write = some c) : (s.win n).state = .opened := by
  unfold admitted openConfig at h
  by_cases a : (s.win n).state = .opened
  · exact a
  · simp [a] at h

theorem admittedErrand_opened {s : State} {b : Byte} {write : Bool} {offset length : Nat} {n : WinNo}
    {c : WinConfig} (h : admittedErrand s b write offset length = some (n, c)) :
    (s.win n).state = .opened := by
  unfold admittedErrand at h
  split at h
  · cases h
  · split at h
    · rename_i e
      split at h
      · cases h
        exact admitted_opened e
      · cases h
    · cases h

/-- A lane takes OPEN windows for its job. -/
theorem UnitLaws.takeWindows {s : State} (h : UnitLaws s) {k : LaneNo} {l : Lane} (ha : Active s)
    (ho : ∀ n ∈ l.held, (s.win n).state = .opened) (hn : l.held.length ≤ 2)
    (hh : (s.lane k).held = []) (hj : l.job = (s.lane k).job) (hl : l.Lawful)
    (h1 : (s.lane k).outstanding = []) (h2 : (s.lane k).confirmTag = none)
    (hc : l.state = .loading ∨ controlReads s (.lane k) = 0) :
    UnitLaws (Machine.setLane k l (holdWindows l.held s)) := by
  have fr := WinFrame.holdWindows l.held s
  have le := fr.lane k
  have rd : controlReads (holdWindows l.held s) (.lane k) = controlReads s (.lane k) := by
    simp only [controlReads, Port.tagList, fr.tagsA, fr.controlQueue]
  have ll := (fr.laneLaw h.lanes).replace (k := k) hl (by rw [le]; exact h1) (by rw [le]; exact h2)
    (by rw [rd]; exact hc)
  have job : ∀ j, ((Machine.setLane k l (holdWindows l.held s)).lane j).job = (s.lane j).job := by
    intro j
    rw [lane_setLane]
    split
    · rename_i e; subst e; exact hj
    · rw [fr.lane]
  refine ⟨fun m => ?_, ⟨?_, fun j => ?_⟩, ll, ?_, ?_⟩
  · have g := fr.placed (h.cadences m)
    have g0 := h.cadences m
    have ec : (holdWindows l.held s).cad m = s.cad m := by simp only [State.cad, fr.cadences]
    refine ⟨g.admitted, g.calendar, g.service, g.closing, fun j => ?_, fun j => ?_⟩
    · rw [job, cad_setLane, ec]; exact g0.lanes j
    · rw [job, cad_setLane, ec]; exact g0.drains j
  · exact (WindowsWith.holdWindows ho h.windows.with).setLane (extra' := fun _ => 0)
      (fun n => by rw [le, hh]; simp)
  · rw [lane_setLane]
    split
    · exact hn
    · rw [fr.lane]; exact h.windows.2 j
  · have e := errandLaneCount_setLane k l (holdWindows l.held s)
    have g := fr.errandLaneLaw h.errandLanes
    have x := holdsErrand_congr hj
    rw [le, x] at e
    unfold ErrandLaneLaw at *
    rw [hdr_setLane]
    omega
  · refine RestLaw.ofActive ?_ ?_
    · unfold Active at *; rw [setLane_bridge, fr.bridge]; exact ha
    · rw [setLane_scanner, fr.scanner]; exact h.rest.notLoads ha

theorem controlReads_holdWindows (l : List WinNo) (s : State) (who : Requester) :
    controlReads (holdWindows l s) who = controlReads s who := by
  have fr := WinFrame.holdWindows l s
  simp only [controlReads, Port.tagList, fr.tagsA, fr.controlQueue]

theorem UnitLaws.startService {s : State} {n : CadNo} (h : LooseLaws n s) {k : LaneNo} (ha : Active s)
    (hk : s.lane k = Lane.idle) (hs : (s.cad n).state = .armed) : UnitLaws (startService k n s) := by
  have hc : controlReads s (.lane k) = 0 := h.lanes.noControl (by rw [hk]; simp [Lane.idle])
  have g := h.atLane (l := { Lane.idle with state := .loading, job := .service n, length := (s.cfg n).length })
    (e := { s.cad n with place := .lane k }) hk (Lane.Lawful.loadingOf _ _ _ _ _) rfl rfl rfl rfl ha
    (Or.inl hs) (fun a => by cases a)
  unfold Machine.startService
  dsimp only
  generalize hS : Machine.setCad n { s.cad n with place := .lane k } (Machine.setLane k
    { Lane.idle with state := .loading, job := .service n, length := (s.cfg n).length } s) = S at g
  have lk : S.lane k =
      { Lane.idle with state := .loading, job := .service n, length := (s.cfg n).length } := by
    rw [← hS, lane_setCad, lane_setLane_same]
  have rd : controlReads S (.lane k) = 0 := by rw [← hS]; exact hc
  have cd : S.cad n = { s.cad n with place := .lane k } := by rw [← hS, cad_setCad_same]
  have ac : Active S := by rw [← hS]; exact ha
  have wn : ∀ m, S.win m = s.win m := by intro m; rw [← hS]; rfl
  split
  · rename_i src dst e1 e2
    have o1 := admitted_opened e1
    have o2 := admitted_opened e2
    have ec : S.cfg n = s.cfg n := by simp only [State.cfg, cd]
    split
    · refine UnitLaws.enterStamping ((Frame.countMiss n S).laws g) k none ?_ ?_ ?_ ?_
      · rw [(Frame.countMiss n S).lane, lk]; simp
      · rw [(Frame.countMiss n S).controlReads]; exact rd
      · rw [(Frame.countMiss n S).lane, lk]; rfl
      · rw [(Frame.countMiss n S).lane, lk]; rfl
    · unfold takeService
      dsimp only
      have w := g.takeWindows (k := k) (l := { Lane.idle with
        state := .loading, job := .service n, length := (s.cfg n).length,
        held := [(s.cfg n).srcWindow, (s.cfg n).dstWindow], srcPort := src.domain, dstPort := dst.domain })
        ac (by
          intro m hm
          rw [wn]
          simp only [List.mem_cons, List.not_mem_nil, or_false] at hm
          rcases hm with rfl | rfl
          · exact o1
          · exact o2) (Nat.le_refl 2) (by rw [lk]; rfl) (by rw [lk]) (Lane.Lawful.loadingOf _ _ _ _ _)
        (by rw [lk]; rfl) (by rw [lk]; rfl) (Or.inl rfl)
      rw [ec, lk]
      refine w.requestControl _ _ _ ?_ ?_
      · unfold Active at *
        rw [setLane_bridge, (WinFrame.holdWindows _ S).bridge]
        exact ac
      · rintro j e
        cases e
        rw [lane_setLane_same, controlReads_setLane, controlReads_holdWindows]
        exact ⟨rfl, rd⟩
  · refine g.loseWindow ?_ ?_ ?_ ?_ rd
    · rw [cd]
    all_goals rw [lk]; rfl

theorem UnitLaws.startClosing {s : State} {n : CadNo} (h : LooseLaws n s) {k : LaneNo} (ha : Active s)
    (hk : s.lane k = Lane.idle) (hs : (s.cad n).state = .draining) : UnitLaws (startClosing k n s) := by
  have hc : controlReads s (.lane k) = 0 := h.lanes.noControl (by rw [hk]; simp [Lane.idle])
  have g := h.atLane
    (l := { Lane.idle with state := .loading, job := .closing n, length := (s.cfg n).length })
    (e := { s.cad n with place := .lane k }) hk (Lane.Lawful.loadingOf _ _ _ _ _) rfl rfl rfl rfl ha
    (Or.inr hs) (fun _ => hs)
  unfold Machine.startClosing
  refine g.requestControl _ _ _ ha ?_
  rintro j e
  cases e
  refine ⟨?_, hc⟩
  rw [lane_setCad, lane_setLane_same]

/-- A free lane takes the record of a job that is no cadence's and holds nothing yet. -/
theorem UnitLaws.giveErrand {s : State} (h : UnitLaws s) {k : LaneNo} {l : Lane} (ha : Active s)
    (hk : s.lane k = Lane.idle) (hl : l.Lawful) (hj : l.job.cadence = none) (hh : l.held = [])
    (hn : errandLaneCount s < s.hdr.errandLanes) : UnitLaws (Machine.setLane k l s) := by
  have hc : controlReads s (.lane k) = 0 := h.lanes.noControl (by rw [hk]; simp [Lane.idle])
  refine ⟨fun m => (h.cadences m).setLane (by rw [hk]; simp [Lane.idle, Job.cadence]) (by rw [hj]; simp),
    ⟨fun m => ?_, fun j => ?_⟩, h.lanes.replace hl (by rw [hk]; rfl) (by rw [hk]; rfl) (Or.inr hc), ?_,
    RestLaw.ofActive ha (h.rest.notLoads ha)⟩
  · have e := windowHolds_setLane k l s m
    rw [hk, hh] at e
    have e2 : windowHolds (Machine.setLane k l s) m = windowHolds s m := by simpa [Lane.idle] using e
    show (s.win m).useCount = windowHolds (Machine.setLane k l s) m ∧ _
    rw [e2]; exact h.windows.1 m
  · rw [lane_setLane]
    split
    · rw [hh]; exact Nat.zero_le _
    · exact h.windows.2 j
  · have e := errandLaneCount_setLane k l s
    rw [hk] at e
    unfold ErrandLaneLaw
    rw [hdr_setLane]
    have x : Lane.idle.holdsErrand = false := rfl
    rw [x] at e
    simp only [Bool.false_eq_true, if_false] at e
    split at e <;> omega

theorem errandStart_take {s : State} {c : Card} {held : List WinNo} {src dst : WinConfig}
    (h : errandStart s c = .take held src dst) :
    held.length ≤ 2 ∧ ∀ n ∈ held, (s.win n).state = .opened := by
  unfold errandStart at h
  split at h
  · split at h
    · rename_i e
      split at h
      · cases h
      · cases h
        refine ⟨by simp, fun n hn => ?_⟩
        rw [List.mem_singleton] at hn
        subst hn
        exact admittedErrand_opened e
    · cases h
  · split at h
    · rename_i e1 e2
      split at h
      · cases h
      · cases h
        refine ⟨by simp, fun n hn => ?_⟩
        simp only [List.mem_cons, List.not_mem_nil, or_false] at hn
        rcases hn with rfl | rfl
        · exact admittedErrand_opened e1
        · exact admittedErrand_opened e2
    · cases h

theorem UnitLaws.startErrand {s : State} (h : UnitLaws s) {k : LaneNo} {e : Errand} (ha : Active s)
    (hk : s.lane k = Lane.idle) (he : e ∈ s.errands)
    (hn : errandLaneCount s < s.hdr.errandLanes) : UnitLaws (startErrand k e s) := by
  have hc : controlReads s (.lane k) = 0 := h.lanes.noControl (by rw [hk]; simp [Lane.idle])
  have hp := h.lanes.progress e he
  have h0 := h.errands _ (runEntry_progress (k := k) (addr := e.card.addr) h.lanes.progress)
  have g := h0.giveErrand (k := k) (l := errandLane e) ha hk
    (Lane.Lawful.errandOf e hp [] .a .a 0 0) rfl rfl hn
  unfold Machine.startErrand
  dsimp only
  generalize hS : Machine.setLane k (errandLane e)
    { s with errands := runEntry k e.card.addr s.errands } = S at g
  have lk : S.lane k = errandLane e := by rw [← hS, lane_setLane_same]
  have rd : controlReads S (.lane k) = 0 := by rw [← hS]; exact hc
  have ac : Active S := by rw [← hS]; exact ha
  have wn : ∀ m, S.win m = s.win m := by intro m; rw [← hS]; rfl
  have ni : (S.lane k).state ≠ .idle := by rw [lk]; simp [errandLane]
  split
  · exact g.enterStamping k _ ni rd (by rw [lk]; rfl) (by rw [lk]; rfl)
  · exact g.enterStamping k _ ni rd (by rw [lk]; rfl) (by rw [lk]; rfl)
  · rename_i held src dst e1
    obtain ⟨n1, n2⟩ := errandStart_take e1
    refine UnitLaws.askSource ?_ k
    refine g.takeWindows (k := k) (l := { errandLane e with
      held := held, srcPort := src.domain, dstPort := dst.domain,
      srcAddr := if e.card.kind = some .fill then 0 else translate src e.card.srcOffset,
      dstAddr := translate dst e.card.dstOffset }) ac ?_ n1 ?_ ?_
      (Lane.Lawful.errandOf e hp _ _ _ _ _) ?_ ?_ (Or.inr rd)
    · intro n hn; rw [wn]; exact n2 n hn
    all_goals simp [lk, errandLane, Lane.idle]

/-! ## The Dispatcher -/

theorem firstEligible_mem {l : List Errand} {e : Errand} (h : firstEligible l = some e) : e ∈ l := by
  cases l with
  | nil => cases h
  | cons x rest =>
    simp only [firstEligible] at h
    split at h
    · cases h; exact List.mem_cons_self
    · exact List.mem_cons_of_mem _ (List.mem_of_find?_eq_some h)

/-- One hand-out keeps the laws. -/
theorem UnitLaws.handOutLane {k : LaneNo} {s t : State} (h : UnitLaws s) (e : handOutLane k s = some t) :
    UnitLaws t := by
  obtain ⟨hb, hi, ⟨n, rest, hr, rfl⟩ | ⟨n, rest, hr, rfl⟩ | ⟨x, hx, rfl⟩⟩ := handOutLane_some e
  · have p := h.popReady (n := n) hr (Or.inl rfl)
    exact UnitLaws.startService p.1 (Or.inl hb) (idle_lane h hi) (p.2.1 rfl)
  · have p := h.popReady (n := n) hr (Or.inr rfl)
    exact UnitLaws.startClosing p.1 (Or.inl hb) (idle_lane h hi) (p.2.2 rfl)
  · unfold errandToStart at hx
    split at hx
    · rename_i hn
      exact h.startErrand (Or.inl hb) (idle_lane h hi) (firstEligible_mem hx) hn.2
    · cases hx

theorem UnitLaws.gate {s : State} (h : UnitLaws s) (x : Gate) : UnitLaws { s with gate := x } :=
  Frame.laws (s := s) { Frame.refl s with } h

theorem UnitLaws.moveGate {s t : State} (h : UnitLaws s) (e : moveGate s = some t) : UnitLaws t := by
  obtain ⟨-, ⟨-, -, rfl⟩ | ⟨-, -, rfl⟩⟩ := moveGate_some e
  · exact (h.gate _).parkRequestLanes
  · exact h.gate _

theorem UnitLaws.dispatch {s : State} (h : UnitLaws s) : UnitLaws (dispatch s) :=
  Follows.dispatch (R := fun s t => UnitLaws s → UnitLaws t)
    ⟨fun _ h => h, fun f g h => g (f h), fun _ _ _ e h => h.handOutLane e, fun _ _ e h => h.moveGate e⟩ s h

end Sys2Proof.Machine
end

