-- ==== Sys2Proof/Laws/UnitJobEnd.lean ====
section
/-! SUPPORT. The unit laws across the end of a job and the work of the Errand Reader, and the lanes the
Dispatcher leaves alone. -/

namespace Sys2Proof.Machine

/-! ## A lane the Dispatcher leaves alone -/

/-- Whether a lane is at rest in its job: it asks for no tag and moves nothing (R58, R69). -/
def Lane.still (l : Lane) : Prop := l.state = .loading ∨ l.state = .stamping

/-- From `s` to `t` the job of a lane stands as it was. -/
structure Kept (k : LaneNo) (s t : State) : Prop where
  state : (t.lane k).state = (s.lane k).state
  job : (t.lane k).job = (s.lane k).job
  held : (t.lane k).held = (s.lane k).held
  reads : controlReads t (.lane k) = controlReads s (.lane k)

namespace Kept

theorem refl (k : LaneNo) (s : State) : Kept k s s := ⟨rfl, rfl, rfl, rfl⟩

theorem trans {k : LaneNo} {s t u : State} (h : Kept k s t) (g : Kept k t u) : Kept k s u :=
  ⟨g.state.trans h.state, g.job.trans h.job, g.held.trans h.held, g.reads.trans h.reads⟩

theorem ofFrame {k : LaneNo} {s t : State} (h : Frame s t) : Kept k s t :=
  ⟨by rw [h.lane], by rw [h.lane], by rw [h.lane], h.controlReads _⟩

theorem ofWinFrame {k : LaneNo} {s t : State} (h : WinFrame s t) : Kept k s t :=
  ⟨by rw [h.lane], by rw [h.lane], by rw [h.lane], by
    simp only [controlReads, Port.tagList, h.tagsA, h.controlQueue]⟩

theorem ofAside {k : LaneNo} {s t : State} (h : Aside s t) : Kept k s t :=
  ⟨by rw [h.lane], by rw [h.lane], by rw [h.lane], h.controlReads _⟩

theorem still {k : LaneNo} {s t : State} (h : Kept k s t) (g : (s.lane k).still) : (t.lane k).still := by
  unfold Lane.still at *
  rw [h.state]
  exact g

theorem setCad (k : LaneNo) (n : CadNo) (e : CadEntry) (s : State) : Kept k s (setCad n e s) :=
  ⟨rfl, rfl, rfl, rfl⟩

theorem setLane_ne {k j : LaneNo} (l : Lane) (s : State) (h : j ≠ k) : Kept k s (setLane j l s) :=
  ⟨by rw [lane_setLane_ne h], by rw [lane_setLane_ne h], by rw [lane_setLane_ne h], rfl⟩

theorem setLane_same (k : LaneNo) (l : Lane) (s : State) (h1 : l.state = (s.lane k).state)
    (h2 : l.job = (s.lane k).job) (h3 : l.held = (s.lane k).held) : Kept k s (setLane k l s) :=
  ⟨by rw [lane_setLane_same, h1], by rw [lane_setLane_same, h2], by rw [lane_setLane_same, h3], rfl⟩

theorem ready (k : LaneNo) (x : List ReadyEntry) (s : State) : Kept k s { s with ready := x } :=
  ⟨rfl, rfl, rfl, rfl⟩

theorem errands (k : LaneNo) (x : List Errand) (s : State) : Kept k s { s with errands := x } :=
  ⟨rfl, rfl, rfl, rfl⟩

theorem reader (k : LaneNo) (x : ReaderPos) (s : State) : Kept k s { s with reader := x } :=
  ⟨rfl, rfl, rfl, rfl⟩

theorem setCadState (k : LaneNo) (n : CadNo) (e : CadEntry) (s : State) : Kept k s (setCadState n e s) :=
  (setCad k n e s).trans (ofFrame (Frame.recordWrite _ _ _ _ _))

theorem releaseEntry (k : LaneNo) (n : CadNo) (s : State) : Kept k s (releaseEntry n s) :=
  ⟨rfl, rfl, rfl, rfl⟩

theorem calendarJoin (k : LaneNo) (n : CadNo) (s : State) : Kept k s (calendarJoin n s) := by
  unfold Machine.calendarJoin
  dsimp only
  split <;> exact ⟨rfl, rfl, rfl, rfl⟩

theorem placeAtJobEnd (k : LaneNo) (n : CadNo) (u : Nat) (s : State) : Kept k s (placeAtJobEnd n u s) := by
  unfold Machine.placeAtJobEnd
  dsimp only
  split
  · exact (setCad k n _ s).trans (calendarJoin k n _)
  all_goals exact ⟨rfl, rfl, rfl, rfl⟩

theorem holdingFault (k : LaneNo) (code : FaultCode) (n : CadNo) (s : State) :
    Kept k s (holdingFault code n s) :=
  ⟨by rw [holdingFault_lane], by rw [holdingFault_lane], by rw [holdingFault_lane],
    controlReads_holdingFault _ _ _ _⟩

end Kept

/-- A lane's grant is no control read. -/
theorem controlReads_grantLane {p : Domain} {t : TagNo} {s : State} (hf : s.tag p t = .free) (k : LaneNo)
    (who : Requester) : controlReads (grantLane p k t s) who = controlReads s who := by
  have fr := lastServed_frame p k s
  have hf1 := (fr.tag p t).trans hf
  unfold grantLane
  dsimp only
  split
  · exact (controlReads_setLane _ _ _ _).trans (fr.controlReads who)
  split
  · unfold issueSegment
    dsimp only
    rw [controlReads_setLane, controlReads_issueRead _ _ _ _ _ hf1, fr.controlReads]
    simp
  · unfold issueConfirm
    dsimp only
    rw [controlReads_setLane, controlReads_issueRead _ _ _ _ _ hf1, fr.controlReads]
    simp

/-- An arbiter's grants leave the number of a requester's control reads as it is. -/
theorem controlReads_arbitrateOnce {p : Domain} {s t : State} (h : arbitrateOnce p s = some t)
    (who : Requester) : controlReads t who = controlReads s who := by
  unfold arbitrateOnce at h
  split at h
  · cases h
  · rename_i g c hp
    have hf := pickTag_free hp
    split at h
    · rename_i r rest hq
      cases h
      exact controlReads_grantControl (s := { s with choice := c }) hf hq who
    · split at h
      · rename_i k _
        split at h
        · cases h
          exact controlReads_grantLane (s := { s with choice := c }) hf k who
        · cases h
      · cases h

theorem controlReads_arbitrate (p : Domain) (s : State) (who : Requester) :
    controlReads (arbitrate p s) who = controlReads s who := by
  unfold arbitrate
  generalize 28 = fuel
  induction fuel generalizing s with
  | zero => rfl
  | succ n ih =>
    unfold arbitrateFuel
    split
    · rename_i t e
      rw [ih, controlReads_arbitrateOnce e]
    · rfl

theorem controlReads_withdrawTag (k : LaneNo) (s : State) (who : Requester) :
    controlReads (withdrawTag k s) who = controlReads s who := by
  unfold withdrawTag returnTag meetGrant
  dsimp only
  rw [controlReads_setLane]
  split
  · rfl
  · split
    · split
      · cases h : arbitrateOnce _ _ with
        | none => rfl
        | some u => exact controlReads_arbitrateOnce (s := { s with choice := s.choice / 2 }) h who
      · rfl
    · rfl

theorem controlReads_requestControl (who other : Requester) (addr : Addr) (length : Nat) (s : State) :
    controlReads (requestControl who addr length s) other =
      controlReads s other + if who = other then 1 else 0 := by
  unfold requestControl
  rw [controlReads_arbitrate]
  simp only [controlReads, List.countP_append, List.countP_cons, List.countP_nil, beq_iff_eq]
  omega

namespace Kept

theorem arbitrate (k : LaneNo) (p : Domain) (s : State) : Kept k s (arbitrate p s) :=
  ⟨(Grants.arbitrate p s).state k, (Grants.arbitrate p s).job k, (Grants.arbitrate p s).held k,
    controlReads_arbitrate _ _ _⟩

theorem withdrawTag {k j : LaneNo} (s : State) : Kept k s (withdrawTag j s) :=
  ⟨(Grants.withdrawTag j s).state k, (Grants.withdrawTag j s).job k, (Grants.withdrawTag j s).held k,
    controlReads_withdrawTag _ _ _⟩

theorem requestControl {k : LaneNo} {who : Requester} (addr : Addr) (length : Nat) (s : State)
    (h : who ≠ .lane k) : Kept k s (requestControl who addr length s) :=
  ⟨((Grants.arbitrate _ _).state k), ((Grants.arbitrate _ _).job k), ((Grants.arbitrate _ _).held k), by
    rw [controlReads_requestControl, if_neg h, Nat.add_zero]⟩

theorem enterStamping {k j : LaneNo} (o : Option Outcome) (s : State) (h : j ≠ k) :
    Kept k s (enterStamping j o s) := by
  unfold Machine.enterStamping
  split
  · exact refl k s
  · exact (ofFrame (Frame.settleService _ _ _ s)).trans (setLane_ne _ _ h)
  · exact setLane_ne _ _ h
  · exact setLane_ne _ _ h

theorem settleLane {k j : LaneNo} (s : State) (h : j ≠ k) : Kept k s (settleLane j s) := by
  unfold Machine.settleLane
  dsimp only
  split
  · exact refl k s
  · split
    · exact enterStamping _ s h
    · exact refl k s

theorem failLane {k j : LaneNo} (o : Outcome) (s : State) (h : j ≠ k) : Kept k s (failLane j o s) :=
  ((setLane_ne _ s h).trans (withdrawTag _)).trans (settleLane _ h)

theorem askTag {k j : LaneNo} (p : Domain) (s : State) (h : j ≠ k) : Kept k s (askTag j p s) := by
  unfold Machine.askTag
  split
  · exact failLane _ s h
  · exact (setLane_ne _ s h).trans (arbitrate k p _)

theorem askSource {k j : LaneNo} (s : State) (h : j ≠ k) : Kept k s (askSource j s) := by
  unfold Machine.askSource
  split
  · exact askTag _ s h
  · exact refl k s

theorem parkComplete {k j : LaneNo} (s : State) (h : j ≠ k) : Kept k s (parkComplete j s) :=
  ((errands k _ s).trans (ofWinFrame (WinFrame.releaseWindows _ _))).trans (setLane_ne _ _ h)

theorem parkProgress {k j : LaneNo} (s : State) (h : j ≠ k) : Kept k s (parkProgress j s) := by
  unfold Machine.parkProgress
  dsimp only
  split
  · split
    · exact askTag _ s h
    · exact parkComplete s h
  · exact refl k s

/-- A park request reaches some lane. -/
theorem parkRequestLane {k : LaneNo} (j : LaneNo) (s : State) (h : (s.lane k).still) :
    Kept k s (parkRequestLane j s) := by
  unfold Machine.parkRequestLane
  dsimp only
  split
  case h_4 =>
    by_cases e : j = k
    · subst e
      split
      · rename_i a
        rcases h with b | b <;> rw [a.1] at b <;> cases b
      · exact setLane_same j _ s rfl rfl rfl
    · split
      · exact (((setLane_ne _ s e).trans (withdrawTag _)).trans (setLane_ne _ _ e)).trans (parkProgress _ e)
      · exact setLane_ne _ s e
  all_goals exact refl k s

theorem parkRequestLanes {k : LaneNo} (s : State) (h : (s.lane k).still) :
    Kept k s (parkRequestLanes s) := by
  have h0 := parkRequestLane 0 s h
  have h1 := parkRequestLane 1 _ (h0.still h)
  have h2 := parkRequestLane 2 _ (h1.still (h0.still h))
  have h3 := parkRequestLane 3 _ (h2.still (h1.still (h0.still h)))
  exact ((h0.trans h1).trans h2).trans h3

theorem loseWindow {k j : LaneNo} (n : CadNo) (s : State) (h : j ≠ k) : Kept k s (loseWindow j n s) :=
  (((holdingFault k _ n s).trans (ofAside (Aside.takeBetween n _))).trans (placeAtJobEnd k n _ _)).trans
    (setLane_ne _ _ h)

theorem startService {k j : LaneNo} (n : CadNo) (s : State) (h : j ≠ k) :
    Kept k s (startService j n s) := by
  have h1 := fun (l : Lane) (e : CadEntry) => (setLane_ne (k := k) l s h).trans (setCad k n e _)
  unfold Machine.startService
  dsimp only
  split
  · split
    · exact (h1 _ _).trans ((ofFrame (Frame.countMiss _ _)).trans (enterStamping _ _ h))
    · exact (h1 _ _).trans (((ofWinFrame (WinFrame.holdWindows _ _)).trans (setLane_ne _ _ h)).trans
        (requestControl _ _ _ (by simpa using h)))
  · exact (h1 _ _).trans (loseWindow _ _ h)

theorem startClosing {k j : LaneNo} (n : CadNo) (s : State) (h : j ≠ k) :
    Kept k s (startClosing j n s) :=
  ((setLane_ne (k := k) _ s h).trans (setCad k n _ _)).trans (requestControl _ _ _ (by simpa using h))

theorem startErrand {k j : LaneNo} (e : Errand) (s : State) (h : j ≠ k) :
    Kept k s (startErrand j e s) := by
  have h1 := (errands k (runEntry j e.card.addr s.errands) s).trans (setLane_ne (errandLane e) _ h)
  unfold Machine.startErrand
  dsimp only
  split
  · exact h1.trans (enterStamping _ _ h)
  · exact h1.trans (enterStamping _ _ h)
  · exact ((h1.trans (ofWinFrame (WinFrame.holdWindows _ _))).trans (setLane_ne _ _ h)).trans
      (askSource _ h)

theorem handOutLane {k j : LaneNo} {s t : State} (e : handOutLane j s = some t) (h : (s.lane k).still) :
    Kept k s t := by
  obtain ⟨-, hi, ht⟩ := handOutLane_some e
  have ne : j ≠ k := by
    rintro rfl
    rcases h with a | a <;> rw [hi] at a <;> cases a
  obtain ⟨n, rest, -, rfl⟩ | ⟨n, rest, -, rfl⟩ | ⟨x, -, rfl⟩ := ht
  · exact (ready k _ s).trans (startService _ _ ne)
  · exact (ready k _ s).trans (startClosing _ _ ne)
  · exact startErrand _ s ne

theorem moveGate {k : LaneNo} {s t : State} (e : moveGate s = some t) (h : (s.lane k).still) :
    Kept k s t := by
  have h0 : ∀ x, Kept k s { s with gate := x } := fun _ => ⟨rfl, rfl, rfl, rfl⟩
  obtain ⟨-, ⟨-, -, rfl⟩ | ⟨-, -, rfl⟩⟩ := moveGate_some e
  · exact (h0 _).trans (parkRequestLanes _ h)
  · exact h0 _

/-- The Dispatcher's work leaves a lane at rest in its job alone. -/
theorem dispatch {k : LaneNo} {s : State} (h : (s.lane k).still) : Kept k s (dispatch s) :=
  Follows.dispatch (R := fun s t => (s.lane k).still → Kept k s t)
    ⟨fun s _ => refl k s, fun f g h => (f h).trans (g ((f h).still h)), fun _ _ _ e h => handOutLane e h,
      fun _ _ e h => moveGate e h⟩ s h

theorem followLink (k : LaneNo) (addr : Addr) (s : State) : Kept k s (followLink addr s) := by
  unfold Machine.followLink
  split
  · exact (reader k _ s).trans (requestControl _ _ _ (by simp))
  · exact reader k _ s

theorem recheckHolding (k : LaneNo) (s : State) : Kept k s (recheckHolding s) := by
  unfold Machine.recheckHolding
  split
  · split
    · exact followLink k _ s
    · exact refl k s
  · exact refl k s

theorem ownerEnd (k : LaneNo) (l : Lane) (u : Nat) (s : State) : Kept k s (ownerEnd l u s) := by
  unfold Machine.ownerEnd
  split
  · exact refl k s
  · exact placeAtJobEnd k _ _ s
  · exact refl k s
  · exact (errands k _ s).trans (recheckHolding k _)

end Kept

/-! ## The Errand Reader -/

theorem Active.of_bridge {s t : State} (h : t.bridge = s.bridge) (ha : Active s) : Active t := by
  unfold Active at *
  rw [h]
  exact ha

theorem UnitLaws.reader {s : State} (h : UnitLaws s) (x : ReaderPos) (ha : Active s) :
    UnitLaws { s with reader := x } := by
  refine ⟨fun n => ?_, h.windows,
    ⟨h.lanes.lawful, h.lanes.recorded, h.lanes.waits, h.lanes.control, h.lanes.progress⟩, h.errandLanes,
    RestLaw.ofActive ha (h.rest.notLoads ha)⟩
  have g := h.cadences n
  exact ⟨g.admitted, g.calendar, g.service, g.closing, g.lanes, g.drains⟩

theorem UnitLaws.followLink {s : State} (h : UnitLaws s) (addr : Addr) (ha : Active s) :
    UnitLaws (followLink addr s) := by
  unfold Machine.followLink
  split
  · exact (h.reader _ ha).requestControl _ _ _ ha (by simp)
  · exact h.reader _ ha

theorem UnitLaws.recheckHolding {s : State} (h : UnitLaws s) (ha : Active s) :
    UnitLaws (recheckHolding s) := by
  unfold Machine.recheckHolding
  split
  · split
    · exact h.followLink _ ha
    · exact h
  · exact h

theorem UnitLaws.actOnLink {s : State} (h : UnitLaws s) (link : Addr) (source : Option Addr)
    (ha : Active s) : UnitLaws (actOnLink link source s) := by
  unfold Machine.actOnLink
  split
  · exact h.reader _ ha
  · split
    · exact h.followLink _ ha
    · exact (Frame.reportFault _ _ _ _).laws (h.reader _ ha)

theorem UnitLaws.chainValue {s : State} (h : UnitLaws s) (link : Addr) (ha : Active s) :
    UnitLaws (chainValue link s) := by
  unfold Machine.chainValue
  split
  · split
    · exact h.actOnLink _ _ ha
    · exact h.actOnLink _ _ ha
    · exact h
  · exact h

theorem UnitLaws.afterTake {s : State} (h : UnitLaws s) (c : Card) (ha : Active s) :
    UnitLaws (afterTake c s) := by
  unfold Machine.afterTake
  split
  · exact (h.reader _ ha).requestControl _ _ _ ha (by simp)
  · exact h.actOnLink _ _ ha

theorem UnitLaws.joinErrand {s : State} (h : UnitLaws s) (c : Card) : UnitLaws (joinErrand c s) := by
  refine h.errands _ fun e he => ?_
  rcases List.mem_append.mp he with a | a
  · exact h.lanes.progress e a
  · rw [List.mem_singleton] at a
    subst a
    rfl

theorem UnitLaws.departErrand {s : State} (h : UnitLaws s) (addr : Addr) (ha : Active s) :
    UnitLaws (departErrand addr s) :=
  UnitLaws.recheckHolding
    (h.errands _ fun e he => h.lanes.progress e (List.mem_filter.mp he).1) ha

/-! ## The end of a job -/

/-- The Dispatcher acts on the end of a job whose lane has nothing left, and the lane becomes IDLE. -/
theorem UnitLaws.endLane {s : State} (h : UnitLaws s) {k : LaneNo} (hs : (s.lane k).still)
    (hj : (s.lane k).job.cadence = none) (hh : (s.lane k).held = [])
    (hc : controlReads s (.lane k) = 0) :
    UnitLaws (Machine.dispatch (Machine.setLane k .idle (Machine.dispatch s))) := by
  have g := h.dispatch
  have kp := Kept.dispatch hs
  have st := kp.still hs
  have hl := g.lanes.lawful k
  refine (g.setIdle k ?_ ?_ ?_ ?_ ?_).dispatch
  · rw [kp.job]; exact hj
  · rw [kp.held]; exact hh
  · rcases st with e | e
    · exact (hl.loading e).1
    · exact (hl.stamping e).1
  · rcases st with e | e
    · exact (hl.loading e).2.2.1
    · exact (hl.stamping e).2.1
  · rw [kp.reads]; exact hc

theorem Lane.leaving_held (l : Lane) : l.leaving.held = [] := rfl

theorem Lane.leaving_job {l : Lane} (h : l.job.cadence = none) : l.leaving.job = l.job := by
  unfold Lane.leaving
  cases e : l.job <;> rw [e] at h <;> first | rfl | (simp [Job.cadence] at h)

theorem Lane.leaving_cadence (l : Lane) : l.leaving.job.cadence = none := by
  unfold Lane.leaving
  cases l.job <;> rfl

theorem Lane.leaving_still {l : Lane} (h : l.still) : l.leaving.still := h

/-- The end of a job, but for a closing job's. -/
theorem UnitLaws.jobEnd {s : State} (h : UnitLaws s) (k : LaneNo) (u : Nat) (hs : (s.lane k).still)
    (hc : controlReads s (.lane k) = 0) (hj : ∀ n, (s.lane k).job ≠ .closing n) :
    UnitLaws (jobEnd k u s) := by
  have hl := h.lanes.lawful k
  have hi : (s.lane k).state ≠ .idle := by rcases hs with e | e <;> simp [e]
  have hm : (s.lane k).state ≠ .moving := by rcases hs with e | e <;> simp [e]
  have h1 : (s.lane k).outstanding = [] := by
    rcases hs with e | e
    · exact (hl.loading e).1
    · exact (hl.stamping e).1
  have h2 : (s.lane k).confirmTag = none := by
    rcases hs with e | e
    · exact (hl.loading e).2.2.1
    · exact (hl.stamping e).2.1
  have ha := h.active hi
  have hr : controlReads (Machine.setLane k (s.lane k).leaving (releaseWindows (s.lane k).held s)) (.lane k) =
      0 := by
    rw [controlReads_setLane, (Kept.ofWinFrame (k := k) (WinFrame.releaseWindows _ s)).reads]; exact hc
  have lk := lane_setLane_same k (s.lane k).leaving (releaseWindows (s.lane k).held s)
  have ab : Active (Machine.setLane k (s.lane k).leaving (releaseWindows (s.lane k).held s)) :=
    ha.of_bridge (WinFrame.releaseWindows _ s).bridge
  unfold Machine.jobEnd
  dsimp only
  have key : UnitLaws (Machine.ownerEnd (s.lane k) u
      (Machine.setLane k (s.lane k).leaving (releaseWindows (s.lane k).held s))) := by
    unfold Machine.ownerEnd
    cases e : (s.lane k).job with
    | closing n => exact absurd e (hj n)
    | none =>
      exact h.giveBack (Lane.leaving_job (by rw [e]; rfl)) rfl (hl.leavingOf hi hm) h1 h2 hc ha
        (by rw [e]; rfl)
    | errand c =>
      exact (h.giveBack (Lane.leaving_job (by rw [e]; rfl)) rfl (hl.leavingOf hi hm) h1 h2 hc ha
        (by rw [e]; rfl)).departErrand _ ab
    | service n =>
      have hp := ((h.cadences n).lanes k).mp (by rw [e]; rfl)
      exact ((h.leaving hp).giveBack (by rw [e]; rfl) hi hm h1 h2 hc ha).placeAtJobEnd u
  have kp := Kept.ownerEnd k (s.lane k) u
    (Machine.setLane k (s.lane k).leaving (releaseWindows (s.lane k).held s))
  refine key.endLane (k := k) (kp.still ?_) ?_ ?_ ?_
  · rw [lk]; exact Lane.leaving_still hs
  · rw [kp.job, lk]; exact Lane.leaving_cadence _
  · rw [kp.held, lk, Lane.leaving_held]
  · rw [kp.reads]; exact hr

/-- The end of a closing job, whose cadence is IDLE at place NONE by then. -/
theorem LeavingLaws.jobEnd {s : State} {n : CadNo} {k : LaneNo} (h : LeavingLaws n k s) (u : Nat)
    (hs : (s.lane k).state = .stamping) (hj : (s.lane k).job = .closing n) (ha : Active s)
    (hp : (s.cad n).place = .none) (hi : (s.cad n).state = .idle) : UnitLaws (jobEnd k u s) := by
  have hl := h.lanes.lawful k
  have hc : controlReads s (.lane k) = 0 := h.lanes.noControl (by simp [hs])
  have ec : (releaseWindows (s.lane k).held s).cad n = s.cad n := by
    simp only [State.cad, (WinFrame.releaseWindows (s.lane k).held s).cadences]
  have lk := lane_setLane_same k (s.lane k).leaving (releaseWindows (s.lane k).held s)
  unfold Machine.jobEnd
  dsimp only
  have key : UnitLaws (Machine.setLane k (s.lane k).leaving (releaseWindows (s.lane k).held s)) := by
    refine (h.giveBack (by rw [hj]; rfl) (by simp [hs]) (by simp [hs]) (hl.stamping hs).1
      (hl.stamping hs).2.1 hc ha).atNone ?_ ?_
    · rw [cad_setLane, ec]; exact hp
    · rw [cad_setLane, ec]; unfold placeAdmitted; rw [hi]; exact hp
  have e : Machine.ownerEnd (s.lane k) u
      (Machine.setLane k (s.lane k).leaving (releaseWindows (s.lane k).held s)) =
      Machine.setLane k (s.lane k).leaving (releaseWindows (s.lane k).held s) := by
    unfold Machine.ownerEnd
    rw [hj]
  rw [e]
  refine key.endLane (k := k) ?_ ?_ ?_ ?_
  · rw [lk]; exact Or.inr hs
  · rw [lk]; exact Lane.leaving_cadence _
  · rw [lk, Lane.leaving_held]
  · rw [controlReads_setLane, (Kept.ofWinFrame (k := k) (WinFrame.releaseWindows _ s)).reads]; exact hc

end Sys2Proof.Machine
end

