-- ==== Sys2Proof/Laws/UnitReads.lean ====
section
/-! SUPPORT. The unit laws across the answers to control reads and the sweeps. -/

namespace Sys2Proof.Machine

/-! ## The tags -/

theorem controlReads_setTag (t : TagNo) (x : Tag) (s : State) (who : Requester) (hx : x.isBusy = false) :
    controlReads (setTag .a t x s) who + (if (s.tag .a t).controls who then 1 else 0) =
      controlReads s who := by
  have hx' : x.controls who = false := by cases x <;> first | rfl | cases hx
  have hmem := tag_mem s t
  have hf : s.portA.tags.toList[t.val]'(by simp) = s.tag .a t := by simp [State.tag, State.port]
  simp only [controlReads, setTag, setPort, State.port, Port.tagList, Vector.toList_set]
  rw [List.countP_set (by simp), hf, hx']
  have : (s.tag .a t).controls who = true → 0 < s.portA.tags.toList.countP (Tag.controls who) := by
    intro a
    exact List.countP_pos_iff.mpr ⟨_, hmem, a⟩
  by_cases a : (s.tag .a t).controls who = true
  · have := this a
    simp only [a, if_true, Bool.false_eq_true, if_false]
    omega
  · simp only [a, if_false, Bool.false_eq_true]
    omega

theorem controlReads_setTag_le (p : Domain) (t : TagNo) (x : Tag) (s : State) (who : Requester)
    (hx : x.isBusy = false) : controlReads (setTag p t x s) who ≤ controlReads s who := by
  cases p with
  | a =>
    have := controlReads_setTag t x s who hx
    omega
  | b => exact Nat.le_refl _

/-- A tag becomes FREE or goes to QUARANTINE. -/
theorem UnitLaws.dropTag {s : State} (h : UnitLaws s) (p : Domain) (t : TagNo) (x : Tag)
    (hx : x.isBusy = false) : UnitLaws (setTag p t x s) := by
  have lane : ∀ k, (setTag p t x s).lane k = s.lane k := fun k => by cases p <;> rfl
  have busy : ∀ q u r timer, (setTag p t x s).tag q u = .busy r timer → s.tag q u = .busy r timer := by
    intro q u r timer e
    rw [tag_setTag] at e
    split at e
    · rw [e] at hx; cases hx
    · exact e
  have idle : ∀ q u, (s.tag q u).isBusy = false → ((setTag p t x s).tag q u).isBusy = false := by
    intro q u e
    rw [tag_setTag]
    split
    · exact hx
    · exact e
  have le := fun who => controlReads_setTag_le p t x s who hx
  refine ⟨fun n => ?_, ?_, ⟨fun k => ?_, fun q u r timer e => ?_, ?_, fun k => ?_, ?_⟩, ?_, ⟨?_, fun a => ?_,
    fun a => ?_⟩⟩
  · have g := h.cadences n
    cases p <;> exact ⟨g.admitted, g.calendar, g.service, g.closing, g.lanes, g.drains⟩
  · cases p <;> exact h.windows
  · rw [lane]; exact h.lanes.lawful k
  · have := h.lanes.recorded q u r timer (busy q u r timer e)
    unfold readRecorded at *
    split <;> rename_i hr <;> rw [hr] at this
    · rw [lane]; exact this
    · exact this
    · exact this
  · cases p <;> exact h.lanes.waits
  · exact Nat.le_trans (le _) (h.lanes.control k)
  · cases p <;> exact h.lanes.progress
  · cases p <;> exact h.errandLanes
  · cases p <;> exact h.rest.loads
  · have a' : s.bridge = .off ∨ s.bridge = .stopped ∨ s.bridge = .halted := by cases p <;> exact a
    obtain ⟨b1, b2, b3, b4, b5⟩ := h.rest.rest a'
    exact ⟨by cases p <;> exact b1, fun k => by rw [lane]; exact b2 k, fun q u => idle q u (b3 q u),
      by cases p <;> exact b4, by cases p <;> exact b5⟩
  · have a' : s.bridge = .loading := by cases p <;> exact a
    obtain ⟨b1, b2, b3, b4, b5, b6⟩ := h.rest.loading a'
    refine ⟨fun k => by rw [lane]; exact b1 k, by cases p <;> exact b2, fun u => idle .b u (b3 u),
      fun u r timer e => b4 u r timer (busy _ _ _ _ e), by cases p <;> exact b5, ?_⟩
    have e : (setTag p t x s).scanner = s.scanner := by cases p <;> rfl
    rw [e]
    exact Nat.le_trans (le _) b6

/-- A tag that is BUSY with a lane's read: lanes are at work. -/
theorem UnitLaws.active_read {s : State} (h : UnitLaws s) {p : Domain} {t : TagNo} {r : ReadInfo}
    {timer : Nat} (e : s.tag p t = .busy r timer) (hr : r.requester ≠ .scanner) : Active s := by
  have nr : ∀ b, s.bridge = b → b = .off ∨ b = .stopped ∨ b = .halted → False := by
    rintro b rfl a
    have := (h.rest.rest a).2.2.1 p t
    rw [e] at this
    cases this
  cases hb : s.bridge with
  | running => exact Or.inl hb
  | quiescing => exact Or.inr hb
  | off => exact absurd (Or.inl rfl) (nr _ hb)
  | stopped => exact absurd (Or.inr (Or.inl rfl)) (nr _ hb)
  | halted => exact absurd (Or.inr (Or.inr rfl)) (nr _ hb)
  | loading =>
    obtain ⟨b1, b2, b3, b4, b5, b6⟩ := h.rest.loading hb
    cases p with
    | a => exact absurd (b4 t r timer e) hr
    | b =>
      have := b3 t
      rw [e] at this
      cases this

/-! ## The answers to a lane's control reads -/

theorem Lane.Lawful.atSlot {l : Lane} (h : l.Lawful) (hs : l.state = .loading) (step : LoadStep)
    (addr : Addr) :
    ({ l with loadStep := step, slotAddr := addr } : Lane).Lawful :=
  { h with idle := fun a => by rw [hs] at a; cases a }

theorem UnitLaws.lentRead {s : State} (h : UnitLaws s) {k : LaneNo} {n : CadNo} (lent : Count)
    (hs : (s.lane k).state = .loading) (hj : (s.lane k).job = .service n)
    (hc : controlReads s (.lane k) = 0) : UnitLaws (lentRead k n lent s) := by
  have hl := h.lanes.lawful k
  have hp := ((h.cadences n).lanes k).mp (by rw [hj]; rfl)
  have fr := Frame.setCad n { s.cad n with lastLent := lent } s rfl rfl
  have g := fr.laws h
  have gp : ((Machine.setCad n { s.cad n with lastLent := lent } s).cad n).place.isLane = true := by
    rw [cad_setCad_same]; show (s.cad n).place.isLane = true; rw [hp]; rfl
  unfold Machine.lentRead
  dsimp only
  generalize Machine.setCad n { s.cad n with lastLent := lent } s = S at fr g gp
  have lk := fr.lane k
  have rd : controlReads S (.lane k) = 0 := (fr.controlReads _).trans hc
  split
  · have f2 := Frame.countMiss n S
    refine UnitLaws.enterStamping (f2.laws g) k none ?_ ?_ ?_ ?_
    · rw [f2.lane, lk]; simp [hs]
    · rw [f2.controlReads]; exact rd
    · rw [f2.lane, lk]; exact (hl.loading hs).1
    · rw [f2.lane, lk]; exact (hl.loading hs).2.2.1
  · split
    · have a := (Aside.holdingFault .lendOverrun n S).trans (Aside.takeBetween n _)
      refine ((g.holdingFault .lendOverrun n gp).takeBetween n).jobEnd k _ ?_ ?_ ?_
      · rw [a.lane, lk]; exact Or.inl hs
      · rw [a.controlReads]; exact rd
      · rw [a.lane, lk, hj]; simp
    · have g2 : UnitLaws (Machine.setLane k
          { S.lane k with
            loadStep := .slot
            slotAddr := slotAddrOf (S.cfg n) ((S.cad n).tally.toNat % (S.cfg n).ringSize) } S) := by
        refine g.lane ?_ ?_ (Or.inl ?_) rfl rfl rfl rfl rfl rfl
        · rw [lk]; simp [hs]
        · exact (g.lanes.lawful k).atSlot (by rw [lk]; exact hs) _ _
        · rw [lk]; exact hs
      refine g2.requestControl _ _ _ ?_ ?_
      · exact g2.active (k := k) (by rw [lane_setLane_same, lk]; simp [hs])
      · rintro j e
        cases e
        rw [lane_setLane_same]
        exact ⟨by rw [lk]; exact hs, rd⟩

theorem UnitLaws.slotRead {s : State} (h : UnitLaws s) {k : LaneNo} (n : CadNo) (bytes : List Byte)
    (hs : (s.lane k).state = .loading) (hc : controlReads s (.lane k) = 0) :
    UnitLaws (slotRead k n bytes s) := by
  have hl := h.lanes.lawful k
  have st : ∀ o, UnitLaws (Machine.enterStamping k o s) := fun o =>
    h.enterStamping k o (by simp [hs]) hc (hl.loading hs).1 (hl.loading hs).2.2.1
  unfold Machine.slotRead
  dsimp only
  split
  · split
    · split
      · exact st _
      · exact UnitLaws.askSource
          (h.lane (by simp [hs]) (hl.toMoving hs _ _) (Or.inr hc) rfl rfl rfl rfl rfl rfl) k
    · exact st _
  · exact st _

theorem UnitLaws.laneControlRead {s : State} (h : UnitLaws s) (k : LaneNo) (bytes : List Byte)
    (hs : (s.lane k).state = .loading) (hc : controlReads s (.lane k) = 0) :
    UnitLaws (laneControlRead k bytes s) := by
  have hl := h.lanes.lawful k
  unfold Machine.laneControlRead
  dsimp only
  split
  · rename_i n e
    split
    · exact h.lentRead _ hs e hc
    · exact h.slotRead n bytes hs hc
  · rename_i n e
    have fr := Frame.setCad n { s.cad n with lastLent := BitVec.ofNat 32 (fieldAt 0 4 bytes) } s rfl rfl
    refine UnitLaws.enterStamping (fr.laws h) k none ?_ ?_ ?_ ?_
    · rw [fr.lane]; simp [hs]
    · rw [fr.controlReads]; exact hc
    · rw [fr.lane]; exact (hl.loading hs).1
    · rw [fr.lane]; exact (hl.loading hs).2.2.1
  · exact h
  · exact h

/-! ## The answers to the Errand Reader's control reads -/

theorem UnitLaws.readerControlRead {s : State} (h : UnitLaws s) (bytes : List Byte) (ha : Active s) :
    UnitLaws (readerControlRead bytes s) := by
  unfold Machine.readerControlRead
  split
  · unfold cardRead
    exact Frame.laws (s := { s with reader := _ }) { Frame.refl _ with } (h.reader _ ha)
  · exact h.actOnLink _ _ ha
  · exact h

/-! ## The Command Scanner in a sweep -/

theorem UnitLaws.scanner {s : State} (h : UnitLaws s) (x : Scanner) (y : Bool) (ha : Active s)
    (hx : x.loads = false) : UnitLaws { s with scanner := x, sweepPending := y } := by
  refine ⟨fun n => ?_, h.windows,
    ⟨h.lanes.lawful, h.lanes.recorded, h.lanes.waits, h.lanes.control, h.lanes.progress⟩, h.errandLanes,
    RestLaw.ofActive ha hx⟩
  have g := h.cadences n
  exact ⟨g.admitted, g.calendar, g.service, g.closing, g.lanes, g.drains⟩

/-- The scanner asks for its next read in a sweep. -/
theorem UnitLaws.sweepAsk {s : State} (h : UnitLaws s) (x : Scanner) (addr : Addr) (length : Nat)
    (ha : Active s) (hx : x.loads = false) :
    UnitLaws (Machine.requestControl .scanner addr length { s with scanner := x }) :=
  (h.scanner x s.sweepPending ha hx).requestControl _ _ _ ha (by simp)

theorem UnitLaws.startSweep {s : State} (h : UnitLaws s) (ha : Active s) : UnitLaws (startSweep s) := by
  unfold Machine.startSweep
  split
  · exact h.sweepAsk _ _ _ ha rfl
  · split
    · exact h.sweepAsk _ _ _ ha rfl
    · exact h.scanner .idle s.sweepPending ha rfl

theorem UnitLaws.endSweep {s : State} (h : UnitLaws s) (ha : Active s) : UnitLaws (endSweep s) := by
  have g := h.scanner .idle false ha rfl
  unfold Machine.endSweep
  dsimp only
  split
  · exact g.startSweep ha
  · exact g

theorem UnitLaws.sweepAfter {s : State} (h : UnitLaws s) (r : Record) (ha : Active s) :
    UnitLaws (sweepAfter r s) := by
  unfold Machine.sweepAfter
  split
  · split
    · exact h.sweepAsk _ _ _ ha rfl
    · unfold sweepChain
      split
      · exact h.sweepAsk _ _ _ ha rfl
      · exact h.endSweep ha
  · exact h.endSweep ha

theorem UnitLaws.requestSweep {s : State} (h : UnitLaws s) : UnitLaws (requestSweep s) := by
  unfold Machine.requestSweep
  split
  · rename_i hb
    split
    · exact h.startSweep (Or.inl hb)
    · exact h.scanner s.scanner true (Or.inl hb) (h.rest.notLoads (Or.inl hb))
  · exact h

theorem UnitLaws.sweepWordRead {s : State} (h : UnitLaws s) (r : Record) (word : List Byte)
    (ha : Active s) : UnitLaws (sweepWordRead r word s) := by
  unfold Machine.sweepWordRead
  split
  · exact h.endSweep ha
  · split
    · exact h.sweepAfter r ha
    · split
      · exact h.sweepAsk _ _ _ ha rfl
      · exact h.scanner (.delivered _) s.sweepPending ha rfl

theorem UnitLaws.sweepFurtherRead {s : State} (h : UnitLaws s) (r : Record) (seq : Byte) (notify : Bool)
    (bytes : List Byte) (ha : Active s) : UnitLaws (sweepFurtherRead r seq notify bytes s) := by
  unfold Machine.sweepFurtherRead
  split
  · exact h.endSweep ha
  · exact h.scanner (.delivered _) s.sweepPending ha rfl

theorem UnitLaws.chainRead {s : State} (h : UnitLaws s) (bytes : List Byte) (ha : Active s) :
    UnitLaws (chainRead bytes s) :=
  (h.chainValue _ ha).endSweep (ha.of_bridge (Steady.chainValue _ s).bridge)

/-- A control request that waits is withdrawn. -/
theorem UnitLaws.withdrawControl {s : State} (h : UnitLaws s) (who : Requester) (ha : Active s) :
    UnitLaws (withdrawControl who s) := by
  refine ⟨fun n => ?_, h.windows,
    ⟨h.lanes.lawful, h.lanes.recorded, fun q hq => h.lanes.waits q (List.mem_filter.mp hq).1, fun k => ?_,
      h.lanes.progress⟩, h.errandLanes, RestLaw.ofActive ha (h.rest.notLoads ha)⟩
  · have g := h.cadences n
    exact ⟨g.admitted, g.calendar, g.service, g.closing, g.lanes, g.drains⟩
  · refine Nat.le_trans ?_ (h.lanes.control k)
    exact Nat.add_le_add_left (List.Sublist.countP_le List.filter_sublist) _

theorem UnitLaws.stopSweep {s : State} (h : UnitLaws s) (ha : Active s) : UnitLaws (stopSweep s) := by
  have w := (h.withdrawControl .scanner ha).endSweep ha
  unfold Machine.stopSweep
  split
  · exact h.endSweep ha
  all_goals first
    | exact h
    | (split
       · exact w
       · exact h)

end Sys2Proof.Machine
end

