-- ==== Sys2Proof/Laws/UnitRest.lean ====
section
/-! SUPPORT. The unit laws across LOADING and the changes of the bridge state, with nothing at work. -/

namespace Sys2Proof.Machine

/-! ## The bridge enters a state in which lanes work -/

theorem placeAdmitted_of_bridge {b c : BridgeState} {e : CadEntry} (hb : b ≠ .halted)
    (h : placeAdmitted b e) : placeAdmitted c e := by
  unfold placeAdmitted at *
  split at h
  · exact h
  · exact fun a => absurd (h a) hb
  · exact h
  · exact h
  · exact ⟨h.1, fun a => absurd (h.2 a) hb⟩

/-- The bridge goes on, in RUNNING or QUIESCING, with the scanner at no LOADING. -/
theorem UnitLaws.toActive {s : State} (h : UnitLaws s) (b : BridgeState) (x : Scanner) (y : Bool)
    (hh : s.bridge ≠ .halted) (hb : b = .running ∨ b = .quiescing) (hx : x.loads = false) :
    UnitLaws { s with bridge := b, scanner := x, sweepPending := y } := by
  refine ⟨fun n => ?_, h.windows,
    ⟨h.lanes.lawful, h.lanes.recorded, h.lanes.waits, h.lanes.control, h.lanes.progress⟩, h.errandLanes,
    RestLaw.ofActive hb hx⟩
  have g := h.cadences n
  exact ⟨placeAdmitted_of_bridge hh g.admitted, g.calendar, g.service, g.closing, g.lanes, g.drains⟩

/-! ## Rest -/

/-- Nothing is at work: every lane is empty, no tag is BUSY, and nobody waits for one. -/
structure AtRest (s : State) : Prop where
  lanes : ∀ k, s.lane k = Lane.idle
  tags : ∀ p t, (s.tag p t).isBusy = false
  queue : s.controlQueue = []

theorem controlReads_zero {s : State} {who : Requester} (ht : ∀ t, (s.tag .a t).isBusy = false)
    (hq : s.controlQueue = []) : controlReads s who = 0 := by
  unfold controlReads
  rw [hq, Nat.add_eq_zero_iff, List.countP_eq_zero]
  refine ⟨fun g hg hc => ?_, rfl⟩
  simp only [Port.tagList, Vector.mem_toList_iff, Vector.mem_iff_getElem] at hg
  obtain ⟨i, hi, e⟩ := hg
  have := ht ⟨i, hi⟩
  simp only [State.tag, State.port, Fin.getElem_fin] at this
  rw [e] at this
  cases g <;> simp [Tag.isBusy, Tag.controls] at this hc

theorem AtRest.laneLaw {s : State} (h : AtRest s)
    (hp : ∀ e ∈ s.errands, e.progress % Config.segmentSize = 0) :
    LaneLaw s := by
  refine ⟨fun k => by rw [h.lanes]; exact .ofIdle, fun p t r timer e => ?_, fun q hq => ?_, fun k => ?_, hp⟩
  · have := h.tags p t
    rw [e] at this
    cases this
  · rw [h.queue] at hq
    cases hq
  · rw [controlReads_zero (h.tags .a) h.queue]
    exact Nat.zero_le _

theorem AtRest.errandLaneLaw {s : State} (h : AtRest s) : ErrandLaneLaw s := by
  unfold ErrandLaneLaw
  have : errandLaneCount s = 0 := by
    rw [errandLaneCount_eq]
    simp [h.lanes, Lane.holdsErrand, Lane.idle]
  rw [this]
  exact Nat.zero_le _

theorem AtRest.windowHolds {s : State} (h : AtRest s) (n : WinNo) : windowHolds s n = 0 := by
  rw [windowHolds_eq]
  simp [h.lanes, Lane.idle]

theorem AtRest.restLaw {s : State} (h : AtRest s)
    (hb : s.bridge = .off ∨ s.bridge = .stopped ∨ s.bridge = .halted) (hs : s.scanner = .idle)
    (hr : s.reader.busy = true → s.bridge = .halted) : RestLaw s := by
  refine ⟨?_, fun _ => ⟨hs, fun k => by rw [h.lanes]; rfl, h.tags, h.queue, hr⟩, ?_⟩
  · rw [hs]; rcases hb with b | b | b <;> simp [b, Scanner.loads]
  · intro a
    rcases hb with b | b | b <;> rw [a] at b <;> cases b

/-- The bridge checks whether it is STOPPED. -/
theorem UnitLaws.checkStopped {s : State} (h : UnitLaws s) : UnitLaws (checkStopped s) := by
  unfold Machine.checkStopped
  split
  · rename_i a
    obtain ⟨hb, hq⟩ := a
    simp only [quiesced, Bool.and_eq_true, List.all_eq_true, beq_iff_eq, Bool.not_eq_true',
      List.isEmpty_iff, noBusy] at hq
    obtain ⟨⟨⟨⟨⟨⟨q1, q2⟩, q3⟩, q4⟩, q5⟩, q6⟩, q7⟩ := hq
    have li : ∀ k, (s.lane k).state = .idle := fun k => q1 _ (by
      simp only [State.lane]
      exact Vector.mem_toList_iff.mpr (Vector.getElem_mem _))
    have tg : ∀ p t, (s.tag p t).isBusy = false := by
      intro p t
      cases p
      · exact q2 _ (tag_mem s t)
      · exact q3 _ (by
          simp only [State.tag, State.port, Port.tagList]
          exact Vector.mem_toList_iff.mpr (Vector.getElem_mem _))
    refine (Frame.raise _ _).laws ⟨fun n => ?_, h.windows,
      ⟨h.lanes.lawful, h.lanes.recorded, h.lanes.waits, h.lanes.control, h.lanes.progress⟩, h.errandLanes,
      AtRest.restLaw ⟨fun k => idle_lane h (li k), tg, q4⟩ (Or.inr (Or.inl rfl)) q5
        (fun a => by dsimp only at a; rw [q6] at a; cases a)⟩
    have g := h.cadences n
    exact ⟨placeAdmitted_of_bridge (by rw [hb]; simp) g.admitted, g.calendar, g.service, g.closing, g.lanes,
      g.drains⟩
  · exact h

/-! ## LOADING -/

/-- At LOADING the scanner alone has a read: with none, nothing is at work. -/
theorem UnitLaws.atRest_loading {s : State} (h : UnitLaws s) (hb : s.bridge = .loading)
    (hz : controlReads s .scanner = 0) : AtRest s := by
  obtain ⟨b1, b2, b3, b4, b5, b6⟩ := h.rest.loading hb
  refine ⟨fun k => idle_lane h (b1 k), fun p t => ?_, ?_⟩
  · cases p with
    | b => exact b3 t
    | a =>
      cases e : s.tag .a t with
      | free => rfl
      | quarantine _ _ => rfl
      | busy r timer =>
        have hr := b4 t r timer e
        have := h.lanes.recorded .a t r timer e
        simp only [readRecorded, hr] at this
        exact absurd this.2 (noControl_tag hz e hr)
  · rw [List.eq_nil_iff_forall_not_mem]
    exact fun q hq => noControl_queue hz hq (b5 q hq)

/-- LOADING goes back to OFF with nothing at work. -/
theorem UnitLaws.returnToOff {s : State} (h : UnitLaws s) (hb : s.bridge = .loading)
    (hr : AtRest s) : UnitLaws (returnToOff s) := by
  obtain ⟨_, b2, _⟩ := h.rest.loading hb
  unfold Machine.returnToOff
  refine (Frame.raise _ _).laws ?_
  generalize hS : ({ s with
      bridge := .off, settings := none, tick := 0, tickTimerOn := false, scanner := .idle,
      loadingStop := false, ackWindows := .replicate 16 none, ackCadences := .replicate 64 none,
      portA := { s.portA with period := Config.longestPeriod },
      portB := { s.portB with period := Config.longestPeriod } } : State) = S
  have rest : AtRest S := by
    subst hS
    exact ⟨hr.lanes, fun p t => by cases p <;> first | exact hr.tags .a t | exact hr.tags .b t, hr.queue⟩
  refine ⟨fun n => ?_, ?_, rest.laneLaw ?_, rest.errandLaneLaw, rest.restLaw ?_ ?_ ?_⟩
  · have g := h.cadences n
    subst hS
    exact ⟨placeAdmitted_of_bridge (by rw [hb]; simp) g.admitted, g.calendar, g.service, g.closing, g.lanes,
      g.drains⟩
  · subst hS; exact h.windows
  · subst hS; exact h.lanes.progress
  · subst hS; exact Or.inl rfl
  · subst hS; rfl
  · subst hS; intro a; dsimp only at a; rw [b2] at a; cases a

/-- The scanner at LOADING, with nothing at work and at most its own read. -/
theorem UnitLaws.loading {s : State} (h : UnitLaws s) (hb : s.bridge = .loading) (hr : AtRest s)
    (x : Scanner) (hx : x.loads = true) : UnitLaws { s with scanner := x } := by
  obtain ⟨b1, b2, b3, b4, b5, b6⟩ := h.rest.loading hb
  refine ⟨fun n => ?_, h.windows,
    ⟨h.lanes.lawful, h.lanes.recorded, h.lanes.waits, h.lanes.control, h.lanes.progress⟩, h.errandLanes,
    ⟨?_, ?_, fun _ => ⟨b1, b2, b3, b4, b5, ?_⟩⟩⟩
  · have g := h.cadences n
    exact ⟨g.admitted, g.calendar, g.service, g.closing, g.lanes, g.drains⟩
  · simp [hx, hb]
  · simp [hb]
  · have : controlReads { s with scanner := x } .scanner = 0 := controlReads_zero (hr.tags .a) hr.queue
    rw [this]
    exact Nat.zero_le _

/-- The scanner asks for a read at LOADING. -/
theorem UnitLaws.loadAsk {s : State} (h : UnitLaws s) (hb : s.bridge = .loading) (hr : AtRest s)
    (x : Scanner) (hx : x.loads = true) (hy : x.loadReads = true) (addr : Addr) (length : Nat) :
    UnitLaws (Machine.requestControl .scanner addr length { s with scanner := x }) := by
  have g := h.loading hb hr x hx
  obtain ⟨b1, b2, b3, b4, b5, b6⟩ := g.rest.loading hb
  have z : ∀ who, controlReads s who = 0 := fun who => controlReads_zero (hr.tags .a) hr.queue
  unfold Machine.requestControl
  refine UnitLaws.arbitrate .a ⟨fun n => ?_, g.windows,
    ⟨g.lanes.lawful, g.lanes.recorded, fun q hq k a => ?_, fun k => ?_, g.lanes.progress⟩, g.errandLanes,
    ⟨g.rest.loads, ?_, fun _ => ⟨b1, b2, b3, b4, fun q hq => ?_, ?_⟩⟩⟩
  · have c := g.cadences n
    exact ⟨c.admitted, c.calendar, c.service, c.closing, c.lanes, c.drains⟩
  · dsimp only at hq
    rw [hr.queue, List.nil_append, List.mem_singleton] at hq
    subst hq
    cases a
  · have : controlReads s (.lane k) = 0 := z _
    simp only [controlReads, List.countP_append, List.countP_cons, List.countP_nil, beq_iff_eq] at this ⊢
    simp
    omega
  · simp [hb]
  · dsimp only at hq
    rw [hr.queue, List.nil_append, List.mem_singleton] at hq
    subst hq
    rfl
  · have : controlReads s .scanner = 0 := z _
    simp only [controlReads, List.countP_append, List.countP_cons, List.countP_nil, beq_iff_eq] at this ⊢
    simp [hy]
    omega

/-- LOADING is complete. -/
theorem UnitLaws.completeLoading {s : State} (h : UnitLaws s) (hb : s.bridge = .loading) :
    UnitLaws (completeLoading s) := by
  have g := h.toActive .running .idle false (by rw [hb]; simp) (Or.inl rfl) rfl
  have g1 : UnitLaws { s with
      bridge := .running, sweepTimer := 0, gate := .opened, scanner := .idle, sweepPending := false } :=
    Frame.laws (s := { s with bridge := .running, scanner := .idle, sweepPending := false })
      { Frame.refl _ with } g
  have g2 := (Frame.raise .state _).laws g1
  unfold Machine.completeLoading
  refine (g2.dispatch).startSweep (Or.inl ?_)
  rw [(Quiet.dispatch _).bridge, (Frame.raise _ _).bridge]

theorem UnitLaws.beginLoadWrites {s : State} (h : UnitLaws s) (hb : s.bridge = .loading) (hr : AtRest s) :
    UnitLaws (beginLoadWrites s) := by
  unfold Machine.beginLoadWrites
  split
  · exact h.loading hb hr _ rfl
  · exact h.completeLoading hb

theorem AtRest.frame {s t : State} (f : Frame s t) (h : AtRest s) : AtRest t :=
  ⟨fun k => (f.lane k).trans (h.lanes k), fun p u => by rw [f.tag]; exact h.tags p u,
    f.controlQueue.trans h.queue⟩

theorem UnitLaws.layoutInvalid {s : State} (h : UnitLaws s) (hb : s.bridge = .loading) (hr : AtRest s) :
    UnitLaws (layoutInvalid s) := by
  have f := Frame.reportFault .layoutInvalid .bridge 0 s
  exact (f.laws h).returnToOff (f.bridge.trans hb) (hr.frame f)

theorem UnitLaws.takeHeader {s : State} (h : UnitLaws s) (x : Settings) (hb : s.bridge = .loading)
    (hr : AtRest s) : UnitLaws (takeHeader x s) ∧ AtRest (takeHeader x s) := by
  have rest : AtRest (Machine.takeHeader x s) :=
    ⟨hr.lanes, fun p t => by cases p <;> first | exact hr.tags .a t | exact hr.tags .b t, hr.queue⟩
  obtain ⟨b1, b2, b3, b4, b5, b6⟩ := h.rest.loading hb
  refine ⟨⟨fun n => ?_, h.windows, rest.laneLaw h.lanes.progress, rest.errandLaneLaw, ⟨h.rest.loads, ?_,
    fun _ => ⟨b1, b2, b3, b4, b5, b6⟩⟩⟩, rest⟩
  · have c := h.cadences n
    exact ⟨c.admitted, c.calendar, c.service, c.closing, c.lanes, c.drains⟩
  · intro a
    have hb' : (Machine.takeHeader x s).bridge = .loading := hb
    rw [hb'] at a
    simp at a

theorem UnitLaws.headerRead {s : State} (h : UnitLaws s) (bytes : List Byte) (hb : s.bridge = .loading)
    (hr : AtRest s) : UnitLaws (headerRead bytes s) := by
  unfold Machine.headerRead
  split
  · exact h.returnToOff hb hr
  · split
    · exact h.layoutInvalid hb hr
    · rename_i x _
      obtain ⟨g, r⟩ := h.takeHeader x hb hr
      dsimp only
      split
      · exact g.loadAsk hb r _ rfl rfl _ _
      · exact g.completeLoading hb

theorem UnitLaws.loadWordRead {s : State} (h : UnitLaws s) (r : Record) (word : List Byte)
    (hb : s.bridge = .loading) (hr : AtRest s) : UnitLaws (loadWordRead r word s) := by
  unfold Machine.loadWordRead
  split
  · exact h.returnToOff hb hr
  · have f := Frame.setAck r (cmdSeqOf word) s
    have hb' := f.bridge.trans hb
    dsimp only
    split
    · exact (f.laws h).loadAsk hb' (hr.frame f) _ rfl rfl _ _
    · exact (f.laws h).beginLoadWrites hb' (hr.frame f)

theorem UnitLaws.loadField {s : State} (h : UnitLaws s) (r : Record) (i : Nat)
    (hs : s.scanner = .loadWrite r i) : UnitLaws (loadField r i s) := by
  have hb := h.rest.loads.mp (by rw [hs]; rfl)
  have hz : controlReads s .scanner = 0 := by
    have := (h.rest.loading hb).2.2.2.2.2
    rw [hs] at this
    simpa [Scanner.loadReads] using this
  have hr := h.atRest_loading hb hz
  unfold Machine.loadField
  split
  · exact h
  · rename_i offset size value _
    have f := Frame.recordWrite r offset size value s
    have hb' := f.bridge.trans hb
    dsimp only
    split
    · exact (f.laws h).loading hb' (hr.frame f) _ rfl
    · split
      · exact (f.laws h).loading hb' (hr.frame f) _ rfl
      · exact (f.laws h).completeLoading hb'

theorem returnToOff_scanner (x : Scanner) (code : FaultCode) (kind : ObjectKind) (number : Nat) (s : State) :
    returnToOff (reportFault code kind number { s with scanner := x }) =
      returnToOff (reportFault code kind number s) := by
  by_cases h : heldWrites s.portA = 0 <;> cases e : s.faultRec <;>
    simp [reportFault, recordFault, raise, setCause, returnToOff, h, e]

theorem UnitLaws.toLoading {s : State} (h : UnitLaws s) (hb : s.bridge = .off) :
    UnitLaws { s with bridge := .loading, scanner := .header } ∧
      AtRest { s with bridge := .loading, scanner := .header } := by
  obtain ⟨b1, b2, b3, b4, b5⟩ := h.rest.rest (Or.inl hb)
  have hr : AtRest s := ⟨fun k => idle_lane h (b2 k), b3, b4⟩
  have rest : AtRest { s with bridge := .loading, scanner := .header } := ⟨hr.lanes, hr.tags, hr.queue⟩
  refine ⟨⟨fun n => ?_, h.windows, rest.laneLaw h.lanes.progress, rest.errandLaneLaw, ⟨?_, ?_,
    fun _ => ⟨b2, ?_, b3 .b, fun t r timer e => ?_, fun q hq => ?_, ?_⟩⟩⟩, rest⟩
  · have g := h.cadences n
    exact ⟨placeAdmitted_of_bridge (by rw [hb]; simp) g.admitted, g.calendar, g.service, g.closing, g.lanes,
      g.drains⟩
  · simp [Scanner.loads]
  · simp
  · cases e : s.reader.busy with
    | false => rfl
    | true => have := b5 e; rw [hb] at this; cases this
  · have := rest.tags .a t
    rw [e] at this
    cases this
  · rw [rest.queue] at hq
    cases hq
  · rw [controlReads_zero (rest.tags .a) rest.queue]
    exact Nat.zero_le _

theorem UnitLaws.beginLoading {s : State} (h : UnitLaws s) (hb : s.bridge = .off) :
    UnitLaws (beginLoading s) := by
  obtain ⟨g, r⟩ := h.toLoading hb
  unfold Machine.beginLoading
  dsimp only
  split
  · exact g.loadAsk rfl r .header rfl rfl _ _
  · have := g.layoutInvalid rfl r
    unfold Machine.layoutInvalid at this ⊢
    exact (returnToOff_scanner .header .layoutInvalid .bridge 0 { s with bridge := .loading }) ▸ this

theorem UnitLaws.stopLoading {s : State} (h : UnitLaws s) (hb : s.bridge = .loading) :
    UnitLaws (stopLoading s) := by
  obtain ⟨b1, b2, b3, b4, b5, b6⟩ := h.rest.loading hb
  have wait : ∀ l : Bool, l = s.scanner.loadReads → controlWaits .scanner s = true →
      UnitLaws (Machine.returnToOff (Machine.withdrawControl .scanner s)) := by
    intro l _ hw
    have hq : s.controlQueue.filter (fun r => r.requester != .scanner) = [] := by
      rw [List.filter_eq_nil_iff]
      intro q hq
      simp [b5 q hq]
    have pos : 0 < s.controlQueue.countP (fun q => q.requester == .scanner) := by
      unfold controlWaits at hw
      rw [List.any_eq_true] at hw
      exact List.countP_pos_iff.mpr hw
    have z : s.portA.tagList.countP (Tag.controls .scanner) = 0 := by
      unfold controlReads at b6
      split at b6 <;> omega
    have wz : controlReads (Machine.withdrawControl .scanner s) .scanner = 0 := by
      unfold controlReads Machine.withdrawControl
      dsimp only
      rw [z, hq]
      rfl
    have g : UnitLaws (Machine.withdrawControl .scanner s) := by
      refine ⟨fun n => ?_, h.windows,
        ⟨h.lanes.lawful, h.lanes.recorded, fun q hq => h.lanes.waits q (List.mem_filter.mp hq).1,
          fun k => ?_, h.lanes.progress⟩, h.errandLanes,
        ⟨h.rest.loads, ?_, fun _ => ⟨b1, b2, b3, b4, fun q hq => b5 q (List.mem_filter.mp hq).1, ?_⟩⟩⟩
      · have g := h.cadences n
        exact ⟨g.admitted, g.calendar, g.service, g.closing, g.lanes, g.drains⟩
      · refine Nat.le_trans ?_ (h.lanes.control k)
        exact Nat.add_le_add_left (List.Sublist.countP_le List.filter_sublist) _
      · have e : (Machine.withdrawControl .scanner s).bridge = .loading := hb
        rw [e]; simp
      · rw [wz]; exact Nat.zero_le _
    exact g.returnToOff hb (g.atRest_loading hb wz)
  have stay : UnitLaws { s with loadingStop := true } := Frame.laws (s := s) { Frame.refl s with } h
  unfold Machine.stopLoading
  split
  · split
    · rename_i e; exact wait _ rfl e
    · exact stay
  · split
    · rename_i e; exact wait _ rfl e
    · exact stay
  · rename_i n1 n2
    refine h.returnToOff hb (h.atRest_loading hb ?_)
    have hl := h.rest.loads.mpr hb
    have : s.scanner.loadReads = false := by
      cases e : s.scanner <;> rw [e] at hl <;> simp [Scanner.loads] at hl <;>
        first | rfl | exact absurd e n1 | exact absurd e (n2 _)
    rw [this] at b6
    simpa using b6

end Sys2Proof.Machine
end

