-- ==== Sys2Proof/Laws/UnitEvents.lean ====
section
/-! SUPPORT. The unit laws across the entry to HALTED, the resets, the answers of the ports, the tick, START
and STOP, the writes of the units and a link-down. -/

namespace Sys2Proof.Machine

/-! ## The entry to HALTED -/

/-- Every window's use count is the given one. -/
def UseCounts (c : WinNo → Nat) (s : State) : Prop :=
  ∀ n, (s.win n).useCount = c n ∧ ((s.win n).state = .closed → (s.win n).useCount = 0) ∧
    ((s.win n).state = .closing → 0 < (s.win n).useCount)

theorem quietRelease_win (n m : WinNo) (s : State) :
    (quietRelease n s).win m =
      if n = m then
        if (s.win n).state = .closing ∧ (s.win n).useCount = 1 then
          { s.win n with state := .closed, config := none, useCount := 0 }
        else { s.win n with useCount := (s.win n).useCount - 1 }
      else s.win m := by
  unfold quietRelease
  dsimp only
  have hd : drains (s.win n) = true ↔ (s.win n).state = .closing ∧ (s.win n).useCount = 1 := by
    simp [drains]
  by_cases e : n = m
  · subst e
    rw [if_pos rfl]
    by_cases d : drains (s.win n) = true
    · rw [if_pos d, if_pos (hd.mp d), win_setWin_same]
    · rw [if_neg d, if_neg (fun a => d (hd.mpr a)), win_setWin_same]
  · rw [if_neg e]
    split <;> rw [win_setWin_ne e]

theorem UseCounts.quietReleases {s : State} {c : WinNo → Nat} {l : List WinNo}
    (h : UseCounts (fun n => l.count n + c n) s) : UseCounts c (quietReleases l s) := by
  induction l generalizing s with
  | nil => simpa [UseCounts, Machine.quietReleases] using h
  | cons n l ih =>
    unfold Machine.quietReleases
    refine ih fun m => ?_
    have g := h m
    rw [quietRelease_win]
    simp only [List.count_cons, beq_iff_eq] at g
    by_cases e : n = m
    · subst e
      simp only [if_true] at g ⊢
      split
      · rename_i a
        simp only [a.2] at g ⊢
        refine ⟨by omega, by simp, by simp⟩
      · rename_i a
        refine ⟨by simp only; omega, fun b => ?_, fun b => ?_⟩
        · have := g.2.1 b; simp only; omega
        · have b' : (s.win n).state = .closing := b
          have : ¬(s.win n).useCount = 1 := fun x => a ⟨b', x⟩
          simp only
          omega
    · simpa [e] using g

theorem WinFrame.quietReleases (l : List WinNo) (s : State) : WinFrame s (quietReleases l s) := by
  induction l generalizing s with
  | nil => exact WinFrame.refl s
  | cons n l ih =>
    refine WinFrame.trans ?_ (ih _)
    unfold quietRelease
    dsimp only
    split <;> exact WinFrame.setWin _ _ s

theorem haltPort_tag (x : Port) (t : TagNo) : ((haltPort x).tags[t]).isBusy = false := by
  simp only [haltPort, Fin.getElem_fin, Vector.getElem_map]
  cases x.tags[t.val] <;> rfl

theorem UnitLaws.enterHalted {s : State} (h : UnitLaws s) : UnitLaws (enterHalted s) := by
  unfold Machine.enterHalted
  dsimp only
  refine (Frame.raise _ _).laws ?_
  unfold dropLanes
  dsimp only
  have w0 : UseCounts (fun n => (s.lane 0).held.count n + ((s.lane 1).held.count n +
      ((s.lane 2).held.count n + ((s.lane 3).held.count n + 0)))) s := fun n => by
    have := h.windows.1 n
    rw [windowHolds_eq] at this
    exact ⟨by simp only; omega, this.2⟩
  have w := w0.quietReleases.quietReleases.quietReleases.quietReleases
  have f := (((WinFrame.quietReleases (s.lane 0).held s).trans
    (WinFrame.quietReleases (s.lane 1).held _)).trans (WinFrame.quietReleases (s.lane 2).held _)).trans
    (WinFrame.quietReleases (s.lane 3).held _)
  generalize quietReleases (s.lane 3).held (quietReleases (s.lane 2).held
    (quietReleases (s.lane 1).held (quietReleases (s.lane 0).held s))) = S at w f
  generalize hT : ({ S with
    lanes := .replicate 4 .idle, cadences := S.cadences.map CadEntry.dropLane, bridge := .halted,
    portA := haltPort S.portA, portB := haltPort S.portB, controlQueue := [], scanner := .idle,
    sweepPending := false, loadingStop := false, tickTimerOn := false } : State) = T
  have ln : ∀ k, T.lane k = Lane.idle := fun k => by
    subst hT
    simp only [State.lane, Fin.getElem_fin, Vector.getElem_replicate]
  have rest : AtRest T := by
    refine ⟨ln, fun p t => ?_, by subst hT; rfl⟩
    subst hT
    cases p <;> exact haltPort_tag _ t
  have cd : ∀ n, T.cad n = (s.cad n).dropLane := fun n => by
    subst hT
    simp only [State.cad, Fin.getElem_fin, Vector.getElem_map, f.cadences]
  have pl : ∀ (e : CadEntry) (x : Place), x.isLane = false → x ≠ .none →
      (e.dropLane.place = x ↔ e.place = x) := by
    intro e x hx hn
    simp only [CadEntry.dropLane]
    split
    · rename_i a
      constructor
      · intro b; exact absurd b.symm hn
      · intro b; rw [b] at a; rw [hx] at a; cases a
    · exact Iff.rfl
  refine ⟨fun n => ?_, ⟨fun n => ?_, fun k => ?_⟩, rest.laneLaw ?_, rest.errandLaneLaw,
    rest.restLaw ?_ ?_ ?_⟩
  · have g := h.cadences n
    have st : (s.cad n).dropLane.state = (s.cad n).state := rfl
    refine ⟨?_, ?_, ?_, ?_, fun k => ?_, fun k a => ?_⟩
    · have hb : T.bridge = .halted := by subst hT; rfl
      have := g.admitted
      rw [cd, hb]
      unfold placeAdmitted at *
      rw [st]
      cases e : (s.cad n).state <;> rw [e] at this <;> dsimp only at this ⊢
      · simp [CadEntry.dropLane, this, Place.isLane]
      · exact fun _ => rfl
      · rcases this with a | a
        · simp [CadEntry.dropLane, a]
        · exact Or.inl (by rw [CadEntry.dropLane, if_pos a])
      · rcases this with a | a
        · simp [CadEntry.dropLane, a]
        · exact Or.inl (by rw [CadEntry.dropLane, if_pos a])
      · refine ⟨fun a => this.1 ((pl _ .calendar rfl (by simp)).mp a), fun _ => rfl⟩
    · have : T.calendar = s.calendar := by subst hT; exact f.calendar
      rw [cd, this, g.calendar]
      simp only [pl _ .calendar rfl (by simp)]
    · have : T.ready = s.ready := by subst hT; exact f.ready
      rw [cd, this, g.service, st]
      simp only [pl _ .ready rfl (by simp)]
    · have : T.ready = s.ready := by subst hT; exact f.ready
      rw [cd, this, g.closing, st]
      simp only [pl _ .ready rfl (by simp)]
    · rw [ln, cd]
      constructor
      · intro a; cases a
      · intro a
        simp only [CadEntry.dropLane] at a
        split at a
        · cases a
        · rename_i b; rw [a] at b; exact absurd rfl b
    · rw [ln] at a; cases a
  · have e : T.win n = S.win n := by subst hT; rfl
    rw [e, rest.windowHolds]
    exact w n
  · rw [ln]; exact Nat.zero_le _
  · have : T.errands = s.errands := by subst hT; exact f.errands
    rw [this]; exact h.lanes.progress
  · subst hT; exact Or.inr (Or.inr rfl)
  · subst hT; rfl
  · subst hT; exact fun _ => rfl

theorem UnitLaws.fatalFault {s : State} (h : UnitLaws s) (code : FaultCode) (kind : ObjectKind) :
    UnitLaws (fatalFault code kind s) := ((Frame.reportFault _ _ _ _).laws h).enterHalted

/-! ## The resets -/

/-- The unit laws hold where the units are at their reset values and no tag is BUSY. -/
theorem UnitLaws.ofReset {s : State} (hb : s.bridge = .off) (h1 : s.cadences = .replicate 64 .reset)
    (h2 : s.windows = .replicate 16 .reset) (h3 : s.lanes = .replicate 4 .idle) (h4 : s.calendar = [])
    (h5 : s.ready = []) (h6 : s.errands = []) (h7 : s.reader = .noCard) (h8 : s.scanner = .idle)
    (h9 : s.controlQueue = []) (ht : ∀ p t, (s.tag p t).isBusy = false) : UnitLaws s := by
  have cd : ∀ n, s.cad n = .reset := fun n => by simp [State.cad, h1]
  have wn : ∀ n, s.win n = .reset := fun n => by simp [State.win, h2]
  have ln : ∀ k, s.lane k = .idle := fun k => by simp [State.lane, h3]
  have rest : AtRest s := ⟨ln, ht, h9⟩
  refine ⟨fun n => ⟨?_, ?_, ?_, ?_, fun k => ?_, fun k a => ?_⟩, ⟨fun n => ?_, fun k => ?_⟩,
    rest.laneLaw ?_, rest.errandLaneLaw, rest.restLaw (Or.inl hb) h8 ?_⟩
  · rw [cd]; rfl
  · rw [h4, cd]; rfl
  · rw [h5, cd]; rfl
  · rw [h5, cd]; rfl
  · rw [ln, cd]
    exact ⟨(fun a => by cases a), (fun a => by cases a)⟩
  · rw [ln] at a; cases a
  · rw [wn, rest.windowHolds]
    exact ⟨rfl, fun _ => rfl, fun a => by cases a⟩
  · rw [ln]; exact Nat.zero_le _
  · rw [h6]; simp
  · rw [h7]; intro a; cases a

theorem UnitLaws.ofPowerOn (s : State) : UnitLaws (powerOn s) :=
  .ofReset rfl rfl rfl rfl rfl rfl rfl rfl rfl rfl fun p t => by
    cases p <;> simp [State.tag, State.port, powerOn, State.reset, Port.reset, Tag.isBusy]

theorem UnitLaws.ofCommonReset (portA : Port) (areaBase : BitVec 64) (enables : BitVec 5) (s : State)
    (ht : ∀ t : TagNo, (portA.tags[t]).isBusy = false) :
    UnitLaws (commonReset portA areaBase enables s) :=
  .ofReset rfl rfl rfl rfl rfl rfl rfl rfl rfl rfl fun p t => by
    cases p with
    | a => exact ht t
    | b =>
      simp only [State.tag, State.port, commonReset, resetPortB, Fin.getElem_fin, Vector.getElem_map]
      cases s.portB.tags[t.val] <;> rfl

/-! ## The answers of the ports -/

theorem UnitLaws.dispatchIfIdle {s : State} (h : UnitLaws s) (k : LaneNo) :
    UnitLaws (dispatchIfIdle k s) := by
  unfold Machine.dispatchIfIdle
  split
  · exact h.dispatch
  · exact h

theorem UnitLaws.scannerControlRead {s : State} (h : UnitLaws s) (bytes : List Byte)
    (ha : s.bridge ≠ .loading → Active s) (hz : s.bridge = .loading → controlReads s .scanner = 0) :
    UnitLaws (scannerControlRead bytes s) := by
  have act : s.scanner.loads = false → Active s := fun a => ha fun b => by
    have := h.rest.loads.mpr b
    rw [a] at this
    cases this
  have load : s.scanner.loads = true → s.bridge = .loading ∧ AtRest s := fun a =>
    have b := h.rest.loads.mp a
    ⟨b, h.atRest_loading b (hz b)⟩
  unfold Machine.scannerControlRead
  split <;> rename_i e
  · have := load (by rw [e]; rfl)
    exact h.headerRead _ this.1 this.2
  · have := load (by rw [e]; rfl)
    exact h.loadWordRead _ _ this.1 this.2
  · exact h.sweepWordRead _ _ (act (by rw [e]; rfl))
  · exact h.sweepFurtherRead _ _ _ _ (act (by rw [e]; rfl))
  · exact h.chainRead _ (act (by rw [e]; rfl))
  all_goals exact h

/-- The requester of a read is handed its answer. -/
theorem UnitLaws.readAnswered {s u : State} (h : UnitLaws s) {p : Domain} {t : TagNo} {r : ReadInfo}
    {timer : Nat} (e : s.tag p t = .busy r timer) {x : Tag} (hx : x.isBusy = false)
    (f : Frame (setTag p t x s) u) (a : ReadAnswer) : UnitLaws (readAnswered t r a u) := by
  have g := f.laws (h.dropTag p t x hx)
  have held := h.lanes.recorded p t r timer e
  have free : (u.tag p t).isBusy = false := by
    rw [f.tag, tag_setTag, if_pos ⟨rfl, rfl⟩]; exact hx
  have lane : ∀ k, u.lane k = s.lane k := fun k => (f.lane k).trans (by cases p <;> rfl)
  have bridge : u.bridge = s.bridge := f.bridge.trans (by cases p <;> rfl)
  have fall : p = .a → r.role = .control → controlReads u r.requester + 1 = controlReads s r.requester := by
    intro hp hr
    subst hp
    have := controlReads_setTag t x s r.requester hx
    rw [f.controlReads, ← this, e]
    simp [Tag.controls, hr]
  unfold Machine.readAnswered
  split
  · rename_i hr
    split
    · unfold controlRead
      split
      · rename_i k hw
        simp only [readRecorded, hw, hr, Lane.records] at held
        have := fall held.1 hr
        have c1 := h.lanes.control k
        rw [hw] at this
        exact g.laneControlRead k _ (by rw [lane]; exact held.2) (by omega)
      · rename_i hw
        exact g.readerControlRead _ ((h.active_read e (by rw [hw]; simp)).of_bridge bridge)
      · rename_i hw
        simp only [readRecorded, hw, hr] at held
        have fl := fall held.1 hr
        rw [hw] at fl
        refine g.scannerControlRead _ (fun b => ?_) (fun b => ?_)
        · refine Active.of_bridge bridge ?_
          rw [bridge] at b
          have nr : ∀ c, s.bridge = c → c = .off ∨ c = .stopped ∨ c = .halted → False := by
            rintro c rfl y
            have := (h.rest.rest y).2.2.1 p t
            rw [e] at this
            cases this
          unfold Active
          cases hb : s.bridge with
          | running => exact Or.inl rfl
          | quiescing => exact Or.inr rfl
          | loading => exact absurd hb b
          | off => exact absurd (Or.inl rfl) (nr _ hb)
          | stopped => exact absurd (Or.inr (Or.inl rfl)) (nr _ hb)
          | halted => exact absurd (Or.inr (Or.inr rfl)) (nr _ hb)
        · rw [bridge] at b
          have := (h.rest.loading b).2.2.2.2.2
          split at this <;> omega
    · exact g.fatalFault _ _
    · exact g.fatalFault _ _
  · rename_i n hr
    split
    · rename_i k hw
      simp only [readRecorded, hw, hr, Lane.records] at held
      exact (g.segmentAnswered k n t a (by rw [lane]; exact held.1) (by
        rw [lane, held.2]; exact free)).dispatchIfIdle k
    · exact g
    · exact g
  · rename_i hr
    split
    · rename_i k hw
      simp only [readRecorded, hw, hr, Lane.records] at held
      exact (g.confirmAnswered k t a (by rw [lane]; exact held.1) (by
        rw [lane, held.2]; exact free)).dispatchIfIdle k
    · exact g
    · exact g

theorem UnitLaws.takeCompletion {s : State} (h : UnitLaws s) (p : Domain) (t : TagNo) (answer : Answer) :
    UnitLaws (takeCompletion p t answer s) := by
  unfold Machine.takeCompletion
  split
  · rename_i r timer e
    unfold answerBusy
    dsimp only
    have f : Frame (setTag p t .free s)
        { setTag p t .free s with freeCount := s.freeCount + drawsFree r.length answer } :=
      { Frame.refl (setTag p t .free s) with }
    exact ((h.readAnswered e rfl f _).arbitrate p).checkStopped
  · exact (h.dropTag p t .free rfl).arbitrate p
  · exact (Frame.reportFault _ _ _ _).laws h

/-! ## The Tick Unit -/

theorem UnitLaws.releaseDue {s : State} (h : UnitLaws s) : UnitLaws (releaseDue s) := by
  unfold Machine.releaseDue
  generalize s.calendar.length = fuel
  induction fuel generalizing s with
  | zero => exact h
  | succ m ih =>
    unfold releaseDueFuel
    split
    · exact h
    · rename_i n rest hc
      split
      · refine ih ((h.releaseEntry n ?_).dispatch)
        have := (h.cadences n).calendar
        rw [hc] at this
        by_cases a : (s.cad n).place = .calendar
        · exact a
        · rw [if_neg a] at this
          simp at this
      · exact h

theorem UnitLaws.runningTick {s : State} (h : UnitLaws s) : UnitLaws (runningTick s) := by
  have count : ∀ {u : State}, UnitLaws u → UnitLaws (countSweepTick u) := by
    intro u g
    unfold countSweepTick
    split
    · exact Frame.laws (s := u) { Frame.refl u with } g
    · exact g
  have tick : ∀ {u : State}, UnitLaws u → UnitLaws { u with tick := u.tick + 1 } := fun {u} g =>
    Frame.laws (s := u) { Frame.refl u with } g
  have expire : UnitLaws (expireSweepTimer s) := by
    unfold expireSweepTimer
    exact (Frame.laws (s := s) (t := { s with sweepTimer := 0 }) { Frame.refl s with } h).requestSweep
  have g : UnitLaws (if sweepDue s then expireSweepTimer s else s) := by
    split
    · exact expire
    · exact h
  unfold Machine.runningTick
  dsimp only
  generalize (if sweepDue s then expireSweepTimer s else s) = u at g
  exact count (UnitLaws.releaseDue (tick g))

/-! ## START and STOP -/

theorem calendarFold_count (s : State) (x : CadNo) (l acc : List CadNo) :
    (l.foldl (fun entries n => calendarInsert s n entries) acc).count x = l.count x + acc.count x := by
  induction l generalizing acc with
  | nil => simp
  | cons n l ih =>
    rw [List.foldl_cons, ih, calendarInsert_count, List.count_cons]
    simp only [beq_iff_eq]
    omega

theorem UnitLaws.recomputeCalendar {s : State} (h : UnitLaws s) : UnitLaws (recomputeCalendar s) := by
  have f := Frame.recomputeDue s.calendar s
  have g := f.laws h
  unfold Machine.recomputeCalendar
  dsimp only
  generalize Machine.recomputeDue s.calendar s = S at f g
  refine ⟨fun n => ?_, g.windows,
    ⟨g.lanes.lawful, g.lanes.recorded, g.lanes.waits, g.lanes.control, g.lanes.progress⟩, g.errandLanes,
    ⟨g.rest.loads, g.rest.rest, g.rest.loading⟩⟩
  have c := g.cadences n
  refine ⟨c.admitted, ?_, c.service, c.closing, c.lanes, c.drains⟩
  show (S.calendar.foldl (fun entries n => calendarInsert S n entries) []).count n = _
  rw [calendarFold_count]
  exact c.calendar

theorem UnitLaws.resumeRunning {s : State} (h : UnitLaws s) (hb : s.bridge = .stopped) :
    UnitLaws (resumeRunning s) := by
  have g0 : UnitLaws { s with bridge := .running } := by
    have hs : s.scanner.loads = false := by
      rw [(h.rest.rest (Or.inr (Or.inl hb))).1]
      rfl
    exact h.toActive .running s.scanner s.sweepPending (by rw [hb]; simp) (Or.inl rfl) hs
  have g1 := g0.recomputeCalendar
  have q := Quiet.recomputeCalendar { s with bridge := .running }
  unfold Machine.resumeRunning
  dsimp only
  generalize Machine.recomputeCalendar { s with bridge := .running } = S at g1 q
  have g2 : UnitLaws { S with sweepTimer := 0 } := Frame.laws (s := S) { Frame.refl S with } g1
  exact g2.dispatch.recheckHolding (Or.inl ((Quiet.dispatch _).bridge.trans q.bridge))

theorem UnitLaws.dispatchIfMoved {s : State} (h : UnitLaws s) (before : State) :
    UnitLaws (dispatchIfMoved before s) := by
  unfold Machine.dispatchIfMoved
  split
  · exact h
  · exact h.dispatch

theorem UnitLaws.ifUndecided {s : State} (h : UnitLaws s) {d : Delivery} {take : State → State}
    (f : UnitLaws s → UnitLaws (take s)) : UnitLaws (ifUndecided d take s) := by
  unfold Machine.ifUndecided
  split
  · exact f h
  · exact h

theorem UnitLaws.beginQuiescing {s : State} (h : UnitLaws s) (hb : s.bridge = .running) :
    UnitLaws (beginQuiescing s) := by
  have g : UnitLaws (settleDelivery s) := by
    unfold settleDelivery
    split
    · exact (h.ifUndecided (fun g => g.takeCommand _)).dispatchIfMoved s
    · exact h
  have q := Quiet.settleDelivery s
  have hs : (settleDelivery s).scanner.loads = false := by
    rw [q.scanner]; exact h.rest.notLoads (Or.inl hb)
  have g1 : UnitLaws { settleDelivery s with bridge := .quiescing } :=
    g.toActive .quiescing (settleDelivery s).scanner (settleDelivery s).sweepPending
      (by rw [q.bridge, hb]; simp) (Or.inr rfl) hs
  exact ((g1.stopSweep (Or.inr rfl)).parkRequestLanes.dispatch).checkStopped

/-! ## The writes of the block's own units -/

theorem Lane.Lawful.stamped {l : Lane} (h : l.Lawful) {item : StampItem} {rest : List StampItem}
    (hs : l.state = .stamping) (hl : l.stampLeft = item :: rest) :
    ({ l with stampLeft := rest } : Lane).Lawful := by
  refine { h with idle := (fun a => by rw [hs] at a; cases a), closing := fun n a b => ?_ }
  rcases h.closing n a b with c | c
  · rw [hl] at c; cases c
  · rw [hl] at c
    cases rest with
    | nil => exact Or.inl rfl
    | cons y rest =>
      refine Or.inr ⟨by simpa using c.1, fun d => c.2 ?_⟩
      rw [List.dropLast_cons_cons]
      exact List.mem_cons_of_mem _ d

/-- The item of a closing job's stamping write is its end exactly where it is the last. -/
theorem Lane.Lawful.closing_item {l : Lane} (h : l.Lawful) {n : CadNo} {item : StampItem}
    {rest : List StampItem} (hs : l.state = .stamping) (hj : l.job = .closing n)
    (hl : l.stampLeft = item :: rest) : item = .closeEnd ↔ rest = [] := by
  rcases h.closing n hj hs with c | c
  · rw [hl] at c; cases c
  · rw [hl] at c
    cases rest with
    | nil => simpa using c.1
    | cons y rest =>
      constructor
      · rintro rfl
        exact absurd (by rw [List.dropLast_cons_cons]; exact List.mem_cons_self) c.2
      · intro a; cases a

theorem Frame.stampServiceItem (k : LaneNo) (n : CadNo) (item : StampItem) (s : State) :
    Frame s (stampServiceItem k n item s) := by
  unfold Machine.stampServiceItem
  dsimp only
  split
  case h_5 =>
    unfold writeServiceTally
    dsimp only
    split
    · exact (Frame.recordWrite _ _ _ _ s).trans (Frame.raise _ _)
    · exact Frame.recordWrite _ _ _ _ s
  case h_6 | h_7 => exact Frame.recordWrite _ _ _ _ s
  case h_8 => exact Frame.refl s
  all_goals exact Frame.areaWrite _ _ _ s

theorem Frame.stampErrandItem (k : LaneNo) (c : Card) (item : StampItem) (s : State) :
    Frame s (stampErrandItem k c item s) := by
  unfold Machine.stampErrandItem
  dsimp only
  split
  case h_5 => exact Frame.refl s
  all_goals exact Frame.areaWrite _ _ _ s

/-- A stamping write of a closing job, but for its end. -/
theorem UnitLaws.stampClosingItem {s : State} (h : UnitLaws s) {k : LaneNo} {n : CadNo} {item : StampItem}
    (hj : (s.lane k).job = .closing n) (hi : item ≠ .closeEnd) :
    UnitLaws (stampClosingItem n item s) := by
  have hp := ((h.cadences n).lanes k).mp (by rw [hj]; rfl)
  unfold Machine.stampClosingItem
  dsimp only
  split
  case h_5 =>
    unfold writeClosingTally
    dsimp only
    refine (Frame.recordWrite _ _ _ _ _).laws ((Frame.setCad n _ _ ?_ ?_).laws ?_)
    · rfl
    · rfl
    · split
      · exact h.holdingFault _ _ (by rw [hp]; rfl)
      · exact h
  case h_6 => exact absurd rfl hi
  case h_7 => exact h
  all_goals exact (Frame.areaWrite _ _ _ s).laws h

theorem UnitLaws.stampWrite {s : State} (h : UnitLaws s) {k : LaneNo} {item : StampItem}
    {rest : List StampItem} (hs : (s.lane k).state = .stamping)
    (hl : (s.lane k).stampLeft = item :: rest) : UnitLaws (stampWrite k item rest s) := by
  have hk := h.lanes.lawful k
  have ha := h.active (k := k) (by simp [hs])
  have g : UnitLaws (Machine.setLane k { s.lane k with stampLeft := rest } s) :=
    h.lane (by simp [hs]) (hk.stamped hs hl) (Or.inr (h.lanes.noControl (by simp [hs]))) rfl rfl rfl rfl rfl
      rfl
  have lk := lane_setLane_same k { s.lane k with stampLeft := rest } s
  unfold Machine.stampWrite
  dsimp only
  generalize Machine.setLane k { s.lane k with stampLeft := rest } s = S at g lk
  have ls : (S.lane k).state = .stamping := by rw [lk]; exact hs
  have aS := g.active (k := k) (by simp [ls])
  -- the end of a job whose item and report the laws do not see
  have ends : ∀ T : State, UnitLaws T → T.lane k = S.lane k → (∀ n, (S.lane k).job ≠ .closing n) →
      UnitLaws (Machine.checkStopped (Machine.jobEnd k (T.lane k).stampTick
        (Machine.afterStamp (T.lane k) T))) := by
    intro T gT lT nc
    have al : (Machine.afterStamp (T.lane k) T).lane k = T.lane k ∧
        UnitLaws (Machine.afterStamp (T.lane k) T) := by
      unfold Machine.afterStamp
      split
      · exact ⟨rfl, gT⟩
      · rename_i n e
        have hp := ((gT.cadences n).lanes k).mp (by rw [e]; rfl)
        unfold afterService
        split
        · split
          · exact ⟨((Aside.holdingFault _ _ _).trans (Aside.takeBetween _ _)).lane k,
              (gT.holdingFault _ _ (by rw [hp]; rfl)).takeBetween _⟩
          · exact ⟨rfl, gT⟩
        · exact ⟨rfl, gT⟩
        · exact ⟨rfl, gT⟩
        · exact ⟨(Frame.reportFault _ _ _ _).lane k, (Frame.reportFault _ _ _ _).laws gT⟩
      · exact ⟨rfl, gT⟩
      · rename_i c e
        have f1 : Frame T (if c.notify then raise .errandNote T else T) := by
          split
          · exact Frame.raise _ T
          · exact Frame.refl T
        unfold afterErrand
        dsimp only
        split
        · exact ⟨f1.lane k, f1.laws gT⟩
        · have f2 := f1.trans (Frame.reportFault .errandError .errand c.takeNo.toNat _)
          exact ⟨f2.lane k, f2.laws gT⟩
    refine (al.2.jobEnd k _ ?_ ?_ ?_).checkStopped
    · rw [al.1, lT]; exact Or.inr ls
    · exact al.2.lanes.noControl (by rw [al.1, lT]; simp [ls])
    · rw [al.1, lT]; exact nc
  unfold Machine.stampItem
  cases hj : (S.lane k).job with
  | none =>
    dsimp only
    split
    · exact ends S g rfl (by simp [hj])
    · exact g
  | service n =>
    dsimp only
    have f := Frame.stampServiceItem k n item S
    split
    · exact ends _ (f.laws g) (f.lane k) (by simp [hj])
    · exact f.laws g
  | errand c =>
    dsimp only
    have f := Frame.stampErrandItem k c item S
    split
    · exact ends _ (f.laws g) (f.lane k) (by simp [hj])
    · exact f.laws g
  | closing n =>
    dsimp only
    have hit := hk.closing_item hs (by rw [lk] at hj; exact hj) hl
    by_cases hr : rest = []
    · rw [if_pos (by rw [hr]; rfl)]
      have hi := hit.mpr hr
      subst hi
      have hp := ((g.cadences n).lanes k).mp (by rw [hj]; rfl)
      have lv := ((Frame.recordWrite (.cadence n) 40 1 CadState.idle.code _).leaving
        ((g.leaving hp).setCad { S.cad n with state := .idle, place := .none }))
      have f : Frame (recordWrite (.cadence n) 40 1 CadState.idle.code
          (Machine.setCad n { S.cad n with state := .idle, place := .none } S))
          (Machine.stampClosingItem n .closeEnd S) := by
        unfold Machine.stampClosingItem writeClosingEnd Machine.setCadState
        dsimp only
        split
        · exact (Frame.recordWrite _ _ _ _ _).trans (Frame.raise _ _)
        · exact Frame.recordWrite _ _ _ _ _
      have lv2 := f.leaving lv
      have fl : (Machine.stampClosingItem n .closeEnd S).lane k = S.lane k := by
        rw [f.lane, (Frame.recordWrite _ _ _ _ _).lane]; rfl
      have fc := f.cads n
      have fb : (Machine.stampClosingItem n .closeEnd S).bridge = S.bridge := by
        rw [f.bridge, (Frame.recordWrite _ _ _ _ _).bridge]; rfl
      have rc := (Frame.recordWrite (.cadence n) 40 1 CadState.idle.code
        (Machine.setCad n { S.cad n with state := .idle, place := .none } S)).cads n
      rw [cad_setCad_same] at rc
      have as : Machine.afterStamp ((Machine.stampClosingItem n .closeEnd S).lane k)
          (Machine.stampClosingItem n .closeEnd S) = Machine.stampClosingItem n .closeEnd S := by
        unfold Machine.afterStamp
        rw [fl, hj]
      rw [as]
      refine (lv2.jobEnd _ (by rw [fl]; exact ls) (by rw [fl]; exact hj) (aS.of_bridge fb) ?_ ?_).checkStopped
      · rw [fc.2, rc.2]
      · rw [fc.1, rc.1]
    · rw [if_neg (by simpa using hr)]
      exact g.stampClosingItem hj fun a => hr (hit.mp a)

theorem UnitLaws.takeStep {s : State} (h : UnitLaws s) (c : Card) (valid : Bool) (item : TakeItem)
    (rest : List TakeItem) (ha : Active s) : UnitLaws (takeStep c valid item rest s) := by
  have f : Frame s (takeWrite c valid item s) := by
    cases item <;> exact Frame.areaWrite _ _ _ s
  have g := f.laws h
  have a1 := ha.of_bridge f.bridge
  unfold Machine.takeStep
  dsimp only
  split
  · unfold endTake
    refine UnitLaws.checkStopped ?_
    split
    · exact ((g.joinErrand c).dispatch).afterTake c (a1.of_bridge (Quiet.dispatch _).bridge)
    · have f2 : Frame (takeWrite c valid item s) (reportBadCard c (takeWrite c valid item s)) := by
        unfold reportBadCard
        dsimp only
        split
        · exact (Frame.reportFault _ _ _ _).trans (Frame.raise _ _)
        · exact Frame.reportFault _ _ _ _
      exact (f2.laws g).afterTake c (a1.of_bridge f2.bridge)
  · exact g.reader _ a1

/-- A take in progress outside HALTED: lanes are at work. -/
theorem UnitLaws.active_reader {s : State} (h : UnitLaws s) (hr : s.reader.busy = true)
    (hh : s.bridge ≠ .halted) : Active s := by
  unfold Active
  cases hb : s.bridge with
  | running => exact Or.inl rfl
  | quiescing => exact Or.inr rfl
  | halted => exact absurd hb hh
  | off => exact absurd ((h.rest.rest (Or.inl hb)).2.2.2.2 hr) hh
  | stopped => exact absurd ((h.rest.rest (Or.inr (Or.inl hb))).2.2.2.2 hr) hh
  | loading =>
    have := (h.rest.loading hb).2.1
    rw [hr] at this
    cases this

/-! ## The peer link -/

theorem Lane.loseB_request (l : Lane) : l.loseB.tagRequest ≠ some .b := by
  unfold Lane.loseB
  dsimp only
  split
  · simp
  · assumption

theorem linkDownLane_portB (k : LaneNo) (s : State) : (linkDownLane k s).portB = s.portB := by
  have stamp : ∀ (o : Option Outcome) (u : State), (enterStamping k o u).portB = u.portB := by
    intro o u
    unfold enterStamping
    split <;> rfl
  have fail : ∀ (o : Outcome) (u : State), (u.lane k).tagRequest ≠ some .b →
      (failLane k o u).portB = u.portB := by
    intro o u hq
    have w := withdrawTag_portB (k := k) (s := setLane k ((u.lane k).failed o) u)
      (by rw [lane_setLane_same]; exact hq) (by rw [lane_setLane_same]; rfl)
    unfold failLane settleLane
    dsimp only
    split
    · exact w
    · split
      · rw [stamp]; exact w
      · exact w
  unfold linkDownLane
  dsimp only
  split <;> try rfl
  all_goals
    split
    · first | rfl | exact fail _ _ (by rw [lane_setLane_same]; exact Lane.loseB_request _)
    · rfl

theorem UnitLaws.linkDown {s : State} (h : UnitLaws s) : UnitLaws (linkDown s) := by
  have g : UnitLaws { s with portB := linkDownPort s.portB, linkUp := false } := by
    have tb : ∀ t, (({ s with portB := linkDownPort s.portB, linkUp := false } : State).tag .b t).isBusy =
        false := by
      intro t
      simp [State.tag, State.port, linkDownPort, Tag.isBusy]
    refine ⟨fun n => ?_, h.windows, ⟨h.lanes.lawful, fun p t r timer e => ?_, h.lanes.waits,
      h.lanes.control, h.lanes.progress⟩, h.errandLanes, ⟨h.rest.loads, fun a => ?_, fun a => ?_⟩⟩
    · have c := h.cadences n
      exact ⟨c.admitted, c.calendar, c.service, c.closing, c.lanes, c.drains⟩
    · cases p with
      | a => exact h.lanes.recorded .a t r timer e
      | b =>
        have := tb t
        rw [e] at this
        cases this
    · obtain ⟨b1, b2, b3, b4⟩ := h.rest.rest a
      refine ⟨b1, b2, fun p t => ?_, b4⟩
      cases p with
      | a => exact b3 .a t
      | b => exact tb t
    · obtain ⟨b1, b2, _, b4⟩ := h.rest.loading a
      exact ⟨b1, b2, tb, b4⟩
  have f := Frame.reportFault .peerDown .port 1
    { s with portB := linkDownPort s.portB, linkUp := false }
  have tb : ∀ t, ((reportFault .peerDown .port 1
      { s with portB := linkDownPort s.portB, linkUp := false }).tag .b t).isBusy = false := by
    intro t
    rw [f.tag]
    simp [State.tag, State.port, linkDownPort, Tag.isBusy]
  have keep : ∀ (k : LaneNo) (u : State), (∀ t, (u.tag .b t).isBusy = false) → UnitLaws u →
      (∀ t, ((Machine.linkDownLane k u).tag .b t).isBusy = false) ∧
        UnitLaws (Machine.linkDownLane k u) := by
    intro k u hu gu
    refine ⟨fun t => ?_, gu.linkDownLane k hu⟩
    have e : (Machine.linkDownLane k u).portB = u.portB := linkDownLane_portB k u
    have := hu t
    simp only [State.tag, State.port, e] at this ⊢
    exact this
  have k0 := keep 0 _ tb (f.laws g)
  have k1 := keep 1 _ k0.1 k0.2
  have k2 := keep 2 _ k1.1 k1.2
  have k3 := keep 3 _ k2.1 k2.2
  unfold Machine.linkDown
  exact k3.2.checkStopped

end Sys2Proof.Machine
end

