-- ==== Sys2Proof/Laws/DispatchEnds.lean ====
section
/-! SUPPORT. The Dispatcher comes to the end of its work at every event: each hand-out and each move of the
gate leaves it less to do. -/

namespace Sys2Proof.Machine

/-! ## What keeps the ready queue and the gate -/

/-- From `s` to `t` the ready queue and the gate stand as they were. -/
structure Gated (s t : State) : Prop where
  ready : t.ready = s.ready
  gate : t.gate = s.gate

namespace Gated

theorem refl (s : State) : Gated s s := ⟨rfl, rfl⟩

theorem trans {s t u : State} (h : Gated s t) (g : Gated t u) : Gated s u :=
  ⟨g.ready.trans h.ready, g.gate.trans h.gate⟩

theorem setLane (k : LaneNo) (l : Lane) (s : State) : Gated s (setLane k l s) := ⟨rfl, rfl⟩

theorem setCad (n : CadNo) (e : CadEntry) (s : State) : Gated s (setCad n e s) := ⟨rfl, rfl⟩

theorem setWin (n : WinNo) (e : WinEntry) (s : State) : Gated s (setWin n e s) := ⟨rfl, rfl⟩

theorem setPort (p : Domain) (x : Port) (s : State) : Gated s (setPort p x s) := by
  cases p <;> exact ⟨rfl, rfl⟩

theorem issueWrite (p : Domain) (w : PostedWrite) (s : State) : Gated s (issueWrite p w s) := by
  unfold Machine.issueWrite
  split
  · exact refl s
  · exact setPort _ _ s

theorem recordWrite (r : Record) (offset size value : Nat) (s : State) :
    Gated s (recordWrite r offset size value s) := by
  unfold Machine.recordWrite areaWrite
  exact issueWrite _ _ _

theorem raise (c : Cause) (s : State) : Gated s (raise c s) := by
  unfold Machine.raise
  split <;> exact ⟨rfl, rfl⟩

theorem reportFault (code : FaultCode) (kind : ObjectKind) (number : Nat) (s : State) :
    Gated s (reportFault code kind number s) := by
  refine trans ?_ (raise _ _)
  unfold recordFault
  split <;> exact ⟨rfl, rfl⟩

theorem grantLane (p : Domain) (k : LaneNo) (t : TagNo) (s : State) : Gated s (grantLane p k t s) := by
  unfold Machine.grantLane
  dsimp only
  split
  · exact (setPort p _ s).trans (setLane k _ _)
  · split
    · exact ((setPort p _ s).trans (setPort p _ _)).trans (setLane k _ _)
    · exact ((setPort p _ s).trans (setPort p _ _)).trans (setLane k _ _)

theorem issueRead (p : Domain) (t : TagNo) (r : ReadInfo) (s : State) :
    Gated s (issueRead p t r s) := by
  unfold Machine.issueRead
  exact setPort _ _ s

theorem grantControl (r : ControlRequest) (rest : List ControlRequest) (t : TagNo) (s : State) :
    Gated s (grantControl r rest t s) :=
  trans (t := { s with controlQueue := rest }) ⟨rfl, rfl⟩ (issueRead _ _ _ _)

theorem withChoice (c : Nat) (s : State) : Gated s { s with choice := c } := ⟨rfl, rfl⟩

theorem arbitrateOnce (p : Domain) (s t : State) (h : arbitrateOnce p s = some t) : Gated s t := by
  unfold Machine.arbitrateOnce at h
  split at h
  · cases h
  · split at h
    · cases h
      exact (withChoice _ s).trans (grantControl _ _ _ _)
    · split at h
      · split at h
        · cases h
          exact (withChoice _ s).trans (grantLane _ _ _ _)
        · cases h
      · cases h

theorem arbitrate (p : Domain) (s : State) : Gated s (arbitrate p s) := by
  unfold Machine.arbitrate
  generalize 28 = fuel
  induction fuel generalizing s with
  | zero => exact refl s
  | succ n ih =>
    unfold arbitrateFuel
    split
    · rename_i t e
      exact (arbitrateOnce p s t e).trans (ih t)
    · exact refl s

theorem withdrawTag (k : LaneNo) (s : State) : Gated s (withdrawTag k s) := by
  refine trans ?_ (setLane k _ _)
  unfold meetGrant
  dsimp only
  split
  · exact refl s
  · split
    · split
      · refine (withChoice (s.choice / 2) s).trans ?_
        cases h : Machine.arbitrateOnce _ _ with
        | none => exact refl _
        | some u => exact arbitrateOnce _ _ u h
      · exact withChoice _ s
    · exact refl s

theorem requestControl (who : Requester) (addr : Addr) (length : Nat) (s : State) :
    Gated s (requestControl who addr length s) := by
  unfold Machine.requestControl
  generalize hS : ({ s with controlQueue := _ } : State) = S
  have h0 : Gated s S := by subst hS; exact ⟨rfl, rfl⟩
  exact h0.trans (arbitrate _ _)

theorem holdWindows (l : List WinNo) (s : State) : Gated s (holdWindows l s) := by
  induction l generalizing s with
  | nil => exact refl s
  | cons n l ih => exact (setWin _ _ s).trans (ih _)

theorem releaseWindow (n : WinNo) (s : State) : Gated s (releaseWindow n s) := by
  unfold Machine.releaseWindow drainWindow setWinState
  dsimp only
  split
  · split
    · exact ((((setWin _ _ s).trans (setWin _ _ _)).trans (recordWrite _ _ _ _ _)).trans
        (recordWrite _ _ _ _ _)).trans (raise _ _)
    · exact (((setWin _ _ s).trans (setWin _ _ _)).trans (recordWrite _ _ _ _ _)).trans
        (recordWrite _ _ _ _ _)
  · exact setWin _ _ s

theorem releaseWindows (l : List WinNo) (s : State) : Gated s (releaseWindows l s) := by
  induction l generalizing s with
  | nil => exact refl s
  | cons n l ih => exact (releaseWindow n s).trans (ih _)

theorem holdingFault (code : FaultCode) (n : CadNo) (s : State) : Gated s (holdingFault code n s) := by
  unfold Machine.holdingFault setCadState
  dsimp only
  refine trans ?_ (reportFault _ _ _ _)
  split
  · exact (setCad _ _ s).trans (recordWrite _ _ _ _ _)
  · exact refl s

theorem enterStamping (k : LaneNo) (o : Option Outcome) (s : State) : Gated s (enterStamping k o s) := by
  unfold Machine.enterStamping
  split <;> exact ⟨rfl, rfl⟩

theorem settleLane (k : LaneNo) (s : State) : Gated s (settleLane k s) := by
  unfold Machine.settleLane
  dsimp only
  split
  · exact refl s
  · split
    · exact enterStamping _ _ s
    · exact refl s

theorem failLane (k : LaneNo) (o : Outcome) (s : State) : Gated s (failLane k o s) :=
  ((setLane _ _ s).trans (withdrawTag _ _)).trans (settleLane _ _)

theorem askTag (k : LaneNo) (p : Domain) (s : State) : Gated s (askTag k p s) := by
  unfold Machine.askTag
  split
  · exact failLane _ _ s
  · exact (setLane _ _ s).trans (arbitrate _ _)

theorem askSource (k : LaneNo) (s : State) : Gated s (askSource k s) := by
  unfold Machine.askSource
  split
  · exact askTag _ _ s
  · exact refl s

theorem parkComplete (k : LaneNo) (s : State) : Gated s (parkComplete k s) := by
  unfold Machine.parkComplete
  dsimp only
  generalize hS : ({ s with errands := _ } : State) = S
  have h0 : Gated s S := by subst hS; exact ⟨rfl, rfl⟩
  exact (h0.trans (releaseWindows _ _)).trans (setLane _ _ _)

theorem parkProgress (k : LaneNo) (s : State) : Gated s (parkProgress k s) := by
  unfold Machine.parkProgress
  dsimp only
  split
  · split
    · exact askTag _ _ s
    · exact parkComplete _ s
  · exact refl s

theorem parkRequestLane (k : LaneNo) (s : State) : Gated s (parkRequestLane k s) := by
  unfold Machine.parkRequestLane
  dsimp only
  split
  case h_4 =>
    split
    · exact (((setLane _ _ s).trans (withdrawTag _ _)).trans (setLane _ _ _)).trans (parkProgress _ _)
    · exact setLane _ _ s
  all_goals exact refl s

theorem parkRequestLanes (s : State) : Gated s (parkRequestLanes s) :=
  (((parkRequestLane 0 s).trans (parkRequestLane 1 _)).trans (parkRequestLane 2 _)).trans
    (parkRequestLane 3 _)

theorem missPeerDown (k : LaneNo) (n : CadNo) (s : State) : Gated s (missPeerDown k n s) :=
  (setCad _ _ s).trans (enterStamping _ _ _)

theorem takeService (k : LaneNo) (n : CadNo) (src dst : WinConfig) (s : State) :
    Gated s (takeService k n src dst s) :=
  ((holdWindows _ s).trans (setLane _ _ _)).trans (requestControl _ _ _ _)

theorem startErrand (k : LaneNo) (e : Errand) (s : State) : Gated s (startErrand k e s) := by
  have h : Gated s (Machine.setLane k (errandLane e)
      { s with errands := runEntry k e.card.addr s.errands }) := ⟨rfl, rfl⟩
  unfold Machine.startErrand
  dsimp only
  split
  · exact h.trans (enterStamping _ _ _)
  · exact h.trans (enterStamping _ _ _)
  · exact ((h.trans (holdWindows _ _)).trans (setLane _ _ _)).trans (askSource _ _)

theorem startClosing (k : LaneNo) (n : CadNo) (s : State) : Gated s (startClosing k n s) :=
  ((setLane _ _ s).trans (setCad _ _ _)).trans (requestControl _ _ _ _)

end Gated

/-! ## What the Dispatcher still has to do -/

/-- The hand-outs a ready queue can still bring: a service that loses its windows may leave its closing
entry. -/
def readyWork (ready : List ReadyEntry) : Nat :=
  2 * ready.countP (fun e => match e with | .service _ => true | .closing _ => false) +
    ready.countP (fun e => match e with | .service _ => false | .closing _ => true)

theorem readyWork_le (ready : List ReadyEntry) : readyWork ready ≤ 2 * ready.length := by
  induction ready with
  | nil => exact Nat.le_refl _
  | cons e ready ih =>
    unfold readyWork at *
    cases e <;> simp only [List.countP_cons, List.length_cons, if_true, Bool.false_eq_true, if_false] <;>
      omega

theorem readyWork_service (n : CadNo) (rest : List ReadyEntry) :
    readyWork (.service n :: rest) = readyWork rest + 2 := by
  simp [readyWork]; omega

theorem readyWork_closing (n : CadNo) (rest : List ReadyEntry) :
    readyWork (.closing n :: rest) = readyWork rest + 1 := by
  simp [readyWork]; omega

theorem readyInsert_perm (s : State) (e : ReadyEntry) (q : List ReadyEntry) :
    (readyInsert s e q).Perm (e :: q) := by
  induction q with
  | nil => exact List.Perm.refl _
  | cons m q ih =>
    unfold readyInsert
    split
    · exact List.Perm.refl _
    · exact (List.Perm.cons m ih).trans (List.Perm.swap e m q)

theorem readyWork_perm {a b : List ReadyEntry} (h : a.Perm b) : readyWork a = readyWork b := by
  unfold readyWork
  rw [h.countP_eq, h.countP_eq]

/-- The lanes that are IDLE. -/
def idleLanes (s : State) : Nat := (List.finRange 4).countP (fun k => (s.lane k).state == .idle)

theorem idleLanes_le (s : State) : idleLanes s ≤ 4 := by
  have := List.countP_le_length (l := List.finRange 4) (p := fun k => (s.lane k).state == .idle)
  simpa [idleLanes] using this

/-- The gate's moves that are left: it can close once and open once. -/
def gateWork (s : State) : Nat :=
  match s.gate with
  | .opened => if s.hdr.gateUpper ≤ s.ready.length then 2 else 0
  | .closed => 1

/-- What the Dispatcher still has to do at an event, which every hand-out and every move of the gate makes
less. -/
def dispatchWork (s : State) : Nat := 5 * (gateWork s + readyWork s.ready) + idleLanes s

theorem dispatchWork_lt (s : State) : dispatchWork s < 10 * s.ready.length + 16 := by
  have h1 := readyWork_le s.ready
  have h2 := idleLanes_le s
  have h3 : gateWork s ≤ 2 := by
    unfold gateWork
    split
    · split <;> omega
    · omega
  unfold dispatchWork
  omega

theorem idleLanes_mono {s t : State} {k : LaneNo} (hk : (s.lane k).state = .idle)
    (h : ∀ j, k ≠ j → (t.lane j).state = (s.lane j).state) :
    idleLanes t ≤ idleLanes s ∧ ((t.lane k).state ≠ .idle → idleLanes t + 1 ≤ idleLanes s) := by
  have e : ∀ u : State, idleLanes u =
      (if (u.lane 0).state = .idle then 1 else 0) + (if (u.lane 1).state = .idle then 1 else 0) +
      (if (u.lane 2).state = .idle then 1 else 0) + (if (u.lane 3).state = .idle then 1 else 0) := by
    intro u
    have : List.finRange 4 = [0, 1, 2, 3] := by decide
    simp only [idleLanes, this, List.countP_cons, List.countP_nil, beq_iff_eq]
    omega
  have b : (if (t.lane k).state = .idle then 1 else 0) ≤ 1 := by split <;> omega
  have c : (t.lane k).state ≠ .idle → (if (t.lane k).state = .idle then 1 else 0) = 0 := fun a => if_neg a
  rw [e, e]
  rcases lane_cases k with rfl | rfl | rfl | rfl <;> simp only [hk, if_true]
  · rw [h 1 (by decide), h 2 (by decide), h 3 (by decide)]
    exact ⟨by omega, fun a => by have := c a; omega⟩
  · rw [h 0 (by decide), h 2 (by decide), h 3 (by decide)]
    exact ⟨by omega, fun a => by have := c a; omega⟩
  · rw [h 0 (by decide), h 1 (by decide), h 3 (by decide)]
    exact ⟨by omega, fun a => by have := c a; omega⟩
  · rw [h 0 (by decide), h 1 (by decide), h 2 (by decide)]
    exact ⟨by omega, fun a => by have := c a; omega⟩

theorem readyWork_sublist {a b : List ReadyEntry} (h : a.Sublist b) : readyWork a ≤ readyWork b := by
  have h1 := h.countP_le (p := fun e => match e with | .service _ => true | .closing _ => false)
  have h2 := h.countP_le (p := fun e => match e with | .service _ => false | .closing _ => true)
  unfold readyWork
  omega

theorem answerCommand_ready (d : Delivery) (result : Result) (s : State) :
    (answerCommand d result s).ready = s.ready := (Frame.answerCommand d result s).ready

theorem recordWrite_ready (r : Record) (offset size value : Nat) (s : State) :
    (recordWrite r offset size value s).ready = s.ready := (Gated.recordWrite r offset size value s).ready

theorem sublist_of_eq {a b : List ReadyEntry} (h : a = b) : a.Sublist b := h ▸ List.Sublist.refl a

/-- A command taken for a cadence in a lane brings nothing into the ready queue. -/
theorem takeBetween_ready (n : CadNo) (s : State) (h : (s.cad n).place.isLane = true) :
    (takeBetween n s).ready.Sublist s.ready := by
  have key : ∀ (d : Delivery) (u : State), (u.cad n).place.isLane = true →
      (takeCadenceCommand n d u).ready.Sublist u.ready := by
    intro d u hp
    unfold takeCadenceCommand
    split
    · unfold takeArm
      dsimp only
      split
      case h_5 =>
        split
        · exact sublist_of_eq (answerCommand_ready _ _ _)
        · split
          · exact sublist_of_eq (answerCommand_ready _ _ _)
          · split
            · exact sublist_of_eq (answerCommand_ready _ _ _)
            · exact sublist_of_eq (((answerCommand_ready _ _ _).trans (recordWrite_ready _ _ _ _ _)).trans
                (NoneDue.rejoin n _ u (firstGridAfter_gt _ _ _)).2)
      all_goals exact sublist_of_eq (answerCommand_ready _ _ _)
    · unfold takePause
      split
      case h_4 | h_5 =>
        rw [answerCommand_ready]
        unfold pauseCadence setCadState
        dsimp only
        rw [recordWrite_ready]
        exact List.filter_sublist
      all_goals exact sublist_of_eq (answerCommand_ready _ _ _)
    · unfold takeResume
      have r : (resumeCadence n u).ready = u.ready := by
        unfold resumeCadence setCadState
        dsimp only
        rw [if_pos hp, recordWrite_ready]
        rfl
      split
      case h_4 | h_5 => exact sublist_of_eq ((answerCommand_ready _ _ _).trans r)
      all_goals exact sublist_of_eq (answerCommand_ready _ _ _)
    · unfold takeRetire
      have r : (retireCadence n d u).ready.Sublist u.ready := by
        unfold retireCadence setCadState
        dsimp only
        rw [if_pos hp, answerCommand_ready, recordWrite_ready]
        exact List.filter_sublist
      split
      case h_3 | h_4 | h_5 => exact r
      all_goals exact sublist_of_eq (answerCommand_ready _ _ _)
    · unfold takeUnknownCadence
      split <;> exact sublist_of_eq (answerCommand_ready _ _ _)
  unfold takeBetween
  split
  · exact List.Sublist.refl _
  · dsimp only
    split
    · exact key _ { s with choice := s.choice / 2 } h
    · exact List.Sublist.refl _

/-- A service that is handed out brings nothing into the ready queue, or its closing entry. -/
theorem startService_ready (k : LaneNo) (n : CadNo) (s : State) :
    (startService k n s).gate = s.gate ∧ ∃ r : List ReadyEntry, r.Sublist s.ready ∧
      ((startService k n s).ready = r ∨ (startService k n s).ready.Perm (.closing n :: r)) := by
  have h1 : ∀ (l : Lane) (e : CadEntry), Gated s (setCad n e (setLane k l s)) := fun _ _ => ⟨rfl, rfl⟩
  unfold startService
  dsimp only
  generalize hS : setCad n _ (setLane k _ s) = S
  have g : Gated s S := by subst hS; exact h1 _ _
  have p : (S.cad n).place.isLane = true := by subst hS; rw [cad_setCad_same]; rfl
  split
  · split
    · have f := g.trans (Gated.missPeerDown k n S)
      exact ⟨f.gate, _, List.Sublist.refl _, Or.inl f.ready⟩
    · rename_i src dst _ _ _
      have f := g.trans (Gated.takeService k n src dst S)
      exact ⟨f.gate, _, List.Sublist.refl _, Or.inl f.ready⟩
  · have f := g.trans (Gated.holdingFault .windowLost n S)
    have sub := takeBetween_ready n (holdingFault .windowLost n S) (by rw [holdingFault_place]; exact p)
    have gt := (Aside.takeBetween n (holdingFault .windowLost n S)).gate
    rw [f.ready] at sub
    rw [f.gate] at gt
    unfold loseWindow placeAtJobEnd
    dsimp only
    generalize takeBetween n (holdingFault .windowLost n S) = T at sub gt
    split
    · refine ⟨?_, T.ready, sub, Or.inl ?_⟩
      · rw [← gt]
        exact (Aside.calendarJoin n _).gate
      · exact (NoneDue.rejoin n _ T (firstGridAfter_gt _ _ _)).2
    · exact ⟨gt, T.ready, sub, Or.inr (readyInsert_perm _ _ _)⟩
    all_goals exact ⟨gt, T.ready, sub, Or.inl rfl⟩

theorem startErrand_busy (k : LaneNo) (e : Errand) (s : State) :
    ((startErrand k e s).lane k).state ≠ .idle := by
  have stamp : ∀ (o : Option Outcome) (u : State), (u.lane k).state ≠ .idle →
      ((enterStamping k o u).lane k).state ≠ .idle := by
    intro o u h
    unfold enterStamping
    split
    · exact h
    · unfold stampService; rw [lane_setLane_same]; simp [Lane.stamping]
    · rw [lane_setLane_same]; simp [Lane.stamping]
    · rw [lane_setLane_same]; simp [Lane.stamping]
  have ask : ∀ u : State, (u.lane k).state ≠ .idle → ((askSource k u).lane k).state ≠ .idle := by
    intro u h
    unfold askSource
    split
    · unfold askTag
      split
      · unfold failLane settleLane
        dsimp only
        have h' : ((withdrawTag k (setLane k ((u.lane k).failed .peerLost) u)).lane k).state ≠ .idle := by
          rw [(Grants.withdrawTag _ _).state, lane_setLane_same]; exact h
        split
        · exact h'
        · split
          · exact stamp _ _ h'
          · exact h'
      · rw [(Grants.arbitrate _ _).state, lane_setLane_same]; exact h
    · exact h
  unfold startErrand
  dsimp only
  split
  · exact stamp _ _ (by rw [lane_setLane_same]; simp [errandLane])
  · exact stamp _ _ (by rw [lane_setLane_same]; simp [errandLane])
  · exact ask _ (by rw [lane_setLane_same]; simp [errandLane])

theorem gateWork_le {s t : State} (hg : t.gate = s.gate) (hr : t.ready.length ≤ s.ready.length)
    (hh : t.hdr = s.hdr) : gateWork t ≤ gateWork s := by
  unfold gateWork
  rw [hg, hh]
  cases s.gate with
  | closed => exact Nat.le_refl _
  | opened =>
    dsimp only
    split <;> split <;> omega

/-- A hand-out leaves the Dispatcher less to do. -/
theorem handOutLane_less {k : LaneNo} {s t : State} (h : handOutLane k s = some t) :
    dispatchWork t < dispatchWork s := by
  have hh : t.hdr = s.hdr := by simp only [State.hdr, (Quiet.handOutLane k s t h).settings]
  obtain ⟨-, hi, ht⟩ := handOutLane_some h
  have hr : readyWork t.ready ≤ readyWork s.ready ∧ t.ready.length ≤ s.ready.length ∧ t.gate = s.gate ∧
      idleLanes t ≤ idleLanes s ∧ (readyWork t.ready = readyWork s.ready → idleLanes t + 1 ≤ idleLanes s) := by
    obtain ⟨n, rest, hr, rfl⟩ | ⟨n, rest, hr, rfl⟩ | ⟨e, -, rfl⟩ := ht
    · obtain ⟨g, q, sub, r⟩ := startService_ready k n { s with ready := rest }
      have sub : q.Sublist rest := sub
      have m := (idleLanes_mono (t := startService k n { s with ready := rest }) hi fun j hj =>
        (Kept.startService (k := j) n { s with ready := rest } hj).state).1
      have w : readyWork (startService k n { s with ready := rest }).ready < readyWork s.ready ∧
          (startService k n { s with ready := rest }).ready.length ≤ s.ready.length := by
        rw [hr, readyWork_service]
        have s1 := readyWork_sublist sub
        have s2 := sub.length_le
        rcases r with r | r
        · rw [r, List.length_cons]; omega
        · rw [readyWork_perm r, r.length_eq, readyWork_closing, List.length_cons, List.length_cons]; omega
      exact ⟨Nat.le_of_lt w.1, w.2, g, m, fun a => absurd a (Nat.ne_of_lt w.1)⟩
    · have g := Gated.startClosing k n { s with ready := rest }
      have m := (idleLanes_mono (t := startClosing k n { s with ready := rest }) hi fun j hj =>
        (Kept.startClosing (k := j) n { s with ready := rest } hj).state).1
      have w : readyWork (startClosing k n { s with ready := rest }).ready < readyWork s.ready ∧
          (startClosing k n { s with ready := rest }).ready.length ≤ s.ready.length := by
        rw [hr, readyWork_closing, g.ready]; simp
      exact ⟨Nat.le_of_lt w.1, w.2, g.gate, m, fun a => absurd a (Nat.ne_of_lt w.1)⟩
    · have g := Gated.startErrand k e s
      have m := (idleLanes_mono (t := startErrand k e s) hi fun j hj =>
        (Kept.startErrand (k := j) e s hj).state).2 (startErrand_busy k e s)
      rw [g.ready]
      exact ⟨Nat.le_refl _, Nat.le_refl _, g.gate, by omega, fun _ => m⟩
  obtain ⟨h1, h2, h3, h4, h5⟩ := hr
  have gw := gateWork_le h3 h2 hh
  unfold dispatchWork
  omega

/-- A move of the gate leaves the Dispatcher less to do. -/
theorem moveGate_less {s t : State} (hb : s.hdr.gateLower < s.hdr.gateUpper) (h : moveGate s = some t) :
    dispatchWork t < dispatchWork s := by
  obtain ⟨-, ⟨e, u, rfl⟩ | ⟨e, u, rfl⟩⟩ := moveGate_some h
  · have g := Gated.parkRequestLanes { s with gate := .closed }
    have m := idleLanes_le (parkRequestLanes { s with gate := .closed })
    have w1 : gateWork (parkRequestLanes { s with gate := .closed }) = 1 := by
      unfold gateWork
      rw [g.gate]
    have w2 : gateWork s = 2 := by
      unfold gateWork
      rw [e]
      simp [u]
    unfold dispatchWork
    rw [w1, w2, g.ready]
    dsimp only
    omega
  · have hh : ({ s with gate := .opened } : State).hdr = s.hdr := rfl
    have w1 : gateWork { s with gate := .opened } = 0 := by
      unfold gateWork
      dsimp only
      rw [hh, if_neg (by omega)]
    have w2 : gateWork s = 1 := by
      unfold gateWork
      rw [e]
    have m : idleLanes { s with gate := .opened } = idleLanes s := rfl
    unfold dispatchWork
    rw [w1, w2, m]
    dsimp only
    omega

/-- A lane that is tried leaves the Dispatcher less to do, or the state as it is. -/
theorem handOutTo_less (k : LaneNo) (s : State) :
    dispatchWork (handOutTo k s) < dispatchWork s ∨ handOutTo k s = s ∧ handOutLane k s = none := by
  unfold handOutTo
  cases e : handOutLane k s with
  | none => exact Or.inr ⟨rfl, rfl⟩
  | some t => exact Or.inl (handOutLane_less e)

/-- A hand-out leaves the Dispatcher less to do, or the state as it is where no lane is given anything. -/
theorem handOut_less (s : State) :
    dispatchWork (handOut s) < dispatchWork s ∨ handOut s = s ∧ ∀ k, handOutLane k s = none := by
  have step : ∀ k u, dispatchWork u < dispatchWork s ∨ u = s →
      dispatchWork (handOutTo k u) < dispatchWork s ∨
        handOutTo k u = s ∧ u = s ∧ handOutLane k s = none := by
    rintro k u (a | rfl)
    · rcases handOutTo_less k u with b | b
      · exact Or.inl (Nat.lt_trans b a)
      · rw [b.1]; exact Or.inl a
    · exact (handOutTo_less k u).imp_right fun b => ⟨b.1, rfl, b.2⟩
  have h0 := step 0 s (Or.inr rfl)
  have h1 := step 1 _ (h0.imp_right And.left)
  have h2 := step 2 _ (h1.imp_right And.left)
  rcases step 3 _ (h2.imp_right And.left) with a | ⟨e, u2, n3⟩
  · exact Or.inl a
  · refine Or.inr ⟨e, ?_⟩
    rw [u2] at h2
    obtain ⟨-, u1, n2⟩ := h2.resolve_left (Nat.lt_irrefl _)
    rw [u1] at h1
    obtain ⟨-, u0, n1⟩ := h1.resolve_left (Nat.lt_irrefl _)
    rw [u0] at h0
    obtain ⟨-, -, n0⟩ := h0.resolve_left (Nat.lt_irrefl _)
    intro k
    rcases lane_cases k with rfl | rfl | rfl | rfl <;> assumption

/-- The Dispatcher rests where no lane is given anything and the gate does not move. -/
theorem dispatcherRests_iff (s : State) :
    dispatcherRests s = true ↔ (∀ k, handOutLane k s = none) ∧ moveGate s = none := by
  simp [dispatcherRests, List.all_eq_true, List.mem_finRange]

/-- An event leaves the Dispatcher less to do, or it rests already. -/
theorem handleEvent_less (s : State) (hb : s.hdr.gateLower < s.hdr.gateUpper) :
    dispatchWork (handleEvent s) < dispatchWork s ∨ handleEvent s = s ∧ dispatcherRests s = true := by
  have hh : (handOut s).hdr = s.hdr := by simp only [State.hdr, (Quiet.follows.handOut s).settings]
  unfold handleEvent
  dsimp only
  cases e : moveGate (handOut s) with
  | some t =>
    have := moveGate_less (by rw [hh]; exact hb) e
    rcases handOut_less s with a | a
    · exact Or.inl (Nat.lt_trans this a)
    · rw [a.1] at this
      exact Or.inl this
  | none =>
    rcases handOut_less s with a | a
    · exact Or.inl a
    · rw [a.1] at e
      exact Or.inr ⟨a.1, (dispatcherRests_iff s).mpr ⟨a.2, e⟩⟩

/-- With fuel above the work that is left, the Dispatcher comes to rest, and more fuel does nothing more. -/
theorem dispatchFuel_ends (fuel : Nat) (s : State) (hb : s.hdr.gateLower < s.hdr.gateUpper)
    (hf : dispatchWork s < fuel) :
    dispatcherRests (dispatchFuel fuel s) = true ∧
      ∀ more, dispatchWork s < more → dispatchFuel more s = dispatchFuel fuel s := by
  induction fuel generalizing s with
  | zero => omega
  | succ n ih =>
    by_cases r : dispatcherRests s = true
    · have st : ∀ m, dispatchFuel m s = s := fun m => by cases m <;> simp [dispatchFuel, r]
      rw [st]
      exact ⟨r, fun more _ => st more⟩
    · have hw := (handleEvent_less s hb).resolve_right fun a => r a.2
      have hh : (handleEvent s).hdr = s.hdr := by
        simp only [State.hdr, (Quiet.follows.handleEvent s).settings]
      have st : ∀ m, dispatchFuel (m + 1) s = dispatchFuel m (handleEvent s) := fun m => by
        simp [dispatchFuel, r]
      obtain ⟨a, b⟩ := ih (handleEvent s) (by rw [hh]; exact hb) (by omega)
      rw [st]
      refine ⟨a, fun more hm => ?_⟩
      cases more with
      | zero => omega
      | succ m => rw [st]; exact b m (by omega)

/-- The Dispatcher's work is that of its first event and then the rest of it, and comes to rest. -/
theorem dispatch_eq (s : State) (hb : s.hdr.gateLower < s.hdr.gateUpper) :
    dispatch s = dispatch (handleEvent s) ∧ dispatcherRests (dispatch s) = true := by
  have w := dispatchWork_lt s
  have hh : (handleEvent s).hdr = s.hdr := by
    simp only [State.hdr, (Quiet.follows.handleEvent s).settings]
  have e := dispatchFuel_ends _ s hb w
  refine ⟨?_, e.1⟩
  rcases handleEvent_less s hb with a | a
  · have f := dispatchFuel_ends _ (handleEvent s) (by rw [hh]; exact hb) (dispatchWork_lt _)
    have r : dispatcherRests s ≠ true := fun r => by
      have := (dispatcherRests_iff s).mp r
      have u : handOut s = s := by simp [handOut, handOutTo, this.1]
      have : handleEvent s = s := by simp [handleEvent, u, this.2]
      rw [this] at a
      exact Nat.lt_irrefl _ a
    show dispatchFuel _ s = dispatchFuel _ (handleEvent s)
    rw [← e.2 (10 * s.ready.length + 16 + 1) (by omega)]
    have st : dispatchFuel (10 * s.ready.length + 16 + 1) s =
        dispatchFuel (10 * s.ready.length + 16) (handleEvent s) := by simp [dispatchFuel, r]
    rw [st]
    exact f.2 _ (by omega)
  · rw [a.1]

end Sys2Proof.Machine
end

