-- ==== Sys2Proof/Laws/PerInstr.lean ====
section
/-! SUPPORT. What the operands of a well-formed command spell, one lemma for each command. -/

namespace Sys2Proof.Laws.OperandForm

/-- A well-formed CONTROL write carries its row's command code (R188), a well-formed discarded write lies
inside the register window and reaches no writable register whole (R192), and a well-formed answer is no
longer than a segment (R119). -/
def Statement (i : Instr) : Prop :=
  i.wellFormed = true →
    match i with
    | .start v => v.toNat % 8 = 1
    | .stop v => v.toNat % 8 = 2
    | .reset v => v.toNat % 8 = 3
    | .setEnables v => v.toNat % 8 ≠ 1 ∧ v.toNat % 8 ≠ 2 ∧ v.toNat % 8 ≠ 3
    | .registerWriteDiscarded offset size _ =>
      offset + size ≤ 64 ∧
        (size = 4 ∨ size = 8 → offset % size = 0 → 32 ≤ offset ∨ offset = 12 ∧ size = 4)
    | .readCompletion _ _ (.data bytes) => bytes.length ≤ 256
    | .lateAnswer _ _ (.data bytes) => bytes.length ≤ 256
    | .strayCompletion _ _ (.data bytes) => bytes.length ≤ 256
    | _ => True

theorem start (v : BitVec 32) : Statement (.start v) := fun h => eq_of_beq h

theorem stop (v : BitVec 32) : Statement (.stop v) := fun h => eq_of_beq h

theorem reset (v : BitVec 32) : Statement (.reset v) := fun h => eq_of_beq h

theorem setEnables (v : BitVec 32) : Statement (.setEnables v) := by
  intro h
  simp only [Instr.wellFormed, controlCommand, Bool.or_eq_true, beq_iff_eq] at h
  have g := h.imp_right of_decide_eq_true
  dsimp only
  omega

theorem nudge (v : BitVec 32) : Statement (.nudge v) := fun _ => trivial

theorem raisedClear (v : BitVec 32) : Statement (.raisedClear v) := fun _ => trivial

theorem faultClear (w : WideWrite) : Statement (.faultClear w) := fun _ => trivial

theorem areaBaseWrite (w : WideWrite) : Statement (.areaBaseWrite w) := fun _ => trivial

theorem registerWriteDiscarded (offset size : Nat) (v : BitVec 64) :
    Statement (.registerWriteDiscarded offset size v) := by
  intro h
  simp only [Instr.wellFormed, writeDiscarded, registerAccess, Bool.and_eq_true, Bool.or_eq_true,
    Bool.not_eq_true', Bool.and_eq_false_iff, Bool.or_eq_false_iff, beq_iff_eq, beq_eq_false_iff_ne,
    decide_eq_true_eq, decide_eq_false_iff_not] at h
  dsimp only
  refine ⟨h.1.2, fun hs hm => ?_⟩
  omega

theorem powerOnReset : Statement .powerOnReset := fun _ => trivial

theorem localReset (cause : LocalCause) : Statement (.localReset cause) := fun _ => trivial

theorem localResetRelease (cause : LocalCause) :
    Statement (.localResetRelease cause) := fun _ => trivial

theorem peerLinkDown : Statement .peerLinkDown := fun _ => trivial

theorem peerLinkUp : Statement .peerLinkUp := fun _ => trivial

theorem tickExpiry : Statement .tickExpiry := fun _ => trivial

theorem sweepTimerExpiry : Statement .sweepTimerExpiry := fun _ => trivial

theorem readCompletion (p : Domain) (t : TagNo) (a : Answer) :
    Statement (.readCompletion p t a) := by
  intro h; cases a
  · exact of_decide_eq_true h
  · trivial

theorem readTimeout (p : Domain) (t : TagNo) : Statement (.readTimeout p t) := fun _ => trivial

theorem lateAnswer (p : Domain) (t : TagNo) (a : Answer) : Statement (.lateAnswer p t a) := by
  intro h; cases a
  · exact of_decide_eq_true h
  · trivial

theorem quarantineExpiry (p : Domain) (t : TagNo) :
    Statement (.quarantineExpiry p t) := fun _ => trivial

theorem strayCompletion (p : Domain) (t : TagNo) (a : Answer) :
    Statement (.strayCompletion p t a) := by
  intro h; cases a
  · exact of_decide_eq_true h
  · trivial

theorem postedWriteSent (source : SendFrom) :
    Statement (.postedWriteSent source) := fun _ => trivial

theorem fillSegmentWrite (k : LaneNo) : Statement (.fillSegmentWrite k) := fun _ => trivial

theorem arm (n : CadNo) : Statement (.arm n) := fun _ => trivial

theorem pause (n : CadNo) : Statement (.pause n) := fun _ => trivial

theorem resume (n : CadNo) : Statement (.resume n) := fun _ => trivial

theorem retire (n : CadNo) : Statement (.retire n) := fun _ => trivial

theorem openWindow (n : WinNo) : Statement (.openWindow n) := fun _ => trivial

theorem closeWindow (n : WinNo) : Statement (.closeWindow n) := fun _ => trivial

theorem unknownCommand (r : Record) : Statement (.unknownCommand r) := fun _ => trivial

theorem stampingWrite (k : LaneNo) : Statement (.stampingWrite k) := fun _ => trivial

theorem takeWrite : Statement .takeWrite := fun _ => trivial

theorem loadingWrite : Statement .loadingWrite := fun _ => trivial

end Sys2Proof.Laws.OperandForm
end

