-- ==== Sys2Proof/Laws/Reads.lean ====
section
/-! SUPPORT. What the arbiter of Port A and the Command Scanner's requests leave alone: the relations
`ReadsOnly` and `SweepsOn`, one lemma for each operation. -/

namespace Sys2Proof.Machine

namespace ReadsOnly

theorem refl (s : State) : ReadsOnly s s := ⟨rfl, fun _ => rfl, rfl, rfl⟩

theorem trans {s t u : State} (h : ReadsOnly s t) (g : ReadsOnly t u) : ReadsOnly s u := by
  refine ⟨?_, fun k => (g.lanes k).trans (h.lanes k), g.period.trans h.period,
    g.writes.trans h.writes⟩
  rw [g.rest, h.rest]

theorem choice (x : Nat) (s : State) : ReadsOnly s { s with choice := x } :=
  ⟨rfl, fun _ => rfl, rfl, rfl⟩

theorem controlQueue (x : List ControlRequest) (s : State) :
    ReadsOnly s { s with controlQueue := x } := ⟨rfl, fun _ => rfl, rfl, rfl⟩

/-- Port A's tags, rotation and reads. -/
theorem portA (x : Port) (s : State) (hp : x.period = s.portA.period)
    (hw : x.writes = s.portA.writes) : ReadsOnly s { s with portA := x } :=
  ⟨rfl, fun _ => rfl, hp, hw⟩

theorem setLane (k : LaneNo) (l : Lane) (s : State) (h : l.work = (s.lane k).work) :
    ReadsOnly s (setLane k l s) := by
  refine ⟨rfl, fun j => ?_, rfl, rfl⟩
  by_cases e : k = j
  · subst e; simpa using h
  · simp [lane_setLane_ne e]

theorem issueRead (t : TagNo) (r : ReadInfo) (s : State) : ReadsOnly s (issueRead .a t r s) := by
  unfold Machine.issueRead
  refine portA _ s rfl ?_
  simp only [Port.writes, sendReads_writes, List.filterMap_append]
  simp [State.port, Request.write?]

theorem asking_work (l : Lane) : l.asking.work = l.work := by
  unfold Lane.asking
  split <;> rfl

theorem grantLane (k : LaneNo) (t : TagNo) (s : State) : ReadsOnly s (grantLane .a k t s) := by
  have h0 : ReadsOnly s (setPort .a { s.port .a with lastServed := k } s) := portA _ s rfl rfl
  unfold Machine.grantLane
  dsimp only
  split
  · exact h0.trans (setLane k _ _ rfl)
  · split
    · refine h0.trans ((issueRead _ _ _).trans (setLane k _ _ ?_))
      rw [asking_work]; rfl
    · exact h0.trans ((issueRead _ _ _).trans (setLane k _ _ rfl))

theorem arbitrateOnce (s t : State) (h : arbitrateOnce .a s = some t) : ReadsOnly s t := by
  unfold Machine.arbitrateOnce at h
  split at h
  · simp at h
  · rename_i t0 c hp
    split at h
    · cases h
      exact (choice c s).trans ((controlQueue _ _).trans (issueRead _ _ _))
    · split at h
      · split at h
        · cases h
          exact (choice c s).trans (grantLane _ _ _)
        · simp at h
      · simp at h

theorem arbitrate (s : State) : ReadsOnly s (arbitrate .a s) := by
  unfold Machine.arbitrate
  generalize 28 = fuel
  induction fuel generalizing s with
  | zero => exact refl s
  | succ n ih =>
    unfold arbitrateFuel
    split
    · rename_i t h
      exact (arbitrateOnce _ _ h).trans (ih _)
    · exact refl s

theorem requestControl (who : Requester) (addr : Addr) (length : Nat) (s : State) :
    ReadsOnly s (requestControl who addr length s) := (controlQueue _ s).trans (arbitrate _)

end ReadsOnly

namespace SweepsOn

theorem of (scanner : Scanner) (sweepPending : Bool) {s t : State}
    (h : ReadsOnly { s with scanner, sweepPending } t) : SweepsOn s t := ⟨scanner, sweepPending, h⟩

/-- What went before only moved the scanner. -/
theorem lift (scanner : Scanner) (sweepPending : Bool) {s t : State}
    (h : SweepsOn { s with scanner, sweepPending } t) : SweepsOn s t := by
  obtain ⟨a, b, h⟩ := h
  exact ⟨a, b, h⟩

theorem startSweep (s : State) : SweepsOn s (startSweep s) := by
  unfold Machine.startSweep
  split
  · exact of _ s.sweepPending (ReadsOnly.requestControl _ _ _ _)
  · split
    · exact of _ s.sweepPending (ReadsOnly.requestControl _ _ _ _)
    · exact of .idle s.sweepPending (ReadsOnly.refl _)

theorem endSweep (s : State) : SweepsOn s (endSweep s) := by
  unfold Machine.endSweep
  dsimp only
  split
  · exact lift _ _ (startSweep _)
  · exact of _ _ (ReadsOnly.refl _)

theorem sweepChain (s : State) : SweepsOn s (sweepChain s) := by
  unfold Machine.sweepChain
  split
  · exact of _ s.sweepPending (ReadsOnly.requestControl _ _ _ _)
  · exact endSweep s

theorem sweepAfter (r : Record) (s : State) : SweepsOn s (sweepAfter r s) := by
  unfold Machine.sweepAfter
  split
  · split
    · exact of _ s.sweepPending (ReadsOnly.requestControl _ _ _ _)
    · exact sweepChain s
  · exact endSweep s

end SweepsOn

end Sys2Proof.Machine
end

