-- ==== Sys2Proof/Tests/Slice0.lean ====
section
/-! SUPPORT. The model's own tests: the well-formedness check, the commands on small states, and states that
meet the hypotheses of the statements in Certificates/Slice0/Obligations.lean. -/

namespace Sys2Proof.Tests

open Sys2Proof.Machine

/-! ## Small states -/

/-- The state a command leaves, the state itself where it stops. -/
def after (c : Instr) (s : State) : State :=
  match exec c s with
  | .next t => t
  | _ => s

/-- Header values: 8 windows at 1000h, 64 cadences at 2000h, two errand lanes, the gate at 2 and 1. -/
def header : Settings := ⟨100, 50, 8, 64, 0x1000, 0x2000, 2, 2, 1, 200⟩

/-- An OPEN window of 64 KB with both rights. -/
def window (domain : Domain) (base : Nat) : WinEntry :=
  ⟨.opened, some ⟨domain, true, true, BitVec.ofNat 64 base, 0x10000⟩, 0, false⟩

/-- A bridge in RUNNING at tick 100 with windows 0 and 1 open in domain A and 2 in domain B. -/
def running : State :=
  setWin 0 (window .a 0x100000) (setWin 1 (window .a 0x200000) (setWin 2 (window .b 0x800000)
    { State.reset with
      bridge := .running, settings := some header, tickTimerOn := true, tick := 100, linkUp := true
      areaBase := 0x100, enables := 31, portA := ⟨.replicate 24 .free, 3, 200, []⟩
      portB := ⟨.replicate 24 .free, 3, 200, []⟩ }))

/-- A configuration: PERIOD 10, PHASE 0, DEADLINE 5, 1,000 bytes from window 0, a ring of 4 slots at 5000h,
a note every second service. -/
def config (dst : WinNo) (policy : MissPolicy) : CadConfig :=
  ⟨.steady, 10, 0, 5, 0, dst, 1000, 0x5000, 4, 2, policy⟩

/-- An entry with a configuration. -/
def entry (state : CadState) (place : Place) (c : CadConfig) : CadEntry :=
  { CadEntry.reset with config := some c, state, place, currentDue := 100 }

/-- A card of 1,000 bytes from window 0 to a window. -/
def card (kind : CardKind) (dst : Byte) : Card :=
  ⟨0x9000, 7, 0x9040, some kind, false, true, 0, dst, 0x100, 0x200, 1000, 0xDEADBEEF⟩

/-! ## The well-formedness check: an ill-formed command for each check -/

theorem test_wellFormed_start : (Instr.start 2).wellFormed = false := by decide
theorem test_wellFormed_stop : (Instr.stop 1).wellFormed = false := by decide
theorem test_wellFormed_reset : (Instr.reset 0).wellFormed = false := by decide
theorem test_wellFormed_setEnables : (Instr.setEnables 3).wellFormed = false := by decide
theorem test_wellFormed_discarded :
    (Instr.registerWriteDiscarded 16 4 0).wellFormed = false ∧
      (Instr.registerWriteDiscarded 8 8 0).wellFormed = false ∧
      (Instr.registerWriteDiscarded 64 4 0).wellFormed = false ∧
      (Instr.registerWriteDiscarded 32 0 0).wellFormed = false := by decide
theorem test_wellFormed_readCompletion :
    (Instr.readCompletion .a 0 (.data (List.replicate 257 0))).wellFormed = false := by
  simp [Instr.wellFormed, Answer.fits, -List.reduceReplicate]
theorem test_wellFormed_lateAnswer :
    (Instr.lateAnswer .a 0 (.data (List.replicate 257 0))).wellFormed = false := by
  simp [Instr.wellFormed, Answer.fits, -List.reduceReplicate]
theorem test_wellFormed_strayCompletion :
    (Instr.strayCompletion .b 23 (.data (List.replicate 257 0))).wellFormed = false := by
  simp [Instr.wellFormed, Answer.fits, -List.reduceReplicate]

/-- The well-formed commands at the edges of the checks. -/
theorem test_wellFormed_edges :
    (Instr.start 0x1F01).wellFormed = true ∧ (Instr.setEnables 7).wellFormed = true ∧
      (Instr.registerWriteDiscarded 12 4 0).wellFormed = true ∧
      (Instr.registerWriteDiscarded 60 4 0).wellFormed = true ∧
      (Instr.registerWriteDiscarded 4 8 0).wellFormed = true := by decide
theorem test_wellFormed_segment :
    (Instr.readCompletion .a 0 (.data (List.replicate 256 0))).wellFormed = true := by
  simp [Instr.wellFormed, Answer.fits, -List.reduceReplicate]

/-- No row of the table has bits. -/
theorem test_no_encoding : decodeTableWord 32 1 = none ∧ State.reset.withFetchWord 32 1 = State.reset := by
  decide

/-! ## The host's commands -/

theorem test_start_off :
    let s := { State.reset with areaBase := 0x100 }
    (after (.start 0x1F01) s).bridge = .loading ∧ (after (.start 0x1F01) s).enables = 31 ∧
      (after (.start 0x1F01) s).tag .a 0 = .busy ⟨.scanner, .control, 0x100, 64⟩ 25500 := by decide
theorem test_start_misaligned :
    let t := after (.start 1) { State.reset with areaBase := 0x20 }
    t.bridge = .off ∧ faultWord t = 0x1A ∧ t.raised = 0x18 := by decide
theorem test_stop_running :
    (after (.stop 2) running).bridge = .stopped ∧ (after (.stop 2) running).enables = 0 := by decide
theorem test_reset :
    (after (.reset 0x103) running).bridge = .off ∧ (after (.reset 0x103) running).enables = 1 ∧
      (after (.reset 0x103) running).areaBase = 0x100 ∧ (after (.reset 3) running).linkUp = true := by
  decide
theorem test_setEnables : after (.setEnables 0x1204) running = { running with enables := 0x12 } := by decide
theorem test_nudge :
    (after (.nudge 9) running).scanner = .sweepWord (.window 0) ∧
      (after (.nudge 9) running).tag .a 0 = .busy ⟨.scanner, .control, 0x1014, 4⟩ 200 := by decide
theorem test_raisedClear :
    (after (.raisedClear 0x0A) { running with raised := 0x1B }).raised = 0x11 := by decide
theorem test_faultClear :
    faultWord (after (.faultClear (.low 0)) (reportFault .peerDown .port 1 running)) = 0 := by decide
theorem test_areaBaseWrite :
    (after (.areaBaseWrite (.high 0x12345678)) { State.reset with areaBase := 0x40 }).areaBase =
      0x1234567800000040 ∧ (after (.areaBaseWrite (.whole 0)) running).areaBase = 0x100 := by decide
/-- R192: an 8-byte write at 10h is NUDGE and then RAISED, and one of STATUS is discarded. -/
theorem test_hostWrite :
    hostWrite 16 8 0x0000001B00000009 = [.nudge 9, .raisedClear 0x1B] ∧
      hostWrite 8 8 0x0000000500001F01 = [.start 0x1F01, .registerWriteDiscarded 12 4 5] ∧
      hostWrite 8 4 0x7 = [.setEnables 7] ∧ hostWrite 20 8 1 = [.registerWriteDiscarded 20 8 1] := by decide
theorem test_registerWriteDiscarded : after (.registerWriteDiscarded 12 4 5) running = running := by decide

/-- FAULT as 10_formats_and_registers.md lays it out: STRAY_COMPLETION for Port B at tick 100. -/
theorem test_fault_word : faultWord (reportFault .strayCompletion .port 1 running) = 0x6400010028 := by
  decide
theorem test_registers_read :
    readRegister running 8 8 = 0x0000000A00001F00 ∧ readRegister running 4 8 = 0 ∧
      readRegister running 1 4 = 0 ∧ readRegister running 16 4 = 0 := by decide

/-! ## Resets and the peer link -/

theorem test_powerOnReset : after .powerOnReset running = State.reset := by decide
theorem test_localReset :
    (after (.localReset .portALink) running).areaBase = 0 ∧
      (after (.localReset .portALink) running).reachable = false ∧
      (after (.localReset .portALink) running).linkUp = true := by decide
theorem test_localResetRelease :
    (after (.localResetRelease .resetInput) { running with resetInput := true }).reachable = true := by decide
theorem test_peerLinkDown :
    (after .peerLinkDown running).linkUp = false ∧ faultWord (after .peerLinkDown running) = 0x6400010029 ∧
      (after .peerLinkDown running).raised = 8 := by decide
theorem test_peerLinkUp : after .peerLinkUp { running with linkUp := false } = running := by decide

/-! ## Ticks -/

theorem test_tickExpiry :
    after .tickExpiry running = { running with tick := 101, sweepTimer := 1 } := by decide
/-- Cadence 3 is due at tick 101: lane 0 asks for its LENT word. -/
theorem test_tickExpiry_release :
    let s := { setCad 3 { entry .armed .calendar (config 1 .skip) with nextDue := 101 } running with
      calendar := [3] }
    (after .tickExpiry s).calendar = [] ∧ ((after .tickExpiry s).cad 3).currentDue = 101 ∧
      ((after .tickExpiry s).cad 3).place = .lane 0 ∧
      (after .tickExpiry s).tag .a 0 = .busy ⟨.lane 0, .control, 0x20DC, 4⟩ 200 := by decide
theorem test_sweepTimerExpiry :
    (after .sweepTimerExpiry { running with sweepTimer := 50 }).sweepTimer = 0 ∧
      (after .sweepTimerExpiry { running with sweepTimer := 50 }).scanner = .sweepWord (.window 0) := by
  decide

/-- R4: the first grid instant after 20 and after 21 at PERIOD 4 and PHASE 1. -/
theorem test_firstGridAfter : firstGridAfter 4 1 20 = 21 ∧ firstGridAfter 4 1 21 = 25 := by decide

/-! ## Ports -/

/-- A lane that moves 264 bytes for cadence 0, with the 8 bytes of segment 1 asked for on tag 0. -/
def movingLane (dst : Domain) : Lane :=
  { Lane.idle with
    state := .moving, job := .service 0, held := [0, 1], dstPort := dst, srcAddr := 0x100100
    dstAddr := 0x200200, length := 264, readPoint := 264, written := 256
    outstanding := [⟨1, 0⟩], buffer := [⟨1, none⟩] }

/-- The bridge with that lane, and its cadence in it. -/
def movingState (dst : Domain) : State :=
  setTag .a 0 (.busy ⟨.lane 2, .segment 1, 0x100200, 8⟩ 200)
    (setLane 2 (movingLane dst)
      (setCad 0 (entry .armed (.lane 2) (config 1 .skip)) running))

theorem test_readCompletion :
    let t := after (.readCompletion .a 0 (.data [1, 2, 3, 4, 5, 6, 7, 8])) (movingState .a)
    (t.lane 2).written = 264 ∧ t.portA.writes = [⟨0x200300, [1, 2, 3, 4, 5, 6, 7, 8], some 2⟩] ∧
      t.tag .a 0 = .busy ⟨.lane 2, .confirming, 0x200304, 4⟩ 200 := by decide
theorem test_readTimeout :
    let t := after (.readTimeout .a 0) (movingState .a)
    t.tag .a 0 = .quarantine .data 200 ∧ (t.lane 2).state = .stamping ∧
      (t.lane 2).outcome = some .readTimeout := by decide
theorem test_lateAnswer :
    (after (.lateAnswer .a 5 .error) (setTag .a 5 (.quarantine .data 200) running)) = running := by decide
theorem test_quarantineExpiry :
    (after (.quarantineExpiry .b 5) (setTag .b 5 (.quarantine .data 200) running)) = running := by decide
theorem test_strayCompletion :
    faultWord (after (.strayCompletion .b 3 .error) running) = 0x6400010028 := by decide
theorem test_postedWriteSent :
    let s := raise .commandDone (issueWrite .a (fieldWrite 0x1018 1 1) running)
    s.raised = 0 ∧ (after (.postedWriteSent .portA) s).raised = 4 ∧
      (after (.postedWriteSent .portA) s).portA.requests = [] := by decide
theorem test_postedWriteSent_portB :
    let w : PostedWrite := ⟨0x800000, [1], some 2⟩
    (after (.postedWriteSent (.portB 2)) (issueWrite .b w running)).portB.requests = [] ∧
      (after (.postedWriteSent (.portB 1)) (issueWrite .b w running)).portB.writes = [w] := by decide

/-- R60: the segments of 1,000 bytes. -/
theorem test_segmentLength :
    (List.range 4).map (segmentLength 1000) = [256, 256, 256, 232] := by decide
/-- R105: the address of an offset in a window. -/
theorem test_translate : Machine.translate ⟨.a, true, true, 0x40000000, 0x10000⟩ 0x100 = 0x40000100 := by decide

/-! ## Lanes -/

/-- A lane that fills 776 bytes of window 1, 768 of them written. -/
def fillLane : Lane :=
  { Lane.idle with
    state := .moving, job := .errand (card .fill 1), held := [1], dstAddr := 0x200200
    length := 776, readPoint := 768, written := 768 }

theorem test_fillSegmentWrite :
    let t := after (.fillSegmentWrite 1) (setLane 1 fillLane running)
    (t.lane 1).state = .confirming ∧ (t.lane 1).written = 776 ∧
      t.portA.writes = [⟨0x200500, [0xEF, 0xBE, 0xAD, 0xDE, 0xEF, 0xBE, 0xAD, 0xDE], some 1⟩] := by
  decide
theorem test_stampingWrite :
    let l := { Lane.idle with
      state := .stamping, job := .service 0, slotAddr := 0x5020, stampTick := 99, outcome := some .late
      stampLeft := [.slotOutcome, .slotMoved] }
    let t := after (.stampingWrite 3) (setLane 3 l running)
    (t.lane 3).stampLeft = [.slotMoved] ∧ t.portA.writes = [fieldWrite 0x5028 4 2] := by decide
/-- The last write of an errand ends its job. -/
theorem test_stampingWrite_last :
    let l := { Lane.idle with
      state := .stamping, job := .errand (card .copy 1), outcome := some .done, stampLeft := [.cardState] }
    let s := { setLane 3 l running with errands := [⟨card .copy 1, .running 3, 0⟩] }
    let t := after (.stampingWrite 3) s
    t.lane 3 = Lane.idle ∧ t.errands = [] ∧ t.raisings = [(.errandNote, 1)] ∧
      t.portA.writes = [fieldWrite 0x9020 4 2] := by decide
/-- R24: a service due at tick 21 that enters STAMPING at tick 30 with PERIOD 4 leaves out two instants. -/
theorem test_overrunCount :
    overrunCount { entry .armed (.lane 0) (config 1 .skip) with currentDue := 21 } 4 30 = 2 := by decide

/-! ## Commands -/

/-- The bridge with a command handed to its owner. -/
def delivered (r : Record) (command : Command) (s : State) : State :=
  { s with scanner := .delivered ⟨r, 5, true, command⟩ }

/-- The fields of an ARM, as R8 accepts them. -/
def armFields : ArmFields := ⟨0x5000, 10, 3, 10, 2, 4, 2, 1, 0, 1, 2, 0⟩

/-- The fields of an OPEN, as R101 accepts them. -/
def openFields : OpenFields := ⟨0x300000, 4096, 1, 1⟩

theorem test_arm :
    let t := after (.arm 63) (delivered (.cadence 63) (.arm armFields) running)
    (t.cad 63).state = .armed ∧ (t.cad 63).nextDue = 103 ∧ t.calendar = [63] ∧
      t.portA.writes = [fieldWrite 0x2FE8 1 1, fieldWrite 0x2FE9 1 1, fieldWrite 0x2FEA 1 5] := by decide
theorem test_arm_refused :
    let t := after (.arm 63) (delivered (.cadence 63) (.arm { armFields with period := 2 }) running)
    (t.cad 63).state = .idle ∧ t.portA.writes = [fieldWrite 0x2FE9 1 5, fieldWrite 0x2FEA 1 5] := by
  decide
/-- Cadence 1 waits in the ready queue with every lane taken. -/
def readyState (state : CadState) : State :=
  { setCad 1 (entry state .ready (config 1 .skip)) running with
    ready := [.service 1], lanes := .replicate 4 (movingLane .a) }

theorem test_pause :
    let t := after (.pause 1) (delivered (.cadence 1) .pause (readyState .armed))
    (t.cad 1).state = .paused ∧ (t.cad 1).place = .none ∧ t.ready = [] ∧
      t.scanner = .sweepWord (.cadence 2) := by decide
theorem test_resume :
    let t := after (.resume 1) (delivered (.cadence 1) .resume
      (setCad 1 (entry .held .none (config 1 .skip)) running))
    (t.cad 1).state = .armed ∧ (t.cad 1).nextDue = 110 ∧ t.calendar = [1] := by decide
theorem test_retire :
    let t := after (.retire 1) (delivered (.cadence 1) .retire (readyState .armed))
    (t.cad 1).state = .draining ∧ (t.cad 1).retireNotify = true ∧ t.ready = [.closing 1] ∧
      t.gate = .opened := by decide
theorem test_openWindow :
    let t := after (.openWindow 7) (delivered (.window 7) (.openWindow openFields) running)
    t.win 7 = ⟨.opened, some ⟨.a, true, false, 0x300000, 4096⟩, 0, false⟩ ∧
      t.raisings = [(.commandDone, 3)] ∧ t.scanner = .sweepWord (.cadence 0) := by decide
theorem test_closeWindow :
    let s := setWin 0 { window .a 0x100000 with useCount := 1 } running
    (after (.closeWindow 0) (delivered (.window 0) .closeWindow s)).win 0 =
        { window .a 0x100000 with state := .closing, useCount := 1, closeNotify := true } ∧
      (after (.closeWindow 1) (delivered (.window 1) .closeWindow s)).win 1 = WinEntry.reset := by decide
theorem test_unknownCommand :
    (after (.unknownCommand (.window 15)) (delivered (.window 15) .unknown running)).portA.writes =
      [fieldWrite 0x11F9 1 9, fieldWrite 0x11FA 1 5] := by decide

/-! ## The Errand Reader and LOADING -/

theorem test_takeWrite :
    let s := { running with reader := .takingWrite (card .copy 1) true [.eState] }
    (after .takeWrite s).errands = [⟨card .copy 1, .running 0, 0⟩] ∧
      (after .takeWrite s).reader = .takingRead 0x9040 ∧
      ((after .takeWrite s).lane 0).outstanding.length = 4 := by decide
theorem test_loadingWrite :
    let s := { running with
      bridge := .loading, scanner := .loadWrite (.cadence 63) 5, ackCadences := .replicate 64 (some 9) }
    (after .loadingWrite s).bridge = .running ∧
      (after .loadingWrite s).portA.writes = [fieldWrite 0x2FF4 4 0] ∧
      (after .loadingWrite s).scanner = .sweepWord (.window 0) := by decide

/-! ## Witnesses: states that meet the hypotheses of the statements, clause by clause -/

theorem witness_StepTakesFrontCommand :
    { running with pending := [.tickExpiry, .peerLinkDown] }.pending = .tickExpiry :: [.peerLinkDown] := rfl

theorem witness_EveryStepAnswersNext :
    running.pending = [] ∧ exec .tickExpiry running = .next (after .tickExpiry running) := ⟨rfl, rfl⟩

theorem witness_ControlLayout :
    running.reachable = true ∧ (Instr.start 1).wellFormed = true ∧ (Instr.stop 0x1F02).wellFormed = true ∧
      (Instr.reset 0xFFFFFFFB).wellFormed = true ∧ (Instr.setEnables 4).wellFormed = true ∧
      (Instr.setEnables 0).wellFormed = true := by decide

theorem witness_IgnoredStartAndStop :
    ∀ b : BridgeState, { running with bridge := b }.reachable = true ∧
      { running with bridge := b }.bridge = b := fun _ => ⟨rfl, rfl⟩

theorem witness_RaisedLayout :
    running.reachable = true ∧
      interruptOutput { running with raised := 0x10, enables := 0x10 } = true ∧
      interruptOutput { running with raised := 0x10, enables := 0x0F } = false := by decide

/-- The errand queue at 8 entries. -/
def fullQueue : State :=
  { running with
    errands := (List.range 8).map
      (fun i => ⟨{ card .copy 1 with addr := BitVec.ofNat 64 (0x9000 + 64 * i) }, .waiting, 0⟩) }

theorem witness_StatusLayout : ErrandLaw fullQueue ∧ fullQueue.errands.length = 8 :=
  ⟨⟨by decide, by decide, trivial⟩, by decide⟩

theorem witness_FaultLayout :
    FaultLaw running ∧ running.faultRec = none ∧
      FaultLaw { reportFault .peerDown .port 1 running with further := 255 } ∧
      (reportFault .peerDown .port 1 running).faultRec =
        some ⟨.peerDown, .port, 1, 100⟩ :=
  ⟨⟨by decide, by decide⟩, by decide, ⟨by decide, by decide⟩, by decide⟩

theorem witness_RegisterWindow :
    { running with resetInput := true }.reachable = false ∧
      { running with portALinkUp := false }.reachable = false ∧
      writeDiscarded 12 4 = true ∧ writeDiscarded 60 4 = true ∧ (0 < 8 ∧ 56 + 8 ≤ 64) := by decide

theorem witness_FaultClear :
    running.reachable = true ∧ (reportFault .peerDown .port 1 running).reachable = true := by decide

theorem witness_AreaBaseWrites :
    running.reachable = true ∧ running.bridge ≠ .off ∧ State.reset.reachable = true ∧
      State.reset.bridge = .off := by decide

theorem witness_SweepRequests :
    (State.reset.reachable = true ∧ State.reset.bridge ≠ .running) ∧
      (running.reachable = true ∧ running.bridge = .running ∧ running.scanner = .idle ∧
        firstRecord running.hdr = some (.window 0)) ∧
      firstRecord { header with windowCount := 0 } = some (.cadence 0) ∧
      (let s := { running with settings := some { header with windowCount := 0, cadenceCount := 0 } }
       firstRecord s.hdr = none ∧ s.reader = .noCard ∧
         ∀ x ∈ [ReaderPos.watching 0x9000, .holding 0x9000, .linking 0x9000],
           { s with reader := x }.reader = x) ∧
      (ReaderPos.linking 0x9000).busy = true ∧
      (let s := { running with scanner := .chain, sweepTimer := 50 }
       s.scanner ≠ .idle ∧ 0 < s.hdr.sweepTicks ∧ s.hdr.sweepTicks ≤ s.sweepTimer) ∧
      (let s := { running with sweepTimer := 50 }
       s.scanner = .idle ∧ 0 < s.hdr.sweepTicks ∧ s.hdr.sweepTicks ≤ s.sweepTimer) := by decide

theorem witness_LocalReset :
    localCausePresent .resetInput { running with resetInput := true } = true ∧
      localCausePresent .portALink { running with portALinkUp := false } = true ∧
      localCausePresent .resetInput running = false ∧ localCausePresent .portALink running = false ∧
      LocalCause.resetInput ≠ .portALink := by decide

theorem witness_SoftReset : running.reachable = true := by decide

theorem witness_PeerLinkUp :
    exec .powerOnReset running = .next (after .powerOnReset running) ∧
      exec (.localReset .portALink) running = .next (after (.localReset .portALink) running) ∧
      exec (.reset 3) running = .next (after (.reset 3) running) := ⟨rfl, rfl, rfl⟩

/-- The moving lane's cadence stands in that lane alone, and every other cadence is IDLE at place NONE. -/
theorem movingState_placed (n : CadNo) : CadencePlaced (movingState .b) n := by
  by_cases h : n = 0
  · subst h
    exact ⟨fun a => absurd a (by decide), by decide, by decide, by decide, by decide, by decide⟩
  · have e : (movingState .b).cad n = CadEntry.reset := by revert n; decide
    have l : ∀ k, ((movingState .b).lane k).job = .none ∨ ((movingState .b).lane k).job = .service 0 := by
      decide
    refine ⟨by rw [e]; rfl, by rw [e]; rfl, by rw [e]; rfl, by rw [e]; rfl, fun k => ?_, fun k a => ?_⟩
    · rw [e]
      rcases l k with x | x <;> rw [x] <;> simp [Job.cadence, CadEntry.reset, Ne.symm h]
    · rcases l k with x | x <;> rw [x] at a <;> cases a

theorem witness_PeerLinkDown :
    running.linkUp = true ∧
      (∀ n, (∀ k, (running.lane k).job = .service n → (running.lane k).touchesB = false)) ∧
      (running.lane 0).touchesB = false ∧
      (let s := setLane 0 { movingLane .b with state := .loading } running
       (s.lane 0).touchesB = true ∧ (s.lane 0).state = .loading) ∧
      (∀ x ∈ [LaneState.moving, .confirming, .parking],
        let l := { movingLane .b with state := x, outstanding := [] }
        let s := setLane 3 l running
        (s.lane 3).touchesB = true ∧ (s.lane 3).job ≠ .none ∧ (s.lane 3).state = x ∧
          (s.lane 3).outstanding = [] ∧ (s.lane 3).dstPort = .b ∧ (s.lane 3).failure ≠ some .done) ∧
      (let l := (movingState .b).lane 2
       l.touchesB = true ∧ l.job = .service 0 ∧ l.state = .moving ∧
         ¬(l.srcPort = .b ∨ l.outstanding = [])) ∧
      arbitrateOnce .a (movingState .b) = none := by decide

theorem witness_TickExpiry :
    State.reset.tickTimerOn = false ∧
      (let s := { running with tick := 2 ^ 48 - 2, bridge := .stopped }
       s.tickTimerOn = true ∧ s.tick < 2 ^ 48 - 1 ∧ s.bridge ≠ .running) ∧
      (let s := { setCad 3 { entry .armed .calendar (config 1 .skip) with nextDue := 102 } running with
         calendar := [3], sweepTimer := 49 }
       s.tickTimerOn = true ∧ s.tick < 2 ^ 48 - 1 ∧ s.bridge = .running ∧
         s.sweepTimer < s.hdr.sweepTicks ∧ s.calendar = 3 :: [] ∧ s.tick + 1 < (s.cad 3).nextDue) ∧
      (let s := { running with sweepTimer := 50 }
       s.tickTimerOn = true ∧ s.tick < 2 ^ 48 - 1 ∧ s.bridge = .running ∧ 0 < s.hdr.sweepTicks ∧
         s.hdr.sweepTicks ≤ s.sweepTimer ∧ (after .tickExpiry s).scanner = .sweepWord (.window 0) ∧
         (after .tickExpiry s).sweepTimer = 1) ∧
      (let s := { running with settings := some { header with sweepTicks := 0 }, tick := 2 ^ 48 - 2 }
       s.hdr.sweepTicks = 0 ∧ s.tick < 2 ^ 48 - 1 ∧ s.calendar = []) ∧
      (let s := { setCad 3 { entry .armed .calendar (config 1 .skip) with nextDue := 100 } running with
         calendar := [3] }
       s.calendar = 3 :: [] ∧ (s.cad 3).nextDue ≤ s.tick ∧
         s.tick < ({ setCad 3 { s.cad 3 with nextDue := 101 } s with calendar := [3] }.cad 3).nextDue) ∧
      (let s := { running with tick := 2 ^ 48 - 1 }
       s.tickTimerOn = true ∧ s.tick = 2 ^ 48 - 1) := by decide

/-- Cadence 63 in a lane, with a RESUME handed over and not yet decided. -/
def resumeWaits (x : CadState) : State :=
  delivered (.cadence 63) .resume (setCad 63 (entry x (.lane 2) (config 1 .hold)) running)

theorem witness_FaultReports :
    (∀ x : CadState, ((setCad 63 (entry x .none (config 1 .skip)) running).cad 63).state = x) ∧
      (∀ d, running.scanner ≠ .delivered d) ∧
      ∀ x ∈ [CadState.armed, .paused, .held],
        let s := resumeWaits x
        s.scanner = .delivered ⟨.cadence 63, 5, true, .resume⟩ ∧ s.ack (.cadence 63) ≠ some 5 ∧
          (s.cad 63).place.isLane = true ∧ (s.cad 63).state = x :=
  ⟨by intro x; cases x <;> decide, fun d h => by simp [running, setWin, State.reset] at h, by decide⟩

/-- MISS_HELD with a RESUME that waits (R23, R25): taken before the job's end it puts the cadence back onto the
calendar, and left for after it the cadence is HELD at place NONE until the RESUME's row. -/
theorem test_resume_around_the_job_end :
    let s := holdingFault .missHeld 63 (resumeWaits .armed)
    let taken := placeAtJobEnd 63 100 (takeBetween 63 { s with choice := 1 })
    let left := placeAtJobEnd 63 100 (takeBetween 63 { s with choice := 0 })
    (taken.cad 63).state = .armed ∧ (taken.cad 63).nextDue = 110 ∧ taken.calendar = [63] ∧
      taken.ack (.cadence 63) = some 5 ∧ (left.cad 63).state = .held ∧ (left.cad 63).place = .none ∧
      left.calendar = [] ∧ left.ack (.cadence 63) = none := by decide

/-- Window 0 CLOSING under two holds of the moving lane, or under one more. -/
def closingWindow (count : Nat) : State :=
  setLane 2 { movingLane .a with held := [0, 0] }
    (setWin 0 { window .a 0x100000 with state := .closing, useCount := count } running)

theorem witness_EntryToHalted :
    ((closingWindow 2).win 0).state = .closing ∧ windowHolds (closingWindow 2) 0 = 2 ∧
      ((closingWindow 2).win 0).useCount = 2 ∧ ((closingWindow 3).win 0).useCount = 3 ∧
      windowHolds (closingWindow 3) 0 = 2 ∧
      (setTag .a 23 (.busy ⟨.reader, .control, 0x9000, 32⟩ 200) running).tag .a 23 =
        .busy ⟨.reader, .control, 0x9000, 32⟩ 200 := by decide

theorem witness_QuiescingEnds :
    (let s := { running with bridge := .quiescing, reader := .watching 0x9000 }
     s.bridge = .quiescing ∧ (∀ k, (s.lane k).state = .idle) ∧
       (∀ t, (s.tag .a t).isBusy = false) ∧ (∀ t, (s.tag .b t).isBusy = false) ∧
       s.controlQueue = [] ∧ s.scanner = .idle ∧ s.reader.busy = false ∧ s.portA.writes = []) ∧
      ¬(∀ k, ((movingState .a).lane k).state = .idle) := by decide

/-! ### Ports -/

/-- Port A with `held` tags in QUARANTINE after data reads. -/
def quarantined (held : Nat) (s : State) : State :=
  { s with
    portA := { s.portA with
      tags := .ofFn (fun t => if t.val < held then .quarantine .data 200 else .free) } }

/-- Lane 2 with two reads out and a request waiting at Port A, where the data-held count is 20 (R116). -/
def waitingLane : State :=
  setTag .a 0 (.busy ⟨.lane 2, .segment 1, 0x100200, 256⟩ 200)
    (setLane 2 { movingLane .a with
        length := 1000, readPoint := 768, outstanding := [⟨1, 0⟩, ⟨2, 1⟩]
        buffer := [⟨1, none⟩, ⟨2, none⟩], tagRequest := some .a } (quarantined 20 running))

/-- The error that frees the tag also makes the lane withdraw its request (R61): the withdrawal comes first, or
the grant, after which the lane was the last one served and the tag is FREE again. No read is issued. -/
theorem test_withdrawal_meets_grant :
    let t (x : Nat) := after (.readCompletion .a 0 .error) { waitingLane with choice := x }
    (∀ x ∈ [0, 1], ((t x).lane 2).failure = some .readError ∧ ((t x).lane 2).tagRequest = none ∧
      ((t x).lane 2).outstanding = [⟨2, 1⟩] ∧ (t x).tag .a 0 = .free) ∧
      (t 0).portA.lastServed = 3 ∧ (t 1).portA.lastServed = 2 := by decide

theorem witness_Arbiter :
    (let s := { quarantined 23 running with controlQueue := [⟨.reader, 0x9000, 32⟩] }
     s.controlQueue = ⟨.reader, 0x9000, 32⟩ :: [] ∧ s.tag .a 23 = .free ∧
       (arbitrateOnce .a s).isSome = true) ∧
      arbitrateOnce .a (quarantined 24 running) = none ∧
      (let s := setLane 2 { movingLane .a with tagRequest := some .a } (quarantined 19 running)
       s.controlQueue = [] ∧ dataHeld s.portA < 20 ∧ s.tag .a 19 = .free ∧
         (s.lane 2).tagRequest = some .a ∧
         (s.lane 2).failure = none ∧ (s.lane 2).parkRequest = false ∧
         ∀ j : LaneNo, (j - s.portA.lastServed - 1).val < (2 - s.portA.lastServed - 1 : LaneNo).val →
           (s.lane j).tagRequest ≠ some .a) ∧
      (∀ l ∈ [{ movingLane .a with failure := some .readError, tagRequest := some .a },
          { movingLane .a with parkRequest := true, tagRequest := some .a },
          { movingLane .a with failure := some .readError }],
        ∀ held ∈ [19, 20],
          let s := setLane 2 l (quarantined held running)
          (s.lane 2 = l ∧ (l.failure ≠ none ∨ l.state = .moving ∧ l.parkRequest = true)) ∧
            (servedLane .a s = some 2 ↔ held = 19 ∧ l.tagRequest = some .a)) ∧
      (let s := setLane 2 { movingLane .b with srcPort := .b, tagRequest := some .b } running
       s.linkUp = true ∧ s.tag .b 0 = .free ∧ (s.lane 2).tagRequest = some .b) ∧
      (let s := quarantined 20 running
       s.controlQueue = [] ∧ 20 ≤ dataHeld s.portA) ∧
      { running with linkUp := false }.linkUp = false ∧
      (let s := quarantined 24 running
       ∀ t, s.tag .a t ≠ .free) ∧
      (let l := { movingLane .b with outstanding := [] }
       l.job ≠ .none ∧ l.failure = none ∧ l.confirmTag = none ∧ (movingLane .b).outstanding ≠ []) ∧
      (let l := { movingLane .b with length := 1000 }
       l.state = .moving ∧ l.job = .service 0 ∧ l.readPoint < l.length ∧ l.buffer.length < 8 ∧
         l.tagRequest = none ∧ l.failure = none ∧ l.parkRequest = false) ∧
      ¬((movingLane .b).readPoint < (movingLane .b).length) := by decide

theorem witness_ReadAnswers :
    (movingState .a).tag .a 0 = .busy ⟨.lane 2, .segment 1, 0x100200, 8⟩ 200 ∧
      (running.tag .b 23).isBusy = false ∧ ((quarantined 1 running).tag .a 0).isBusy = false := by decide

theorem witness_UnexpectedCompletions :
    (quarantined 1 running).tag .a 0 = .quarantine .data 200 ∧
      (∀ k, (running.lane k).tagRequest ≠ some .a) ∧ running.controlQueue = [] ∧
      ((movingState .a).tag .a 0).quarantined = false ∧ (running.tag .b 0).quarantined = false ∧
      running.tag .b 23 = .free := by decide

theorem witness_PostedWrites :
    { running with linkUp := false }.linkUp = false ∧ running.linkUp = true ∧
      (let s := raise .state (issueWrite .a (fieldWrite 0x1018 1 1) running)
       s.portA.writes = fieldWrite 0x1018 1 1 :: [] ∧ s.bridge ≠ .quiescing ∧ s.raisings = [(.state, 1)]) ∧
      (let s := issueWrite .b ⟨0x800000, [1], some 3⟩ running
       s.linkUp = true ∧ ∃ w ∈ s.portB.writes, w.lane = some 3) ∧
      ∀ w ∈ running.portB.writes, w.lane ≠ some 3 := by decide

/-! ### Lanes -/

/-- The state in which lane 2 holds a record: the witnesses below that name a lane's record stand for
it. -/
def withLane (l : Lane) : State := setLane 2 l running

theorem withLane_lane (l : Lane) : (withLane l).lane 2 = l := by
  simp [withLane, State.lane, setLane]

theorem witness_Segments :
    (let l := { movingLane .a with length := 1000, readPoint := 768, buffer := List.replicate 6 ⟨9, none⟩ }
     l.state = .moving ∧ l.failure = none ∧ l.parkRequest = false ∧
       l.readPoint + min 256 (l.length - 256 * (l.readPoint / 256)) = l.length) ∧
      { movingLane .a with state := .confirming }.state = .confirming ∧
      { movingLane .a with state := .parking }.state = .parking ∧
      (let l := { movingLane .a with buffer := [⟨2, some [9]⟩, ⟨1, some [7]⟩] }
       l.buffer.find? (fun b => b.segment == l.written / 256 && b.bytes.isSome) = some ⟨1, some [7]⟩) ∧
      (let l := { movingLane .a with buffer := [⟨2, some [9]⟩, ⟨1, none⟩] }
       ∀ b ∈ l.buffer, b.segment = l.written / 256 → b.bytes = none) ∧
      (List.replicate 8 (⟨1, none⟩ : BufEntry)).length ≤ 8 := by decide

/-- What the data answer of segment 1 leaves of lane 2 before it goes on (R62): every byte written, or more
to read; in PARKING a read still out, a confirming read to ask for, or nothing written in this run. -/
theorem witness_Segments_data :
    let placed (l : Lane) : Lane := { l with
      outstanding := l.outstanding.filter (fun x => x.tag != 0)
      buffer := l.buffer.map (fun b => if b.segment = 1 then { b with bytes := some [1] } else b) }
    let moved (l : Lane) : Lane := (writeSegments 2 8 (withLane (placed l))).lane 2
    let l := movingLane .a
    (l.failure = none ∧ l.state = .moving ∧ (moved l).written = l.length) ∧
      (moved { l with length := 1000, readPoint := 512 }).written ≠ 1000 ∧
      (moved { l with state := .parking, outstanding := [⟨0, 1⟩, ⟨1, 0⟩] }).outstanding ≠ [] ∧
      ((moved { l with state := .parking }).outstanding = [] ∧
        l.startByte < (moved { l with state := .parking }).written) ∧
      (let x := { l with state := .parking, buffer := [], startByte := 256 }
       (moved x).outstanding = [] ∧ (moved x).written ≤ x.startByte) := by decide

theorem witness_ReadFailures :
    (∀ x ∈ [LaneState.moving, .parking],
      let l := { movingLane .a with state := x }
      l.state = x ∧ l.job ≠ .none ∧ l.failure = none ∧ l.confirmTag = none ∧
        (∀ r ∈ l.outstanding, r.tag = 0) ∧ ∃ r ∈ l.outstanding, r.tag ≠ 1) ∧
      (∀ x ∈ [LaneState.moving, .confirming, .parking],
        let l := { movingLane .a with state := x, failure := some .peerLost }
        l.state = x ∧ l.job ≠ .none ∧ l.failure = some .peerLost ∧ Outcome.peerLost ≠ .done ∧
          l.confirmTag = none ∧ (∀ r ∈ l.outstanding, r.tag = 0) ∧ (∃ r ∈ l.outstanding, r.tag ≠ 1) ∧
          l.outstanding ≠ [] ∧ { l with outstanding := [] }.outstanding = [] ∧
          { l with confirmTag := some 0 }.confirmTag ≠ none) ∧
      (∀ x ∈ [LaneState.confirming, .parking],
        let l := { movingLane .a with state := x, outstanding := [], confirmTag := some 0 }
        l.state = x ∧ l.job ≠ .none ∧ l.failure = none ∧ l.outstanding = []) := by decide

theorem witness_ServiceCompletes :
    let l := { movingLane .a with state := .confirming, outstanding := [], confirmTag := some 0 }
    let e := { fillLane with state := .confirming, confirmTag := some 0 }
    (l.state = .confirming ∧ l.job = .service 0 ∧ l.failure = none) ∧
      e.state = .confirming ∧ e.job = .errand (card .fill 1) ∧ e.failure = none := by decide

theorem witness_FillSegmentWrite :
    (let l := { fillLane with readPoint := 0, written := 0 }
     l.job = .errand (card .fill 1) ∧ l.state = .moving ∧ (card .fill 1).kind = some .fill ∧
       l.failure = none ∧ l.parkRequest = false ∧
       l.readPoint + min 256 (l.length - 256 * (l.readPoint / 256)) < l.length) ∧
      (let l := fillLane
       l.readPoint < l.length ∧ l.length ≤ l.readPoint + min 256 (l.length - 256 * (l.readPoint / 256))) ∧
      ¬({ fillLane with parkRequest := true }.parkRequest = false) ∧
      running.linkUp = true ∧ (movingLane .a).dstPort = .a ∧
      (let l := { movingLane .b with outstanding := [] }
       l.dstPort = .b ∧ l.job ≠ .none ∧ l.failure = none ∧ l.confirmTag = none) := by decide

theorem witness_Parking :
    (∀ c, (movingLane .a).job ≠ .errand c) ∧
      (let l := { fillLane with readPoint := 776 }
       l.job = .errand (card .fill 1) ∧ ¬(l.readPoint < l.length)) ∧
      (let l := { movingLane .a with job := .errand (card .copy 1), length := 1000 }
       l.state = .moving ∧ l.readPoint < l.length ∧ l.failure = none ∧ l.outstanding ≠ []) ∧
      (fillLane.outstanding = [] ∧ fillLane.startByte < fillLane.written) ∧
      (let l := { fillLane with startByte := 768 }
       l.readPoint < l.length ∧ l.written ≤ l.startByte) ∧
      (let l := { fillLane with state := .parking, confirmTag := some 0 }
       l.state = .parking ∧ l.failure = none ∧ ¬(0 ∈ l.held)) :=
  ⟨by intro c; simp [movingLane], by decide, by decide, by decide, by decide, by decide⟩

/-! ### Services, errands and closing jobs -/

/-- A SERVICE job of cadence 0 in LOADING. -/
def loadingService (step : LoadStep) (mark : Bool) (tally : Count) : State :=
  setLane 2
    { Lane.idle with
      state := .loading, job := .service 0, held := [0, 1], length := 1000, loadStep := step
      peerMark := mark }
    (setCad 0 { entry .armed (.lane 2) (config 1 .skip) with tally } running)

theorem witness_ServiceReads :
    (let s := loadingService .lent false 7
     (s.lane 2).job = .service 0 ∧ (s.lane 2).loadStep = .lent ∧
       (BitVec.ofNat 32 (fieldAt 0 4 [7, 0, 0, 0]) - (s.cad 0).tally).toNat = 0 ∧
       (BitVec.ofNat 32 (fieldAt 0 4 [11, 0, 0, 0]) - (s.cad 0).tally).toNat = (s.cfg 0).ringSize ∧
       (BitVec.ofNat 32 (fieldAt 0 4 [12, 0, 0, 0]) - (s.cad 0).tally).toNat = (s.cfg 0).ringSize + 1) ∧
      (let s := loadingService .lent false 0xFFFFFFFF
       (BitVec.ofNat 32 (fieldAt 0 4 [0, 0, 0, 0]) - (s.cad 0).tally).toNat = 1) ∧
      (let s := loadingService .slot true 0
       (s.lane 2).job = .service 0 ∧ (s.lane 2).loadStep = .slot ∧ (s.lane 2).peerMark = true ∧
         (s.win (s.cfg 0).srcWindow).config = some ⟨.a, true, true, 0x100000, 0x10000⟩ ∧
         (s.win (s.cfg 0).dstWindow).config = some ⟨.a, true, true, 0x200000, 0x10000⟩) ∧
      (let b : List Byte := [0x18, 0xFC, 0, 0, 0, 0, 0, 0]
       fieldAt 0 4 b % 4 = 0 ∧ fieldAt 0 4 b + 1000 = 0x10000 ∧ fieldAt 4 4 b = 0) ∧
      fieldAt 0 4 [0x1C, 0xFC, 0, 0, 0, 0, 0, 0] + 1000 = 0x10000 + 4 ∧
      ¬(fieldAt 0 4 [2, 0, 0, 0, 0, 0, 0, 0] % 4 = 0) := by decide

/-- Cadence 0 from window 0 to a window, in the bridge with the link UP or DOWN. -/
def serviceTo (dst : WinNo) (link : Bool) : State :=
  setCad 0 (entry .armed .ready (config dst .skip)) { running with linkUp := link }

theorem witness_DispatchChecks :
    ((serviceTo 5 true).win 5).state ≠ .opened ∧ (serviceTo 5 true).cfg 0 = config 5 .skip ∧
      ((serviceTo 5 true).cad 0).state = .armed ∧ (∀ d, (serviceTo 5 true).scanner ≠ .delivered d) ∧
      (let s := setCad 0 (entry .draining .ready (config 5 .skip)) running
       (s.cad 0).state = .draining ∧ s.scanner = .idle ∧ ((startService 1 0 s).cad 0).place = .ready ∧
         (startService 1 0 s).ready = [.closing 0]) ∧
      (let s := delivered (.cadence 0) .resume (serviceTo 5 true)
       s.scanner = .delivered ⟨.cadence 0, 5, true, .resume⟩ ∧ s.ack (.cadence 0) ≠ some 5 ∧
         (s.cad 0).state = .armed ∧ (startService 1 0 { s with choice := 1 }).calendar = [0] ∧
         (startService 1 0 { s with choice := 0 }).calendar = []) ∧
      (let s := serviceTo 2 false
       let src : WinConfig := ⟨.a, true, true, 0x100000, 0x10000⟩
       let dst : WinConfig := ⟨.b, true, true, 0x800000, 0x10000⟩
       (s.cfg 0).srcWindow = 0 ∧ (s.cfg 0).dstWindow = 2 ∧ (s.win 0).state = .opened ∧
         (s.win 0).config = some src ∧ src.grants false = true ∧ (s.win 2).state = .opened ∧
         (s.win 2).config = some dst ∧ dst.grants true = true ∧ s.linkUp = false ∧ dst.domain = .b) ∧
      (serviceTo 2 true).linkUp = true :=
  ⟨by decide, by decide, by decide, fun d h => by simp [serviceTo, setCad, running, setWin, State.reset] at h,
    by decide, by decide, by decide, by decide⟩

/-- A FILL writes to its destination alone (R62): its lane holds no source address. -/
theorem test_startErrand_fill :
    let l := (startErrand 2 ⟨card .fill 1, .waiting, 0⟩ running).lane 2
    l.state = .moving ∧ l.srcAddr = 0 ∧ l.dstAddr = 0x200200 := by decide

theorem witness_ErrandStartChecks :
    errandStart running (card .copy 5) = .windowClosed ∧
      errandStart { running with linkUp := false } (card .fill 2) = .peerLost ∧
      errandStart running (card .copy 0) =
        .take [0, 0] ⟨.a, true, true, 0x100000, 0x10000⟩ ⟨.a, true, true, 0x100000, 0x10000⟩ ∧
      errandStart running (card .fill 2) =
        .take [2] ⟨.b, true, true, 0x800000, 0x10000⟩ ⟨.b, true, true, 0x800000, 0x10000⟩ ∧
      running.linkUp = true ∧ (card .fill 2).kind = some .fill ∧ (card .copy 0).kind ≠ some .fill ∧
      (let c := { card .fill 1 with dstOffset := 0x10000 - 1000 }
       (1 : WinNo).val = c.dstWindow.toNat ∧ (running.win 1).state = .opened ∧
         c.dstOffset + c.length = 0x10000) := by decide

/-- A CLOSING job of cadence 0 with stamping writes left. -/
def closingJob (left : List StampItem) : State :=
  setLane 2 { Lane.idle with state := .stamping, job := .closing 0, stampLeft := left }
    (setCad 0 { entry .draining (.lane 2) (config 1 .skip) with tally := 3 } running)

/-- The end of a closing job: C_STATE and RESULT in one step, with the cadence IDLE at place NONE. -/
theorem test_stampingWrite_closing :
    let t := after (.stampingWrite 2) (closingJob [.closeEnd])
    (t.cad 0).state = .idle ∧ (t.cad 0).place = .none ∧ t.lane 2 = Lane.idle ∧
      t.portA.writes = [fieldWrite 0x2028 1 0, fieldWrite 0x2029 1 3] := by decide

theorem witness_ClosingJob :
    (BitVec.ofNat 32 (fieldAt 0 4 [7, 0, 0, 0]) - ((closingJob []).cad 0).tally).toNat =
        ((closingJob []).cfg 0).ringSize ∧
      (BitVec.ofNat 32 (fieldAt 0 4 [8, 0, 0, 0]) - ((closingJob []).cad 0).tally).toNat =
        ((closingJob []).cfg 0).ringSize + 1 ∧
      ∀ item ∈ [StampItem.cancelOutcome 0, .cancelMoved 1, .cancelDue 2, .cancelDone 3, .closeTally false,
          .closeTally true],
        let s := closingJob [item, .closeEnd]
        (s.lane 2).state = .stamping ∧ (s.lane 2).job = .closing 0 ∧
          (s.lane 2).stampLeft = item :: [.closeEnd] ∧ (s.cad 0).state = .draining := by decide

/-- A lane in STAMPING with a job, an outcome and stamping writes left. -/
def stampingLane (job : Job) (outcome : Option Outcome) (left : List StampItem) : State :=
  withLane { Lane.idle with state := .stamping, job, outcome, stampLeft := left, slotAddr := 0x5000 }

theorem witness_StampingWrites :
    (∀ item ∈ [StampItem.slotOutcome, .slotMoved, .slotDue, .slotDone, .tally, .misses],
      let s := setCad 0 { entry .armed (.lane 2) (config 1 .skip) with tally := 2 }
        (stampingLane (.service 0) (some .late) [item, .lates])
      (s.lane 2).state = .stamping ∧ (s.lane 2).job = .service 0 ∧
        (s.lane 2).stampLeft = item :: [.lates] ∧ 0 < (s.cfg 0).notifyEvery ∧
        (s.cad 0).tally.toNat % (s.cfg 0).notifyEvery = 0) ∧
      ∀ item ∈ [StampItem.cardOutcome, .cardMoved, .cardDone],
        let s := stampingLane (.errand (card .copy 1)) (some .done) [item, .cardState]
        (s.lane 2).job = .errand (card .copy 1) ∧ (s.lane 2).stampLeft = item :: [.cardState] := by decide

theorem witness_LastStampingWrite :
    (∀ item ∈ [StampItem.tally, .misses, .lates], ∀ o ∈ [Outcome.done, .late, .badSlot, .peerLost],
      let s := stampingLane (.service 0) (some o) [item]
      (s.lane 2).state = .stamping ∧ (s.lane 2).job = .service 0 ∧ (s.lane 2).stampLeft = [item] ∧
        (s.lane 2).outcome = some o) ∧
      (∀ policy ∈ [MissPolicy.skip, .hold],
        let s := setCad 0 (entry .armed (.lane 2) (config 1 policy))
          (stampingLane (.service 0) none [.misses])
        (s.lane 2).outcome = none ∧ (s.lane 2).stampLeft = [.misses] ∧
          (s.cfg 0).missPolicy = policy) ∧
      (∀ o ∈ [Outcome.done, .windowClosed],
        let s := stampingLane (.errand (card .copy 1)) (some o) [.cardState]
        (s.lane 2).job = .errand (card .copy 1) ∧ (s.lane 2).stampLeft = [.cardState]) ∧
      (let s := closingJob [.closeEnd]
       (s.lane 2).state = .stamping ∧ (s.lane 2).job = .closing 0 ∧
         (s.lane 2).stampLeft = [.closeEnd]) := by decide

theorem witness_JobEnd :
    ¬(5 ∈ (movingLane .a).held) ∧ (running.win 0).state = .opened ∧ (movingLane .a).job = .service 0 ∧
      fillLane.job = .errand (card .fill 1) ∧ ((closingJob []).lane 2).job = .closing 0 ∧
      (∀ x ∈ [CadState.armed, .paused, .held, .draining],
        (setCad 0 (entry x (.lane 2) (config 1 .skip)) running).cad 0 =
          entry x (.lane 2) (config 1 .skip)) ∧
      running.bridge = .running ∧ State.reset.bridge ≠ .running ∧
      running.tick < firstGridAfter 10 0 running.tick ∧ firstGridAfter 10 0 99 ≤ running.tick := by decide

theorem witness_FirstGridInstant : (0 < 1 ∧ 0 < 1) ∧ (0 < 65535 ∧ 65534 < 65535) := by decide

/-! ### Commands of the exchange area -/

theorem witness_CommandAnswer : Record.window 15 ≠ .cadence 63 := by decide

/-- Cadence 63 in a state and at a place, with a command handed to the Cadence Unit. -/
def commandFor (state : CadState) (place : Place) (command : Command) : State :=
  delivered (.cadence 63) command (setCad 63 (entry state place (config 1 .skip)) running)

theorem witness_ArmAccepted :
    let s := delivered (.cadence 63) (.arm armFields) running
    s.scanner = .delivered ⟨.cadence 63, 5, true, .arm armFields⟩ ∧ s.ack (.cadence 63) ≠ some 5 ∧
      (s.cad 63).state = .idle ∧
      armFields.config = some ⟨.steady, 10, 3, 10, 0, 1, 4, 0x5000, 2, 2, .skip⟩ ∧
      armWindowsOk s ⟨.steady, 10, 3, 10, 0, 1, 4, 0x5000, 2, 2, .skip⟩ = true ∧
      armFields.lent = (s.cad 63).tally := by decide

theorem witness_CadenceRefusals :
    (∀ x ∈ [CadState.idle, .armed, .paused, .held, .draining],
      ∀ c ∈ [Command.arm armFields, .pause, .resume, .retire],
      (commandFor x .none c).scanner = .delivered ⟨.cadence 63, 5, true, c⟩ ∧
        (commandFor x .none c).ack (.cadence 63) ≠ some 5 ∧
        ((commandFor x .none c).cad 63).state = x) ∧
      { armFields with deadline := 11 }.config = none ∧
      (∃ c, { armFields with dstWindow := 3 }.config = some c ∧ armWindowsOk running c = false) ∧
      (∃ c, armFields.config = some c ∧ armWindowsOk running c = true) ∧
      { armFields with lent := 1 }.lent ≠ (running.cad 63).tally :=
  ⟨by decide, by decide, ⟨⟨.steady, 10, 3, 10, 0, 3, 4, 0x5000, 2, 2, .skip⟩, by decide⟩,
    ⟨⟨.steady, 10, 3, 10, 0, 1, 4, 0x5000, 2, 2, .skip⟩, by decide⟩, by decide⟩

theorem witness_PauseAccepted :
    (∀ x ∈ [CadState.armed, .held],
      (commandFor x .none .pause).scanner = .delivered ⟨.cadence 63, 5, true, .pause⟩ ∧
        (commandFor x .none .pause).ack (.cadence 63) ≠ some 5 ∧
        ((commandFor x .none .pause).cad 63).state = x ∧
        .service 63 ∉ (commandFor x .none .pause).ready) ∧
      .service 1 ∈ (delivered (.cadence 1) .pause (readyState .armed)).ready := by decide

theorem witness_ResumeAccepted :
    ∀ x ∈ [CadState.paused, .held], ∀ p ∈ [Place.none, .lane 3],
      (commandFor x p .resume).scanner = .delivered ⟨.cadence 63, 5, true, .resume⟩ ∧
        (commandFor x p .resume).ack (.cadence 63) ≠ some 5 ∧
        ((commandFor x p .resume).cad 63).state = x ∧ ((commandFor x p .resume).cad 63).place = p := by decide

theorem witness_RetireAccepted :
    ∀ x ∈ [CadState.armed, .paused, .held], ∀ p ∈ [Place.none, .calendar, .lane 0],
      (commandFor x p .retire).scanner = .delivered ⟨.cadence 63, 5, true, .retire⟩ ∧
        (commandFor x p .retire).ack (.cadence 63) ≠ some 5 ∧
        ((commandFor x p .retire).cad 63).state = x ∧ ((commandFor x p .retire).cad 63).place = p := by decide

/-- Window 0 in a state, with a use count and a command handed to the Window Unit. -/
def windowCommandFor (state : WinState) (count : Nat) (command : Command) : State :=
  delivered (.window 0) command
    (setWin 0 { window .a 0x100000 with state, useCount := count } running)

theorem witness_WindowCommands :
    (∀ x ∈ [WinState.closed, .opened, .closing], ∀ count ∈ [0, 1],
      ∀ c ∈ [Command.openWindow openFields, .closeWindow],
        (windowCommandFor x count c).scanner = .delivered ⟨.window 0, 5, true, c⟩ ∧
          (windowCommandFor x count c).ack (.window 0) ≠ some 5 ∧
          ((windowCommandFor x count c).win 0).state = x ∧
          ((windowCommandFor x count c).win 0).useCount = count) ∧
      openFields.config = some ⟨.a, true, false, 0x300000, 4096⟩ ∧
      { openFields with size := 0 }.config = none := by decide

theorem witness_UnknownCommand :
    (∀ x ∈ [WinState.opened, .closing],
      (windowCommandFor x 1 .unknown).scanner = .delivered ⟨.window 0, 5, true, .unknown⟩ ∧
        (windowCommandFor x 1 .unknown).ack (.window 0) ≠ some 5 ∧
        ((windowCommandFor x 1 .unknown).win 0).state = x) ∧
      (∀ x ∈ [CadState.idle, .draining],
        (commandFor x .none .unknown).scanner = .delivered ⟨.cadence 63, 5, true, .unknown⟩ ∧
          (commandFor x .none .unknown).ack (.cadence 63) ≠ some 5 ∧
          ((commandFor x .none .unknown).cad 63).state = x) ∧
      (∀ d, running.scanner ≠ .delivered d) ∧
      (∀ c ∈ [Command.arm armFields, .pause, .resume, .retire, .unknown],
        let s := setAck (.cadence 63) 5 (commandFor .armed (.lane 2) c)
        s.scanner = .delivered ⟨.cadence 63, 5, true, c⟩ ∧ s.ack (.cadence 63) = some 5 ∧
          (Delivery.row ⟨.cadence 63, 5, true, c⟩).isSome = true) ∧
      (let d : Delivery := ⟨.cadence 3, 5, true, .pause⟩
       (delivered (.cadence 3) .pause running).scanner = .delivered d ∧ d.row ≠ some (.pause 4) ∧
         d.row ≠ some (.retire 3) ∧ d.row ≠ some (.unknownCommand (.cadence 3))) :=
  ⟨by decide, by decide, fun d h => by simp [running, setWin, State.reset] at h, by decide, by decide⟩

/-- A row that names another record, or another kind of command, than the one handed over takes nothing. -/
theorem test_rowOfAnotherCommand :
    let s := delivered (.cadence 3) .pause (setCad 3 (entry .armed .none (config 1 .skip)) running)
    after (.pause 4) s = s ∧ after (.retire 3) s = s ∧ after (.pause 3) s ≠ s := by decide

theorem witness_AdmissionChecks :
    armFields.config = some ⟨.steady, 10, 3, 10, 0, 1, 4, 0x5000, 2, 2, .skip⟩ ∧
      { armFields with cls := 1, missPolicy := 2, srcWindow := 15 }.config =
        some ⟨.urgent, 10, 3, 10, 15, 1, 4, 0x5000, 2, 2, .hold⟩ ∧
      { openFields with domain := 2, rights := 3 }.config =
        some ⟨.b, true, true, 0x300000, 4096⟩ := by decide

/-- The edges of what R8, R101 and R82 admit. -/
theorem test_AdmissionChecks :
    { armFields with length := 1048576, ringSize := 256, deadline := 10 }.config.isSome = true ∧
      { armFields with length := 1048580 }.config.isSome = false ∧
      { armFields with ringSize := 1 }.config.isSome = false ∧
      { openFields with base := 2 ^ 64 - 4096 }.config.isSome = true ∧
      { openFields with base := 2 ^ 64 - 4096, size := 8192 }.config.isSome = false ∧
      cardValid running (card .copy 1) = true ∧ cardValid running (card .copy 8) = false := by decide

/-! ### The Errand Reader and the Dispatcher -/

theorem witness_Takes :
    { running with reader := .takingRead 0x9000 }.reader = .takingRead 0x9000 ∧
      (∀ item ∈ [TakeItem.outcome, .moved, .doneTick], ∀ valid ∈ [true, false],
        { running with reader := .takingWrite (card .copy 1) valid [item, .eState] }.reader =
          .takingWrite (card .copy 1) valid (item :: [.eState])) ∧
      running.bridge ≠ .halted ∧ { running with bridge := .halted }.bridge = .halted := by decide

theorem witness_LinkFollowed :
    (let link : Addr := 0x9000
     link ≠ 0 ∧ link.toNat % 64 = 0 ∧ some (0x9040 : Addr) ≠ some link ∧
       running.bridge = .running ∧ running.errands.length < 8 ∧ link ∉ errandAddrs running) ∧
      (let s := { fullQueue with errands := fullQueue.errands.take 7 }
       s.errands.length = 7 ∧ (0x9000 : Addr) ∈ errandAddrs s ∧ (0x91C0 : Addr) ∉ errandAddrs s) ∧
      (card .copy 1).nextCard ≠ 0 ∧ { card .copy 1 with nextCard := 0 }.nextCard = 0 ∧
      State.reset.bridge ≠ .running ∧
      { running with reader := .linking 0x9000 }.reader = .linking 0x9000 ∧
      (∀ x ∈ [ReaderPos.noCard, .watching 0x9000, .holding 0x9000, .linking 0x9000],
        let s := { running with scanner := .chain, reader := x, sweepPending := true }
        s.scanner = .chain ∧ s.reader = x ∧ s.sweepPending = true ∧ s.bridge = .running) ∧
      (ReaderPos.linking 0x9000).busy = true ∧
      (let s := { running with reader := .holding 0x9000 }
       s.reader = .holding 0x9000 ∧ s.bridge = .running ∧ s.errands.length < 8 ∧
         (0x9000 : Addr) ∉ errandAddrs s) ∧
      ¬(fullQueue.errands.length < 8) ∧ ¬((0x9020 : Addr).toNat % 64 = 0) ∧
      ¬(some (0x9000 : Addr) ≠ some 0x9000) := by decide

theorem witness_LinkFollowed_notHolding : ∀ addr, running.reader ≠ .holding addr := by
  intro addr h; simp [running, setWin, State.reset] at h

/-- A card with its FENCE set. -/
def fenced : Errand := ⟨{ card .copy 1 with fence := true, addr := 0x9040 }, .waiting, 0⟩

theorem witness_Dispatcher :
    State.reset.bridge ≠ .running ∧ (∀ k, ((readyState .armed).lane k).state ≠ .idle) ∧
      (let s := { movingState .a with ready := [.service 5, .closing 6] }
       s.bridge = .running ∧ (s.lane 0).state = .idle ∧ s.ready = .service 5 :: [.closing 6]) ∧
      (let s := { movingState .a with ready := [.closing 6] }
       s.bridge = .running ∧ (s.lane 0).state = .idle ∧ s.ready = .closing 6 :: []) ∧
      (let s := fullQueue
       s.ready = [] ∧ s.gate = .opened ∧ errandLaneCount s < s.hdr.errandLanes ∧
         (firstEligible s.errands).isSome = true) ∧
      firstEligible [fenced] = some fenced ∧
      firstEligible [⟨card .copy 1, .running 0, 0⟩, fenced] = none ∧
      (let s := { running with ready := [.service 5, .service 6], gate := .closed }
       s.hdr.gateUpper ≤ s.ready.length ∧ s.hdr.gateLower < s.ready.length ∧ s.gate = .closed) ∧
      (let s := { running with ready := [.service 5] }
       s.ready.length < s.hdr.gateUpper ∧ s.ready.length ≤ s.hdr.gateLower ∧ s.gate = .opened) ∧
      (handOut running = running ∧ moveGate running = none) ∧
      (let s := { running with ready := [.closing 6] }
       s.hdr.gateLower < s.hdr.gateUpper ∧ (moveGate (handOut s)).isNone = true) ∧
      (let s := { readyState .armed with gate := .closed }
       s.hdr.gateLower < s.hdr.gateUpper ∧ (moveGate (handOut s)).isSome = true) := by
  decide

/-- R43, R44: a service that ends at once with WINDOW_LOST leaves its lane free, and the next entry goes to the
next-lowest free lane. -/
theorem test_dispatch_nextLowest :
    let s := setCad 5 (entry .armed .ready (config 3 .skip))
      (setCad 6 (entry .draining .ready (config 1 .skip)) { running with ready := [.service 5, .closing 6] })
    let t := dispatch s
    (t.lane 0).state = .idle ∧ (t.lane 1).job = .closing 6 ∧ (t.cad 5).state = .held ∧ t.ready = [] ∧
      dispatcherRests t = true := by decide

theorem witness_QueueOrder :
    let s := setCad 5 { entry .armed .calendar (config 1 .skip) with nextDue := 101 }
      (setCad 3 { entry .armed .calendar (config 1 .skip) with nextDue := 102 } running)
    [(5 : CadNo), 3].Pairwise (fun a b => keyBefore (calendarKey s b) (calendarKey s a) = false) ∧
      [ReadyEntry.closing 9, .service 3, .service 5].Pairwise
        (fun a b => keyBefore (readyKey s b) (readyKey s a) = false) := by decide

/-! ### START, STOP, LOADING and sweeps -/

theorem witness_Start :
    (State.reset.reachable = true ∧ State.reset.bridge = .off ∧ State.reset.areaBase.toNat % 64 = 0) ∧
      ¬({ State.reset with areaBase := 63 }.areaBase.toNat % 64 = 0) ∧
      (let s := { setCad 3 (entry .armed .calendar (config 1 .skip)) running with
         bridge := .stopped, calendar := [3] }
       s.reachable = true ∧ s.bridge = .stopped ∧ 3 ∈ s.calendar ∧ 4 ∉ s.calendar) := by decide

/-- A STOP that finds a PAUSE handed over and not yet taken: the cadence is paused, and the sweep ends
(R147). -/
theorem test_stop_delivered :
    let t := after (.stop 2) (delivered (.cadence 63) .pause
      (setCad 63 (entry .armed .none (config 1 .skip)) running))
    t.bridge = .quiescing ∧ (t.cad 63).state = .paused ∧ t.scanner = .idle ∧
      t.portA.writes = [fieldWrite 0x2FE8 1 2, fieldWrite 0x2FE9 1 1, fieldWrite 0x2FEA 1 5] := by decide

theorem witness_Stop :
    (running.reachable = true ∧ running.bridge = .running ∧ running.scanner = .idle) ∧
      (let s := { running with scanner := .sweepWord (.window 0) }
       s.scanner = .sweepWord (.window 0) ∧ controlWaits .scanner s = false) ∧
      (let s := { running with
         scanner := .sweepWord (.window 0), controlQueue := [⟨.scanner, 0x1014, 4⟩] }
       controlWaits .scanner s = true) ∧
      (∀ x ∈ [Scanner.sweepFurther (.window 0) 5 true, .chain],
        ∀ q ∈ [[], [(⟨.scanner, 0x1014, 4⟩ : ControlRequest)]],
          let s := { running with scanner := x, controlQueue := q }
          s.scanner = x ∧ controlWaits .scanner s = !q.isEmpty) ∧
      (∀ c ∈ [Command.arm armFields, .pause, .resume, .retire, .unknown],
        (delivered (.cadence 1) c (readyState .armed)).scanner = .delivered ⟨.cadence 1, 5, true, c⟩ ∧
          (delivered (.cadence 1) c (readyState .armed)).ack (.cadence 1) ≠ some 5 ∧
          (setAck (.cadence 1) 5 (delivered (.cadence 1) c (readyState .armed))).ack (.cadence 1) = some 5 ∧
          (Delivery.row ⟨.cadence 1, 5, true, c⟩).isSome = true) ∧
      (let s := delivered (.cadence 1) .pause (readyState .armed)
       (takeCommand ⟨.cadence 1, 5, true, .pause⟩ s).ready ≠ s.ready) ∧
      (∀ x ∈ [Scanner.loadWrite (.window 0) 2, .header, .loadWord (.cadence 63)],
        ∀ q ∈ [[], [(⟨.scanner, 0x1014, 4⟩ : ControlRequest)]],
          let s := { running with bridge := .loading, scanner := x, controlQueue := q }
          s.reachable = true ∧ s.bridge = .loading ∧ s.scanner = x ∧
            controlWaits .scanner s = !q.isEmpty) := by decide

/-- A header at the edges of what R135 accepts: no window, `cadences` cadences, TICK_US 10. -/
def headerBytes (cadences : Byte) : List Byte :=
  [1, 0, 10, 0, 0, 0, 0, cadences] ++ List.replicate 8 1 ++ [0x40, 0, 0, 0, 0, 0, 0, 0] ++
    List.replicate 8 0 ++ [4, 64, 63, 1, 1] ++ List.replicate 27 0

theorem witness_Loading :
    (headerBytes 64).length = 64 ∧
      decodeHeader (headerBytes 64) = some ⟨10, 0, 0, 64, 0x101010101010101, 0x40, 4, 64, 63, 100⟩ ∧
      decodeHeader (headerBytes 65) = none ∧
      decodeHeader (headerBytes 0) = some ⟨10, 0, 0, 0, 0x101010101010101, 0x40, 4, 64, 63, 100⟩ ∧
      (let s := { State.reset with bridge := .loading, scanner := .header }
       s.scanner = .header ∧ s.loadingStop = false ∧ { s with loadingStop := true }.loadingStop = true) ∧
      (∀ i ∈ [0, 1, 2],
        { running with scanner := .loadWrite (.window 7) i }.scanner = .loadWrite (.window 7) i) ∧
      (∀ i ∈ [0, 1, 2, 3, 4, 5],
        { running with scanner := .loadWrite (.cadence 63) i }.scanner = .loadWrite (.cadence 63) i) ∧
      (∀ r ∈ [Record.window 6, .window 7, .cadence 63], ∀ stop ∈ [true, false],
        let s := { running with scanner := .loadWord r, loadingStop := stop }
        s.scanner = .loadWord r ∧ s.loadingStop = stop) ∧
      nextRecord running.hdr (.window 6) = some (.window 7) ∧
      nextRecord running.hdr (.window 7) = some (.cadence 0) ∧
      nextRecord running.hdr (.cadence 63) = none ∧
      firstRecord running.hdr = some (.window 0) := by decide

theorem witness_Sweeps :
    header.windowCount ≤ 16 ∧ header.cadenceCount ≤ 64 ∧ (7 : WinNo).val + 1 = header.windowCount ∧
      (63 : CadNo).val + 1 = header.cadenceCount ∧
      (let s := { running with
         scanner := .sweepWord (.window 15), ackWindows := .replicate 16 (some 5) }
       s.scanner = .sweepWord (.window 15) ∧ s.bridge = .running ∧
         s.ack (.window 15) = some (byteAt 1 [1, 5, 1, 0]) ∧
         s.ack (.window 15) ≠ some (byteAt 1 [1, 6, 1, 0]) ∧ fieldAt 0 1 [1, 6, 1, 0] = 1 ∧
         fieldAt 0 1 [2, 6, 0, 0] ≠ 1 ∧ { s with bridge := .quiescing }.bridge ≠ .running) ∧
      (let s := { running with scanner := .sweepWord (.cadence 63) }
       s.ack (.cadence 63) ≠ some (byteAt 1 [3, 6, 1, 0]) ∧ fieldAt 0 1 [3, 6, 1, 0] = 3 ∧
         fieldAt 0 1 [6, 6, 0, 0] ≠ 3) ∧
      (∀ r ∈ [Record.window 15, .cadence 63],
        { running with scanner := .sweepFurther r 6 true }.scanner = .sweepFurther r 6 true) ∧
      nextRecord running.hdr (.window 6) = some (.window 7) ∧
      nextRecord running.hdr (.window 7) = some (.cadence 0) ∧
      nextRecord running.hdr (.cadence 63) = none ∧ running.reader = .noCard ∧
      (∀ x ∈ [ReaderPos.watching 0x9000, .holding 0x9000, .takingRead 0x9000],
        { running with reader := x, sweepPending := true }.reader = x) ∧
      (ReaderPos.takingRead 0x9000).busy = true := by decide

theorem witness_LittleEndian : (0 < 8 ∧ 7 < 8) ∧ (0 < 64 ∧ 63 < 64) := by decide

/-! ### The laws -/

/-- A state that meets every law, with a command waiting. -/
def lawful : State := { running with pending := [.tickExpiry] }

theorem witness_FaultLawKept : FaultLaw lawful ∧ step lawful = .next (after .tickExpiry running) :=
  ⟨⟨by decide, by decide⟩, rfl⟩

theorem witness_ClockLawKept : ClockLaw lawful ∧ step lawful = .next (after .tickExpiry running) :=
  ⟨⟨by decide, by decide, by decide, by decide, by decide, by decide, by decide,
    fun h e => by cases e; decide⟩, rfl⟩

theorem witness_TagLawKept : TagLaw lawful ∧ step lawful = .next (after .tickExpiry running) :=
  ⟨⟨by decide, by decide⟩, rfl⟩

theorem lawful_unitLaws : UnitLaws lawful := by
  have rest : AtRest lawful :=
    ⟨by decide, fun p t => by cases p <;> revert t <;> decide, by decide⟩
  have c : ∀ n, lawful.cad n = CadEntry.reset := by decide
  refine ⟨fun n => ⟨?_, ?_, ?_, ?_, fun k => ?_, fun k a => ?_⟩, ⟨by decide, by decide⟩,
    rest.laneLaw (by decide), rest.errandLaneLaw, by decide, fun h => ?_, fun h => ?_⟩
  · rw [c]; rfl
  · rw [c]; rfl
  · rw [c]; rfl
  · rw [c]; rfl
  · rw [c, rest.lanes k]
    exact ⟨(fun a => by cases a), (fun a => by cases a)⟩
  · rw [rest.lanes k] at a; cases a
  · exact absurd h (by decide)
  · exact absurd h (by decide)

theorem witness_ErrandLawKept :
    ErrandLaw lawful ∧ UnitLaws lawful ∧ step lawful = .next (after .tickExpiry running) :=
  ⟨⟨by decide, by decide, trivial⟩, lawful_unitLaws, rfl⟩

end Sys2Proof.Tests
end

section
/-! The layouts of the registers CONTROL, RAISED, STATUS and FAULT (R188 to R191): O3, O5, O6, O7. -/

namespace Sys2Proof.Machine

/-! ## Fields of a word given as a number -/

/-- A bit of a word is the binary digit of its number at that place. -/
theorem getLsbD_ofNat_of_digit {w n i : Nat} {b : Bool} (inside : i < w)
    (digit : n / 2 ^ i % 2 = flag b) : (BitVec.ofNat w n).getLsbD i = b := by
  rw [BitVec.getLsbD_ofNat, Nat.testBit_eq_decide_div_mod_eq, digit]
  cases b <;> simp [flag, inside]

theorem extractLsb'_ofNat_toNat {w start len : Nat} (n : Nat) (inside : start + len ≤ w) :
    ((BitVec.ofNat w n).extractLsb' start len).toNat = n / 2 ^ start % 2 ^ len := by
  obtain ⟨high, rfl⟩ := Nat.exists_eq_add_of_le inside
  rw [BitVec.extractLsb'_toNat, BitVec.toNat_ofNat, Nat.shiftRight_eq_div_pow, Nat.add_assoc,
    Nat.pow_add, Nat.mod_mul_right_div_self, Nat.mod_mod_of_dvd _ (Nat.pow_dvd_pow 2 (Nat.le_add_right len high))]

/-- A field of a word is the value whose number stands at its place. -/
theorem extractLsb'_ofNat_of_digits {w n start len : Nat} {x : BitVec len} (inside : start + len ≤ w)
    (digits : n / 2 ^ start % 2 ^ len = x.toNat) : (BitVec.ofNat w n).extractLsb' start len = x :=
  BitVec.eq_of_toNat_eq ((extractLsb'_ofNat_toNat n inside).trans digits)

/-! ## The interrupt causes and their enables -/

/-- The place of a cause in RAISED (R189). -/
def Cause.place : Cause → Nat
  | .cadenceNote => 0
  | .errandNote => 1
  | .commandDone => 2
  | .fault => 3
  | .state => 4

theorem Cause.place_lt (c : Cause) : c.place < 5 := by
  cases c <;> decide

theorem Cause.bit_eq_twoPow (c : Cause) : c.bit = BitVec.twoPow 5 c.place := by
  cases c <;> decide

@[simp] theorem Cause.bit_getLsbD (c : Cause) (i : Nat) : c.bit.getLsbD i = decide (c.place = i) := by
  simp [c.bit_eq_twoPow, BitVec.getLsbD_twoPow, c.place_lt]

theorem controlWord_getLsbD (s : State) (i : Nat) :
    (controlWord s).getLsbD i = (decide (8 ≤ i ∧ i < 13) && s.enables.getLsbD (i - 8)) := by
  by_cases inField : 8 ≤ i ∧ i < 13
  · obtain ⟨low, high⟩ := inField
    simp [controlWord, low, high, show ¬ i < 8 by omega, show i < 32 by omega]
  · have spare : i < 8 ∨ s.enables.getLsbD (i - 8) = false :=
      (Nat.lt_or_ge i 8).imp_right fun low => BitVec.getLsbD_of_ge _ _ (by omega)
    rw [decide_eq_false inField, Bool.false_and, controlWord, BitVec.getLsbD_shiftLeft]
    obtain low | clear := spare
    · rw [decide_eq_true low, Bool.not_true, Bool.and_false, Bool.false_and]
    · rw [BitVec.getLsbD_setWidth, clear, Bool.and_false, Bool.and_false]

/-- Bit `n` of the enables stands at bit `n + 8` of CONTROL (R188). -/
theorem controlWord_enable (s : State) {n : Nat} (h : n < 5) :
    (controlWord s).getLsbD (n + 8) = s.enables.getLsbD n := by
  simp [controlWord_getLsbD, h, show n + 8 < 13 by omega]

/-- The output is asserted by a cause that is set and enabled (R176). -/
theorem interruptOutput_iff (s : State) :
    interruptOutput s = true ↔
      ∃ n, n < 5 ∧ s.raised.getLsbD n = true ∧ (controlWord s).getLsbD (n + 8) = true := by
  have asserted : interruptOutput s = true ↔ s.raised &&& s.enables ≠ 0#5 := bne_iff_ne
  rw [asserted, ne_eq, BitVec.zero_iff_eq_false]
  constructor
  · intro notClear
    obtain ⟨n, both⟩ := Classical.not_forall.mp notClear
    obtain ⟨set, enabled⟩ : s.raised.getLsbD n = true ∧ s.enables.getLsbD n = true := by
      rwa [Bool.not_eq_false, BitVec.getLsbD_and, Bool.and_eq_true] at both
    have h : n < 5 := BitVec.lt_of_getLsbD set
    exact ⟨n, h, set, (controlWord_enable s h).trans enabled⟩
  · rintro ⟨n, h, set, enabled⟩ clear
    have both : (s.raised &&& s.enables).getLsbD n = true := by
      rw [BitVec.getLsbD_and, set, (controlWord_enable s h).symm.trans enabled, Bool.and_true]
    exact Bool.false_ne_true ((clear n).symm.trans both)

theorem interruptOutput_of_cause (s : State) (c : Cause) :
    interruptOutput { s with raised := c.bit } = (controlWord s).getLsbD (c.place + 8) := by
  rw [Bool.eq_iff_iff, interruptOutput_iff]
  constructor
  · rintro ⟨n, -, isPlace, enabled⟩
    obtain rfl : c.place = n := by simpa using isPlace
    exact enabled
  · exact fun enabled => ⟨c.place, c.place_lt, by simp, enabled⟩

/-! ## CONTROL (R188) -/

theorem start_wellFormed_iff (v : BitVec 32) :
    (Instr.start v).wellFormed = true ↔ v.toNat % 8 = 1 := beq_iff_eq

theorem stop_wellFormed_iff (v : BitVec 32) :
    (Instr.stop v).wellFormed = true ↔ v.toNat % 8 = 2 := beq_iff_eq

theorem reset_wellFormed_iff (v : BitVec 32) :
    (Instr.reset v).wellFormed = true ↔ v.toNat % 8 = 3 := beq_iff_eq

theorem setEnables_wellFormed_iff (v : BitVec 32) :
    (Instr.setEnables v).wellFormed = true ↔ v.toNat % 8 = 0 ∨ 4 ≤ v.toNat % 8 := by
  simp only [Instr.wellFormed, controlCommand, Bool.or_eq_true, beq_iff_eq]
  exact or_congr_right decide_eq_true_iff

theorem onRegisters_of_reachable {s : State} (h : s.reachable = true) (effect : State → State) :
    onRegisters effect s = effect s := if_pos h

/-- The enables are all a CONTROL write takes from the bits above its command field (R153, R188). -/
theorem setEnables_congr {w v : BitVec 32} (same : w.extractLsb' 8 5 = v.extractLsb' 8 5) :
    setEnables w = setEnables v := by
  funext s
  rw [setEnables, setEnables, controlEnables, controlEnables, same]

theorem exec_setEnables_of_reachable {s : State} (h : s.reachable = true) (v : BitVec 32) :
    exec (.setEnables v) s = .next { s with enables := v.extractLsb' 8 5 } :=
  congrArg Host.Outcome.next (onRegisters_of_reachable h (setEnables v))

/-- Each command of a CONTROL write depends on the written word by its enables alone. -/
theorem exec_control_congr {w v : BitVec 32} (same : w.extractLsb' 8 5 = v.extractLsb' 8 5)
    (s : State) :
    exec (.start w) s = exec (.start v) s ∧ exec (.stop w) s = exec (.stop v) s ∧
      exec (.reset w) s = exec (.reset v) s ∧ exec (.setEnables w) s = exec (.setEnables v) s := by
  simp only [exec, execStart, execStop, execReset, execSetEnables, setEnables_congr same, and_self]

/-- Settles O3: the enables of a CONTROL read by bit, the command field by each row's well-formedness, and
the cause of each enable by the output of a state in which that cause alone is set. -/
theorem controlLayout : Obligations.ControlLayout := fun s v =>
  ⟨controlWord_getLsbD s, start_wellFormed_iff v, stop_wellFormed_iff v, reset_wellFormed_iff v,
    setEnables_wellFormed_iff v, fun h => exec_setEnables_of_reachable h v,
    fun _ same => exec_control_congr same s,
    interruptOutput_of_cause s .cadenceNote, interruptOutput_of_cause s .errandNote,
    interruptOutput_of_cause s .commandDone, interruptOutput_of_cause s .fault,
    interruptOutput_of_cause s .state⟩

/-! ## RAISED (R189) -/

theorem raisedWord_getLsbD (s : State) (i : Nat) :
    (raisedWord s).getLsbD i = (decide (i < 5) && s.raised.getLsbD i) := by
  by_cases h : i < 5
  · simp [raisedWord, h, show i < 32 by omega]
  · simp [raisedWord, h, BitVec.getLsbD_of_ge s.raised i (by omega)]

theorem exec_raisedClear_of_reachable {s : State} (h : s.reachable = true) (v : BitVec 32) :
    exec (.raisedClear v) s = .next { s with raised := s.raised &&& ~~~(raisedBits v) } :=
  congrArg Host.Outcome.next (onRegisters_of_reachable h _)

/-- Writing 1 to a cause clears it, and writing 0 leaves it (R175). -/
theorem raised_clear_getLsbD (raised : BitVec 5) (v : BitVec 32) {i : Nat} (h : i < 5) :
    (raised &&& ~~~(raisedBits v)).getLsbD i = (raised.getLsbD i && !v.getLsbD i) := by
  simp [raisedBits, h]

/-- Settles O5: the read by bit, the write by the state it leaves, and the output by the bits of RAISED and
CONTROL that meet. -/
theorem raisedLayout : Obligations.RaisedLayout := fun s v =>
  ⟨raisedWord_getLsbD s,
    fun h => ⟨_, exec_raisedClear_of_reachable h v, rfl, fun _ => raised_clear_getLsbD s.raised v⟩,
    ⟨rfl, rfl, rfl, rfl, rfl⟩, interruptOutput_iff s⟩

/-! ## STATUS (R190) -/

theorem flag_lt_two (b : Bool) : flag b < 2 := by
  cases b <;> decide

theorem BridgeState.code_lt (b : BridgeState) : b.code < 8 := by
  cases b <;> decide

/-- The number of the STATUS word. -/
def statusNumber (s : State) : Nat :=
  s.bridge.code + 8 * flag s.linkUp + 16 * flag (s.lane 0).busy + 32 * flag (s.lane 1).busy +
    64 * flag (s.lane 2).busy + 128 * flag (s.lane 3).busy + 256 * flag (s.gate == .closed) +
    4096 * (s.errands.length % 16) + 65536 * flag s.scanner.sweeping

theorem statusWord_eq_ofNat (s : State) : statusWord s = BitVec.ofNat 32 (statusNumber s) := rfl

/-- The digits of the STATUS word: no field of it reaches the next one's place. -/
theorem statusNumber_digits (s : State) :
    statusNumber s / 2 ^ 0 % 2 ^ 3 = s.bridge.code ∧
    statusNumber s / 2 ^ 3 % 2 = flag s.linkUp ∧
    (∀ k : LaneNo, statusNumber s / 2 ^ (4 + k.val) % 2 = flag (s.lane k).busy) ∧
    statusNumber s / 2 ^ 8 % 2 = flag (s.gate == .closed) ∧
    statusNumber s / 2 ^ 9 % 2 ^ 3 = 0 ∧
    statusNumber s / 2 ^ 12 % 2 ^ 4 = s.errands.length % 16 ∧
    statusNumber s / 2 ^ 16 % 2 = flag s.scanner.sweeping ∧
    statusNumber s / 2 ^ 17 % 2 ^ 15 = 0 := by
  have bridge := s.bridge.code_lt
  have link := flag_lt_two s.linkUp
  have lane (k : LaneNo) := flag_lt_two (s.lane k).busy
  have lane0 := lane 0
  have lane1 := lane 1
  have lane2 := lane 2
  have lane3 := lane 3
  have gate := flag_lt_two (s.gate == .closed)
  have sweeping := flag_lt_two s.scanner.sweeping
  unfold statusNumber
  refine ⟨?_, ?_, fun k => ?lane, ?_, ?_, ?_, ?_, ?_⟩
  case lane =>
    match k with
    | 0 => change _ / 2 ^ 4 % 2 = _; omega
    | 1 => change _ / 2 ^ 5 % 2 = _; omega
    | 2 => change _ / 2 ^ 6 % 2 = _; omega
    | 3 => change _ / 2 ^ 7 % 2 = _; omega
  all_goals omega

/-- A flag of STATUS is the digit at its place. -/
theorem statusWord_flag {s : State} {i : Nat} {b : Bool} (inside : i < 32)
    (digit : statusNumber s / 2 ^ i % 2 = flag b) : (statusWord s).getLsbD i = b :=
  getLsbD_ofNat_of_digit inside digit

/-- Settles O6: each field is read from its digits; the law of the errand queue makes the count fit in its
four bits. -/
theorem statusLayout : Obligations.StatusLayout := by
  rintro s ⟨atMost, -⟩
  have count : s.errands.length < 16 := by
    have : s.errands.length ≤ 8 := by simpa [errandAddrs, Config.errandQueueSize] using atMost
    omega
  obtain ⟨bridge, link, lane, gate, spare, errands, sweeping, high⟩ := statusNumber_digits s
  refine ⟨?_, statusWord_flag (by decide) link,
    fun k => statusWord_flag (by omega) (lane k), statusWord_flag (by decide) gate,
    extractLsb'_ofNat_of_digits (by decide) spare, ?_,
    statusWord_flag (by decide) sweeping, extractLsb'_ofNat_of_digits (by decide) high⟩
  · refine extractLsb'_ofNat_of_digits (by decide) (bridge.trans ?_)
    cases s.bridge <;> rfl
  · calc ((statusWord s).extractLsb' 12 4).toNat
        = s.errands.length % 16 := (extractLsb'_ofNat_toNat _ (by decide)).trans errands
      _ = s.errands.length := Nat.mod_eq_of_lt count

/-! ## FAULT (R191) -/

theorem FaultCode.code_lt (c : FaultCode) : c.code < 16 := by
  cases c <;> decide

theorem ObjectKind.code_lt (k : ObjectKind) : k.code < 16 := by
  cases k <;> decide

/-- The number of the FAULT word while the record holds `f`. -/
def faultNumber (f : FaultRec) (further : Nat) : Nat :=
  f.code.code + 16 * f.kind.code + 256 * (further % 256) + 65536 * f.number.toNat +
    4294967296 * f.tick.toNat

theorem faultWord_of_none {s : State} (h : s.faultRec = none) : faultWord s = 0 := by
  simp only [faultWord, h]

theorem faultWord_of_some {s : State} {f : FaultRec} (h : s.faultRec = some f) :
    faultWord s = BitVec.ofNat 64 (faultNumber f s.further) := by
  simp only [faultWord, h, faultNumber]

/-- The digits of the FAULT word: no field of it reaches the next one's place. -/
theorem faultNumber_digits (f : FaultRec) (further : Nat) :
    faultNumber f further / 2 ^ 0 % 2 ^ 4 = f.code.code ∧
    faultNumber f further / 2 ^ 4 % 2 ^ 4 = f.kind.code ∧
    faultNumber f further / 2 ^ 8 % 2 ^ 8 = further % 256 ∧
    faultNumber f further / 2 ^ 16 % 2 ^ 16 = f.number.toNat ∧
    faultNumber f further / 2 ^ 32 % 2 ^ 32 = f.tick.toNat := by
  have code := f.code.code_lt
  have kind := f.kind.code_lt
  have number := f.number.isLt
  have tick := f.tick.isLt
  unfold faultNumber
  refine ⟨?_, ?_, ?_, ?_, ?_⟩ <;> omega

theorem faultWord_fields {s : State} {f : FaultRec} (h : s.faultRec = some f) :
    ((faultWord s).extractLsb' 0 4).toNat = f.code.code ∧
    ((faultWord s).extractLsb' 4 4).toNat = f.kind.code ∧
    ((faultWord s).extractLsb' 8 8).toNat = s.further % 256 ∧
    (faultWord s).extractLsb' 16 16 = f.number ∧
    (faultWord s).extractLsb' 32 32 = f.tick := by
  rw [faultWord_of_some h]
  obtain ⟨code, kind, further, number, tick⟩ := faultNumber_digits f s.further
  exact ⟨(extractLsb'_ofNat_toNat _ (by decide)).trans code,
    (extractLsb'_ofNat_toNat _ (by decide)).trans kind,
    (extractLsb'_ofNat_toNat _ (by decide)).trans further,
    extractLsb'_ofNat_of_digits (by decide) number, extractLsb'_ofNat_of_digits (by decide) tick⟩

/-- Settles O7: each field is read from its digits; the law of the fault record makes FURTHER fit in its
eight bits. -/
theorem faultLayout : Obligations.FaultLayout := by
  refine ⟨?_, by decide, by decide⟩
  rintro s ⟨furtherMost, -⟩
  refine ⟨faultWord_of_none, fun f h => ?_⟩
  obtain ⟨code, kind, further, number, tick⟩ := faultWord_fields h
  exact ⟨code, kind, further.trans (Nat.mod_eq_of_lt (by omega)), number, tick⟩

end Sys2Proof.Machine
end

section
/-! What one command keeps: the laws of the fault record, the clock, the ports and the errand queue, and the
queue of the commands that wait (O2, O56, O57, O58, the first law of O59). -/

namespace Sys2Proof.Machine

/-! ## The relation every command keeps to -/

/-- From `s` to `t` the commands that wait and the laws of the fault record, the clock, the ports and the errand
queue are kept. -/
structure Keeps (s t : State) : Prop where
  pending : t.pending = s.pending
  faultLaw : FaultLaw s → FaultLaw t
  clockLaw : ClockLaw s → ClockLaw t
  tagLaw : TagLaw s → TagLaw t
  errandLaw : ErrandLaw s → ErrandLaw t

/-- A scanner past the header of LOADING works at LOADING. -/
theorem Scanner.loads_of_pastHeader {x : Scanner} (h : x.pastHeader = true) : x.loads = true := by
  cases x with
  | loadWord _ => rfl
  | loadWrite _ _ => rfl
  | _ => cases h

theorem Scanner.pastHeader_of_not_loads {x : Scanner} (h : x.loads = false) : x.pastHeader = false :=
  Bool.eq_false_iff.mpr fun past => Bool.eq_false_iff.mp h (loads_of_pastHeader past)

theorem errandLaw_of_reader {s t : State} (errands : t.errands = s.errands) (reader : t.reader = s.reader)
    (h : ErrandLaw s) : ErrandLaw t :=
  errandLaw_of_eq (by simp only [errandAddrs, errands]) reader h

/-- The clock's law reads the bridge state, the timer, the count, the header values and the scanner's place in
LOADING alone. -/
theorem ClockLaw.of_eq {s t : State} (h : ClockLaw s) (bridge : t.bridge = s.bridge)
    (settings : t.settings = s.settings) (tick : t.tick = s.tick) (timer : t.tickTimerOn = s.tickTimerOn)
    (loads : t.scanner.loads = s.scanner.loads) (past : t.scanner.pastHeader = s.scanner.pastHeader) :
    ClockLaw t := by
  unfold ClockLaw
  rw [bridge, settings, tick, timer, loads, past]
  exact h

/-- With the count as it was and a bridge that works, the timer runs under header values whose gate limits are in
order; the scanner is not at LOADING. -/
theorem ClockLaw.atWork {t : State} (bridge : t.bridge = .running ∨ t.bridge = .quiescing ∨ t.bridge = .stopped)
    (tick : t.tick ≤ Config.tickLimit) (timer : t.tickTimerOn = true) (held : t.settings.isSome = true)
    (loads : t.scanner.loads = false) (gate : ∀ h, t.settings = some h → h.gateLower < h.gateUpper) :
    ClockLaw t := by
  refine ⟨tick, ?_, ?_, ?_, fun _ => ⟨timer, held⟩, ?_, ?_, gate⟩
  · intro off; simp [off] at bridge
  · intro loading; simp [loading] at bridge
  · intro loading; simp [loading] at bridge
  · intro halted; simp [halted] at bridge
  · intro loading; simp [loads] at loading

/-- OFF, and LOADING before its header, hold no header values and have the timer stopped with the count at 0. -/
theorem ClockLaw.blank {t : State} (bridge : t.bridge = .off ∧ t.scanner.loads = false ∨ t.bridge = .loading)
    (tick : t.tick = 0) (timer : t.tickTimerOn = false) (settings : t.settings = none)
    (past : t.scanner.pastHeader = false) : ClockLaw t := by
  refine ⟨by rw [tick]; exact Nat.zero_le _, fun _ => ⟨timer, tick, settings⟩,
    fun _ _ => ⟨timer, tick, settings⟩, ?_, ?_, fun _ => timer, ?_, ?_⟩
  · intro _ passed; simp [past] at passed
  · intro works; rcases bridge with ⟨off, -⟩ | loading <;> simp_all
  · intro loads; rcases bridge with ⟨-, idle⟩ | loading
    · simp [idle] at loads
    · exact loading
  · intro h held; simp [settings] at held

/-- LOADING past its header has the timer running under the header values. -/
theorem ClockLaw.pastHeader {t : State} (bridge : t.bridge = .loading) (past : t.scanner.pastHeader = true)
    (tick : t.tick ≤ Config.tickLimit) (timer : t.tickTimerOn = true) (held : t.settings.isSome = true)
    (gate : ∀ h, t.settings = some h → h.gateLower < h.gateUpper) : ClockLaw t := by
  refine ⟨tick, ?_, ?_, fun _ _ => ⟨timer, held⟩, fun _ => ⟨timer, held⟩, ?_, fun _ => bridge, gate⟩
  · intro off; simp [bridge] at off
  · intro _ before; simp [past] at before
  · intro halted; simp [bridge] at halted

/-- HALTED has the timer stopped and the scanner IDLE. -/
theorem ClockLaw.halted {t : State} (bridge : t.bridge = .halted) (tick : t.tick ≤ Config.tickLimit)
    (timer : t.tickTimerOn = false) (loads : t.scanner.loads = false)
    (gate : ∀ h, t.settings = some h → h.gateLower < h.gateUpper) : ClockLaw t := by
  refine ⟨tick, ?_, ?_, ?_, ?_, fun _ => timer, ?_, gate⟩
  · intro off; simp [bridge] at off
  · intro loading; simp [bridge] at loading
  · intro loading; simp [bridge] at loading
  · intro works; simp [bridge] at works
  · intro loading; simp [loads] at loading

/-- Outside LOADING the scanner is not at LOADING. -/
theorem ClockLaw.not_loads {s : State} (h : ClockLaw s) (bridge : s.bridge ≠ .loading) :
    s.scanner.loads = false := by
  obtain ⟨-, -, -, -, -, -, loads, -⟩ := h
  exact Bool.eq_false_iff.mpr fun works => bridge (loads works)

/-- With the scanner past the header of LOADING the bridge is at LOADING, under the header values. -/
theorem ClockLaw.loading_pastHeader {s : State} (h : ClockLaw s) (past : s.scanner.pastHeader = true) :
    s.bridge = .loading ∧ s.tickTimerOn = true ∧ s.settings.isSome = true := by
  obtain ⟨-, -, -, header, -, -, loads, -⟩ := h
  have loading := loads (Scanner.loads_of_pastHeader past)
  exact ⟨loading, header loading past⟩

/-- In RUNNING, QUIESCING and STOPPED the timer runs under header values. -/
theorem ClockLaw.works {s : State} (h : ClockLaw s)
    (bridge : s.bridge = .running ∨ s.bridge = .quiescing ∨ s.bridge = .stopped) :
    s.tickTimerOn = true ∧ s.settings.isSome = true := by
  obtain ⟨-, -, -, -, works, -⟩ := h
  exact works bridge

theorem ClockLaw.tick_le {s : State} (h : ClockLaw s) : s.tick ≤ Config.tickLimit := h.1

theorem ClockLaw.gate_lt {s : State} (h : ClockLaw s) : ∀ x, s.settings = some x → x.gateLower < x.gateUpper := by
  obtain ⟨-, -, -, -, -, -, -, gate⟩ := h
  exact gate

/-- A change of the bridge state between those in which the timer runs. -/
theorem ClockLaw.toBridge {s t : State} (h : ClockLaw s)
    (works : s.bridge = .running ∨ s.bridge = .quiescing ∨ s.bridge = .stopped)
    (bridge : t.bridge = .running ∨ t.bridge = .quiescing ∨ t.bridge = .stopped)
    (settings : t.settings = s.settings) (tick : t.tick = s.tick) (timer : t.tickTimerOn = s.tickTimerOn)
    (loads : t.scanner.loads = s.scanner.loads) : ClockLaw t := by
  have notLoading : s.bridge ≠ .loading := by rintro loading; simp [loading] at works
  obtain ⟨on, held⟩ := h.works works
  exact ClockLaw.atWork bridge (tick ▸ h.tick_le) (timer.trans on) (settings ▸ held)
    (loads.trans (h.not_loads notLoading)) (settings ▸ h.gate_lt)

namespace Keeps

theorem refl (s : State) : Keeps s s := ⟨rfl, id, id, id, id⟩

theorem trans {s t u : State} (h : Keeps s t) (g : Keeps t u) : Keeps s u :=
  ⟨g.pending.trans h.pending, g.faultLaw ∘ h.faultLaw, g.clockLaw ∘ h.clockLaw, g.tagLaw ∘ h.tagLaw,
    g.errandLaw ∘ h.errandLaw⟩

/-- The same, with the work that comes last given first. -/
theorem before {s t u : State} (g : Keeps t u) (h : Keeps s t) : Keeps s u := h.trans g

/-- Work that leaves the bridge state, the clock and the header values alone keeps the laws, where a scanner at
LOADING stays as it is. -/
theorem ofSteady {s t : State} (h : Steady s t) (scanner : s.scanner.loads = true → t.scanner = s.scanner) :
    Keeps s t := by
  refine ⟨h.pending, h.faultLaw, fun law => ?_, h.tagLaw, h.errandLaw⟩
  have place : t.scanner.loads = s.scanner.loads ∧ t.scanner.pastHeader = s.scanner.pastHeader := by
    by_cases loads : s.scanner.loads = true
    · rw [scanner loads]; exact ⟨rfl, rfl⟩
    · have before := Bool.eq_false_iff.mpr loads
      have after := h.notLoads before
      exact ⟨after.trans before.symm,
        (Scanner.pastHeader_of_not_loads after).trans (Scanner.pastHeader_of_not_loads before).symm⟩
  exact law.of_eq h.bridge h.settings h.tick h.tickTimerOn place.1 place.2

/-- The same for a sweep's work, which a scanner at LOADING never does. -/
theorem ofSweep {s t : State} (h : Steady s t) (sweeps : s.scanner.loads = false) : Keeps s t :=
  ofSteady h fun loads => absurd loads (by simp [sweeps])

theorem ofQuiet {s t : State} (h : Quiet s t) : Keeps s t := ofSteady h.steady fun _ => h.scanner

/-! ## The changes of the bridge state -/

theorem raise (c : Cause) (s : State) : Keeps s (raise c s) := ofQuiet (.raise c s)

theorem reportFault (code : FaultCode) (kind : ObjectKind) (number : Nat) (s : State) :
    Keeps s (reportFault code kind number s) := ofQuiet (.reportFault code kind number s)

/-- QUIESCING to STOPPED (R159). -/
theorem checkStopped (s : State) : Keeps s (checkStopped s) := by
  unfold Machine.checkStopped
  split
  · rename_i quiesces
    refine (raise .state _).before ⟨rfl, id, fun law => ?_, id, id⟩
    exact law.toBridge (.inr (.inl quiesces.1)) (.inr (.inr rfl)) rfl rfl rfl rfl
  · exact refl s

/-- LOADING to OFF: the values of the header, the count and the timer go together (R136, R157). -/
theorem returnToOff (s : State) : Keeps s (returnToOff s) :=
  (raise .state _).before ⟨rfl, id, fun _ => .blank (.inl ⟨rfl, rfl⟩) rfl rfl rfl rfl, id, id⟩

theorem layoutInvalid (s : State) : Keeps s (layoutInvalid s) :=
  (reportFault .layoutInvalid .bridge 0 s).trans (returnToOff _)

end Keeps

theorem Tag.holdsData_abandon (timer : Nat) (x : Tag) : (x.abandon timer).holdsData = x.holdsData := by
  cases x <;> rfl

theorem Tag.isBusy_abandon (timer : Nat) (x : Tag) : (x.abandon timer).isBusy = false := by
  cases x <;> rfl

/-- A read whose tag goes to QUARANTINE is still counted (R116). -/
theorem dataHeld_abandon (x : Port) (timer : Nat) :
    dataHeld { x with tags := x.tags.map (Tag.abandon timer) } = dataHeld x := by
  have same : Tag.holdsData ∘ Tag.abandon timer = Tag.holdsData := funext (Tag.holdsData_abandon timer)
  simp only [dataHeld, Port.tagList, Vector.toList_map, List.countP_map, same]

theorem noBusy_abandon (x y : Port) (timer : Nat) (tags : y.tags = x.tags.map (Tag.abandon timer)) :
    noBusy y = true := by
  simp only [noBusy, Port.tagList, tags, Vector.toList_map, List.all_map, List.all_eq_true]
  intro t _
  simp [Tag.isBusy_abandon]

theorem noBusy_replicate (x : Port) (tags : x.tags = .replicate 24 .free) : noBusy x = true := by
  simp [noBusy, Port.tagList, tags, Tag.isBusy]

theorem dataHeld_replicate (x : Port) (tags : x.tags = .replicate 24 .free) : dataHeld x = 0 := by
  rw [dataHeld, Port.tagList, tags]
  rfl

theorem dataHeld_set_eq (x : Port) (t : TagNo) (g : Tag) (same : g.holdsData = x.tags[t].holdsData) :
    dataHeld { x with tags := x.tags.set t g } = dataHeld x := by
  have old : x.tags.toList[t.val]'(by simp) = x.tags[t] := by simp
  have counted : x.tags[t].holdsData = true → 0 < x.tags.toList.countP Tag.holdsData := fun data =>
    List.countP_pos_iff.mpr ⟨_, Vector.mem_toList_iff.mpr (Vector.getElem_mem t.isLt), data⟩
  simp only [dataHeld, Port.tagList, Vector.toList_set]
  rw [List.countP_set (by simp), same, old]
  by_cases data : x.tags[t].holdsData = true
  · have := counted data
    simp only [data, if_true]
    omega
  · simp only [data, if_false, Bool.false_eq_true, Nat.sub_zero, Nat.add_zero]

namespace Keeps

/-- The work of the lanes at the entry to HALTED. -/
theorem dropLanes (s : State) : Keeps s (dropLanes s) := by
  have releases : Quiet s (quietReleases (s.lane 3).held (quietReleases (s.lane 2).held
      (quietReleases (s.lane 1).held (quietReleases (s.lane 0).held s)))) :=
    (((Quiet.quietReleases _ s).trans (.quietReleases _ _)).trans (.quietReleases _ _)).trans
      (.quietReleases _ _)
  exact (ofQuiet releases).trans ⟨rfl, id, id, id, id⟩

/-- The entry to HALTED (R161): the timer stops, the scanner is IDLE, and a BUSY tag is still counted in
QUARANTINE. -/
theorem enterHalted (s : State) : Keeps s (enterHalted s) := by
  refine (raise .state _).before ((dropLanes s).trans ⟨rfl, id, fun law => ?_, fun law => ?_, id⟩)
  · exact .halted rfl law.tick_le rfl rfl law.gate_lt
  · refine ⟨Nat.le_trans (Nat.le_of_eq (dataHeld_abandon _ _)) law.1, fun down => ⟨?_, (law.2 down).2⟩⟩
    exact noBusy_abandon _ _ _ rfl

theorem fatalFault (code : FaultCode) (kind : ObjectKind) (s : State) : Keeps s (fatalFault code kind s) :=
  (reportFault code kind 0 s).trans (enterHalted _)

/-! ## Resets -/

/-- A state with nothing recorded, the bridge OFF and every unit at its reset value. -/
theorem ofReset {s t : State} (pending : t.pending = s.pending)
    (fault : t.faultRec = none ∧ t.further = 0) (errands : t.errands = [] ∧ t.reader = .noCard)
    (bridge : t.bridge = .off) (scanner : t.scanner = .idle) (tick : t.tick = 0)
    (timer : t.tickTimerOn = false) (settings : t.settings = none)
    (tags : TagLaw s → TagLaw t) : Keeps s t := by
  refine ⟨pending, fun _ => ⟨?_, fun _ => fault.2⟩, fun _ => ?_, tags, fun _ => ?_⟩
  · rw [fault.2]; exact Nat.zero_le _
  · exact .blank (.inl ⟨bridge, by rw [scanner]; rfl⟩) tick timer settings (by rw [scanner]; rfl)
  · rw [ErrandLaw, errandAddrs, errands.1, errands.2]
    exact ⟨Nat.zero_le _, .nil, trivial⟩

theorem powerOn (s : State) : Keeps s (powerOn s) :=
  ofReset rfl ⟨rfl, rfl⟩ ⟨rfl, rfl⟩ rfl rfl rfl rfl rfl fun _ =>
    ⟨Nat.le_trans (Nat.le_of_eq (dataHeld_replicate _ rfl)) (Nat.zero_le _), fun _ => ⟨noBusy_replicate _ rfl, rfl⟩⟩

/-- A local or a soft reset: Port A's tags are FREE, Port B's BUSY tags in QUARANTINE (R133, R134). -/
theorem commonReset (portA : Port) (areaBase : BitVec 64) (enables : BitVec 5) (s : State)
    (free : portA.tags = .replicate 24 .free) : Keeps s (commonReset portA areaBase enables s) :=
  ofReset rfl ⟨rfl, rfl⟩ ⟨rfl, rfl⟩ rfl rfl rfl rfl rfl fun law =>
    ⟨Nat.le_trans (Nat.le_of_eq (dataHeld_replicate _ free)) (Nat.zero_le _),
      fun down => ⟨noBusy_abandon _ _ _ rfl, (law.2 down).2⟩⟩

/-! ## Register writes -/

theorem setEnables (value : BitVec 32) (s : State) : Keeps s (setEnables value s) := ⟨rfl, id, id, id, id⟩

theorem onRegisters {effect : State → State} {s : State} (h : Keeps s (effect s)) :
    Keeps s (onRegisters effect s) := by
  unfold Machine.onRegisters
  split
  · exact h
  · exact refl s

theorem requestControl (who : Requester) (addr : Addr) (length : Nat) (s : State) :
    Keeps s (requestControl who addr length s) := ofQuiet (.requestControl who addr length s)

/-- START from OFF (R149): LOADING begins at the header, with the clock at rest. -/
theorem beginLoading (s : State) (bridge : s.bridge = .off) : Keeps s (beginLoading s) := by
  have blank : ClockLaw s → s.tick = 0 ∧ s.tickTimerOn = false ∧ s.settings = none ∧
      s.scanner.pastHeader = false := fun law => by
    have idle := law.not_loads (by rw [bridge]; nofun)
    obtain ⟨-, off, -⟩ := law
    obtain ⟨timer, tick, settings⟩ := off bridge
    exact ⟨tick, timer, settings, Scanner.pastHeader_of_not_loads idle⟩
  unfold Machine.beginLoading
  dsimp only
  split
  · refine (requestControl _ _ _ _).before ⟨rfl, id, fun law => ?_, id, id⟩
    obtain ⟨tick, timer, settings, -⟩ := blank law
    exact .blank (.inr rfl) tick timer settings rfl
  · refine (layoutInvalid _).before ⟨rfl, id, fun law => ?_, id, id⟩
    obtain ⟨tick, timer, settings, past⟩ := blank law
    exact .blank (.inr rfl) tick timer settings past

theorem recheckHolding (s : State) : Keeps s (recheckHolding s) :=
  ofSteady (.recheckHolding s) fun _ => Steady.recheckHolding_scanner s

theorem dispatch (s : State) : Keeps s (dispatch s) := ofQuiet (.dispatch s)

/-- START from STOPPED (R154). -/
theorem resumeRunning (s : State) (bridge : s.bridge = .stopped) : Keeps s (resumeRunning s) := by
  have running : Keeps s { s with bridge := .running } :=
    ⟨rfl, id, fun law => law.toBridge (.inr (.inr bridge)) (.inl rfl) rfl rfl rfl rfl, id, id⟩
  have due : Keeps s (recomputeCalendar { s with bridge := .running }) :=
    running.trans (ofQuiet (.recomputeCalendar _))
  unfold Machine.resumeRunning
  generalize recomputeCalendar { s with bridge := .running } = u at due
  exact (recheckHolding _).before ((dispatch _).before (due.trans ⟨rfl, id, id, id, id⟩))

theorem giveStart (s : State) : Keeps s (giveStart s) := by
  unfold Machine.giveStart
  split
  case h_1 bridge => exact beginLoading s bridge
  case h_2 bridge => exact resumeRunning s bridge
  all_goals exact refl s

/-- The scanner at a STOP in RUNNING (R147): one at LOADING is left alone. -/
theorem stopSweep (s : State) : Keeps s (stopSweep s) := by
  refine ofSteady (.stopSweep s) fun loads => ?_
  unfold Machine.stopSweep
  split <;> rename_i scanner <;> rw [scanner] at loads <;> cases loads

/-- STOP in RUNNING (R158). -/
theorem beginQuiescing (s : State) (bridge : s.bridge = .running) : Keeps s (beginQuiescing s) := by
  have settled := Quiet.settleDelivery s
  have quiesces : Keeps (settleDelivery s) { settleDelivery s with bridge := .quiescing } :=
    ⟨rfl, id, fun law => law.toBridge (.inl (settled.bridge.trans bridge)) (.inr (.inl rfl)) rfl rfl rfl rfl,
      id, id⟩
  have entered := (ofQuiet settled).trans quiesces
  unfold Machine.beginQuiescing
  generalize settleDelivery s = u at entered
  exact (checkStopped _).before ((dispatch _).before ((ofQuiet (.parkRequestLanes _)).before
    (entered.trans (stopSweep _))))

theorem stopLoading (s : State) : Keeps s (stopLoading s) := by
  have withdraws := ofQuiet (Steady.withdrawControl .scanner s)
  have waits : Keeps s { s with loadingStop := true } := ⟨rfl, id, id, id, id⟩
  unfold Machine.stopLoading
  split
  case h_3 => exact returnToOff s
  all_goals
    split
    · exact withdraws.trans (returnToOff _)
    · exact waits

theorem giveStop (s : State) : Keeps s (giveStop s) := by
  unfold Machine.giveStop
  split
  case h_1 bridge => exact beginQuiescing s bridge
  case h_2 => exact stopLoading s
  all_goals exact refl s

/-! ## Answers to control reads -/

theorem jobEnd (k : LaneNo) (u : Nat) (s : State) : Keeps s (jobEnd k u s) :=
  ofSteady (.jobEnd k u s) fun _ => Steady.jobEnd_scanner k u s

theorem lentRead (k : LaneNo) (n : CadNo) (lent : Count) (s : State) : Keeps s (lentRead k n lent s) := by
  have copied := ofQuiet (.setCad n { s.cad n with lastLent := lent } s)
  unfold Machine.lentRead
  dsimp only
  split
  · exact copied.trans (ofQuiet ((Quiet.countMiss _ _).trans (.enterStamping _ _ _)))
  · split
    · exact copied.trans ((ofQuiet ((Quiet.holdingFault _ _ _).trans (.takeBetween _ _))).trans (jobEnd _ _ _))
    · exact copied.trans ((ofQuiet (.setLane _ _ _)).trans (requestControl _ _ _ _))

theorem slotRead (k : LaneNo) (n : CadNo) (bytes : List Byte) (s : State) : Keeps s (slotRead k n bytes s) := by
  unfold Machine.slotRead
  dsimp only
  split
  · split
    · split
      · exact ofQuiet (.enterStamping _ _ _)
      · exact ofQuiet ((Quiet.setLane _ _ _).trans (.askSource _ _))
    · exact ofQuiet (.enterStamping _ _ _)
  · exact ofQuiet (.enterStamping _ _ _)

theorem laneControlRead (k : LaneNo) (bytes : List Byte) (s : State) : Keeps s (laneControlRead k bytes s) := by
  unfold Machine.laneControlRead
  dsimp only
  split
  · split
    · exact lentRead _ _ _ _
    · exact slotRead _ _ _ _
  · exact ofQuiet ((Quiet.setCad _ _ _).trans (.enterStamping _ _ _))
  · exact refl s
  · exact refl s

/-- The card read keeps the room of the take: the card has the address it was read at (R80, R81). -/
theorem cardRead (addr : Addr) (bytes : List Byte) (s : State) (reader : s.reader = .takingRead addr) :
    Keeps s (cardRead addr bytes s) := by
  refine ⟨rfl, id, id, id, fun law => ?_⟩
  obtain ⟨most, distinct, room⟩ := law
  rw [reader] at room
  exact ⟨most, distinct, room⟩

theorem actOnLink (link : Addr) (source : Option Addr) (s : State) : Keeps s (actOnLink link source s) :=
  ofSteady (.actOnLink link source s) fun _ => Steady.actOnLink_scanner link source s

theorem readerControlRead (bytes : List Byte) (s : State) : Keeps s (readerControlRead bytes s) := by
  unfold Machine.readerControlRead
  split
  case h_1 addr reader => exact cardRead addr bytes s reader
  case h_2 => exact actOnLink _ _ s
  case h_3 => exact refl s

/-- LOADING goes on past the header to a record (R149, R150). -/
theorem toRecord (x : Scanner) (s : State) (before : s.scanner.pastHeader = true) (after : x.pastHeader = true) :
    Keeps s { s with scanner := x } := by
  refine ⟨rfl, id, fun law => ?_, id, id⟩
  obtain ⟨bridge, timer, settings⟩ := law.loading_pastHeader before
  exact .pastHeader bridge after law.tick_le timer settings law.gate_lt

theorem startSweep (s : State) (idle : s.scanner.loads = false) : Keeps s (startSweep s) :=
  ofSweep (.startSweep s) idle

/-- The entry to RUNNING at the end of LOADING (R150, R157). -/
theorem completeLoading (s : State)
    (loaded : ClockLaw s → s.tickTimerOn = true ∧ s.settings.isSome = true) : Keeps s (completeLoading s) := by
  refine (startSweep _ ?_).before ((dispatch _).before ((raise .state _).before
    ⟨rfl, id, fun law => ?_, id, id⟩))
  · rw [(Quiet.dispatch _).scanner, (Quiet.raise _ _).scanner]
    rfl
  · exact .atWork (.inl rfl) law.tick_le (loaded law).1 (loaded law).2 rfl law.gate_lt

theorem beginLoadWrites (s : State) (past : s.scanner.pastHeader = true) : Keeps s (beginLoadWrites s) := by
  unfold Machine.beginLoadWrites
  split
  · exact toRecord _ s past rfl
  · exact completeLoading s fun law => (law.loading_pastHeader past).2

end Keeps

/-- The gate limits of a header that is accepted are in order (R135). -/
theorem decodeHeader_gate {bytes : List Byte} {h : Settings} (accepted : decodeHeader bytes = some h) :
    h.gateLower < h.gateUpper := by
  unfold decodeHeader at accepted
  dsimp only at accepted
  split at accepted
  · rename_i fields
    obtain ⟨-, -, -, -, -, -, -, -, -, -, gate, -⟩ := fields
    cases accepted
    exact gate
  · cases accepted

namespace Keeps

/-- The answer to the header read (R136, R149): the values, the timer and LOADING's next read come together. -/
theorem headerRead (bytes : List Byte) (s : State) (scanner : s.scanner = .header) :
    Keeps s (headerRead bytes s) := by
  unfold Machine.headerRead
  split
  · exact returnToOff s
  split
  · exact layoutInvalid s
  · rename_i h accepted
    have gate : ∀ x, some h = some x → x.gateLower < x.gateUpper := by
      rintro x ⟨⟩
      exact decodeHeader_gate accepted
    dsimp only
    split
    · refine (requestControl _ _ _ _).before ⟨rfl, id, fun law => ?_, id, id⟩
      have bridge : s.bridge = .loading := by
        obtain ⟨-, -, -, -, -, -, loads, -⟩ := law
        exact loads (by rw [scanner]; rfl)
      exact .pastHeader bridge rfl law.tick_le rfl rfl gate
    · refine (startSweep _ ?_).before ((dispatch _).before ((raise .state _).before
        ⟨rfl, id, fun law => .atWork (.inl rfl) law.tick_le rfl rfl rfl gate, id, id⟩))
      rw [(Quiet.dispatch _).scanner, (Quiet.raise _ _).scanner]
      rfl

theorem setAck (r : Record) (seq : Byte) (s : State) : Keeps s (setAck r seq s) := ofQuiet (.setAck r seq s)

theorem loadWordRead (r : Record) (word : List Byte) (s : State) (scanner : s.scanner = .loadWord r) :
    Keeps s (loadWordRead r word s) := by
  have past : (Machine.setAck r (cmdSeqOf word) s).scanner.pastHeader = true := by
    rw [(Quiet.setAck r (cmdSeqOf word) s).scanner, scanner]
    rfl
  unfold Machine.loadWordRead
  split
  · exact returnToOff s
  · refine (setAck r (cmdSeqOf word) s).trans ?_
    dsimp only
    split
    · exact (requestControl _ _ _ _).before (toRecord _ _ past rfl)
    · exact beginLoadWrites _ past

theorem scannerControlRead (bytes : List Byte) (s : State) : Keeps s (scannerControlRead bytes s) := by
  unfold Machine.scannerControlRead
  split
  case h_1 scanner => exact headerRead bytes s scanner
  case h_2 r scanner => exact loadWordRead r bytes s scanner
  case h_3 r scanner => exact ofSweep (.sweepWordRead r bytes s) (by rw [scanner]; rfl)
  case h_4 r seq notify scanner => exact ofSweep (.sweepFurtherRead r seq notify bytes s) (by rw [scanner]; rfl)
  case h_5 scanner => exact ofSweep (.chainRead bytes s) (by rw [scanner]; rfl)
  all_goals exact refl s

theorem controlRead (who : Requester) (bytes : List Byte) (s : State) : Keeps s (controlRead who bytes s) := by
  cases who with
  | lane k => exact laneControlRead k bytes s
  | reader => exact readerControlRead bytes s
  | scanner => exact scannerControlRead bytes s

/-! ## The ports' events -/

theorem readAnswered (t : TagNo) (r : ReadInfo) (a : ReadAnswer) (s : State) :
    Keeps s (readAnswered t r a s) := by
  unfold Machine.readAnswered
  split
  · cases a with
    | data bytes => exact controlRead r.requester bytes s
    | error => exact fatalFault _ _ s
    | timeout => exact fatalFault _ _ s
  · split
    · exact ofQuiet ((Quiet.segmentAnswered _ _ _ _ _).trans (.dispatchIfIdle _ _))
    · exact refl s
    · exact refl s
  · split
    · exact ofQuiet ((Quiet.confirmAnswered _ _ _).trans (.dispatchIfIdle _ _))
    · exact refl s
    · exact refl s

theorem arbitrate (p : Domain) (s : State) : Keeps s (arbitrate p s) := ofQuiet (.arbitrate p s)

theorem takeCompletion (p : Domain) (t : TagNo) (answer : Answer) (s : State) :
    Keeps s (takeCompletion p t answer s) := by
  have freed := ofQuiet (.setTag_free p t s)
  unfold Machine.takeCompletion
  split
  · exact (checkStopped _).before ((arbitrate _ _).before ((readAnswered _ _ _ _).before
      (freed.trans ⟨rfl, id, id, id, id⟩)))
  · exact freed.trans (arbitrate _ _)
  · exact reportFault _ _ _ s

/-- The timeout of a read (R122): the tag goes to QUARANTINE, counted as before. -/
theorem quarantine (p : Domain) (t : TagNo) (r : ReadInfo) (timer period : Nat) (s : State)
    (busy : s.tag p t = .busy r timer) : Keeps s (setTag p t (.quarantine r.role.kind period) s) := by
  cases p with
  | a =>
    have same : (Tag.quarantine r.role.kind period).holdsData = s.portA.tags[t].holdsData := by
      rw [show s.portA.tags[t] = .busy r timer from busy]
      rfl
    exact ⟨rfl, id, id, fun law => ⟨Nat.le_trans (Nat.le_of_eq (dataHeld_set_eq s.portA t _ same)) law.1, law.2⟩, id⟩
  | b =>
    refine ⟨rfl, id, id, fun law => ⟨law.1, fun down => ?_⟩, id⟩
    have quiet := (law.2 down).1
    simp only [noBusy, Port.tagList, List.all_eq_true] at quiet
    have free := quiet _ (Vector.mem_toList_iff.mpr (Vector.getElem_mem t.isLt))
    rw [show s.portB.tags[t.val] = .busy r timer from busy] at free
    cases free

theorem execReadTimeout (p : Domain) (t : TagNo) (s : State) :
    ∃ u, execReadTimeout p t s = .next u ∧ Keeps s u := by
  unfold Machine.execReadTimeout
  split
  case h_1 r timer busy =>
    exact ⟨_, rfl, (checkStopped _).before ((readAnswered _ _ _ _).before (quarantine p t r timer _ s busy))⟩
  all_goals exact ⟨s, rfl, refl s⟩

theorem execQuarantineExpiry (p : Domain) (t : TagNo) (s : State) :
    ∃ u, execQuarantineExpiry p t s = .next u ∧ Keeps s u := by
  unfold Machine.execQuarantineExpiry
  split
  case h_1 => exact ⟨_, rfl, (arbitrate _ _).before (ofQuiet (.setTag_free p t s))⟩
  all_goals exact ⟨s, rfl, refl s⟩

theorem settleRaisings (s : State) : Keeps s (settleRaisings s) := by
  unfold Machine.settleRaisings
  dsimp only
  rw [setCauses_frame]
  exact ⟨rfl, id, id, id, id⟩

/-- Port B holds nothing to send while the link is DOWN. -/
theorem execPostedWriteSent (source : SendFrom) (s : State) :
    ∃ u, execPostedWriteSent source s = .next u ∧ Keeps s u := by
  cases source with
  | portA =>
    refine ⟨_, rfl, ?_⟩
    unfold sendPortA
    split
    · exact (checkStopped _).before ((settleRaisings _).before ⟨rfl, id, id, id, id⟩)
    · exact refl s
  | portB lane =>
    refine ⟨_, rfl, ?_⟩
    unfold sendPortB
    split
    · split
      · rename_i up
        exact ⟨rfl, id, id, fun law => ⟨law.1, fun down => absurd (up.symm.trans down) (by decide)⟩, id⟩
      · exact refl s
    · exact refl s

/-! ## The peer link -/

theorem linkDown (s : State) : Keeps s (linkDown s) :=
  (checkStopped _).before ((ofQuiet (.linkDownLanes _)).before ((reportFault _ _ _ _).before
    ⟨rfl, id, id, fun law => ⟨law.1, fun _ => ⟨noBusy_replicate _ rfl, rfl⟩⟩, id⟩))

/-! ## The Tick Unit -/

theorem requestSweep (s : State) : Keeps s (requestSweep s) := by
  refine ofSteady (.requestSweep s) fun loads => ?_
  unfold Machine.requestSweep
  split
  · split
    · rename_i idle
      rw [idle] at loads
      cases loads
    · rfl
  · rfl

theorem expireSweepTimer (s : State) : Keeps s (expireSweepTimer s) :=
  (requestSweep _).before ⟨rfl, id, id, id, id⟩

/-- The count advances by one below TICK_LIMIT, while the timer runs (R30, R31). -/
theorem countTick (s : State) (timer : s.tickTimerOn = true) (below : s.tick < Config.tickLimit) :
    Keeps s { s with tick := s.tick + 1 } := by
  refine ⟨rfl, id, fun law => ?_, id, id⟩
  obtain ⟨-, off, header, loading, works, halted, loads, gate⟩ := law
  have running {p : Prop} (stopped : s.tickTimerOn = false) : p :=
    absurd (timer.symm.trans stopped) (by decide)
  exact ⟨below, fun bridge => running (off bridge).1, fun bridge past => running (header bridge past).1,
    loading, works, halted, loads, gate⟩

theorem countSweepTick (s : State) : Keeps s (countSweepTick s) := by
  unfold Machine.countSweepTick
  split
  · exact ⟨rfl, id, id, id, id⟩
  · exact refl s

theorem runningTick (s : State) (timer : s.tickTimerOn = true) (below : s.tick < Config.tickLimit) :
    Keeps s (runningTick s) := by
  have swept : Keeps s (if sweepDue s then Machine.expireSweepTimer s else s) ∧
      (if sweepDue s then Machine.expireSweepTimer s else s).tick = s.tick ∧
      (if sweepDue s then Machine.expireSweepTimer s else s).tickTimerOn = s.tickTimerOn := by
    split
    · have work := Steady.requestSweep { s with sweepTimer := 0 }
      exact ⟨expireSweepTimer s, work.tick, work.tickTimerOn⟩
    · exact ⟨refl s, rfl, rfl⟩
  obtain ⟨kept, tick, on⟩ := swept
  unfold Machine.runningTick
  dsimp only
  generalize (if sweepDue s then Machine.expireSweepTimer s else s) = u at kept tick on
  have counted := kept.trans (countTick u (on.trans timer) (tick ▸ below))
  exact (countSweepTick _).before (counted.trans (ofQuiet (.releaseDue _)))

theorem execTickExpiry (s : State) : ∃ u, execTickExpiry s = .next u ∧ Keeps s u := by
  unfold Machine.execTickExpiry
  split
  · exact ⟨s, rfl, refl s⟩
  · rename_i timer
    have timer : s.tickTimerOn = true := by simpa using timer
    split
    · exact ⟨_, rfl, fatalFault _ _ s⟩
    · rename_i below
      have below : s.tick < Config.tickLimit := Nat.lt_of_not_le below
      split
      · exact ⟨_, rfl, runningTick s timer below⟩
      · exact ⟨_, rfl, countTick s timer below⟩

theorem execSweepTimerExpiry (s : State) : ∃ u, execSweepTimerExpiry s = .next u ∧ Keeps s u := by
  unfold Machine.execSweepTimerExpiry
  split
  · exact ⟨_, rfl, expireSweepTimer s⟩
  · exact ⟨s, rfl, refl s⟩

/-! ## Delivered commands -/

/-- The sweep goes on after a delivered command, which no scanner at LOADING holds. -/
theorem sweepAfter {s u : State} {d : Delivery} (r : Record) (scanner : s.scanner = .delivered d)
    (taken : Quiet s u) : Keeps s (sweepAfter r u) :=
  (ofQuiet taken).trans (ofSweep (.sweepAfter r u) (by rw [taken.scanner, scanner]; rfl))

theorem execArm (n : CadNo) (s : State) : ∃ u, execArm n s = .next u ∧ Keeps s u := by
  unfold Machine.execArm
  split
  · rename_i d scanner
    split
    · split
      · exact ⟨_, rfl, sweepAfter _ scanner (.ifUndecided _ _ _ (.takeArm _ _ _ _))⟩
      · exact ⟨s, rfl, refl s⟩
    · exact ⟨s, rfl, refl s⟩
  · exact ⟨s, rfl, refl s⟩

theorem execPause (n : CadNo) (s : State) : ∃ u, execPause n s = .next u ∧ Keeps s u := by
  unfold Machine.execPause
  split
  · rename_i d scanner
    split
    · exact ⟨_, rfl, sweepAfter _ scanner
        ((Quiet.ifUndecided _ _ _ (.takePause _ _ _)).trans (.dispatchIfMoved _ _))⟩
    · exact ⟨s, rfl, refl s⟩
  · exact ⟨s, rfl, refl s⟩

theorem execResume (n : CadNo) (s : State) : ∃ u, execResume n s = .next u ∧ Keeps s u := by
  unfold Machine.execResume
  split
  · rename_i d scanner
    split
    · exact ⟨_, rfl, sweepAfter _ scanner (.ifUndecided _ _ _ (.takeResume _ _ _))⟩
    · exact ⟨s, rfl, refl s⟩
  · exact ⟨s, rfl, refl s⟩

theorem execRetire (n : CadNo) (s : State) : ∃ u, execRetire n s = .next u ∧ Keeps s u := by
  unfold Machine.execRetire
  split
  · rename_i d scanner
    split
    · exact ⟨_, rfl, sweepAfter _ scanner
        ((Quiet.ifUndecided _ _ _ (.takeRetire _ _ _)).trans (.dispatchIfMoved _ _))⟩
    · exact ⟨s, rfl, refl s⟩
  · exact ⟨s, rfl, refl s⟩

theorem execOpen (n : WinNo) (s : State) : ∃ u, execOpen n s = .next u ∧ Keeps s u := by
  unfold Machine.execOpen
  split
  · rename_i d scanner
    split
    · split
      · exact ⟨_, rfl, sweepAfter _ scanner (.ifUndecided _ _ _ (.takeOpen _ _ _ _))⟩
      · exact ⟨s, rfl, refl s⟩
    · exact ⟨s, rfl, refl s⟩
  · exact ⟨s, rfl, refl s⟩

theorem execClose (n : WinNo) (s : State) : ∃ u, execClose n s = .next u ∧ Keeps s u := by
  unfold Machine.execClose
  split
  · rename_i d scanner
    split
    · exact ⟨_, rfl, sweepAfter _ scanner (.ifUndecided _ _ _ (.takeClose _ _ _))⟩
    · exact ⟨s, rfl, refl s⟩
  · exact ⟨s, rfl, refl s⟩

theorem execUnknownCommand (r : Record) (s : State) :
    ∃ u, execUnknownCommand r s = .next u ∧ Keeps s u := by
  unfold Machine.execUnknownCommand
  split
  · rename_i d scanner
    split
    · exact ⟨_, rfl, sweepAfter _ scanner (.ifUndecided _ _ _ (.takeCommand _ _))⟩
    · exact ⟨s, rfl, refl s⟩
  · exact ⟨s, rfl, refl s⟩

/-! ## The writes of the block's own units -/

theorem execFillSegmentWrite (k : LaneNo) (s : State) :
    ∃ u, execFillSegmentWrite k s = .next u ∧ Keeps s u := by
  unfold Machine.execFillSegmentWrite
  split
  · split
    · exact ⟨_, rfl, ofQuiet (.fillSegment _ _ s)⟩
    · exact ⟨s, rfl, refl s⟩
  all_goals exact ⟨s, rfl, refl s⟩

theorem stampWrite (k : LaneNo) (item : StampItem) (rest : List StampItem) (s : State) :
    Keeps s (stampWrite k item rest s) := by
  have stamped := ofQuiet
    ((Quiet.setLane k { s.lane k with stampLeft := rest } s).trans (Steady.stampItem k item _))
  unfold Machine.stampWrite
  dsimp only
  split
  · exact (checkStopped _).before ((jobEnd _ _ _).before (stamped.trans (ofQuiet (Steady.afterStamp _ _))))
  · exact stamped

theorem execStampingWrite (k : LaneNo) (s : State) : ∃ u, execStampingWrite k s = .next u ∧ Keeps s u := by
  unfold Machine.execStampingWrite
  split
  · split
    · exact ⟨s, rfl, refl s⟩
    · exact ⟨_, rfl, stampWrite _ _ _ s⟩
  · exact ⟨s, rfl, refl s⟩

/-! ## Takes -/

theorem afterTake (c : Card) (s : State) : Keeps s (afterTake c s) :=
  ofSteady (.afterTake c s) fun _ => Steady.afterTake_scanner c s

end Keeps

/-- What follows a take does not look at the reader's position, which it replaces. -/
theorem afterTake_reader (c : Card) (x : ReaderPos) (s : State) :
    afterTake c { s with reader := x } = afterTake c s := rfl

namespace Keeps

/-- A valid card that joins the queue takes the room its take has kept (R80, R81). -/
theorem endTake (c : Card) (valid : Bool) (left : List TakeItem) (s : State)
    (reader : s.reader = .takingWrite c valid left) : Keeps s (endTake c valid s) := by
  unfold Machine.endTake
  cases valid with
  | false =>
    exact (ofQuiet (Steady.reportBadCard c s)).trans (afterTake c _)
  | true =>
    have joins : Keeps s { joinErrand c s with reader := .noCard } := by
      refine ⟨rfl, id, id, id, fun law => ?_⟩
      obtain ⟨-, distinct, room⟩ := law
      rw [reader] at room
      obtain ⟨below, absent⟩ := room
      have addrs : errandAddrs { joinErrand c s with reader := .noCard } = errandAddrs s ++ [c.addr] := by
        simp [errandAddrs, joinErrand]
      refine ⟨?_, ?_, trivial⟩
      · rw [addrs, List.length_append]
        exact below
      · rw [addrs, List.nodup_append]
        exact ⟨distinct, List.pairwise_singleton _ _, by
          rintro a ha b hb rfl
          rw [List.mem_singleton] at hb
          exact absent (hb ▸ ha)⟩
    have acts : Quiet { joinErrand c s with reader := .noCard }
        { Machine.dispatch (joinErrand c s) with reader := .noCard } :=
      { Quiet.dispatch (joinErrand c s) with reader := rfl }
    exact (joins.trans (ofQuiet acts)).trans (afterTake c { Machine.dispatch (joinErrand c s) with reader := .noCard })

theorem takeStep (c : Card) (valid : Bool) (item : TakeItem) (rest left : List TakeItem) (s : State)
    (reader : s.reader = .takingWrite c valid left) : Keeps s (takeStep c valid item rest s) := by
  have written := Steady.takeWrite c valid item s
  unfold Machine.takeStep
  dsimp only
  split
  · exact (checkStopped _).before ((ofQuiet written).trans
      (endTake c valid left _ (written.reader.trans reader)))
  · refine (ofQuiet written).trans ⟨rfl, id, id, id, fun law => ?_⟩
    obtain ⟨most, distinct, room⟩ := law
    rw [written.reader, reader] at room
    exact ⟨most, distinct, room⟩

theorem execTakeWrite (s : State) : ∃ u, execTakeWrite s = .next u ∧ Keeps s u := by
  unfold Machine.execTakeWrite
  split
  · rename_i reader
    split
    · exact ⟨s, rfl, refl s⟩
    · exact ⟨_, rfl, takeStep _ _ _ _ _ s reader⟩
  · exact ⟨s, rfl, refl s⟩

theorem loadField (r : Record) (i : Nat) (s : State) (scanner : s.scanner = .loadWrite r i) :
    Keeps s (loadField r i s) := by
  unfold Machine.loadField
  split
  · exact refl s
  · rename_i offset size value _
    have written := Quiet.recordWrite r offset size value s
    have past : (recordWrite r offset size value s).scanner.pastHeader = true := by
      rw [written.scanner, scanner]
      rfl
    refine (ofQuiet written).trans ?_
    dsimp only
    split
    · exact toRecord _ _ past rfl
    · split
      · exact toRecord _ _ past rfl
      · exact completeLoading _ fun law => (law.loading_pastHeader past).2

theorem execLoadingWrite (s : State) : ∃ u, execLoadingWrite s = .next u ∧ Keeps s u := by
  unfold Machine.execLoadingWrite
  split
  · rename_i scanner
    exact ⟨_, rfl, loadField _ _ s scanner⟩
  · exact ⟨s, rfl, refl s⟩

/-! ## Resets from outside the registers -/

theorem setLocalCause (cause : LocalCause) (present : Bool) (s : State) :
    Keeps s (setLocalCause cause present s) := by
  cases cause <;> exact ⟨rfl, id, id, id, id⟩

theorem execLocalReset (cause : LocalCause) (s : State) :
    ∃ u, execLocalReset cause s = .next u ∧ Keeps s u := by
  unfold Machine.execLocalReset
  split
  · exact ⟨s, rfl, refl s⟩
  · exact ⟨_, rfl, (setLocalCause _ _ _).before (commonReset _ _ _ s rfl)⟩

theorem execPeerLinkDown (s : State) : ∃ u, execPeerLinkDown s = .next u ∧ Keeps s u := by
  unfold Machine.execPeerLinkDown
  split
  · exact ⟨_, rfl, linkDown s⟩
  · exact ⟨s, rfl, refl s⟩

theorem areaBaseWrite (write : WideWrite) (s : State) :
    Keeps s (if s.bridge = .off then { s with areaBase := wideValue write s.areaBase } else s) := by
  split
  · exact ⟨rfl, id, id, id, id⟩
  · exact refl s

end Keeps

/-! ## Every command and every step -/

/-- Every command answers a next state, which keeps the laws. -/
theorem exec_keeps (c : Instr) (s : State) : ∃ t, exec c s = .next t ∧ Keeps s t := by
  cases c with
  | start v => exact ⟨_, rfl, .onRegisters ((Keeps.setEnables v s).trans (.giveStart _))⟩
  | stop v => exact ⟨_, rfl, .onRegisters ((Keeps.setEnables v s).trans (.giveStop _))⟩
  | reset v => exact ⟨_, rfl, .onRegisters ((Keeps.setEnables v s).trans (.commonReset _ _ _ _ rfl))⟩
  | setEnables v => exact ⟨_, rfl, .onRegisters (.setEnables v s)⟩
  | nudge v => exact ⟨_, rfl, .onRegisters (.requestSweep s)⟩
  | raisedClear v => exact ⟨_, rfl, .onRegisters ⟨rfl, id, id, id, id⟩⟩
  | faultClear w =>
    exact ⟨_, rfl, .onRegisters ⟨rfl, fun _ => ⟨Nat.zero_le _, fun _ => rfl⟩, id, id, id⟩⟩
  | areaBaseWrite w => exact ⟨_, rfl, .onRegisters (.areaBaseWrite w s)⟩
  | registerWriteDiscarded offset size v => exact ⟨s, rfl, .refl s⟩
  | powerOnReset => exact ⟨_, rfl, .powerOn s⟩
  | localReset cause => exact Keeps.execLocalReset cause s
  | localResetRelease cause => exact ⟨_, rfl, .setLocalCause cause false s⟩
  | peerLinkDown => exact Keeps.execPeerLinkDown s
  | peerLinkUp => exact ⟨_, rfl, rfl, id, id, fun law => ⟨law.1, nofun⟩, id⟩
  | tickExpiry => exact Keeps.execTickExpiry s
  | sweepTimerExpiry => exact Keeps.execSweepTimerExpiry s
  | readCompletion p t answer => exact ⟨_, rfl, .takeCompletion p t answer s⟩
  | readTimeout p t => exact Keeps.execReadTimeout p t s
  | lateAnswer p t answer => exact ⟨_, rfl, .takeCompletion p t answer s⟩
  | quarantineExpiry p t => exact Keeps.execQuarantineExpiry p t s
  | strayCompletion p t answer => exact ⟨_, rfl, .takeCompletion p t answer s⟩
  | postedWriteSent source => exact Keeps.execPostedWriteSent source s
  | fillSegmentWrite k => exact Keeps.execFillSegmentWrite k s
  | arm n => exact Keeps.execArm n s
  | pause n => exact Keeps.execPause n s
  | resume n => exact Keeps.execResume n s
  | retire n => exact Keeps.execRetire n s
  | openWindow n => exact Keeps.execOpen n s
  | closeWindow n => exact Keeps.execClose n s
  | unknownCommand r => exact Keeps.execUnknownCommand r s
  | stampingWrite k => exact Keeps.execStampingWrite k s
  | takeWrite => exact Keeps.execTakeWrite s
  | loadingWrite => exact Keeps.execLoadingWrite s

theorem keeps_of_exec {c : Instr} {s t : State} (h : exec c s = .next t) : Keeps s t := by
  obtain ⟨u, answers, kept⟩ := exec_keeps c s
  cases answers.symm.trans h
  exact kept

/-- A step is a command on the state with the rest of the queue, or leaves the state as it is. -/
theorem step_cases {s t : State} (h : step s = .next t) :
    t = s ∨ ∃ c rest, s.pending = c :: rest ∧ exec c { s with pending := rest } = .next t := by
  unfold step at h
  split at h
  · exact .inl (Host.Outcome.next.inj h).symm
  · exact .inr ⟨_, _, ‹_›, h⟩

/-- A law that does not read the queue and that every command keeps holds after every step. -/
theorem step_law {P : State → Prop} (queue : ∀ s rest, P s → P { s with pending := rest })
    (command : ∀ c s t, exec c s = .next t → P s → P t) {s t : State} (h : step s = .next t) (law : P s) :
    P t := by
  rcases step_cases h with rfl | ⟨c, rest, -, runs⟩
  · exact law
  · exact command c _ t runs (queue s rest law)

/-- Settles O2: every command answers a next state and keeps the queue. -/
theorem everyStepAnswersNext : Obligations.EveryStepAnswersNext := by
  refine ⟨fun s => ⟨?_, fun empty => ?_⟩, fun c s t h => (keeps_of_exec h).pending⟩
  · unfold step
    split
    · exact ⟨s, rfl⟩
    · obtain ⟨t, answers, -⟩ := exec_keeps _ _
      exact ⟨t, answers⟩
  · unfold step
    rw [empty]

/-- Settles O56, by the law of the fault record that every command keeps. -/
theorem faultLawKept : Obligations.FaultLawKept := fun _ _ law h =>
  step_law (fun _ _ => id) (fun _ _ _ h => (keeps_of_exec h).faultLaw) h law

/-- Settles O57, by the clock's law that every command keeps. -/
theorem clockLawKept : Obligations.ClockLawKept := fun _ _ law h =>
  step_law (fun _ _ => id) (fun _ _ _ h => (keeps_of_exec h).clockLaw) h law

/-- Settles O58, by the ports' law that every command keeps. -/
theorem tagLawKept : Obligations.TagLawKept := fun _ _ law h =>
  step_law (fun _ _ => id) (fun _ _ _ h => (keeps_of_exec h).tagLaw) h law

end Sys2Proof.Machine
end

section
/-! The laws of the units across every command, with what they bound (O59), and the laws at reset (O60). -/

namespace Sys2Proof.Machine

namespace UnitLaws

/-! ## Register writes -/

theorem frame {s t : State} (h : UnitLaws s) (f : Frame s t) : UnitLaws t := f.laws h

theorem onRegisters {effect : State → State} {s : State} (h : UnitLaws s) (g : UnitLaws (effect s)) :
    UnitLaws (onRegisters effect s) := by
  unfold Machine.onRegisters
  split
  · exact g
  · exact h

theorem setEnables {s : State} (h : UnitLaws s) (value : BitVec 32) : UnitLaws (setEnables value s) :=
  h.frame { Frame.refl s with }

theorem giveStart {s : State} (h : UnitLaws s) : UnitLaws (giveStart s) := by
  unfold Machine.giveStart
  split
  case h_1 bridge => exact h.beginLoading bridge
  case h_2 bridge => exact h.resumeRunning bridge
  all_goals exact h

theorem giveStop {s : State} (h : UnitLaws s) : UnitLaws (giveStop s) := by
  unfold Machine.giveStop
  split
  case h_1 bridge => exact h.beginQuiescing bridge
  case h_2 bridge => exact h.stopLoading bridge
  all_goals exact h

theorem areaBaseWrite {s : State} (h : UnitLaws s) (write : WideWrite) :
    UnitLaws (if s.bridge = .off then { s with areaBase := wideValue write s.areaBase } else s) := by
  split
  · exact h.frame { Frame.refl s with }
  · exact h

/-! ## Resets and the link -/

theorem setLocalCause {s : State} (h : UnitLaws s) (cause : LocalCause) (present : Bool) :
    UnitLaws (setLocalCause cause present s) := by
  cases cause <;> exact h.frame { Frame.refl s with }

theorem execLocalReset {s : State} (h : UnitLaws s) (cause : LocalCause) :
    ∃ t, execLocalReset cause s = .next t ∧ UnitLaws t := by
  unfold Machine.execLocalReset
  split
  · exact ⟨s, rfl, h⟩
  · exact ⟨_, rfl, (UnitLaws.ofCommonReset _ _ _ s fun t => by
      simp [localResetPortA, Port.reset, Tag.isBusy]).setLocalCause cause true⟩

theorem execPeerLinkDown {s : State} (h : UnitLaws s) : ∃ t, execPeerLinkDown s = .next t ∧ UnitLaws t := by
  unfold Machine.execPeerLinkDown
  split
  · exact ⟨_, rfl, h.linkDown⟩
  · exact ⟨s, rfl, h⟩

/-! ## The Tick Unit -/

theorem expireSweepTimer {s : State} (h : UnitLaws s) : UnitLaws (expireSweepTimer s) :=
  (h.frame (t := { s with sweepTimer := 0 }) { Frame.refl s with }).requestSweep

theorem execTickExpiry {s : State} (h : UnitLaws s) : ∃ t, execTickExpiry s = .next t ∧ UnitLaws t := by
  unfold Machine.execTickExpiry
  split
  · exact ⟨s, rfl, h⟩
  split
  · exact ⟨_, rfl, h.fatalFault _ _⟩
  split
  · exact ⟨_, rfl, h.runningTick⟩
  · exact ⟨_, rfl, h.frame { Frame.refl s with }⟩

theorem execSweepTimerExpiry {s : State} (h : UnitLaws s) :
    ∃ t, execSweepTimerExpiry s = .next t ∧ UnitLaws t := by
  unfold Machine.execSweepTimerExpiry
  split
  · exact ⟨_, rfl, h.expireSweepTimer⟩
  · exact ⟨s, rfl, h⟩

/-! ## The ports' events -/

theorem execReadTimeout {s : State} (h : UnitLaws s) (p : Domain) (t : TagNo) :
    ∃ u, execReadTimeout p t s = .next u ∧ UnitLaws u := by
  unfold Machine.execReadTimeout
  split
  case h_1 r timer busy =>
    exact ⟨_, rfl, (h.readAnswered busy (x := .quarantine r.role.kind (s.port p).period) rfl
      (.refl _) .timeout).checkStopped⟩
  all_goals exact ⟨s, rfl, h⟩

theorem execQuarantineExpiry {s : State} (h : UnitLaws s) (p : Domain) (t : TagNo) :
    ∃ u, execQuarantineExpiry p t s = .next u ∧ UnitLaws u := by
  unfold Machine.execQuarantineExpiry
  split
  case h_1 => exact ⟨_, rfl, (h.dropTag p t .free rfl).arbitrate p⟩
  all_goals exact ⟨s, rfl, h⟩

theorem execPostedWriteSent {s : State} (h : UnitLaws s) (source : SendFrom) :
    ∃ u, execPostedWriteSent source s = .next u ∧ UnitLaws u := by
  cases source with
  | portA =>
    refine ⟨_, rfl, ?_⟩
    unfold sendPortA
    split
    · rename_i requests _
      exact ((h.frame (.setPortRequests .a requests s)).frame (.settleRaisings _)).checkStopped
    · exact h
  | portB lane =>
    refine ⟨_, rfl, ?_⟩
    unfold sendPortB
    split
    · rename_i requests _
      split
      · exact h.frame (.setPortRequests .b requests s)
      · exact h
    · exact h

/-! ## Delivered commands -/

/-- A sweep is at work in RUNNING and QUIESCING alone. -/
theorem active_delivered {s : State} {d : Delivery} (h : UnitLaws s) (scanner : s.scanner = .delivered d) :
    Active s := by
  have notRest : ¬(s.bridge = .off ∨ s.bridge = .stopped ∨ s.bridge = .halted) := fun rests => by
    obtain ⟨idle, -⟩ := h.rest.rest rests
    cases scanner.symm.trans idle
  have notLoading : s.bridge ≠ .loading := fun loading => by
    have loads := h.rest.loads.mpr loading
    rw [scanner] at loads
    cases loads
  unfold Active
  cases bridge : s.bridge <;> simp_all

theorem sweepOn {s u : State} {d : Delivery} (h : UnitLaws s) (r : Record) (scanner : s.scanner = .delivered d)
    (taken : Quiet s u) (g : UnitLaws u) : UnitLaws (Machine.sweepAfter r u) :=
  g.sweepAfter r ((h.active_delivered scanner).of_bridge taken.bridge)

theorem execArm {s : State} (h : UnitLaws s) (n : CadNo) : ∃ u, execArm n s = .next u ∧ UnitLaws u := by
  unfold Machine.execArm
  split
  · rename_i d scanner
    split
    · split
      · exact ⟨_, rfl, h.sweepOn _ scanner (.ifUndecided _ _ _ (.takeArm _ _ _ _))
          (h.ifUndecided fun g => g.takeArm _ _ _)⟩
      · exact ⟨s, rfl, h⟩
    · exact ⟨s, rfl, h⟩
  · exact ⟨s, rfl, h⟩

theorem execPause {s : State} (h : UnitLaws s) (n : CadNo) : ∃ u, execPause n s = .next u ∧ UnitLaws u := by
  unfold Machine.execPause
  split
  · rename_i d scanner
    split
    · exact ⟨_, rfl, h.sweepOn _ scanner
        ((Quiet.ifUndecided _ _ _ (.takePause _ _ _)).trans (.dispatchIfMoved _ _))
        ((h.ifUndecided fun g => g.takePause _ _).dispatchIfMoved s)⟩
    · exact ⟨s, rfl, h⟩
  · exact ⟨s, rfl, h⟩

theorem execResume {s : State} (h : UnitLaws s) (n : CadNo) : ∃ u, execResume n s = .next u ∧ UnitLaws u := by
  unfold Machine.execResume
  split
  · rename_i d scanner
    split
    · exact ⟨_, rfl, h.sweepOn _ scanner (.ifUndecided _ _ _ (.takeResume _ _ _))
        (h.ifUndecided fun g => g.takeResume _ _)⟩
    · exact ⟨s, rfl, h⟩
  · exact ⟨s, rfl, h⟩

theorem execRetire {s : State} (h : UnitLaws s) (n : CadNo) : ∃ u, execRetire n s = .next u ∧ UnitLaws u := by
  unfold Machine.execRetire
  split
  · rename_i d scanner
    split
    · exact ⟨_, rfl, h.sweepOn _ scanner
        ((Quiet.ifUndecided _ _ _ (.takeRetire _ _ _)).trans (.dispatchIfMoved _ _))
        ((h.ifUndecided fun g => g.takeRetire _ _).dispatchIfMoved s)⟩
    · exact ⟨s, rfl, h⟩
  · exact ⟨s, rfl, h⟩

theorem execOpen {s : State} (h : UnitLaws s) (n : WinNo) : ∃ u, execOpen n s = .next u ∧ UnitLaws u := by
  unfold Machine.execOpen
  split
  · rename_i d scanner
    split
    · split
      · exact ⟨_, rfl, h.sweepOn _ scanner (.ifUndecided _ _ _ (.takeOpen _ _ _ _))
          (h.ifUndecided fun g => g.takeOpen _ _ _)⟩
      · exact ⟨s, rfl, h⟩
    · exact ⟨s, rfl, h⟩
  · exact ⟨s, rfl, h⟩

theorem execClose {s : State} (h : UnitLaws s) (n : WinNo) : ∃ u, execClose n s = .next u ∧ UnitLaws u := by
  unfold Machine.execClose
  split
  · rename_i d scanner
    split
    · exact ⟨_, rfl, h.sweepOn _ scanner (.ifUndecided _ _ _ (.takeClose _ _ _))
        (h.ifUndecided fun g => g.takeClose _ _)⟩
    · exact ⟨s, rfl, h⟩
  · exact ⟨s, rfl, h⟩

theorem execUnknownCommand {s : State} (h : UnitLaws s) (r : Record) :
    ∃ u, execUnknownCommand r s = .next u ∧ UnitLaws u := by
  unfold Machine.execUnknownCommand
  split
  · rename_i d scanner
    split
    · exact ⟨_, rfl, h.sweepOn _ scanner (.ifUndecided _ _ _ (.takeCommand _ _))
        (h.ifUndecided fun g => g.takeCommand _)⟩
    · exact ⟨s, rfl, h⟩
  · exact ⟨s, rfl, h⟩

/-! ## The writes of the block's own units -/

theorem execFillSegmentWrite {s : State} (h : UnitLaws s) (k : LaneNo) :
    ∃ u, execFillSegmentWrite k s = .next u ∧ UnitLaws u := by
  unfold Machine.execFillSegmentWrite
  split
  · rename_i c job
    split
    · rename_i fills
      exact ⟨_, rfl, h.fillSegment k c job fills⟩
    · exact ⟨s, rfl, h⟩
  all_goals exact ⟨s, rfl, h⟩

theorem execStampingWrite {s : State} (h : UnitLaws s) (k : LaneNo) :
    ∃ u, execStampingWrite k s = .next u ∧ UnitLaws u := by
  unfold Machine.execStampingWrite
  split
  · rename_i stamping
    split
    · exact ⟨s, rfl, h⟩
    · rename_i left
      exact ⟨_, rfl, h.stampWrite stamping left⟩
  · exact ⟨s, rfl, h⟩

theorem execTakeWrite {s : State} (h : UnitLaws s) : ∃ u, execTakeWrite s = .next u ∧ UnitLaws u := by
  unfold Machine.execTakeWrite
  split
  · rename_i reader
    split
    · exact ⟨s, rfl, h⟩
    · rename_i notHalted
      exact ⟨_, rfl, h.takeStep _ _ _ _ (h.active_reader (by rw [reader]; rfl) notHalted)⟩
  · exact ⟨s, rfl, h⟩

theorem execLoadingWrite {s : State} (h : UnitLaws s) : ∃ u, execLoadingWrite s = .next u ∧ UnitLaws u := by
  unfold Machine.execLoadingWrite
  split
  · rename_i r i scanner
    exact ⟨_, rfl, h.loadField r i scanner⟩
  · exact ⟨s, rfl, h⟩

/-! ## Every command -/

theorem exec {s : State} (h : UnitLaws s) (c : Instr) : ∃ t, exec c s = .next t ∧ UnitLaws t := by
  cases c with
  | start v => exact ⟨_, rfl, h.onRegisters (h.setEnables v).giveStart⟩
  | stop v => exact ⟨_, rfl, h.onRegisters (h.setEnables v).giveStop⟩
  | reset v =>
    exact ⟨_, rfl, h.onRegisters (UnitLaws.ofCommonReset _ _ _ _ fun t => by
      simp [softResetPortA, Port.reset, Tag.isBusy])⟩
  | setEnables v => exact ⟨_, rfl, h.onRegisters (h.setEnables v)⟩
  | nudge v => exact ⟨_, rfl, h.onRegisters h.requestSweep⟩
  | raisedClear v => exact ⟨_, rfl, h.onRegisters (h.frame { Frame.refl s with })⟩
  | faultClear w => exact ⟨_, rfl, h.onRegisters (h.frame { Frame.refl s with })⟩
  | areaBaseWrite w => exact ⟨_, rfl, h.onRegisters (h.areaBaseWrite w)⟩
  | registerWriteDiscarded offset size v => exact ⟨s, rfl, h⟩
  | powerOnReset => exact ⟨_, rfl, UnitLaws.ofPowerOn s⟩
  | localReset cause => exact h.execLocalReset cause
  | localResetRelease cause => exact ⟨_, rfl, h.setLocalCause cause false⟩
  | peerLinkDown => exact h.execPeerLinkDown
  | peerLinkUp => exact ⟨_, rfl, h.frame { Frame.refl s with }⟩
  | tickExpiry => exact h.execTickExpiry
  | sweepTimerExpiry => exact h.execSweepTimerExpiry
  | readCompletion p t answer => exact ⟨_, rfl, h.takeCompletion p t answer⟩
  | readTimeout p t => exact h.execReadTimeout p t
  | lateAnswer p t answer => exact ⟨_, rfl, h.takeCompletion p t answer⟩
  | quarantineExpiry p t => exact h.execQuarantineExpiry p t
  | strayCompletion p t answer => exact ⟨_, rfl, h.takeCompletion p t answer⟩
  | postedWriteSent source => exact h.execPostedWriteSent source
  | fillSegmentWrite k => exact h.execFillSegmentWrite k
  | arm n => exact h.execArm n
  | pause n => exact h.execPause n
  | resume n => exact h.execResume n
  | retire n => exact h.execRetire n
  | openWindow n => exact h.execOpen n
  | closeWindow n => exact h.execClose n
  | unknownCommand r => exact h.execUnknownCommand r
  | stampingWrite k => exact h.execStampingWrite k
  | takeWrite => exact h.execTakeWrite
  | loadingWrite => exact h.execLoadingWrite

theorem of_exec {c : Instr} {s t : State} (h : UnitLaws s) (runs : Machine.exec c s = .next t) : UnitLaws t := by
  obtain ⟨u, answers, laws⟩ := h.exec c
  cases answers.symm.trans runs
  exact laws

end UnitLaws

/-! ## What the laws bound -/

/-- A window has at most two holds of each of the four lanes (R98). -/
theorem windowHolds_le {s : State} (h : WindowLaw s) (n : WinNo) : windowHolds s n ≤ 8 := by
  have hold (k : LaneNo) : (s.lane k).held.count n ≤ 2 := Nat.le_trans List.count_le_length (h.2 k)
  have lane0 := hold 0
  have lane1 := hold 1
  have lane2 := hold 2
  have lane3 := hold 3
  rw [windowHolds_eq]
  omega

/-- Each read out has a buffer entry of its own (R52). -/
theorem Lane.Lawful.outstanding_le {l : Lane} (h : l.Lawful) : l.outstanding.length ≤ l.buffer.length := by
  have reserved : l.outstanding.map OutRead.segment ⊆ l.buffer.map BufEntry.segment := by
    intro n member
    obtain ⟨r, out, rfl⟩ := List.mem_map.mp member
    exact List.mem_map.mpr ⟨_, h.reserved r out, rfl⟩
  have lengths := List.Nodup.length_le_of_subset h.reads reserved
  rw [List.length_map, List.length_map] at lengths
  exact lengths

/-- At most one lane has a job of a cadence that stands in one place (R2). -/
theorem CadencePlaced.lanes_count {s : State} {n : CadNo} (h : CadencePlaced s n) :
    s.lanes.toList.countP (fun l => l.job.cadence == some n) =
      if (s.cad n).place.isLane = true then 1 else 0 := by
  have at_lane (k : LaneNo) : ((s.lane k).job.cadence == some n) = decide ((s.cad n).place = .lane k) := by
    rw [Bool.eq_iff_iff, beq_iff_eq, decide_eq_true_iff]
    exact h.lanes k
  simp only [lanes_toList, List.countP_cons, List.countP_nil, at_lane]
  cases (s.cad n).place with
  | lane k => revert k; decide
  | _ => rfl

theorem CadencePlaced.once {s : State} {n : CadNo} (h : CadencePlaced s n) :
    s.calendar.count n + s.ready.count (.service n) + s.ready.count (.closing n) +
      s.lanes.toList.countP (fun l => l.job.cadence == some n) ≤ 1 := by
  rw [h.calendar, h.service, h.closing, h.lanes_count]
  cases (s.cad n).place <;> cases (s.cad n).state <;> simp [Place.isLane]

/-- Settles O59, by the laws that every command keeps. -/
theorem errandLawKept : Obligations.ErrandLawKept := by
  refine ⟨fun s t law h => ?_, fun s t laws h => ?_, fun s laws => ⟨fun n => ?_, fun k => ?_, fun n => ?_, ?_⟩⟩
  · exact step_law (P := ErrandLaw) (fun _ _ => id) (fun _ _ _ h => (keeps_of_exec h).errandLaw) h law
  · exact step_law (P := UnitLaws) (fun s _ g => g.frame { Frame.refl s with })
      (fun _ _ _ runs g => g.of_exec runs) h laws
  · have uses := (laws.windows.1 n).1
    exact ⟨uses, Nat.le_trans (Nat.le_of_eq uses) (windowHolds_le laws.windows n)⟩
  · exact ⟨(laws.lanes.lawful k).outstanding_le, (laws.lanes.lawful k).room⟩
  · exact (laws.cadences n).once
  · exact laws.errandLanes

/-- Settles O60: at reset the record, the queues and the tables are empty and the bridge is OFF. -/
theorem lawsAtReset : Obligations.LawsAtReset :=
  ⟨⟨Nat.zero_le _, fun _ => rfl⟩, .blank (.inl ⟨rfl, rfl⟩) rfl rfl rfl rfl,
    ⟨Nat.le_trans (Nat.le_of_eq (dataHeld_replicate _ rfl)) (Nat.zero_le _), fun _ => ⟨noBusy_replicate _ rfl, rfl⟩⟩,
    ⟨Nat.zero_le _, .nil, trivial⟩, UnitLaws.ofPowerOn State.reset⟩

end Sys2Proof.Machine
end

section
/-! The step, the register window and its writes (O1, O4, O8, O9, O10). -/

namespace Sys2Proof.Machine

/-- Settles O1, from the step's own case of a queue that is not empty. -/
theorem stepTakesFrontCommand : Obligations.StepTakesFrontCommand := by
  intro c rest s front
  unfold step
  rw [front]

/-! ## CONTROL where the command does not act (R154, R155) -/

theorem exec_start_of_reachable {s : State} (h : s.reachable = true) (v : BitVec 32) :
    exec (.start v) s = .next (giveStart { s with enables := v.extractLsb' 8 5 }) :=
  congrArg Host.Outcome.next (onRegisters_of_reachable h _)

theorem exec_stop_of_reachable {s : State} (h : s.reachable = true) (v : BitVec 32) :
    exec (.stop v) s = .next (giveStop { s with enables := v.extractLsb' 8 5 }) :=
  congrArg Host.Outcome.next (onRegisters_of_reachable h _)

theorem giveStart_ignored {s : State}
    (h : s.bridge = .loading ∨ s.bridge = .running ∨ s.bridge = .quiescing ∨ s.bridge = .halted) :
    giveStart s = s := by
  unfold giveStart
  rcases h with h | h | h | h <;> rw [h]

theorem giveStop_ignored {s : State}
    (h : s.bridge = .off ∨ s.bridge = .quiescing ∨ s.bridge = .stopped ∨ s.bridge = .halted) :
    giveStop s = s := by
  unfold giveStop
  rcases h with h | h | h | h <;> rw [h]

/-- Settles O4: in the states that do not act on the command, only the enables of the write are taken. -/
theorem ignoredStartAndStop : Obligations.IgnoredStartAndStop := fun _ v reachable =>
  ⟨fun h => (exec_start_of_reachable reachable v).trans (congrArg _ (giveStart_ignored h)),
    fun h => (exec_stop_of_reachable reachable v).trans (congrArg _ (giveStop_ignored h))⟩

/-! ## The register window (R187, R192) -/

/-- A word is its two halves, the high one first. -/
theorem halves_append (x : BitVec 64) : x.extractLsb' 32 32 ++ x.extractLsb' 0 32 = x :=
  (BitVec.extractLsb'_append_extractLsb'_eq_extractLsb' rfl).trans BitVec.extractLsb'_eq_self

theorem extractLsb'_low_append (high low : BitVec 32) : (high ++ low).extractLsb' 0 32 = low := by
  rw [BitVec.extractLsb'_append_eq_of_add_le (by decide), BitVec.extractLsb'_eq_self]

theorem extractLsb'_high_append (high low : BitVec 32) : (high ++ low).extractLsb' 32 32 = high := by
  rw [BitVec.extractLsb'_append_eq_of_le (by decide), BitVec.extractLsb'_eq_self]

theorem readRegister_four {s : State} {offset : Nat} (h : registerAccess offset 4 = true) :
    readRegister s offset 4 = (registerWord s offset).setWidth 64 := by
  rw [readRegister, if_pos h, if_pos rfl]

theorem readRegister_eight {s : State} {offset : Nat} (h : registerAccess offset 8 = true) :
    readRegister s offset 8 = registerWord s (offset + 4) ++ registerWord s offset := by
  rw [readRegister, if_pos h, if_neg (by decide)]

/-- There is no register at 20h and above (R187). -/
theorem registerWord_of_le {s : State} {offset : Nat} (h : 32 ≤ offset) : registerWord s offset = 0 := by
  unfold registerWord
  split
  case h_8 => rfl
  all_goals omega

theorem readRegister_of_le {s : State} {offset size : Nat} (h : 32 ≤ offset) :
    readRegister s offset size = 0 := by
  unfold readRegister
  rw [registerWord_of_le h, registerWord_of_le (Nat.le_add_right_of_le h)]
  split
  · split <;> rfl
  · rfl

theorem readRegister_of_not_access {s : State} {offset size : Nat}
    (h : size ≠ 4 ∧ size ≠ 8 ∨ offset % size ≠ 0) : readRegister s offset size = 0 := by
  have no : registerAccess offset size = false := by
    rw [registerAccess, Bool.and_eq_false_iff, Bool.and_eq_false_iff]
    rcases h with ⟨four, eight⟩ | aligned
    · exact .inl (.inl (by simp [four, eight]))
    · exact .inl (.inr (by simpa using aligned))
  rw [readRegister, no]
  rfl

/-- A register write does not reach the registers while they cannot be reached (R133). -/
theorem onRegisters_of_unreachable {s : State} (h : s.reachable = false) (effect : State → State) :
    onRegisters effect s = s := if_neg (by rw [h]; decide)

theorem controlWrite_eq (v : BitVec 32) :
    controlWrite v =
      if v.toNat % 8 = 1 then .start v else if v.toNat % 8 = 2 then .stop v
      else if v.toNat % 8 = 3 then .reset v else .setEnables v := by
  unfold controlWrite
  split
  case h_1 command => exact (if_pos command).symm
  case h_2 command =>
    have command : v.toNat % 8 = 2 := command
    rw [if_neg (by omega), if_pos command]
  case h_3 command =>
    have command : v.toNat % 8 = 3 := command
    rw [if_neg (by omega), if_neg (by omega), if_pos command]
  case h_4 notStart notStop notReset =>
    exact (((if_neg notStart).trans (if_neg notStop)).trans (if_neg notReset)).symm

theorem controlWrite_wellFormed (v : BitVec 32) : (controlWrite v).wellFormed = true := by
  unfold controlWrite
  split
  case h_1 command => exact (start_wellFormed_iff v).mpr command
  case h_2 command => exact (stop_wellFormed_iff v).mpr command
  case h_3 command => exact (reset_wellFormed_iff v).mpr command
  case h_4 notStart notStop notReset =>
    have command : v.toNat % 8 ≠ 1 ∧ v.toNat % 8 ≠ 2 ∧ v.toNat % 8 ≠ 3 := ⟨notStart, notStop, notReset⟩
    exact (setEnables_wellFormed_iff v).mpr (by omega)

/-- What is no access to a writable register is a discarded write (R192). -/
theorem hostWrite_discarded {offset size : Nat} (h : writeDiscarded offset size = true) (v : BitVec 64) :
    hostWrite offset size v = [.registerWriteDiscarded offset size v] := by
  unfold hostWrite
  split
  case h_12 => rfl
  all_goals exact absurd h (by decide)

/-- An access that is not one of the eleven of `hostWrite` is a discarded one. -/
theorem writeDiscarded_of_other {offset size : Nat} (positive : 0 < size) (inside : offset + size ≤ 64)
    (wide : size = 8 → offset ≠ 0 ∧ offset ≠ 8 ∧ offset ≠ 16 ∧ offset ≠ 24)
    (narrow : size = 4 → offset ≠ 0 ∧ offset ≠ 4 ∧ offset ≠ 8 ∧ offset ≠ 16 ∧ offset ≠ 20 ∧ offset ≠ 24 ∧
      offset ≠ 28) : writeDiscarded offset size = true := by
  have access : registerAccess offset size = true → 32 ≤ offset ∨ offset = 12 ∧ size = 4 := by
    simp only [registerAccess, Bool.and_eq_true, Bool.or_eq_true, beq_iff_eq, decide_eq_true_iff]
    rintro ⟨⟨rfl | rfl, aligned⟩, -⟩
    · have := narrow rfl
      omega
    · have := wide rfl
      omega
  simp only [writeDiscarded, Bool.and_eq_true, Bool.or_eq_true, decide_eq_true_iff, beq_iff_eq,
    Bool.not_eq_true']
  refine ⟨⟨positive, inside⟩, ?_⟩
  cases reads : registerAccess offset size with
  | false => exact .inl (.inl rfl)
  | true => exact (access reads).elim (fun high => .inl (.inr high)) .inr

theorem hostWrite_wellFormed {offset size : Nat} (positive : 0 < size) (inside : offset + size ≤ 64)
    (v : BitVec 64) : ∀ c ∈ hostWrite offset size v, c.wellFormed = true := by
  unfold hostWrite
  dsimp only
  split
  case h_12 =>
    intro c member
    rw [List.mem_singleton.mp member]
    refine writeDiscarded_of_other positive inside ?_ ?_
    · rintro rfl
      refine ⟨?_, ?_, ?_, ?_⟩ <;> rintro rfl <;> simp_all
    · rintro rfl
      refine ⟨?_, ?_, ?_, ?_, ?_, ?_, ?_⟩ <;> rintro rfl <;> simp_all
  case h_4 => exact List.forall_mem_cons.mpr ⟨controlWrite_wellFormed _, List.forall_mem_singleton.mpr rfl⟩
  case h_5 => exact List.forall_mem_singleton.mpr (controlWrite_wellFormed _)
  all_goals simp [Instr.wellFormed]

/-- Settles O8: reads by the words of the window, writes by the accesses of `hostWrite`. -/
theorem registerWindow : Obligations.RegisterWindow := by
  refine ⟨fun s => ?reads, fun s => ⟨fun _ _ _ => rfl, fun h v w c member => ?unreachable⟩, fun v => ?writes,
    controlWrite_eq⟩
  case reads =>
    refine ⟨?_, readRegister_four rfl, readRegister_four rfl, readRegister_four rfl, readRegister_four rfl,
      readRegister_eight rfl, (readRegister_four rfl).trans rfl, readRegister_four rfl,
      readRegister_eight rfl, ?_, readRegister_four rfl, readRegister_four rfl,
      fun _ _ => readRegister_of_le, fun _ _ => readRegister_of_not_access⟩
    · exact (readRegister_eight rfl).trans (halves_append s.areaBase)
    · exact (readRegister_eight rfl).trans (halves_append (faultWord s))
  case unreachable =>
    simp only [List.mem_cons, List.not_mem_nil, or_false] at member
    rcases member with rfl | rfl | rfl | rfl | rfl | rfl | rfl | rfl <;>
      exact congrArg Host.Outcome.next (onRegisters_of_unreachable h _)
  case writes =>
    exact ⟨⟨rfl, rfl, rfl⟩, ⟨rfl, rfl⟩, ⟨rfl, rfl, rfl⟩, ⟨rfl, rfl, rfl⟩,
      fun _ _ h => hostWrite_discarded h v, fun _ _ positive inside => hostWrite_wellFormed positive inside v⟩

/-! ## FAULT and AREA_BASE -/

theorem exec_faultClear_of_reachable {s : State} (h : s.reachable = true) (w : WideWrite) :
    exec (.faultClear w) s = .next { s with faultRec := none, further := 0 } :=
  congrArg Host.Outcome.next (onRegisters_of_reachable h _)

/-- A report raises its cause in the same way whatever the record holds. -/
theorem reportFault_raised (code : FaultCode) (kind : ObjectKind) (number : Nat) (s : State) :
    (reportFault code kind number s).raised = (raise .fault s).raised ∧
      (reportFault code kind number s).raisings = (raise .fault s).raisings := by
  unfold reportFault recordFault raise
  cases s.faultRec with
  | none => dsimp only; split <;> exact ⟨rfl, rfl⟩
  | some f => dsimp only; split <;> exact ⟨rfl, rfl⟩

/-- The record and FURTHER after a report (R169). -/
theorem reportFault_faultTaken (code : FaultCode) (kind : ObjectKind) (number : Nat) (s : State) :
    FaultTaken code kind number s (reportFault code kind number s) := by
  have record : (reportFault code kind number s).faultRec = (recordFault code kind number s).faultRec ∧
      (reportFault code kind number s).further = (recordFault code kind number s).further := by
    unfold reportFault
    rw [raise_frame]
    exact ⟨rfl, rfl⟩
  rw [FaultTaken, record.1, record.2]
  refine ⟨fun empty => ?_, fun f held => ?_⟩
  · rw [recordFault, empty]
    exact ⟨rfl, rfl⟩
  · rw [recordFault, held]
    exact ⟨rfl, rfl⟩

theorem reportFault_reachable (code : FaultCode) (kind : ObjectKind) (number : Nat) (s : State) :
    (reportFault code kind number s).reachable = s.reachable := by
  have quiet := Quiet.reportFault code kind number s
  rw [State.reachable, State.reachable, quiet.resetInput, quiet.portALinkUp]

/-- Settles O9: a clear and a report in either order. -/
theorem faultClear : Obligations.FaultClear := by
  refine fun s w => ⟨(readRegister_eight rfl).trans (halves_append (faultWord s)), fun reachable =>
    ⟨exec_faultClear_of_reachable reachable w, fun code kind number => ?_⟩⟩
  obtain ⟨record, further⟩ :=
    (reportFault_faultTaken code kind number { s with faultRec := none, further := 0 }).1 rfl
  have first := reportFault_raised code kind number { s with faultRec := none, further := 0 }
  have last := reportFault_raised code kind number s
  have same : (raise .fault { s with faultRec := none, further := 0 }).raised = (raise .fault s).raised ∧
      (raise .fault { s with faultRec := none, further := 0 }).raisings = (raise .fault s).raisings := by
    unfold raise
    dsimp only
    split <;> exact ⟨rfl, rfl⟩
  refine ⟨⟨record, further, first.1.trans (same.1.trans last.1.symm), first.2.trans (same.2.trans last.2.symm)⟩,
    ?_⟩
  exact exec_faultClear_of_reachable ((reportFault_reachable code kind number s).trans reachable) w

theorem exec_areaBaseWrite_of_reachable {s : State} (h : s.reachable = true) (w : WideWrite) :
    exec (.areaBaseWrite w) s =
      .next (if s.bridge = .off then { s with areaBase := wideValue w s.areaBase } else s) :=
  congrArg Host.Outcome.next (onRegisters_of_reachable h _)

/-- Settles O10: a write of a half keeps the other half. -/
theorem areaBaseWrites : Obligations.AreaBaseWrites := by
  intro s reachable
  refine ⟨fun bridge w => ?_, fun bridge => ?_⟩
  · rw [exec_areaBaseWrite_of_reachable reachable, if_neg bridge]
  · have off (w : WideWrite) : exec (.areaBaseWrite w) s = .next { s with areaBase := wideValue w s.areaBase } := by
      rw [exec_areaBaseWrite_of_reachable reachable, if_pos bridge]
    exact ⟨fun v => off (.whole v),
      fun v => ⟨_, off (.low v), rfl, extractLsb'_low_append _ _, extractLsb'_high_append _ _⟩,
      fun v => ⟨_, off (.high v), rfl, extractLsb'_low_append _ _, extractLsb'_high_append _ _⟩⟩

end Sys2Proof.Machine
end

section
/-! The resets and the link state (O12 to O15). -/

namespace Sys2Proof.Machine

/-! ## The state at reset -/

theorem reset_cad (n : CadNo) : State.reset.cad n = CadEntry.reset := by
  simp [State.cad, State.reset]

theorem reset_win (n : WinNo) : State.reset.win n = WinEntry.reset := by
  simp [State.win, State.reset]

theorem reset_lane (k : LaneNo) : State.reset.lane k = Lane.idle := by
  simp [State.lane, State.reset]

theorem reset_ack (r : Record) : State.reset.ack r = none := by
  cases r <;> simp [State.ack, State.reset]

theorem Port.reset_tag (t : TagNo) : Port.reset.tags[t] = .free := by
  simp [Port.reset]

theorem reset_port (p : Domain) : State.reset.port p = Port.reset := by
  cases p <;> rfl

theorem reset_tag (p : Domain) (t : TagNo) : State.reset.tag p t = .free := by
  rw [State.tag, reset_port]
  exact Port.reset_tag t

/-- Settles O12: the fields of the state at reset, which is where a power-on reset leaves the part. -/
theorem powerOnReset : Obligations.PowerOnReset := by
  refine ⟨⟨⟨rfl, rfl, rfl, rfl, rfl, rfl, rfl, rfl, rfl⟩, ⟨rfl, rfl, rfl, rfl, rfl, rfl, rfl⟩, reset_cad,
    reset_win, reset_lane, ⟨rfl, rfl, rfl⟩, ⟨rfl, rfl, reset_ack⟩, rfl,
    fun k => congrArg Lane.tagRequest (reset_lane k), dataHeld_replicate _ rfl,
    fun p => ⟨reset_tag p, ?_⟩⟩, fun s => rfl⟩
  rw [reset_port]
  exact ⟨rfl, rfl, rfl⟩

/-! ## The local and the soft reset -/

/-- Port B's tags after a local or a soft reset (R133, R134). -/
theorem resetPortB_tag (x : Port) (t : TagNo) :
    (resetPortB x).tags[t] =
      match x.tags[t] with
      | .busy r _ => .quarantine r.role.kind 25500
      | .quarantine kind timer => .quarantine kind timer
      | .free => .free := by
  have mapped : (resetPortB x).tags[t] = Tag.abandon 25500 x.tags[t] := by
    simp [resetPortB, Config.longestPeriod]
  rw [mapped]
  cases x.tags[t] <;> rfl

@[simp] theorem setLocalCause_portB (cause : LocalCause) (present : Bool) (s : State) :
    (setLocalCause cause present s).portB = s.portB := by
  cases cause <;> rfl

/-- A cause that is present keeps the registers out of reach (R133). -/
theorem reachable_setLocalCause (cause : LocalCause) (s : State) :
    (setLocalCause cause true s).reachable = false := by
  cases cause
  · rfl
  · exact Bool.and_false _

theorem reachable_iff (s : State) : s.reachable = true ↔ ∀ c, localCausePresent c s = false := by
  constructor
  · intro reach c
    cases c <;> simp_all [State.reachable, localCausePresent]
  · intro none
    have input := none .resetInput
    have link := none .portALink
    simp_all [State.reachable, localCausePresent]

theorem exec_localReset_of_absent {s : State} {cause : LocalCause} (h : localCausePresent cause s = false) :
    exec (.localReset cause) s = .next (setLocalCause cause true (localReset s)) := by
  change execLocalReset cause s = _
  unfold execLocalReset
  rw [h]
  rfl

/-- A cause that is present already resets nothing again (log 3). -/
theorem exec_localReset_of_present {s : State} {cause : LocalCause} (h : localCausePresent cause s = true) :
    exec (.localReset cause) s = .next s := by
  change execLocalReset cause s = _
  unfold execLocalReset
  rw [h]
  rfl

/-- Settles O13: the reset when a cause appears, and the registers in reach once no cause is left. -/
theorem Holds.localReset : Obligations.LocalReset := by
  refine ⟨fun s cause =>
    ⟨exec_localReset_of_present, fun absent => ⟨_, exec_localReset_of_absent absent, ?_⟩⟩,
    fun s cause => ⟨_, rfl, ?_⟩⟩
  · refine ⟨?_, reachable_setLocalCause cause _, ?_, ?_, fun tag => ?_, ?_, ?_, ?_⟩
    · cases cause <;> rfl
    · rintro rfl; exact ⟨rfl, rfl⟩
    · rintro rfl; exact ⟨rfl, rfl⟩
    · cases cause <;> exact resetPortB_tag s.portB tag
    all_goals rw [setLocalCause_portB]; rfl
  · refine ⟨?_, ?_, fun other differs => ?_, reachable_iff _⟩
    · cases cause <;> rfl
    · cases cause <;> rfl
    · match cause, other with
      | .resetInput, .portALink | .portALink, .resetInput => rfl
      | .resetInput, .resetInput | .portALink, .portALink => exact absurd rfl differs

theorem exec_reset_of_reachable {s : State} (h : s.reachable = true) (v : BitVec 32) :
    exec (.reset v) s = .next (softReset { s with enables := v.extractLsb' 8 5 }) :=
  congrArg Host.Outcome.next (onRegisters_of_reachable h _)

/-- Settles O14. -/
theorem Holds.softReset : Obligations.SoftReset := fun s v reachable =>
  ⟨_, exec_reset_of_reachable reachable v, rfl, rfl, resetPortB_tag s.portB, rfl, rfl, rfl⟩

/-- No reset but the one at power-on changes the link state (R128). -/
theorem exec_localReset_linkUp {s t : State} {cause : LocalCause} (h : exec (.localReset cause) s = .next t) :
    t.linkUp = s.linkUp := by
  cases present : localCausePresent cause s with
  | true =>
    cases (exec_localReset_of_present present).symm.trans h
    rfl
  | false =>
    cases (exec_localReset_of_absent present).symm.trans h
    cases cause <;> rfl

theorem exec_reset_linkUp {s t : State} {v : BitVec 32} (h : exec (.reset v) s = .next t) :
    t.linkUp = s.linkUp := by
  cases reach : s.reachable with
  | true =>
    cases (exec_reset_of_reachable reach v).symm.trans h
    rfl
  | false =>
    cases (congrArg Host.Outcome.next (onRegisters_of_unreachable reach _)).symm.trans h
    rfl

/-- Settles O15. -/
theorem peerLinkUp : Obligations.PeerLinkUp := by
  refine fun s t => ⟨rfl, fun h => ?_, fun _ => exec_localReset_linkUp, fun _ => exec_reset_linkUp⟩
  cases h
  rfl

end Sys2Proof.Machine
end

section
/-! The order of the queues (O50), the due grid (O37), the fields (O55) and the admission checks (O46). -/

namespace Sys2Proof.Machine

/-! ## The due grid (R4) -/

theorem firstGridAfter_le (period phase u : Nat) (h : 0 < period) :
    firstGridAfter period phase u ≤ u + period := by
  have below := Int.emod_lt_of_pos ((phase : Int) - ((u : Int) + 1)) (Int.natCast_pos.mpr h)
  unfold firstGridAfter
  omega

theorem firstGridAfter_mod (period phase u : Nat) (h : phase < period) :
    firstGridAfter period phase u % period = phase := by
  have positive : (0 : Int) < period := by omega
  have low := Int.emod_nonneg ((phase : Int) - ((u : Int) + 1)) (Int.ne_of_gt positive)
  have split := Int.emod_add_mul_ediv ((phase : Int) - ((u : Int) + 1)) period
  have value : ((firstGridAfter period phase u : Nat) : Int) =
      phase + period * -(((phase : Int) - ((u : Int) + 1)) / period) := by
    unfold firstGridAfter
    push_cast
    rw [Int.toNat_of_nonneg low, Int.mul_neg]
    omega
  have remainder : ((firstGridAfter period phase u : Nat) : Int) % period = phase := by
    rw [value, Int.add_mul_emod_self_left, Int.emod_eq_of_lt (Int.natCast_nonneg _) (by exact_mod_cast h)]
  exact_mod_cast remainder

/-- Two instants of one grid differ by a period at least. -/
theorem firstGridAfter_least (period phase u v : Nat) (h : phase < period) (later : u < v)
    (grid : v % period = phase) : firstGridAfter period phase u ≤ v := by
  refine Nat.le_of_not_lt fun before => ?_
  have most := firstGridAfter_le period phase u (by omega)
  have divides : period ∣ firstGridAfter period phase u - v :=
    Nat.dvd_of_mod_eq_zero (Nat.sub_mod_eq_zero_of_mod_eq ((firstGridAfter_mod period phase u h).trans grid.symm))
  have apart := Nat.le_of_dvd (by omega) divides
  omega

/-- Settles O37. -/
theorem firstGridInstant : Obligations.FirstGridInstant := fun period phase u positive h =>
  ⟨firstGridAfter_gt period phase u, firstGridAfter_mod period phase u h,
    fun v => firstGridAfter_least period phase u v h, firstGridAfter_le period phase u positive⟩

/-! ## Little-endian fields (R177) -/

theorem leBytes_length (size value : Nat) : (leBytes size value).length = size := by
  induction size generalizing value with
  | zero => rfl
  | succ size ih => simp [leBytes, ih]

theorem leValue_leBytes (size value : Nat) : leValue (leBytes size value) = value % 256 ^ size := by
  induction size generalizing value with
  | zero => simp [leBytes, leValue, Nat.mod_one]
  | succ size ih =>
    rw [leBytes, leValue, ih, BitVec.toNat_ofNat, Nat.pow_succ' (n := size)]
    exact Nat.mod_mul.symm

theorem leBytes_getElem? (size value i : Nat) (h : i < size) :
    (leBytes size value)[i]? = some (BitVec.ofNat 8 (value / 256 ^ i)) := by
  induction size generalizing value i with
  | zero => exact absurd h (Nat.not_lt_zero i)
  | succ size ih =>
    cases i with
    | zero => simp [leBytes]
    | succ i =>
      rw [leBytes, List.getElem?_cons_succ, ih _ _ (Nat.lt_of_succ_lt_succ h), Nat.div_div_eq_div_mul,
        Nat.pow_succ']

theorem patternBytes_length (pattern : BitVec 32) (words : Nat) :
    (patternBytes pattern words).length = 4 * words := by
  induction words with
  | zero => rfl
  | succ words ih => rw [patternBytes, List.length_append, ih, leBytes_length]; omega

/-- Every word of a FILL's bytes reads as the pattern (R64). -/
theorem patternBytes_field (pattern : BitVec 32) (words i : Nat) (h : i < words) :
    fieldAt (4 * i) 4 (patternBytes pattern words) = pattern.toNat := by
  induction words generalizing i with
  | zero => exact absurd h (Nat.not_lt_zero i)
  | succ words ih =>
    have four := leBytes_length 4 pattern.toNat
    cases i with
    | zero =>
      rw [fieldAt, patternBytes, Nat.mul_zero, List.drop_zero, List.take_left' four, leValue_leBytes]
      exact Nat.mod_eq_of_lt pattern.isLt
    | succ i =>
      have later := ih i (Nat.lt_of_succ_lt_succ h)
      rw [fieldAt] at later
      rw [fieldAt, patternBytes, show 4 * (i + 1) = 4 + 4 * i by omega, ← List.drop_drop,
        List.drop_left' four]
      exact later

/-- Settles O55. -/
theorem littleEndian : Obligations.LittleEndian :=
  ⟨fun size value => ⟨leBytes_length size value, leValue_leBytes size value⟩, leBytes_getElem?,
    fun pattern words i h => ⟨patternBytes_length pattern words, patternBytes_field pattern words i h⟩⟩

/-! ## The order of the queues (R34, R40) -/

theorem keyBefore_cons (x y : Nat) (xs ys : List Nat) :
    keyBefore (x :: xs) (y :: ys) = true ↔ x < y ∨ x = y ∧ keyBefore xs ys = true := by
  simp [keyBefore]

theorem keyBefore_trans {a b c : List Nat} (h : keyBefore a b = true) (g : keyBefore b c = true) :
    keyBefore a c = true := by
  induction a generalizing b c with
  | nil => cases h
  | cons x xs ih =>
    match b, c, h, g with
    | y :: ys, z :: zs, h, g =>
      rw [keyBefore_cons] at h g ⊢
      rcases h with h | ⟨rfl, h⟩ <;> rcases g with g | ⟨rfl, g⟩
      · exact .inl (Nat.lt_trans h g)
      · exact .inl h
      · exact .inl g
      · exact .inr ⟨rfl, ih h g⟩

theorem keyBefore_irrefl (a : List Nat) : keyBefore a a = false := by
  induction a with
  | nil => rfl
  | cons x xs ih => simp [keyBefore, ih]

theorem keyBefore_asymm {a b : List Nat} (h : keyBefore a b = true) : keyBefore b a = false :=
  Bool.eq_false_iff.mpr fun g => Bool.eq_false_iff.mp (keyBefore_irrefl a) (keyBefore_trans h g)

/-- What does not come before an entry does not come before one ahead of it. -/
theorem keyBefore_of_not {a b c : List Nat} (h : keyBefore a b = true) (g : keyBefore c b = false) :
    keyBefore c a = false :=
  Bool.eq_false_iff.mpr fun before => Bool.eq_false_iff.mp g (keyBefore_trans before h)

theorem calendarInsert_ordered (s : State) (n : CadNo) {queue : List CadNo}
    (h : queue.Pairwise (fun a b => keyBefore (calendarKey s b) (calendarKey s a) = false)) :
    (calendarInsert s n queue).Pairwise (fun a b => keyBefore (calendarKey s b) (calendarKey s a) = false) := by
  induction queue with
  | nil => exact List.pairwise_singleton _ _
  | cons m rest ih =>
    obtain ⟨ahead, ordered⟩ := List.pairwise_cons.mp h
    unfold calendarInsert
    split
    · rename_i before
      refine List.pairwise_cons.mpr ⟨?_, h⟩
      rw [List.forall_mem_cons]
      exact ⟨keyBefore_asymm before, fun x member => keyBefore_of_not before (ahead x member)⟩
    · rename_i behind
      refine List.pairwise_cons.mpr ⟨fun x member => ?_, ih ordered⟩
      rcases List.mem_cons.mp ((calendarInsert_perm s n rest).mem_iff.mp member) with rfl | inRest
      · exact Bool.eq_false_iff.mpr behind
      · exact ahead x inRest

theorem readyInsert_ordered (s : State) (e : ReadyEntry) {queue : List ReadyEntry}
    (h : queue.Pairwise (fun a b => keyBefore (readyKey s b) (readyKey s a) = false)) :
    (readyInsert s e queue).Pairwise (fun a b => keyBefore (readyKey s b) (readyKey s a) = false) := by
  induction queue with
  | nil => exact List.pairwise_singleton _ _
  | cons m rest ih =>
    obtain ⟨ahead, ordered⟩ := List.pairwise_cons.mp h
    unfold readyInsert
    split
    · rename_i before
      refine List.pairwise_cons.mpr ⟨?_, h⟩
      rw [List.forall_mem_cons]
      exact ⟨keyBefore_asymm before, fun x member => keyBefore_of_not before (ahead x member)⟩
    · rename_i behind
      refine List.pairwise_cons.mpr ⟨fun x member => ?_, ih ordered⟩
      rcases List.mem_cons.mp ((readyInsert_perm s e rest).mem_iff.mp member) with rfl | inRest
      · exact Bool.eq_false_iff.mpr behind
      · exact ahead x inRest

/-- A closing entry goes behind the closing entries and ahead of the services (R40). -/
theorem readyInsert_closing (s : State) (n : CadNo) (closing service : List CadNo) :
    readyInsert s (.closing n) (closing.map .closing ++ service.map .service) =
      closing.map .closing ++ .closing n :: service.map .service := by
  induction closing with
  | nil =>
    cases service with
    | nil => rfl
    | cons m rest => exact if_pos rfl
  | cons m rest ih => exact (if_neg Bool.false_ne_true).trans (congrArg _ ih)

theorem keyBefore_three (a b c x y z : Nat) :
    keyBefore [a, b, c] [x, y, z] = true ↔ a < x ∨ a = x ∧ (b < y ∨ b = y ∧ c < z) := by
  simp only [keyBefore_cons]
  simp [keyBefore]

/-- Settles O50. -/
theorem queueOrder : Obligations.QueueOrder := by
  refine ⟨by decide, fun s => ⟨fun n queue h => ⟨calendarInsert_perm s n queue, calendarInsert_ordered s n h⟩,
    fun e queue h => ⟨readyInsert_perm s e queue, readyInsert_ordered s e h⟩, readyInsert_closing s,
    fun a b => ⟨keyBefore_three .., ?_⟩⟩⟩
  rw [readyKey, readyKey, keyBefore_cons]
  simp only [Nat.lt_irrefl, false_or, true_and]
  exact keyBefore_three ..

/-! ## What is admitted (R8, R9, R82, R101) -/

theorem decodeClass_isSome (n : Nat) : (decodeClass n).isSome = true ↔ n = 1 ∨ n = 2 := by
  unfold decodeClass
  split <;> simp_all

theorem decodePolicy_isSome (n : Nat) : (decodePolicy n).isSome = true ↔ n = 1 ∨ n = 2 := by
  unfold decodePolicy
  split <;> simp_all

theorem decodeDomain_isSome (n : Nat) : (decodeDomain n).isSome = true ↔ n = 1 ∨ n = 2 := by
  unfold decodeDomain
  split <;> simp_all

theorem decodeWindow_eq_some {n : Nat} {w : WinNo} : decodeWindow n = some w ↔ w.val = n := by
  unfold decodeWindow
  split
  · rw [Option.some_inj, Fin.ext_iff]
    exact eq_comm
  · rename_i above
    refine ⟨nofun, fun same => absurd w.isLt ?_⟩
    rwa [same]

theorem decodeWindow_isSome (n : Nat) : (decodeWindow n).isSome = true ↔ n ≤ 15 := by
  unfold decodeWindow
  split
  · rename_i below
    exact iff_of_true rfl (Nat.le_of_lt_succ below)
  · rename_i above
    exact iff_of_false Bool.false_ne_true (by omega)

/-- The ranges of R8 that are numbers. -/
def ArmFields.inRange (f : ArmFields) : Prop :=
  1 ≤ f.period ∧ f.period ≤ 65535 ∧ f.phase < f.period ∧ 1 ≤ f.deadline ∧ f.deadline ≤ f.period ∧
    4 ≤ f.length ∧ f.length ≤ 1048576 ∧ f.length % 4 = 0 ∧ f.ringAddr % 32 = 0 ∧ 2 ≤ f.ringSize ∧
    f.ringSize ≤ 256

theorem ArmFields.config_eq_some {f : ArmFields} {c : CadConfig} :
    f.config = some c ↔ ∃ cls missPolicy srcWindow dstWindow, decodeClass f.cls = some cls ∧
      decodePolicy f.missPolicy = some missPolicy ∧ decodeWindow f.srcWindow = some srcWindow ∧
      decodeWindow f.dstWindow = some dstWindow ∧ f.inRange ∧
      c = { cls, period := f.period, phase := f.phase, deadline := f.deadline, srcWindow, dstWindow,
            length := f.length, ringAddr := BitVec.ofNat 64 f.ringAddr, ringSize := f.ringSize,
            notifyEvery := f.notifyEvery, missPolicy } := by
  unfold ArmFields.config ArmFields.inRange
  split
  · rename_i cls missPolicy srcWindow dstWindow h1 h2 h3 h4
    split
    · rename_i range
      constructor
      · intro given
        exact ⟨cls, missPolicy, srcWindow, dstWindow, h1, h2, h3, h4, range, (Option.some.inj given).symm⟩
      · rintro ⟨_, _, _, _, e1, e2, e3, e4, -, rfl⟩
        cases h1.symm.trans e1
        cases h2.symm.trans e2
        cases h3.symm.trans e3
        cases h4.symm.trans e4
        rfl
    · rename_i outside
      refine iff_of_false nofun ?_
      rintro ⟨_, _, _, _, -, -, -, -, range, -⟩
      exact outside range
  · rename_i missing
    refine iff_of_false nofun ?_
    rintro ⟨cls, missPolicy, srcWindow, dstWindow, h1, h2, h3, h4, -⟩
    exact missing _ _ _ _ h1 h2 h3 h4

/-- What an ARM may bring (R8). -/
theorem ArmFields.config_isSome (f : ArmFields) :
    f.config.isSome = true ↔ (decodeClass f.cls).isSome = true ∧ (decodePolicy f.missPolicy).isSome = true ∧
      (decodeWindow f.srcWindow).isSome = true ∧ (decodeWindow f.dstWindow).isSome = true ∧ f.inRange := by
  simp only [Option.isSome_iff_exists, ArmFields.config_eq_some]
  constructor
  · rintro ⟨c, cls, missPolicy, srcWindow, dstWindow, h1, h2, h3, h4, range, -⟩
    exact ⟨⟨cls, h1⟩, ⟨missPolicy, h2⟩, ⟨srcWindow, h3⟩, ⟨dstWindow, h4⟩, range⟩
  · rintro ⟨⟨cls, h1⟩, ⟨missPolicy, h2⟩, ⟨srcWindow, h3⟩, ⟨dstWindow, h4⟩, range⟩
    exact ⟨_, cls, missPolicy, srcWindow, dstWindow, h1, h2, h3, h4, range, rfl⟩

theorem decodeClass_eq {n : Nat} {cls : CadClass} (h : decodeClass n = some cls) :
    cls = if n = 1 then .urgent else .steady := by
  unfold decodeClass at h
  split at h <;> cases h <;> rfl

theorem decodePolicy_eq {n : Nat} {policy : MissPolicy} (h : decodePolicy n = some policy) :
    policy = if n = 1 then .skip else .hold := by
  unfold decodePolicy at h
  split at h <;> cases h <;> rfl

theorem decodeDomain_eq {n : Nat} {domain : Domain} (h : decodeDomain n = some domain) :
    domain = if n = 1 then .a else .b := by
  unfold decodeDomain at h
  split at h <;> cases h <;> rfl

/-- The ranges of R101. -/
def OpenFields.inRange (f : OpenFields) : Prop :=
  (f.rights.getLsbD 0 = true ∨ f.rights.getLsbD 1 = true) ∧ f.base % 4096 = 0 ∧
    (4096 ≤ f.size ∧ f.size ≤ 4294967296 ∧ f.size % 4096 = 0) ∧ f.base + f.size ≤ 2 ^ 64

theorem OpenFields.config_eq_some {f : OpenFields} {c : WinConfig} :
    f.config = some c ↔ ∃ domain, decodeDomain f.domain = some domain ∧ f.inRange ∧
      c = { domain, canRead := f.rights.getLsbD 0, canWrite := f.rights.getLsbD 1,
            base := BitVec.ofNat 64 f.base, size := f.size } := by
  have range : (f.rights.getLsbD 0 || f.rights.getLsbD 1) = true ∧ f.base % 4096 = 0 ∧ 4096 ≤ f.size ∧
      f.size ≤ 4294967296 ∧ f.size % 4096 = 0 ∧ f.base + f.size ≤ 2 ^ 64 ↔ f.inRange := by
    simp only [OpenFields.inRange, Bool.or_eq_true, and_assoc]
  unfold OpenFields.config
  split
  · rename_i missing
    simp [missing]
  · rename_i domain decoded
    dsimp only
    split
    · rename_i accepted
      constructor
      · intro given
        exact ⟨domain, decoded, range.mp accepted, (Option.some.inj given).symm⟩
      · rintro ⟨_, again, -, rfl⟩
        cases decoded.symm.trans again
        rfl
    · rename_i refused
      refine iff_of_false nofun ?_
      rintro ⟨_, -, inside, -⟩
      exact refused (range.mpr inside)

theorem OpenFields.config_isSome (f : OpenFields) :
    f.config.isSome = true ↔ (decodeDomain f.domain).isSome = true ∧ f.inRange := by
  simp only [Option.isSome_iff_exists, OpenFields.config_eq_some]
  constructor
  · rintro ⟨c, domain, decoded, range, -⟩
    exact ⟨⟨domain, decoded⟩, range⟩
  · rintro ⟨⟨domain, decoded⟩, range⟩
    exact ⟨_, domain, decoded, range, rfl⟩

theorem openConfig_eq_some {s : State} {n : WinNo} {c : WinConfig} :
    openConfig s n = some c ↔ (s.win n).state = .opened ∧ (s.win n).config = some c := by
  unfold openConfig
  split
  · rename_i opened
    simp [opened]
  · rename_i notOpen
    simp [notOpen]

/-- The windows of an ARM (R9). -/
theorem armWindowsOk_iff (s : State) (c : CadConfig) :
    armWindowsOk s c = true ↔ ∃ src dst, openConfig s c.srcWindow = some src ∧
      openConfig s c.dstWindow = some dst ∧ src.canRead = true ∧ dst.canWrite = true ∧
      c.length ≤ src.size ∧ c.length ≤ dst.size := by
  unfold armWindowsOk
  split
  · rename_i src dst h1 h2
    simp [h1, h2, and_assoc]
  · rename_i missing
    refine iff_of_false Bool.false_ne_true ?_
    rintro ⟨src, dst, h1, h2, -⟩
    exact missing _ _ h1 h2

theorem openConfigOf_eq_some {s : State} {b : Byte} {c : WinConfig} :
    openConfigOf s b = some c ↔ ∃ w : WinNo, w.val = b.toNat ∧ openConfig s w = some c := by
  simp only [openConfigOf, Option.bind_eq_some_iff, decodeWindow_eq_some]

/-- The window of a card (R82). -/
theorem cardWindowOk_iff (s : State) (b : Byte) (write : Bool) (offset length : Nat) :
    cardWindowOk s b write offset length = true ↔ b.toNat < s.hdr.windowCount ∧
      ∃ x, openConfigOf s b = some x ∧ x.grants write = true ∧ offset % 4 = 0 ∧ offset + length ≤ x.size := by
  unfold cardWindowOk
  rw [Bool.and_eq_true, decide_eq_true_iff]
  refine and_congr_right fun _ => ?_
  split
  · rename_i x opened
    simp [opened, inBounds]
  · rename_i missing
    simp [missing]

/-- The cards that are valid (R82). -/
theorem cardValid_iff (s : State) (c : Card) :
    cardValid s c = true ↔ (4 ≤ c.length ∧ c.length ≤ 16777216 ∧ c.length % 4 = 0) ∧
      (c.kind = some .copy ∧ cardWindowOk s c.srcWindow false c.srcOffset c.length = true ∧
          cardWindowOk s c.dstWindow true c.dstOffset c.length = true ∨
        c.kind = some .fill ∧ cardWindowOk s c.dstWindow true c.dstOffset c.length = true) := by
  unfold cardValid
  rw [Bool.and_eq_true, Bool.and_eq_true, Bool.and_eq_true, decide_eq_true_iff, decide_eq_true_iff,
    beq_iff_eq]
  refine and_congr and_assoc ?_
  split
  · rename_i copy
    simp [copy]
  · rename_i fill
    simp [fill]
  · rename_i none
    simp [none]

theorem WinConfig.grants_eq (c : WinConfig) (write : Bool) :
    c.grants write = if write then c.canWrite else c.canRead := rfl

/-- The window of a card, by the entry of the table. -/
theorem cardWindowOk_iff_win (s : State) (b : Byte) (write : Bool) (offset length : Nat) :
    cardWindowOk s b write offset length = true ↔ b.toNat < s.hdr.windowCount ∧
      ∃ w : WinNo, w.val = b.toNat ∧ (s.win w).state = .opened ∧ ∃ x, (s.win w).config = some x ∧
        (if write then x.canWrite else x.canRead) = true ∧ offset % 4 = 0 ∧ offset + length ≤ x.size := by
  simp only [cardWindowOk_iff, openConfigOf_eq_some, openConfig_eq_some, WinConfig.grants_eq]
  refine and_congr_right fun _ => ⟨?_, ?_⟩
  · rintro ⟨x, ⟨w, number, opened, config⟩, fits⟩
    exact ⟨w, number, opened, x, config, fits⟩
  · rintro ⟨w, number, opened, x, config, fits⟩
    exact ⟨x, ⟨w, number, opened, config⟩, fits⟩

/-- Settles O46. -/
theorem admissionChecks : Obligations.AdmissionChecks := by
  refine ⟨⟨fun f => ?_, fun s c => ?_⟩, fun f => ?_, fun f c h => ?_, fun f c h => ?_, fun s c => ?_⟩
  · rw [ArmFields.config_isSome, decodeClass_isSome, decodePolicy_isSome, decodeWindow_isSome,
      decodeWindow_isSome, ArmFields.inRange]
    constructor
    · rintro ⟨cls, policy, src, dst, periodLow, periodHigh, phase, deadlineLow, deadlineHigh, lengthLow, lengthHigh,
        lengthWords, ring, sizeLow, sizeHigh⟩
      exact ⟨cls, ⟨periodLow, periodHigh⟩, phase, ⟨deadlineLow, deadlineHigh⟩, src, dst,
        ⟨lengthLow, lengthHigh, lengthWords⟩, ring, ⟨sizeLow, sizeHigh⟩, policy⟩
    · rintro ⟨cls, ⟨periodLow, periodHigh⟩, phase, ⟨deadlineLow, deadlineHigh⟩, src, dst,
        ⟨lengthLow, lengthHigh, lengthWords⟩, ring, ⟨sizeLow, sizeHigh⟩, policy⟩
      exact ⟨cls, policy, src, dst, periodLow, periodHigh, phase, deadlineLow, deadlineHigh, lengthLow, lengthHigh,
        lengthWords, ring, sizeLow, sizeHigh⟩
  · simp only [armWindowsOk_iff, openConfig_eq_some, and_assoc]
  · rw [OpenFields.config_isSome, decodeDomain_isSome, OpenFields.inRange]
  · obtain ⟨cls, missPolicy, srcWindow, dstWindow, h1, h2, h3, h4, -, rfl⟩ := ArmFields.config_eq_some.mp h
    exact ⟨decodeClass_eq h1, rfl, rfl, rfl, decodeWindow_eq_some.mp h3, decodeWindow_eq_some.mp h4, rfl, rfl,
      rfl, rfl, decodePolicy_eq h2⟩
  · obtain ⟨domain, decoded, -, rfl⟩ := OpenFields.config_eq_some.mp h
    exact ⟨decodeDomain_eq decoded, rfl, rfl, rfl, rfl⟩
  · rw [cardValid_iff]
    simp only [cardWindowOk_iff_win]

end Sys2Proof.Machine
end

section
/-! The end of QUIESCING (O20), the answers and the unexpected completions (O22, O23), the posted writes
(O24). -/

namespace Sys2Proof.Machine

/-! ## The end of QUIESCING (R159) -/

theorem noBusy_iff (x : Port) : noBusy x = true ↔ ∀ t : TagNo, x.tags[t].isBusy = false := by
  simp only [noBusy, Port.tagList, List.all_eq_true, Bool.not_eq_true', Vector.mem_toList_iff]
  constructor
  · intro h t
    exact h _ (Vector.getElem_mem t.isLt)
  · intro h x member
    obtain ⟨i, inside, rfl⟩ := Vector.getElem_of_mem member
    exact h ⟨i, inside⟩

theorem lanes_idle_iff (s : State) :
    s.lanes.toList.all (fun l => l.state == .idle) = true ↔ ∀ k, (s.lane k).state = .idle := by
  simp only [lanes_toList, List.all_cons, List.all_nil, Bool.and_true, Bool.and_eq_true, beq_iff_eq]
  constructor
  · rintro ⟨h0, h1, h2, h3⟩ k
    rcases lane_cases k with rfl | rfl | rfl | rfl
    · exact h0
    · exact h1
    · exact h2
    · exact h3
  · exact fun h => ⟨h 0, h 1, h 2, h 3⟩

/-- The conditions of R159. -/
theorem quiesced_iff (s : State) :
    quiesced s = true ↔ (∀ k, (s.lane k).state = .idle) ∧ (∀ p t, (s.tag p t).isBusy = false) ∧
      s.controlQueue = [] ∧ s.scanner = .idle ∧ s.reader.busy = false ∧ s.portA.writes = [] := by
  have tags : (∀ p t, (s.tag p t).isBusy = false) ↔ noBusy s.portA = true ∧ noBusy s.portB = true := by
    rw [noBusy_iff, noBusy_iff]
    refine ⟨fun h => ⟨h .a, h .b⟩, fun ⟨free_a, free_b⟩ p => ?_⟩
    cases p with
    | a => exact free_a
    | b => exact free_b
  simp only [quiesced, Bool.and_eq_true, lanes_idle_iff, tags, List.isEmpty_iff, beq_iff_eq, heldWrites_eq,
    List.length_eq_zero_iff, Bool.not_eq_true', and_assoc]

theorem raise_of_empty {s : State} (h : s.portA.writes = []) (c : Cause) : raise c s = setCause c s :=
  if_pos (by rw [heldWrites_eq, h]; rfl)

theorem checkStopped_of_not_quiescing {s : State} (h : s.bridge ≠ .quiescing) : checkStopped s = s :=
  if_neg fun g => h g.1

/-- Settles O20: with no write held, STATE is set at once. -/
theorem quiescingEnds : Obligations.QuiescingEnds := by
  intro s
  refine ⟨fun h => ?_, fun h => ?_⟩
  · have empty : s.portA.writes = [] := by
      obtain ⟨-, -, -, -, -, -, empty⟩ := h
      exact empty
    rw [checkStopped, if_pos ⟨h.1, (quiesced_iff s).mpr h.2⟩,
      raise_of_empty (s := { s with bridge := .stopped }) empty]
    rfl
  · rw [checkStopped, if_neg fun g => h ⟨g.1, (quiesced_iff s).mp g.2⟩]

/-! ## Completions (R121 to R124) -/

theorem takeCompletion_of_busy {s : State} {p : Domain} {t : TagNo} {r : ReadInfo} {timer : Nat}
    (h : s.tag p t = .busy r timer) (answer : Answer) : takeCompletion p t answer s = answerBusy p t r answer s := by
  rw [takeCompletion, h]

theorem takeCompletion_of_quarantine {s : State} {p : Domain} {t : TagNo} {kind : ReadKind} {timer : Nat}
    (h : s.tag p t = .quarantine kind timer) (answer : Answer) :
    takeCompletion p t answer s = freeQuarantined p t s := by
  rw [takeCompletion, h]

theorem takeCompletion_of_free {s : State} {p : Domain} {t : TagNo} (h : s.tag p t = .free) (answer : Answer) :
    takeCompletion p t answer s = reportFault .strayCompletion .port (portNumber p) s := by
  rw [takeCompletion, h]

theorem execReadTimeout_of_busy {s : State} {p : Domain} {t : TagNo} {r : ReadInfo} {timer : Nat}
    (h : s.tag p t = .busy r timer) :
    exec (.readTimeout p t) s = .next (checkStopped (readAnswered t r .timeout
      (setTag p t (.quarantine r.role.kind (s.port p).period) s))) := by
  change execReadTimeout p t s = _
  rw [execReadTimeout, h]

/-- Settles O22. -/
theorem readAnswers : Obligations.ReadAnswers := by
  refine ⟨fun s p t r timer busy => ⟨fun bytes => ?_, ?_⟩, fun s p t => ⟨fun r timer => execReadTimeout_of_busy,
    fun notBusy => ?_⟩⟩
  · refine ⟨{ setTag p t .free s with freeCount := s.freeCount + drawsFree r.length (.data bytes) },
      (List.range (r.length - bytes.length)).map fun i => Config.freeByte s.freeCount (bytes.length + i), ?_, rfl,
      congrArg Host.Outcome.next (takeCompletion_of_busy busy _)⟩
    rw [List.length_map, List.length_range]
  · refine (congrArg Host.Outcome.next (takeCompletion_of_busy busy _)).trans ?_
    cases p <;> rfl
  · change execReadTimeout p t s = _
    unfold execReadTimeout
    cases tag : s.tag p t with
    | busy r timer => rw [tag] at notBusy; cases notBusy
    | free => rfl
    | quarantine kind timer => rfl

/-! ## Where the arbiter stops (R118) -/

theorem nextLane_none {p : Domain} {s : State} (h : ∀ k, (s.lane k).tagRequest ≠ some p) : nextLane p s = none :=
  List.find?_eq_none.mpr fun k _ => by simpa using h k

/-- With no control requester, the arbiter stops where no lane is to be served. -/
theorem arbitrateOnce_none {p : Domain} {s : State} (queue : p = .a → s.controlQueue = [])
    (lanes : nextLane p s = none ∨ dataAllowed p s = false) : arbitrateOnce p s = none := by
  unfold arbitrateOnce
  split
  · rfl
  · split
    · rename_i waits _
      rw [queue rfl] at waits
      cases waits
    · split
      · rename_i k served
        rcases lanes with none | limit
        · rw [none] at served; cases served
        · rw [limit]; rfl
      · rfl

theorem arbitrate_of_none {p : Domain} {s : State} (h : arbitrateOnce p s = none) : arbitrate p s = s := by
  unfold arbitrate arbitrateFuel
  rw [h]

/-- Nobody waits at the port: its arbiter has nothing to grant. -/
theorem arbitrate_of_nobody {p : Domain} {s : State} (h : nobodyWaits p s) : arbitrate p s = s :=
  arbitrate_of_none (arbitrateOnce_none h.1 (.inl (nextLane_none h.2)))

theorem nobodyWaits_setTag {p : Domain} {s : State} (h : nobodyWaits p s) (q : Domain) (t : TagNo) (x : Tag) :
    nobodyWaits p (setTag q t x s) := by
  cases q <;> exact h

theorem exec_quarantineExpiry_of_quarantine {s : State} {p : Domain} {t : TagNo} {kind : ReadKind} {timer : Nat}
    (h : s.tag p t = .quarantine kind timer) :
    exec (.quarantineExpiry p t) s = .next (arbitrate p (setTag p t .free s)) := by
  change execQuarantineExpiry p t s = _
  rw [execQuarantineExpiry, h]
  rfl

/-- A cause is raised by what Port A holds and by the causes set and waiting. -/
theorem CauseRaised.of_eq {c : Cause} {s s' t : State} (h : CauseRaised c s t) (writes : s'.portA.writes = s.portA.writes)
    (raised : s'.raised = s.raised) (raisings : s'.raisings = s.raisings) : CauseRaised c s' t := by
  rw [CauseRaised, writes, raised, raisings]
  exact h

theorem reportFault_causeRaised (code : FaultCode) (kind : ObjectKind) (number : Nat) (s : State) :
    CauseRaised .fault s (reportFault code kind number s) := by
  have raised : CauseRaised .fault (recordFault code kind number s) (reportFault code kind number s) :=
    raise_causeRaised .fault _
  refine raised.of_eq ?_ ?_ ?_ <;> unfold recordFault <;> split <;> rfl

/-- Settles O23. -/
theorem unexpectedCompletions : Obligations.UnexpectedCompletions := by
  refine ⟨fun s p t kind timer held => ⟨fun answer => ?_, exec_quarantineExpiry_of_quarantine held, fun nobody =>
    arbitrate_of_nobody (nobodyWaits_setTag nobody p t .free)⟩, fun s p t done => ?_, fun s p t answer free => ?_⟩
  · exact congrArg Host.Outcome.next (takeCompletion_of_quarantine held answer)
  · change execQuarantineExpiry p t s = _
    unfold execQuarantineExpiry
    cases tag : s.tag p t with
    | quarantine kind timer => rw [tag] at done; cases done
    | free => rfl
    | busy r timer => rfl
  · refine ⟨_, congrArg Host.Outcome.next (takeCompletion_of_free free answer), reportFault_frame .., ?_, ?_⟩
    · cases p <;> exact reportFault_faultTaken ..
    · exact reportFault_causeRaised ..

/-! ## Posted writes (R126, R127, R174) -/

theorem issueWrite_of_up {p : Domain} {s : State} (h : p = .a ∨ s.linkUp = true) (w : PostedWrite) :
    issueWrite p w s = setPort p { s.port p with requests := (s.port p).requests ++ [.write w] } s := by
  refine if_neg fun down => ?_
  rcases h with rfl | up
  · cases down.1
  · exact absurd (up.symm.trans down.2) (by decide)

theorem Port.writes_append (requests more : List Request) (x : Port) :
    Port.writes { x with requests := requests ++ more } =
      Port.writes { x with requests := requests } ++ more.filterMap Request.write? :=
  List.filterMap_append

/-- The writes a port holds are those of its requests that are left. -/
theorem writes_eraseP (sends : PostedWrite → Bool) (sendable : Request → Bool)
    (same : ∀ w, sendable (.write w) = sends w) (reads : ∀ a n t l, sendable (.read a n t l) = false)
    (requests : List Request) :
    (requests.eraseP sendable).filterMap Request.write? =
      (requests.filterMap Request.write?).eraseP sends := by
  induction requests with
  | nil => rfl
  | cons r rest ih =>
    cases r with
    | write w =>
      cases sent : sends w with
      | true => simp [same, sent, Request.write?]
      | false => simp [same, sent, Request.write?, ih]
    | read a n t l =>
      rw [List.eraseP_cons_of_neg (by rw [reads]; decide)]
      exact ih

theorem any_sendable (sends : PostedWrite → Bool) (sendable : Request → Bool)
    (same : ∀ w, sendable (.write w) = sends w) (reads : ∀ a n t l, sendable (.read a n t l) = false)
    (requests : List Request) :
    requests.any sendable = (requests.filterMap Request.write?).any sends := by
  induction requests with
  | nil => rfl
  | cons r rest ih =>
    cases r with
    | write w => simp [same, Request.write?, ih]
    | read a n t l => simp [reads, Request.write?, ih]

/-- The write of a source that is sent leaves the others, in their order. -/
theorem sendOldest_some {p : Domain} {lane : Option LaneNo} {x : Port}
    (sends : PostedWrite → Bool) (same : ∀ w, Request.sendable lane (.write w) = sends w)
    (held : x.writes.any sends = true) :
    ∃ requests, sendOldest p lane x.requests = some requests ∧
      Port.writes { x with requests := requests } = x.writes.eraseP sends := by
  have any := any_sendable sends (Request.sendable lane) same (fun _ _ _ _ => rfl) x.requests
  refine ⟨_, if_pos (any.trans held), ?_⟩
  exact (sendReads_writes _ _ _).trans
    (writes_eraseP sends (Request.sendable lane) same (fun _ _ _ _ => rfl) x.requests)

theorem sendOldest_none {p : Domain} {lane : Option LaneNo} {x : Port}
    (sends : PostedWrite → Bool) (same : ∀ w, Request.sendable lane (.write w) = sends w)
    (held : x.writes.any sends = false) : sendOldest p lane x.requests = none := by
  have any := any_sendable sends (Request.sendable lane) same (fun _ _ _ _ => rfl) x.requests
  refine if_neg ?_
  rw [any, show (List.filterMap Request.write? x.requests) = x.writes from rfl, held]
  exact Bool.false_ne_true

/-- The causes that a sent write settles (R174). -/
theorem settleRaisings_eq (s : State) :
    settleRaisings s = { s with
      raised := (settleRaisings s).raised
      raisings := (s.raisings.filter (fun r => decide (1 < r.2))).map (fun r => (r.1, r.2 - 1)) } :=
  setCauses_frame _ _

theorem settleRaisings_raised (s : State) (i : Nat) :
    (settleRaisings s).raised.getLsbD i =
      (s.raised.getLsbD i || s.raisings.any (fun r => decide (r.2 ≤ 1) && r.1.bit.getLsbD i)) := by
  refine (setCauses_raised _ _ i).trans ?_
  rw [List.any_map, List.any_filter]
  rfl

/-- Settles O24. -/
theorem postedWrites : Obligations.PostedWrites := by
  refine ⟨fun s p w => ⟨fun up => ⟨_, rfl, ?_⟩, fun b down => if_pos ⟨b, down⟩⟩, fun s w rest front => ?_,
    fun s lane => ⟨fun up held => ?_, fun unsent => ?_⟩⟩
  · rw [issueWrite_of_up up, port_setPort_same]
    exact ⟨Port.writes_append _ _ _, rfl, rfl⟩
  · obtain ⟨requests, sent, left⟩ := sendOldest_some (p := .a) (lane := none) (x := s.portA) (fun _ => true)
      (fun _ => rfl) (by rw [front]; rfl)
    refine ⟨settleRaisings { s with portA := { s.portA with requests := requests } }, ?_, ?_, ?_, ?_, ?_, ?_⟩
    · change Host.Outcome.next (sendPortA s) = _
      rw [sendPortA, sent]
    · intro working
      refine checkStopped_of_not_quiescing ?_
      rw [settleRaisings_eq]
      exact working
    · rw [congrArg State.portA (settleRaisings_eq _), congrArg State.raisings (settleRaisings_eq _)]
      exact settleRaisings_eq _
    · rw [settleRaisings_eq]
      exact left.trans (by rw [front]; rfl)
    · rw [settleRaisings_eq]
    · exact settleRaisings_raised _
  · obtain ⟨requests, sent, left⟩ := sendOldest_some (p := .b) (lane := some lane) (x := s.portB)
      (fun w => w.lane == some lane) (fun _ => rfl) (by simpa using held)
    refine ⟨{ s with portB := { s.portB with requests := requests } }, ?_, rfl, left⟩
    change Host.Outcome.next (sendPortB lane s) = _
    rw [sendPortB, sent]
    exact congrArg _ (if_pos up)
  · change Host.Outcome.next (sendPortB lane s) = _
    rw [sendPortB]
    split
    · rename_i requests sent
      rcases unsent with down | none
      · rw [if_neg (by rw [down]; decide)]
      · rw [sendOldest_none (fun w => w.lane == some lane) (fun _ => rfl) (by simpa using none)] at sent
        cases sent
    · rfl

end Sys2Proof.Machine
end

section
/-! The arbiter of a port (O21). -/

namespace Sys2Proof.Machine

/-! ## The rotation (R118) -/

/-- Which of the four lanes wait. -/
def fourLanes (w0 w1 w2 w3 : Bool) (k : LaneNo) : Bool := #v[w0, w1, w2, w3][k]

/-- The rotation looks at a lane before those that stand farther from the last one served. -/
theorem rotation_find? (last k : LaneNo) (waits : LaneNo → Bool) :
    (rotation last).find? waits = some k ↔
      waits k = true ∧ ∀ j, (j - last - 1).val < (k - last - 1).val → waits j = false := by
  have each : ∀ w0 w1 w2 w3 : Bool, ∀ last k : LaneNo,
      (rotation last).find? (fourLanes w0 w1 w2 w3) = some k ↔
        (fourLanes w0 w1 w2 w3) k = true ∧
          ∀ j, (j - last - 1).val < (k - last - 1).val → (fourLanes w0 w1 w2 w3) j = false := by decide
  have same : waits = fourLanes (waits 0) (waits 1) (waits 2) (waits 3) := by
    funext j
    rcases lane_cases j with rfl | rfl | rfl | rfl <;> rfl
  rw [same]
  exact each _ _ _ _ last k

theorem nextLane_eq_some {p : Domain} {s : State} {k : LaneNo} :
    nextLane p s = some k ↔ (s.lane k).tagRequest = some p ∧
      ∀ j, (j - (s.port p).lastServed - 1).val < (k - (s.port p).lastServed - 1).val →
        (s.lane j).tagRequest ≠ some p := by
  unfold nextLane
  rw [rotation_find?]
  simp only [beq_iff_eq, beq_eq_false_iff_ne]

theorem dataAllowed_iff {p : Domain} {s : State} :
    dataAllowed p s = true ↔ (p = .a → dataHeld s.portA < 20) ∧ (p = .b → s.linkUp = true) := by
  cases p
  · simp only [forall_const, reduceCtorEq, false_implies, and_true]
    exact decide_eq_true_iff
  · simp [dataAllowed]

/-! ## Grants -/

/-- A grant to a control requester (R118): whichever FREE tag it takes. -/
theorem arbitrateOnce_control {s : State} {r : ControlRequest} {rest : List ControlRequest}
    (queue : s.controlQueue = r :: rest) (free : ∃ t, s.tag .a t = .free) :
    ∃ t c, s.tag .a t = .free ∧ arbitrateOnce .a s = some (grantControl r rest t { s with choice := c }) := by
  obtain ⟨t, c, picked, isFree⟩ := pickTag_some .a s free
  refine ⟨t, c, isFree, ?_⟩
  unfold arbitrateOnce
  rw [picked, queue]

theorem grantLane_moving {p : Domain} {k : LaneNo} {t : TagNo} {s : State} (wants : (s.lane k).wantsTag = true)
    (moving : (s.lane k).state = .moving) :
    grantLane p k t s = issueSegment p k t (setPort p { s.port p with lastServed := k } s) := by
  rw [grantLane, if_neg (by rw [wants]; decide), if_pos moving]

theorem grantLane_confirming {p : Domain} {k : LaneNo} {t : TagNo} {s : State}
    (wants : (s.lane k).wantsTag = true) (notMoving : (s.lane k).state ≠ .moving) :
    grantLane p k t s = issueConfirm p k t (setPort p { s.port p with lastServed := k } s) := by
  rw [grantLane, if_neg (by rw [wants]; decide), if_neg notMoving]

theorem issueRead_lastServed (p : Domain) (t : TagNo) (r : ReadInfo) (s : State) :
    ((issueRead p t r s).port p).lastServed = (s.port p).lastServed := by
  cases p <;> rfl

/-- A grant to a lane that wants its tag: the tag is BUSY with a read of the lane, and the lane is the last one
served. -/
theorem grantLane_wanted (p : Domain) (k : LaneNo) (t : TagNo) (s : State) (wants : (s.lane k).wantsTag = true) :
    ((grantLane p k t s).port p).lastServed = k ∧ ∃ read, read.requester = .lane k ∧
      ∀ u, (grantLane p k t s).tag p u = if t = u then .busy read (s.port p).period else s.tag p u := by
  have issued (read : ReadInfo) (u : TagNo) :
      (issueRead p t read (setPort p { s.port p with lastServed := k } s)).tag p u =
        if t = u then .busy read (s.port p).period else s.tag p u := by
    rw [tag_issueRead, port_setPort_same]
    cases p <;> simp [State.tag, State.port, setPort]
  have served (read : ReadInfo) :
      ((issueRead p t read (setPort p { s.port p with lastServed := k } s)).port p).lastServed = k := by
    rw [issueRead_lastServed, port_setPort_same]
  by_cases moving : (s.lane k).state = .moving
  · rw [grantLane_moving wants moving]
    exact ⟨served _, _, rfl, issued _⟩
  · rw [grantLane_confirming wants moving]
    exact ⟨served _, _, rfl, issued _⟩

theorem wantsTag_iff (l : Lane) :
    l.wantsTag = true ↔ l.failure = none ∧ ¬(l.state = .moving ∧ l.parkRequest = true) := by
  simp [Lane.wantsTag, Decidable.imp_iff_not_or]

theorem wantsTag_eq_false {l : Lane} :
    l.wantsTag = false ↔ l.failure ≠ none ∨ l.state = .moving ∧ l.parkRequest = true := by
  rw [← Bool.not_eq_true, wantsTag_iff, Decidable.not_and_iff_not_or_not, Decidable.not_not]

/-! ## The arbiter comes to an end -/

/-- The lanes with a request waiting at a port. -/
def waitingLanes (p : Domain) (s : State) : Nat := s.lanes.toList.countP (fun l => l.tagRequest == some p)

/-- The FREE tags of a port. -/
def freeTagCount (p : Domain) (s : State) : Nat := (s.port p).tagList.countP Tag.isFree

/-- Every act of a port's arbiter takes a FREE tag, or a waiting request. -/
def arbiterWork (p : Domain) (s : State) : Nat := freeTagCount p s + waitingLanes p s

theorem arbiterWork_le (p : Domain) (s : State) : arbiterWork p s ≤ 28 := by
  have tags : freeTagCount p s ≤ 24 := by
    refine Nat.le_trans List.countP_le_length (Nat.le_of_eq ?_)
    simp [Port.tagList]
  have lanes : waitingLanes p s ≤ 4 := by
    refine Nat.le_trans List.countP_le_length (Nat.le_of_eq ?_)
    simp
  unfold arbiterWork
  omega

theorem waitingLanes_setLane (p : Domain) (k : LaneNo) (l : Lane) (s : State) :
    waitingLanes p (setLane k l s) + (if (s.lane k).tagRequest == some p then 1 else 0) =
      waitingLanes p s + (if l.tagRequest == some p then 1 else 0) := by
  simp only [waitingLanes, lanes_toList, List.countP_cons, List.countP_nil]
  rcases lane_cases k with rfl | rfl | rfl | rfl <;> simp [lane_setLane] <;> omega

theorem freeTagCount_issueRead {p : Domain} {t : TagNo} {s : State} (free : s.tag p t = .free) (r : ReadInfo) :
    freeTagCount p (issueRead p t r s) + 1 = freeTagCount p s := by
  have old : (s.port p).tags.toList[t.val]'(by simp) = .free := by
    simpa [State.tag] using free
  have counted : 0 < (s.port p).tags.toList.countP Tag.isFree :=
    List.countP_pos_iff.mpr ⟨_, Vector.mem_toList_iff.mpr (Vector.getElem_mem t.isLt),
      (isFree_iff _).mpr free⟩
  have tags : ((issueRead p t r s).port p).tagList = (s.port p).tags.toList.set t (.busy r (s.port p).period) := by
    rw [issueRead]
    simp only [port_setPort_same, Port.tagList, Vector.toList_set]
  rw [freeTagCount, freeTagCount, tags, List.countP_set (by simp), old]
  change _ - 1 + 0 + 1 = (s.port p).tags.toList.countP Tag.isFree
  omega

theorem waitingLanes_issueRead (p q : Domain) (t : TagNo) (r : ReadInfo) (s : State) :
    waitingLanes p (issueRead q t r s) = waitingLanes p s := by
  cases q <;> rfl

/-- A grant of a FREE tag to a lane with a request waiting leaves less to do. -/
theorem grantLane_less {p : Domain} {k : LaneNo} {t : TagNo} {s : State} (free : s.tag p t = .free)
    (waits : (s.lane k).tagRequest = some p) : arbiterWork p (grantLane p k t s) < arbiterWork p s := by
  have served : arbiterWork p (setPort p { s.port p with lastServed := k } s) = arbiterWork p s := by
    cases p <;> rfl
  have reads (l : Lane) (read : ReadInfo) (u : State) (tags : u.tag p t = .free)
      (request : (u.lane k).tagRequest = some p) :
      arbiterWork p (setLane k l (issueRead p t read u)) < arbiterWork p u := by
    have lanes := waitingLanes_setLane p k l (issueRead p t read u)
    rw [waitingLanes_issueRead, issueRead_lane, request, beq_self_eq_true, if_pos rfl] at lanes
    have tags := freeTagCount_issueRead tags read
    have same : freeTagCount p (setLane k l (issueRead p t read u)) = freeTagCount p (issueRead p t read u) := by
      cases p <;> rfl
    unfold arbiterWork
    rw [same]
    split at lanes <;> omega
  rw [← served]
  have free' : (setPort p { s.port p with lastServed := k } s).tag p t = .free := by
    rw [← free]
    cases p <;> rfl
  have waits' : ((setPort p { s.port p with lastServed := k } s).lane k).tagRequest = some p := by
    rw [lane_setPort, waits]
  cases wants : (s.lane k).wantsTag with
  | true =>
    by_cases moving : (s.lane k).state = .moving
    · rw [grantLane_moving wants moving]
      exact reads _ _ _ free' waits'
    · rw [grantLane_confirming wants moving]
      exact reads _ _ _ free' waits'
  | false =>
    rw [grantLane_unwanted wants]
    generalize setPort p { s.port p with lastServed := k } s = u at waits'
    have lanes := waitingLanes_setLane p k { s.lane k with tagRequest := none } u
    rw [waits', beq_self_eq_true, if_pos rfl] at lanes
    have same : freeTagCount p (setLane k { s.lane k with tagRequest := none } u) = freeTagCount p u := by
      cases p <;> rfl
    unfold arbiterWork
    rw [same]
    have none : (if (none : Option Domain) == some p then 1 else 0) = 0 := rfl
    rw [none] at lanes
    omega

/-- What an act of the arbiter is: a grant to the first control requester, or to a lane. -/
theorem arbitrateOnce_eq_some {p : Domain} {s u : State} (h : arbitrateOnce p s = some u) :
    ∃ t c, s.tag p t = .free ∧
      ((∃ r rest, p = .a ∧ s.controlQueue = r :: rest ∧ u = grantControl r rest t { s with choice := c }) ∨
        ∃ k, (s.lane k).tagRequest = some p ∧ u = grantLane p k t { s with choice := c }) := by
  unfold arbitrateOnce at h
  split at h
  · cases h
  · rename_i t c picked
    refine ⟨t, c, pickTag_free picked, ?_⟩
    split at h
    · rename_i r rest queue
      exact .inl ⟨r, rest, rfl, queue, (Option.some_inj.mp h).symm⟩
    · split at h
      · rename_i k served
        split at h
        · exact .inr ⟨k, (nextLane_eq_some.mp served).1, (Option.some_inj.mp h).symm⟩
        · cases h
      · cases h

theorem arbitrateOnce_less {p : Domain} {s u : State} (h : arbitrateOnce p s = some u) :
    arbiterWork p u < arbiterWork p s := by
  obtain ⟨t, c, free, ⟨r, rest, rfl, -, rfl⟩ | ⟨k, waits, rfl⟩⟩ := arbitrateOnce_eq_some h
  · have tags := freeTagCount_issueRead (p := .a) (t := t) (s := { s with controlQueue := rest, choice := c }) free
      { requester := r.requester, role := .control, addr := r.addr, length := r.length }
    have less : freeTagCount .a (grantControl r rest t { s with choice := c }) + 1 = freeTagCount .a s := tags
    have lanes : waitingLanes .a (grantControl r rest t { s with choice := c }) = waitingLanes .a s := rfl
    unfold arbiterWork
    omega
  · have same : arbiterWork p { s with choice := c } = arbiterWork p s := by cases p <;> rfl
    rw [← same]
    exact grantLane_less (s := { s with choice := c }) (by rw [← free]; cases p <;> rfl) waits

/-- With as much fuel as there is to do, the arbiter goes on until it stops. -/
theorem arbitrateFuel_ends {p : Domain} {fuel : Nat} {s : State} (h : arbiterWork p s ≤ fuel) :
    arbitrateOnce p (arbitrateFuel p fuel s) = none ∧
      ∀ more, arbiterWork p s ≤ more → arbitrateFuel p more s = arbitrateFuel p fuel s := by
  induction fuel generalizing s with
  | zero =>
    have stops : arbitrateOnce p s = none := by
      cases acts : arbitrateOnce p s with
      | none => rfl
      | some u => exact absurd (arbitrateOnce_less acts) (by omega)
    refine ⟨stops, fun more _ => ?_⟩
    cases more with
    | zero => rfl
    | succ more => simp only [arbitrateFuel, stops]
  | succ fuel ih =>
    cases acts : arbitrateOnce p s with
    | none =>
      have rests (more : Nat) : arbitrateFuel p more s = s := by
        cases more with
        | zero => rfl
        | succ more => simp only [arbitrateFuel, acts]
      rw [rests]
      exact ⟨acts, fun more _ => rests more⟩
    | some u =>
      have less := arbitrateOnce_less acts
      obtain ⟨stops, same⟩ := ih (s := u) (by omega)
      rw [arbitrateFuel, acts]
      refine ⟨stops, fun more enough => ?_⟩
      cases more with
      | zero => omega
      | succ more =>
        rw [arbitrateFuel, acts]
        exact same more (by omega)

theorem arbitrate_of_some {p : Domain} {s u : State} (h : arbitrateOnce p s = some u) :
    arbitrate p s = arbitrate p u := by
  have work := arbiterWork_le p s
  have less := arbitrateOnce_less h
  obtain ⟨-, same⟩ := arbitrateFuel_ends (p := p) (fuel := 28) (s := u) (by omega)
  rw [arbitrate, arbitrateFuel, h]
  exact same 27 (by omega)

theorem arbitrate_stops (p : Domain) (s : State) : arbitrateOnce p (arbitrate p s) = none :=
  (arbitrateFuel_ends (arbiterWork_le p s)).1

/-! ## The withdrawal (R61) -/

theorem pickTag_isSome_iff (p : Domain) (s : State) : (pickTag p s).isSome = true ↔ ∃ t, s.tag p t = .free := by
  constructor
  · intro some
    obtain ⟨⟨t, c⟩, picked⟩ := Option.isSome_iff_exists.mp some
    exact ⟨t, pickTag_free picked⟩
  · intro free
    obtain ⟨t, c, picked, -⟩ := pickTag_some p s free
    rw [picked]
    rfl

/-- The port's next grant goes to a lane exactly where a tag is FREE, no control requester waits at Port A, the
port may grant to data, and the lane is the first in the rotation. -/
theorem servedLane_eq_some {p : Domain} {s : State} {k : LaneNo} :
    servedLane p s = some k ↔ (∃ t, s.tag p t = .free) ∧
      (p = .a → s.controlQueue = [] ∧ dataHeld s.portA < 20) ∧ (p = .b → s.linkUp = true) ∧
      (s.lane k).tagRequest = some p ∧
      ∀ j, (j - (s.port p).lastServed - 1).val < (k - (s.port p).lastServed - 1).val →
        (s.lane j).tagRequest ≠ some p := by
  unfold servedLane
  rw [Option.ite_none_right_eq_some, nextLane_eq_some, pickTag_isSome_iff, dataAllowed_iff]
  constructor
  · rintro ⟨⟨free, quiet, below, up⟩, waits, first⟩
    exact ⟨free, fun a => ⟨quiet a, below a⟩, up, waits, first⟩
  · rintro ⟨free, allowed, up, waits, first⟩
    exact ⟨⟨free, fun a => (allowed a).1, fun a => (allowed a).2, up⟩, waits, first⟩

end Sys2Proof.Machine
end

section
/-! What the lanes' operations do to a lane's record: the entry to STAMPING, the withdrawal, the failure. -/

namespace Sys2Proof.Machine

/-! ## The entry to STAMPING (R69) -/

theorem enterStamping_none {k : LaneNo} {s : State} (job : (s.lane k).job = .none) (o : Option Outcome) :
    enterStamping k o s = s := by
  unfold enterStamping
  rw [job]

theorem enterStamping_service {k : LaneNo} {n : CadNo} {s : State} (job : (s.lane k).job = .service n)
    (o : Option Outcome) : enterStamping k o s = stampService k n o s := by
  unfold enterStamping
  rw [job]

theorem enterStamping_closing {k : LaneNo} {n : CadNo} {s : State} (job : (s.lane k).job = .closing n)
    (o : Option Outcome) :
    enterStamping k o s =
      setLane k ((s.lane k).stamping s.tick none (closingItems (s.cfg n) (s.cad n))) s := by
  unfold enterStamping
  rw [job]

theorem enterStamping_errand {k : LaneNo} {c : Card} {s : State} (job : (s.lane k).job = .errand c)
    (o : Option Outcome) :
    enterStamping k o s = setLane k ((s.lane k).stamping s.tick o errandItems) s := by
  unfold enterStamping
  rw [job]

/-- The entry to STAMPING changes the lane and the service's cadence. -/
theorem enterStamping_frame (k : LaneNo) (o : Option Outcome) (s : State) :
    enterStamping k o s =
      { s with lanes := (enterStamping k o s).lanes, cadences := (enterStamping k o s).cadences } := by
  unfold enterStamping
  split <;> rfl

theorem enterStamping_lane {k : LaneNo} {s : State} (job : (s.lane k).job ≠ .none) (o : Option Outcome) :
    ∃ outcome left, (enterStamping k o s).lane k = (s.lane k).stamping s.tick outcome left := by
  unfold enterStamping
  split
  · contradiction
  · exact ⟨_, _, lane_setLane_same _ _ _⟩
  · exact ⟨_, _, lane_setLane_same _ _ _⟩
  · exact ⟨_, _, lane_setLane_same _ _ _⟩

theorem enterStamping_lane_ne {k j : LaneNo} (ne : k ≠ j) (o : Option Outcome) (s : State) :
    (enterStamping k o s).lane j = s.lane j := by
  unfold enterStamping
  split
  · rfl
  · exact lane_setLane_ne ne _ _
  · exact lane_setLane_ne ne _ _
  · exact lane_setLane_ne ne _ _

theorem settleService_cad_ne {n m : CadNo} (ne : n ≠ m) (consumes late : Bool) (s : State) :
    (settleService n consumes late s).cad m = s.cad m :=
  cad_setCad_ne ne _ _

/-- The entry to STAMPING leaves the cadences that the lane does not serve. -/
theorem enterStamping_cad {k : LaneNo} {n : CadNo} {s : State} (other : (s.lane k).job ≠ .service n)
    (o : Option Outcome) : (enterStamping k o s).cad n = s.cad n := by
  unfold enterStamping
  split
  · rfl
  · rename_i m job
    have ne : m ≠ n := fun same => other (same ▸ job)
    exact settleService_cad_ne ne _ _ s
  · rfl
  · rfl

/-- An entry to STAMPING with an outcome that is not DONE. -/
theorem enterStamping_stamps {k : LaneNo} {o : Outcome} {s : State} (job : (s.lane k).job ≠ .none)
    (notDone : o ≠ .done) : StampsOutcome k o s (enterStamping k (some o) s) := by
  have notLate (b : Bool) : (some o == some .done && b) = false := by simp [notDone]
  cases of : (s.lane k).job with
  | none => exact absurd of job
  | service n =>
    rw [enterStamping_service of, StampsOutcome]
    simp only [stampService, lane_setLane_same, Lane.stamping, notLate, Bool.false_eq_true, if_false, of]
    refine ⟨trivial, trivial, ?_, nofun⟩
    rintro m ⟨⟩
    refine ⟨trivial, ?_, ?_⟩
    · simp only [serviceItems, Option.isSome_some, Option.isNone_some, Bool.false_or, if_true,
        Bool.false_eq_true, if_false, List.append_nil, decide_eq_true_iff]
      rfl
    · simp [settleService, overrunCount, nextInstant]
  | closing n =>
    rw [enterStamping_closing of, StampsOutcome]
    simp only [lane_setLane_same, Lane.stamping, of]
    exact ⟨trivial, trivial, nofun, nofun⟩
  | errand c =>
    rw [enterStamping_errand of, StampsOutcome]
    simp only [lane_setLane_same, Lane.stamping, of]
    exact ⟨trivial, trivial, nofun, fun _ _ => ⟨trivial, rfl⟩⟩

/-- An entry to STAMPING reads the tick count and the lane's cadence. -/
theorem StampsOutcome.of_before {k : LaneNo} {o : Outcome} {s s' t : State} (h : StampsOutcome k o s t)
    (tick : s.tick = s'.tick) (cad : ∀ n, (t.lane k).job = .service n → s.cad n = s'.cad n) :
    StampsOutcome k o s' t := by
  obtain ⟨state, atTick, service, errand⟩ := h
  refine ⟨state, atTick.trans tick, fun n job => ?_, errand⟩
  have stamped := service n job
  rw [State.cfg, cad n job, tick] at stamped
  exact stamped

/-- What comes after an entry to STAMPING and leaves the lane and its cadence. -/
theorem StampsOutcome.of_after {k : LaneNo} {o : Outcome} {s t t' : State} (h : StampsOutcome k o s t)
    (lane : t'.lane k = t.lane k) (cad : ∀ n, (t.lane k).job = .service n → t'.cad n = t.cad n) :
    StampsOutcome k o s t' := by
  obtain ⟨state, tick, service, errand⟩ := h
  refine ⟨lane ▸ state, lane ▸ tick, ?_, lane ▸ errand⟩
  rw [lane]
  intro n job
  obtain ⟨outcome, left, entry⟩ := service n job
  exact ⟨outcome, left, (cad n job).trans entry⟩

/-! ## The withdrawal of a request (R61) -/

/-- A lane with no request waiting withdraws nothing. -/
theorem withdrawTag_of_none {k : LaneNo} {s : State} (absent : (s.lane k).tagRequest = none) :
    withdrawTag k s = setLane k { s.lane k with tagRequest := none } s := by
  have meets : meetGrant k s = s := by
    unfold meetGrant
    rw [absent]
  rw [withdrawTag, meets]
  rfl

theorem withdrawTag_frame {k : LaneNo} {s : State} (rests : (s.lane k).wantsTag = false) :
    withdrawTag k s =
      { s with
        lanes := (withdrawTag k s).lanes
        portA := { s.portA with lastServed := (withdrawTag k s).portA.lastServed }
        portB := { s.portB with lastServed := (withdrawTag k s).portB.lastServed }
        choice := (withdrawTag k s).choice } := by
  obtain ⟨c, gone⟩ | ⟨p, c, gone⟩ := withdrawTag_cases rests
  · rw [gone]
    rfl
  · rw [gone]
    cases p <;> rfl

/-! ## Failures (R66) -/

theorem failed_wantsTag (l : Lane) (o : Outcome) : (l.failed o).wantsTag = false :=
  wantsTag_eq_false.mpr (.inl nofun)

theorem Lane.settled_iff {l : Lane} : l.settled = true ↔ l.outstanding = [] ∧ l.confirmTag = none := by
  simp [Lane.settled]

theorem settleLane_of_settled {k : LaneNo} {o : Outcome} {s : State} (failure : (s.lane k).failure = some o)
    (settled : (s.lane k).settled = true) : settleLane k s = enterStamping k (some o) s := by
  simp only [settleLane, failure, settled, if_true]

theorem settleLane_of_waiting {k : LaneNo} {s : State} (waits : ¬(s.lane k).settled = true) :
    settleLane k s = s := by
  simp only [settleLane, waits]
  split <;> rfl

theorem settleLane_of_none {k : LaneNo} {s : State} (absent : (s.lane k).failure = none) :
    settleLane k s = s := by
  simp only [settleLane, absent]

/-- A lane that settles enters STAMPING, or nothing happens. -/
theorem settleLane_cases (k : LaneNo) (s : State) :
    settleLane k s = s ∨ ∃ o, (s.lane k).failure = some o ∧ settleLane k s = enterStamping k (some o) s := by
  cases failure : (s.lane k).failure with
  | none => exact .inl (settleLane_of_none failure)
  | some o =>
    by_cases settled : (s.lane k).settled = true
    · exact .inr ⟨o, rfl, settleLane_of_settled failure settled⟩
    · exact .inl (settleLane_of_waiting settled)

theorem settleLane_frame (k : LaneNo) (s : State) :
    settleLane k s = { s with lanes := (settleLane k s).lanes, cadences := (settleLane k s).cadences } := by
  rcases settleLane_cases k s with same | ⟨o, -, stamps⟩
  · rw [same]
  · rw [stamps]
    exact enterStamping_frame k (some o) s

theorem settleLane_lane_ne {k j : LaneNo} (ne : k ≠ j) (s : State) :
    (settleLane k s).lane j = s.lane j := by
  rcases settleLane_cases k s with same | ⟨o, -, stamps⟩
  · rw [same]
  · rw [stamps, enterStamping_lane_ne ne]

theorem settleLane_cad {k : LaneNo} {n : CadNo} {s : State} (other : (s.lane k).job ≠ .service n) :
    (settleLane k s).cad n = s.cad n := by
  rcases settleLane_cases k s with same | ⟨o, -, stamps⟩
  · rw [same]
  · rw [stamps, enterStamping_cad other]

/-- What settling and failing leave of a lane's record: all but its state, its stamp and its buffer. -/
structure Lane.Same (l m : Lane) : Prop where
  job : m.job = l.job
  written : m.written = l.written
  held : m.held = l.held
  startByte : m.startByte = l.startByte

theorem Lane.Same.refl (l : Lane) : l.Same l := ⟨rfl, rfl, rfl, rfl⟩

theorem settleLane_lane (k : LaneNo) (s : State) :
    (s.lane k).Same ((settleLane k s).lane k) ∧ ((settleLane k s).lane k).failure = (s.lane k).failure ∧
      ((s.lane k).tagRequest = none → ((settleLane k s).lane k).tagRequest = none) ∧
      (((settleLane k s).lane k).state = .stamping ∨ ((settleLane k s).lane k).state = (s.lane k).state) := by
  have rests : (s.lane k).Same (s.lane k) ∧ (s.lane k).failure = (s.lane k).failure ∧
      ((s.lane k).tagRequest = none → (s.lane k).tagRequest = none) ∧
      ((s.lane k).state = .stamping ∨ (s.lane k).state = (s.lane k).state) :=
    ⟨.refl _, rfl, id, .inr rfl⟩
  rcases settleLane_cases k s with same | ⟨o, -, stamps⟩
  · rw [same]
    exact rests
  · rw [stamps]
    by_cases job : (s.lane k).job = .none
    · rw [enterStamping_none job]
      exact rests
    · obtain ⟨outcome, left, lane⟩ := enterStamping_lane job (some o)
      rw [lane]
      exact ⟨⟨rfl, rfl, rfl, rfl⟩, rfl, fun _ => rfl, .inl rfl⟩

/-- A lane's record while a failure of it waits for its reads (R66). -/
theorem withdrawFailed_lane (k : LaneNo) (o : Outcome) (s : State) :
    (withdrawTag k (setLane k ((s.lane k).failed o) s)).lane k =
      { (s.lane k).failed o with tagRequest := none } := by
  rw [withdrawTag_lane (by rw [lane_setLane_same]; exact failed_wantsTag _ o), lane_setLane_same]

theorem withdrawFailed_lane_ne {k j : LaneNo} (ne : k ≠ j) (o : Outcome) (s : State) :
    (withdrawTag k (setLane k ((s.lane k).failed o) s)).lane j = s.lane j := by
  rw [withdrawTag_lane_ne (by rw [lane_setLane_same]; exact failed_wantsTag _ o) ne, lane_setLane_ne ne]

theorem withdrawFailed_frame (k : LaneNo) (o : Outcome) (s : State) :
    withdrawTag k (setLane k ((s.lane k).failed o) s) =
      { s with
        lanes := (withdrawTag k (setLane k ((s.lane k).failed o) s)).lanes
        portA := { s.portA with
          lastServed := (withdrawTag k (setLane k ((s.lane k).failed o) s)).portA.lastServed }
        portB := { s.portB with
          lastServed := (withdrawTag k (setLane k ((s.lane k).failed o) s)).portB.lastServed }
        choice := (withdrawTag k (setLane k ((s.lane k).failed o) s)).choice } :=
  withdrawTag_frame (s := setLane k ((s.lane k).failed o) s)
    (by rw [lane_setLane_same]; exact failed_wantsTag _ o)

/-- A failing lane that has no request waiting leaves the ports and the choices alone. -/
theorem withdrawFailed_of_none {k : LaneNo} {s : State} (absent : (s.lane k).tagRequest = none) (o : Outcome) :
    withdrawTag k (setLane k ((s.lane k).failed o) s) =
      { s with lanes := (withdrawTag k (setLane k ((s.lane k).failed o) s)).lanes } := by
  rw [withdrawTag_of_none (by rw [lane_setLane_same]; exact absent)]
  rfl

theorem failLane_of_settled {k : LaneNo} {s : State} (reads : (s.lane k).outstanding = [])
    (confirms : (s.lane k).confirmTag = none) (o : Outcome) :
    failLane k o s = enterStamping k (some ((s.lane k).failure.getD o))
      (withdrawTag k (setLane k ((s.lane k).failed o) s)) := by
  have lane := withdrawFailed_lane k o s
  refine settleLane_of_settled ?_ ?_
  · rw [lane]
    rfl
  · rw [lane]
    exact Lane.settled_iff.mpr ⟨reads, confirms⟩

theorem failLane_of_waiting {k : LaneNo} {s : State}
    (waits : (s.lane k).outstanding ≠ [] ∨ (s.lane k).confirmTag ≠ none) (o : Outcome) :
    failLane k o s = withdrawTag k (setLane k ((s.lane k).failed o) s) := by
  refine settleLane_of_waiting ?_
  rw [withdrawFailed_lane, Lane.settled_iff]
  rintro ⟨reads, confirms⟩
  exact waits.elim (· reads) (· confirms)

/-- A failure leaves everything but the lane, its cadence and the choices, and the ports but for a rotation. -/
theorem failLane_frame (k : LaneNo) (o : Outcome) (s : State) :
    failLane k o s =
      { s with
        lanes := (failLane k o s).lanes, cadences := (failLane k o s).cadences
        portA := { s.portA with lastServed := (failLane k o s).portA.lastServed }
        portB := { s.portB with lastServed := (failLane k o s).portB.lastServed }
        choice := (failLane k o s).choice } := by
  have settles := settleLane_frame k (withdrawTag k (setLane k ((s.lane k).failed o) s))
  have withdraws := withdrawFailed_frame k o s
  unfold failLane
  rw [settles, withdraws]

/-- The ports and the choices after a failure are those after the withdrawal. -/
theorem failLane_ports (k : LaneNo) (o : Outcome) (s : State) :
    (failLane k o s).portA = (withdrawTag k (setLane k ((s.lane k).failed o) s)).portA ∧
      (failLane k o s).portB = (withdrawTag k (setLane k ((s.lane k).failed o) s)).portB ∧
      (failLane k o s).choice = (withdrawTag k (setLane k ((s.lane k).failed o) s)).choice := by
  have settles := settleLane_frame k (withdrawTag k (setLane k ((s.lane k).failed o) s))
  unfold failLane
  rw [settles]
  exact ⟨rfl, rfl, rfl⟩

theorem failLane_ports_of_none {k : LaneNo} {s : State} (absent : (s.lane k).tagRequest = none) (o : Outcome) :
    (failLane k o s).portA = s.portA ∧ (failLane k o s).portB = s.portB := by
  obtain ⟨portA, portB, -⟩ := failLane_ports k o s
  rw [withdrawFailed_of_none absent] at portA portB
  exact ⟨portA, portB⟩

theorem failLane_lane_ne {k j : LaneNo} (ne : k ≠ j) (o : Outcome) (s : State) :
    (failLane k o s).lane j = s.lane j := by
  unfold failLane
  rw [settleLane_lane_ne ne, withdrawFailed_lane_ne ne]

theorem failLane_lane (k : LaneNo) (o : Outcome) (s : State) :
    (s.lane k).Same ((failLane k o s).lane k) ∧
      ((failLane k o s).lane k).failure = some ((s.lane k).failure.getD o) ∧
      ((failLane k o s).lane k).tagRequest = none ∧
      (((failLane k o s).lane k).state = .stamping ∨
        ((failLane k o s).lane k).state = (s.lane k).state) := by
  have settles := settleLane_lane k (withdrawTag k (setLane k ((s.lane k).failed o) s))
  rw [withdrawFailed_lane] at settles
  obtain ⟨⟨job, written, held, startByte⟩, failure, request, state⟩ := settles
  exact ⟨⟨job, written, held, startByte⟩, failure, request rfl, state⟩

theorem failLane_cad {k : LaneNo} {n : CadNo} {s : State} (other : (s.lane k).job ≠ .service n)
    (o : Outcome) : (failLane k o s).cad n = s.cad n := by
  unfold failLane
  rw [settleLane_cad (by rw [withdrawFailed_lane]; exact other), withdrawFailed_frame]
  rfl

/-- A lane with no read out that fails enters STAMPING with its first failure (R66). -/
theorem failLane_stamps {k : LaneNo} {s : State} (job : (s.lane k).job ≠ .none)
    (reads : (s.lane k).outstanding = []) (confirms : (s.lane k).confirmTag = none) {o : Outcome}
    (notDone : (s.lane k).failure.getD o ≠ .done) :
    StampsOutcome k ((s.lane k).failure.getD o) s (failLane k o s) := by
  rw [failLane_of_settled reads confirms]
  refine (enterStamping_stamps (by rw [withdrawFailed_lane]; exact job) notDone).of_before ?_ ?_
  · rw [withdrawFailed_frame]
  · intro n _
    rw [withdrawFailed_frame]
    rfl

/-! ## Asking for a tag (R117, R130) -/

theorem askTag_of_open {p : Domain} {s : State} (answers : p = .a ∨ s.linkUp = true) (k : LaneNo) :
    askTag k p s = arbitrate p (setLane k { s.lane k with tagRequest := some p } s) := by
  refine if_neg ?_
  rintro ⟨rfl, down⟩
  rcases answers with same | up
  · cases same
  · exact absurd (up.symm.trans down) (by decide)

theorem askTag_of_down {s : State} (down : s.linkUp = false) (k : LaneNo) :
    askTag k .b s = failLane k .peerLost s :=
  if_pos ⟨rfl, down⟩

theorem wantsRead_iff (l : Lane) :
    l.wantsRead = true ↔ l.state = .moving ∧
      ((∃ n, l.job = .service n) ∨ ∃ c, l.job = .errand c ∧ c.kind = some .copy) ∧
      l.readPoint < l.length ∧ l.buffer.length < 8 ∧ l.tagRequest = none ∧ l.failure = none ∧
      l.parkRequest = false := by
  have size (n : Nat) : decide (n < Config.bufferSize) = true ↔ n < 8 := decide_eq_true_iff
  have parts (moves : Bool) :
      (l.state == .moving && moves && decide (l.readPoint < l.length) && decide (l.buffer.length < Config.bufferSize) &&
          l.tagRequest.isNone && l.failure.isNone && !l.parkRequest) = true ↔
        l.state = .moving ∧ moves = true ∧ l.readPoint < l.length ∧ l.buffer.length < 8 ∧ l.tagRequest = none ∧
          l.failure = none ∧ l.parkRequest = false := by
    simp only [Bool.and_eq_true, beq_iff_eq, size, decide_eq_true_iff, Option.isNone_iff_eq_none, Bool.not_eq_true',
      and_assoc]
  refine (parts _).trans (and_congr_right fun _ => and_congr ?_ Iff.rfl)
  cases l.job with
  | none => exact iff_of_false nofun nofun
  | service n => exact iff_of_true rfl (.inl ⟨n, rfl⟩)
  | closing n => exact iff_of_false nofun nofun
  | errand c =>
    rw [beq_iff_eq]
    refine ⟨fun copy => .inr ⟨c, rfl, copy⟩, ?_⟩
    rintro (⟨n, service⟩ | ⟨d, same, copy⟩)
    · cases service
    · cases same
      exact copy

end Sys2Proof.Machine
end

section
/-! The arbiter (O21), the failures of a data read (O26), and the jobs' ways to STAMPING (O27, O28). -/

namespace Sys2Proof.Machine

/-! ## The arbiter (O21) -/

theorem askTag_down_lane {s : State} (down : s.linkUp = false) (k : LaneNo) (job : (s.lane k).job ≠ .none)
    (well : (s.lane k).failure = none) :
    ((askTag k .b s).lane k).failure = some .peerLost ∧
      ((askTag k .b s).lane k).written = (s.lane k).written ∧
      ((askTag k .b s).lane k).tagRequest = none ∧
      ((s.lane k).tagRequest = none →
        (askTag k .b s).portA = s.portA ∧ (askTag k .b s).portB = s.portB) ∧
      ((s.lane k).outstanding = [] → (s.lane k).confirmTag = none →
        StampsOutcome k .peerLost s (askTag k .b s)) ∧
      ((s.lane k).outstanding ≠ [] ∨ (s.lane k).confirmTag ≠ none →
        ((askTag k .b s).lane k).state = (s.lane k).state) := by
  rw [askTag_of_down down]
  obtain ⟨same, failure, request, -⟩ := failLane_lane k .peerLost s
  rw [well] at failure
  refine ⟨failure, same.written, request, fun absent => failLane_ports_of_none absent _, ?_, ?_⟩
  · intro reads confirms
    have stamps := failLane_stamps (o := .peerLost) job reads confirms (by rw [well]; decide)
    rwa [well] at stamps
  · intro waits
    rw [failLane_of_waiting waits, withdrawFailed_lane]
    rfl

/-- What a withdrawal does where the port's next grant goes to the lane (R61): the digit of `choice` decides
whether the request goes, or the lane becomes the last one served with it. -/
theorem withdrawTag_of_served {p : Domain} {k : LaneNo} {s : State} (rests : (s.lane k).wantsTag = false)
    (served : servedLane p s = some k) (waits : (s.lane k).tagRequest = some p) (x : Nat) :
    (x % 2 = 0 → ∃ c, withdrawTag k { s with choice := x } =
      setLane k { s.lane k with tagRequest := none } { s with choice := c }) ∧
    (x % 2 = 1 → ∃ c, withdrawTag k { s with choice := x } =
      setLane k { s.lane k with tagRequest := none }
        (setPort p { s.port p with lastServed := k } { s with choice := c })) := by
  have served' : servedLane p { s with choice := x } = some k := by
    rw [servedLane_eq_some] at served ⊢
    exact served
  have meets : meetGrant k { s with choice := x } =
      if x % 2 = 1 then (arbitrateOnce p { s with choice := x / 2 }).getD { s with choice := x / 2 }
      else { s with choice := x / 2 } := by
    unfold meetGrant
    have request : (({ s with choice := x } : State).lane k).tagRequest = some p := waits
    rw [request]
    exact if_pos served'
  constructor
  · intro even
    refine ⟨x / 2, ?_⟩
    rw [withdrawTag, meets, if_neg (by omega)]
    rfl
  · intro odd
    obtain ⟨t, c, -, -, acts⟩ := servedLane_grants served (x / 2)
    refine ⟨c, ?_⟩
    rw [withdrawTag, meets, if_pos odd, acts, Option.getD_some,
      grantLane_unwanted (s := { s with choice := c }) rests, returnTag, lane_setLane_same, setLane_setLane]
    cases p <;> rfl

theorem withdrawTag_of_unserved {p : Domain} {k : LaneNo} {s : State}
    (waits : (s.lane k).tagRequest = some p) (unserved : servedLane p s ≠ some k) :
    withdrawTag k s = setLane k { s.lane k with tagRequest := none } s := by
  have meets : meetGrant k s = s := by
    unfold meetGrant
    rw [waits]
    exact if_neg unserved
  rw [withdrawTag, meets]
  rfl

/-- The whole of R61's withdrawal at a port where the lane's request waits. -/
theorem withdrawTag_of_waiting {p : Domain} {k : LaneNo} {s : State} (rests : (s.lane k).wantsTag = false)
    (waits : (s.lane k).tagRequest = some p) :
    let gone (x : State) : State := setLane k { s.lane k with tagRequest := none } x
    let granted (c : Nat) : State :=
      gone (setPort p { s.port p with lastServed := k } { s with choice := c })
    (servedLane p s ≠ some k → withdrawTag k s = gone s) ∧
    (servedLane p s = some k →
      (∃ c, withdrawTag k s = gone { s with choice := c } ∨ withdrawTag k s = granted c) ∧
      (∃ x c, withdrawTag k { s with choice := x } = gone { s with choice := c }) ∧
      ∃ x c, withdrawTag k { s with choice := x } = granted c) := by
  refine ⟨withdrawTag_of_unserved waits, fun served => ?_⟩
  have digit := withdrawTag_of_served rests served waits
  refine ⟨?_, ⟨0, (digit 0).1 rfl⟩, ⟨1, (digit 1).2 rfl⟩⟩
  rcases Nat.mod_two_eq_zero_or_one s.choice with even | odd
  · obtain ⟨c, gone⟩ := (digit s.choice).1 even
    exact ⟨c, .inl gone⟩
  · obtain ⟨c, granted⟩ := (digit s.choice).2 odd
    exact ⟨c, .inr granted⟩

theorem arbitrateOnce_of_no_free {p : Domain} {s : State} (taken : ∀ t, s.tag p t ≠ .free) :
    arbitrateOnce p s = none := by
  unfold arbitrateOnce
  rw [pickTag_none p s taken]

/-- A grant to a lane whatever it wants (R61, R118): one tag changes, with a read of the lane on it only where
the lane wants it. -/
theorem grantLane_spec (p : Domain) (k : LaneNo) (t : TagNo) (s : State) :
    (∀ other, other ≠ t → (grantLane p k t s).tag p other = s.tag p other) ∧
      ((grantLane p k t s).port p).lastServed = k ∧
      ((s.lane k).wantsTag = true →
        ∃ read, (grantLane p k t s).tag p t = .busy read (s.port p).period ∧ read.requester = .lane k) := by
  cases wants : (s.lane k).wantsTag with
  | true =>
    obtain ⟨served, read, requester, tags⟩ := grantLane_wanted p k t s wants
    refine ⟨fun other ne => ?_, served, fun _ => ⟨read, ?_, requester⟩⟩
    · rw [tags, if_neg ne.symm]
    · rw [tags, if_pos rfl]
  | false =>
    rw [grantLane_unwanted wants]
    refine ⟨fun other _ => ?_, ?_, nofun⟩ <;> cases p <;> rfl

/-- Settles O21, part by part of the arbiter: the control requester's grant, the lane's, the withdrawal, the
limits, the repetition, and the two ways to ask. -/
theorem arbiter : Obligations.Arbiter := by
  refine ⟨?control, ?lane, ?withdrawal, ?limits, ?repeats, fun _ _ _ _ => rfl, ?asks, ?source⟩
  case control =>
    intro s r rest queue free
    obtain ⟨t, c, isFree, acts⟩ := arbitrateOnce_control queue free
    have tags := tag_issueRead .a .a t (s := { s with controlQueue := rest, choice := c })
    refine ⟨t, _, isFree, acts, rfl, ?_, ?_, .arbitrateOnce _ _ acts, rfl, rfl⟩
    · rw [grantControl, tags, if_pos ⟨rfl, rfl⟩]
      rfl
    · intro other ne
      rw [grantControl, tags, if_neg fun same => ne same.2.symm]
      rfl
  case lane =>
    intro s p k portA portB free waits first
    obtain ⟨t, c, picked, isFree⟩ := pickTag_some p s free
    have acts := arbitrateOnce_lane picked (fun a => (portA a).1)
      (dataAllowed_iff.mpr ⟨fun a => (portA a).2, portB⟩) (nextLane_eq_some.mpr ⟨waits, first⟩)
    obtain ⟨others, served, reads⟩ := grantLane_spec p k t { s with choice := c }
    refine ⟨t, _, isFree, acts, others, served, fun wants => ?_, fun unwanted => ?_⟩
    · obtain ⟨read, busy, requester⟩ := reads ((wantsTag_iff _).mpr wants)
      exact ⟨read, by rw [busy]; cases p <;> rfl, requester⟩
    · rw [grantLane_unwanted (s := { s with choice := c })
        (Bool.eq_false_iff.mpr (mt (wantsTag_iff _).mp unwanted))]
      cases p <;> rfl
  case withdrawal =>
    intro s k l gone rests
    have unwanted := wantsTag_eq_false.mpr rests
    refine ⟨withdrawTag_of_none, fun p waits => ?_⟩
    have served := servedLane_eq_some (p := p) (s := s) (k := k)
    rw [waits] at served
    simp only [true_and] at served
    obtain ⟨unserved, meets⟩ := withdrawTag_of_waiting unwanted waits
    exact ⟨fun other => unserved (mt served.mp other), fun next => meets (served.mpr next)⟩
  case limits =>
    intro s
    refine ⟨fun queue full => arbitrate_of_none ?_, fun down => arbitrate_of_none ?_,
      fun p taken => arbitrate_of_none (arbitrateOnce_of_no_free taken)⟩
    · refine arbitrateOnce_none (fun _ => queue) (.inr (Bool.eq_false_iff.mpr fun allowed => ?_))
      exact absurd ((dataAllowed_iff.mp allowed).1 rfl) (by omega)
    · refine arbitrateOnce_none nofun (.inr (Bool.eq_false_iff.mpr fun allowed => ?_))
      exact absurd ((dataAllowed_iff.mp allowed).2 rfl) (by rw [down]; decide)
  case repeats =>
    exact fun p s => ⟨fun u => arbitrate_of_some, arbitrate_of_none, arbitrate_stops p s⟩
  case asks =>
    intro s p k
    refine ⟨fun answers => askTag_of_open answers k, ?_⟩
    rintro rfl down job well
    exact askTag_down_lane down k job well
  case source =>
    intro s k l wants
    refine ⟨fun does => if_pos ((wantsRead_iff l).mpr does), fun not => if_neg (mt (wantsRead_iff l).mp not)⟩

/-! ## The answers to a lane's data reads (O26) -/

theorem dispatchIfIdle_of_busy {k : LaneNo} {s : State} (busy : (s.lane k).state ≠ .idle) :
    dispatchIfIdle k s = s :=
  if_neg busy

theorem readAnswered_segment {k : LaneNo} {n : Nat} {r : ReadInfo} (requester : r.requester = .lane k)
    (role : r.role = .segment n) (t : TagNo) (a : ReadAnswer) (s : State) :
    readAnswered t r a s = dispatchIfIdle k (segmentAnswered k n t a s) := by
  unfold readAnswered
  rw [role, requester]

theorem readAnswered_confirming {k : LaneNo} {r : ReadInfo} (requester : r.requester = .lane k)
    (role : r.role = .confirming) (t : TagNo) (a : ReadAnswer) (s : State) :
    readAnswered t r a s = dispatchIfIdle k (confirmAnswered k a s) := by
  unfold readAnswered
  rw [role, requester]

theorem readAnswered_control {r : ReadInfo} (role : r.role = .control) (t : TagNo) (bytes : List Byte)
    (s : State) : readAnswered t r (.data bytes) s = controlRead r.requester bytes s := by
  unfold readAnswered
  rw [role]

/-- No read of the lane is left but the one of a tag. -/
theorem dropRead_outstanding {l : Lane} {t : TagNo} :
    (l.dropRead t).outstanding = [] ↔ ∀ x ∈ l.outstanding, x.tag = t := by
  simp [Lane.dropRead]

/-- The record of a lane whose read of segment `n` has not brought its data. -/
def Lane.loseSegment (l : Lane) (n : Nat) (t : TagNo) : Lane :=
  { l.dropRead t with buffer := l.buffer.filter (fun b => b.segment != n) }

/-- The first failure of a data read: the failure is recorded, and the read is settled. -/
theorem segmentAnswered_failed {k : LaneNo} {s : State} (well : (s.lane k).failure = none) {a : ReadAnswer}
    {o : Outcome} (fails : a = .error ∧ o = .readError ∨ a = .timeout ∧ o = .readTimeout) (n : Nat)
    (t : TagNo) :
    segmentAnswered k n t a s = failLane k o (setLane k ((s.lane k).loseSegment n t) s) := by
  have first : ¬((s.lane k).dropRead t).failure.isSome = true := by
    change ¬(s.lane k).failure.isSome = true
    rw [well]
    decide
  obtain ⟨rfl, rfl⟩ | ⟨rfl, rfl⟩ := fails
  · exact if_neg first
  · exact if_neg first

/-- After the first failure an answer settles its read (R66, R67). -/
theorem segmentAnswered_later {k : LaneNo} {o : Outcome} {s : State} (failure : (s.lane k).failure = some o)
    (n : Nat) (t : TagNo) (a : ReadAnswer) :
    segmentAnswered k n t a s = settleLane k (setLane k ((s.lane k).loseSegment n t) s) := by
  refine if_pos ?_
  change (s.lane k).failure.isSome = true
  rw [failure]
  rfl

theorem confirmAnswered_failed {k : LaneNo} {s : State} (well : (s.lane k).failure = none) {a : ReadAnswer}
    (fails : a = .error ∨ a = .timeout) :
    confirmAnswered k a s =
      failLane k .writeError (setLane k { s.lane k with confirmTag := none } s) := by
  have first : ¬(s.lane k).failure.isSome = true := by rw [well]; decide
  obtain rfl | rfl := fails
  · exact if_neg first
  · exact if_neg first

theorem confirmAnswered_later {k : LaneNo} {o : Outcome} {s : State} (failure : (s.lane k).failure = some o)
    (a : ReadAnswer) :
    confirmAnswered k a s = settleLane k (setLane k { s.lane k with confirmTag := none } s) := by
  refine if_pos ?_
  change (s.lane k).failure.isSome = true
  rw [failure]
  rfl

theorem settleLane_ports (k : LaneNo) (s : State) :
    (settleLane k s).portA = s.portA ∧ (settleLane k s).portB = s.portB := by
  rw [settleLane_frame]
  exact ⟨rfl, rfl⟩

/-- A lane with its failure recorded and no read out enters STAMPING with it (R66); with one out it waits. -/
theorem settleLane_spec {k : LaneNo} {o : Outcome} {l : Lane} {s : State} (job : l.job ≠ .none)
    (failure : l.failure = some o) (notDone : o ≠ .done) :
    let t := settleLane k (setLane k l s)
    (t.lane k).failure = some o ∧ (t.lane k).written = l.written ∧ t.portA = s.portA ∧ t.portB = s.portB ∧
      ((t.lane k).state = .stamping ∨ (t.lane k).state = l.state) ∧
      (l.outstanding = [] → l.confirmTag = none → StampsOutcome k o s t) ∧
      (l.outstanding ≠ [] ∨ l.confirmTag ≠ none → (t.lane k).state = l.state) := by
  intro t
  obtain ⟨portA, portB⟩ := settleLane_ports k (setLane k l s)
  obtain ⟨same, fails, -, state⟩ := settleLane_lane k (setLane k l s)
  rw [lane_setLane_same] at same fails state
  refine ⟨fails.trans failure, same.written, portA, portB, state, ?_, ?_⟩
  · intro reads confirms
    change StampsOutcome k o s (settleLane k (setLane k l s))
    rw [settleLane_of_settled (by rw [lane_setLane_same]; exact failure)
      (by rw [lane_setLane_same]; exact Lane.settled_iff.mpr ⟨reads, confirms⟩)]
    exact (enterStamping_stamps (by rw [lane_setLane_same]; exact job) notDone).of_before rfl fun _ _ => rfl
  · intro waits
    change ((settleLane k (setLane k l s)).lane k).state = l.state
    rw [settleLane_of_waiting, lane_setLane_same]
    rw [lane_setLane_same, Lane.settled_iff]
    rintro ⟨reads, confirms⟩
    exact waits.elim (· reads) (· confirms)

theorem not_idle_of_moving {x y : LaneState} (is : x = .stamping ∨ x = y)
    (moves : y = .moving ∨ y = .confirming ∨ y = .parking) : x ≠ .idle := by
  rcases is with rfl | rfl
  · decide
  · rcases moves with rfl | rfl | rfl <;> decide

/-- A failure leaves a port but for its rotation. -/
theorem failLane_rotation (k : LaneNo) (o : Outcome) (s : State) :
    (failLane k o s).portA = { s.portA with lastServed := (failLane k o s).portA.lastServed } ∧
      (failLane k o s).portB = { s.portB with lastServed := (failLane k o s).portB.lastServed } := by
  rw [failLane_frame]
  exact ⟨rfl, rfl⟩

/-- A lane that fails for the first time, its record as `l` stands when the failure comes. -/
theorem failLane_spec {k : LaneNo} {o : Outcome} {l : Lane} {s : State} (job : l.job ≠ .none)
    (well : l.failure = none) (notDone : o ≠ .done) :
    let t := failLane k o (setLane k l s)
    let w := withdrawTag k (setLane k (l.failed o) s)
    (t.lane k).failure = some o ∧ (t.lane k).written = l.written ∧ (t.lane k).held = l.held ∧
      (t.lane k).tagRequest = none ∧ t.portA = w.portA ∧ t.portB = w.portB ∧ t.choice = w.choice ∧
      t.portA = { s.portA with lastServed := t.portA.lastServed } ∧
      t.portB = { s.portB with lastServed := t.portB.lastServed } ∧
      ((t.lane k).state = .stamping ∨ (t.lane k).state = l.state) ∧
      (l.outstanding = [] → l.confirmTag = none → StampsOutcome k o s t) ∧
      (l.outstanding ≠ [] ∨ l.confirmTag ≠ none → t = w ∧ (t.lane k).state = l.state) := by
  intro t w
  have merged : setLane k (((setLane k l s).lane k).failed o) (setLane k l s) = setLane k (l.failed o) s := by
    rw [lane_setLane_same, setLane_setLane]
  obtain ⟨same, failure, request, state⟩ := failLane_lane k o (setLane k l s)
  obtain ⟨portA, portB, choice⟩ := failLane_ports k o (setLane k l s)
  obtain ⟨rotationA, rotationB⟩ := failLane_rotation k o (setLane k l s)
  rw [merged] at portA portB choice
  rw [lane_setLane_same] at same failure state
  rw [well] at failure
  refine ⟨failure, same.written, same.held, request, portA, portB, choice, rotationA, rotationB,
    state, ?_, ?_⟩
  · intro reads confirms
    have stamps := failLane_stamps (k := k) (s := setLane k l s) (o := o)
    rw [lane_setLane_same, well] at stamps
    exact (stamps job reads confirms notDone).of_before rfl fun _ _ => rfl
  · intro waits
    have stays := failLane_of_waiting (k := k) (s := setLane k l s) (by rw [lane_setLane_same]; exact waits) o
    refine ⟨stays.trans (congrArg (withdrawTag k) merged), ?_⟩
    change ((failLane k o (setLane k l s)).lane k).state = l.state
    rw [stays, withdrawFailed_lane, lane_setLane_same]
    rfl

/-- Settles O26: the first failure of a data read, the answers after it, and the confirming read's. -/
theorem readFailures : Obligations.ReadFailures := by
  refine ⟨?first, ?later, ?confirming⟩
  case first =>
    intro s k n tag r a o fails requester role l state job well failed w t
    have notDone : o ≠ .done := by
      rcases fails with ⟨-, rfl⟩ | ⟨-, rfl⟩ <;> decide
    have record : (l.loseSegment n tag).failed o = failed := by
      simp only [failed, Lane.failed, Lane.loseSegment, Lane.dropRead, well, l, Option.getD_none]
    have spec := failLane_spec (k := k) (s := s) (l := l.loseSegment n tag) job well notDone
    rw [record] at spec
    obtain ⟨failure, written, held, request, portA, portB, choice, rotationA, rotationB, after, stamps, waits⟩ :=
      spec
    have answered : t = failLane k o (setLane k (l.loseSegment n tag) s) := by
      rw [← dispatchIfIdle_of_busy (not_idle_of_moving after (state.imp_right .inr)),
        ← segmentAnswered_failed well fails, ← readAnswered_segment requester role]
    rw [answered]
    refine ⟨failure, written, held, request, portA, portB, choice, rotationA, rotationB, ?_, ?_⟩
    · exact fun confirms last => stamps (dropRead_outstanding.mpr last) confirms
    · rintro (confirms | ⟨x, out, other⟩)
      · exact waits (.inr confirms)
      · exact waits (.inl fun none => other (dropRead_outstanding.mp none x out))
  case later =>
    intro s k n tag r a o requester l state job failure notDone t
    refine ⟨fun role => ?_, fun role => ?_⟩
    · obtain ⟨failed, written, portA, portB, after, stamps, waits⟩ :=
        settleLane_spec (k := k) (s := s) (l := l.loseSegment n tag) job failure notDone
      have answered : t = settleLane k (setLane k (l.loseSegment n tag) s) := by
        rw [← dispatchIfIdle_of_busy (not_idle_of_moving after state),
          ← segmentAnswered_later failure n tag a, ← readAnswered_segment requester role]
      rw [answered]
      refine ⟨failed, written, portA, portB, ?_, ?_⟩
      · exact fun confirms last => stamps (dropRead_outstanding.mpr last) confirms
      · rintro (confirms | ⟨x, out, other⟩)
        · exact waits (.inr confirms)
        · exact waits (.inl fun none => other (dropRead_outstanding.mp none x out))
    · obtain ⟨failed, written, portA, portB, after, stamps, waits⟩ :=
        settleLane_spec (k := k) (s := s) (l := { l with confirmTag := none }) job failure notDone
      have answered : t = settleLane k (setLane k { l with confirmTag := none } s) := by
        rw [← dispatchIfIdle_of_busy (not_idle_of_moving after state),
          ← confirmAnswered_later failure a, ← readAnswered_confirming requester role tag]
      rw [answered]
      exact ⟨failed, written, portA, portB, fun none => stamps none rfl, fun out => waits (.inl out)⟩
  case confirming =>
    intro s k tag r a fails requester role l state job well reads t
    obtain ⟨failure, written, -, -, -, -, -, -, -, after, stamps, -⟩ :=
      failLane_spec (k := k) (s := s) (o := .writeError) (l := { l with confirmTag := none }) job well (by decide)
    have answered : t = failLane k .writeError (setLane k { l with confirmTag := none } s) := by
      rw [← dispatchIfIdle_of_busy (not_idle_of_moving after (.inr state)),
        ← confirmAnswered_failed well fails, ← readAnswered_confirming requester role tag]
    rw [answered]
    refine ⟨stamps reads rfl, failure, written, fun absent => ?_⟩
    exact failLane_ports_of_none (s := setLane k { l with confirmTag := none } s)
      (by rw [lane_setLane_same]; exact absent) _

/-! ## A confirming read that completes (O27) -/

theorem confirmAnswered_done {k : LaneNo} {s : State} (well : (s.lane k).failure = none)
    (confirming : (s.lane k).state = .confirming) (bytes : List Byte) :
    confirmAnswered k (.data bytes) s =
      enterStamping k (some .done) (setLane k { s.lane k with confirmTag := none } s) := by
  have first : ¬(s.lane k).failure.isSome = true := by rw [well]; decide
  have runs : ¬(s.lane k).state = .parking := by rw [confirming]; decide
  exact (if_neg first).trans (if_neg runs)

/-- A completed lane is in STAMPING: its end is no event at the Dispatcher. -/
theorem readAnswered_done {k : LaneNo} {r : ReadInfo} {s : State} (requester : r.requester = .lane k)
    (role : r.role = .confirming) (job : (s.lane k).job ≠ .none) (well : (s.lane k).failure = none)
    (confirming : (s.lane k).state = .confirming) (t : TagNo) (bytes : List Byte) :
    readAnswered t r (.data bytes) s =
      enterStamping k (some .done) (setLane k { s.lane k with confirmTag := none } s) := by
  rw [readAnswered_confirming requester role, confirmAnswered_done well confirming]
  refine dispatchIfIdle_of_busy ?_
  obtain ⟨outcome, left, lane⟩ :=
    enterStamping_lane (s := setLane k { s.lane k with confirmTag := none } s) (k := k)
      (by rw [lane_setLane_same]; exact job) (some .done)
  rw [lane]
  exact nofun

theorem isLate_eq (s : State) (n : CadNo) :
    isLate (s.cad n) (s.cfg n).deadline s.tick =
      decide ((s.cad n).currentDue + (s.cfg n).deadline < s.tick) := rfl

/-- A service that has completed (R18, R20, R24). -/
theorem stampService_done (k : LaneNo) (n : CadNo) (s : State) :
    let e := s.cad n
    let c := s.cfg n
    let late := e.currentDue + c.deadline < s.tick
    let overrun :=
      if e.state = .armed ∧ e.resumeMark = false then (s.tick - e.currentDue) / c.period else 0
    (stampService k n (some .done) s).lane k = (s.lane k).stamping s.tick (some (if late then .late else .done))
      ([.slotOutcome, .slotMoved, .slotDue, .slotDone, .tally] ++
        (if 0 < overrun then [.misses] else []) ++ (if late then [.lates] else [])) ∧
    (stampService k n (some .done) s).cad n = { e with
      misses := e.misses + BitVec.ofNat 32 overrun
      lates := if late then e.lates + 1 else e.lates
      tally := e.tally + 1
      nextDue := if e.state = .armed then firstGridAfter c.period c.phase s.tick else e.nextDue
      resumeMark := false } := by
  intro e c late overrun
  have isDone : (some Outcome.done == some .done) = true := rfl
  simp only [stampService, lane_setLane_same, cad_setLane, settleService, cad_setCad_same, isLate_eq, isDone,
    Bool.true_and, decide_eq_true_iff, serviceItems, Option.isSome_some, Option.isNone_some, Bool.false_or, if_true]
  refine ⟨?_, rfl⟩
  by_cases h : late
  · rw [if_pos h, if_pos h, if_pos h]
    rfl
  · rw [if_neg h, if_neg h, if_neg h]
    rfl

/-- Settles O27: a service is DONE or LATE, with its grid settled; an errand is DONE. -/
theorem serviceCompletes : Obligations.ServiceCompletes := by
  constructor
  · intro s k n tag r bytes requester role confirming job well e c late overrun t
    have answered : t = stampService k n (some .done) (setLane k { s.lane k with confirmTag := none } s) := by
      rw [← enterStamping_service (by rw [lane_setLane_same]; exact job)]
      exact readAnswered_done requester role (by rw [job]; exact nofun) well confirming tag bytes
    obtain ⟨lane, cad⟩ := stampService_done k n (setLane k { s.lane k with confirmTag := none } s)
    rw [lane_setLane_same] at lane
    rw [answered]
    refine ⟨rfl, ?_, ?_, ?_, ?_, cad, ?_, ?_⟩
    · rw [lane]; rfl
    · rw [lane]; rfl
    · rw [lane]; rfl
    · rw [lane]; rfl
    · exact fun m ne => settleService_cad_ne (Ne.symm ne) _ _ _
    · intro j ne
      exact (lane_setLane_ne (Ne.symm ne) _ _).trans (lane_setLane_ne (Ne.symm ne) _ _)
  · intro s k c tag r bytes requester role confirming job well l
    rw [readAnswered_done requester role (by rw [job]; exact nofun) well confirming,
      enterStamping_errand (c := c) (by rw [lane_setLane_same]; exact job), lane_setLane_same, setLane_setLane]
    rfl

/-! ## FILL (O28) -/

theorem enterConfirming_of_open {k : LaneNo} {s : State}
    (answers : (s.lane k).dstPort = .a ∨ s.linkUp = true) :
    enterConfirming k s = arbitrate (s.lane k).dstPort
      (setLane k { s.lane k with state := .confirming, tagRequest := some (s.lane k).dstPort } s) := by
  have asks := askTag_of_open (s := setLane k { s.lane k with state := .confirming } s) answers k
  rwa [lane_setLane_same, setLane_setLane] at asks

/-- While the link is DOWN, the entry to CONFIRMING of a lane that writes to Port B is answered PEER_LOST. -/
theorem enterConfirming_of_down {k : LaneNo} {s : State} (port : (s.lane k).dstPort = .b)
    (down : s.linkUp = false) (job : (s.lane k).job ≠ .none) (well : (s.lane k).failure = none)
    (reads : (s.lane k).outstanding = []) (confirms : (s.lane k).confirmTag = none) :
    StampsOutcome k .peerLost s (enterConfirming k s) ∧
      ((enterConfirming k s).lane k).failure = some .peerLost ∧
      ((enterConfirming k s).lane k).written = (s.lane k).written := by
  have fails : enterConfirming k s =
      failLane k .peerLost (setLane k { s.lane k with state := .confirming } s) := by
    rw [enterConfirming, port]
    exact askTag_of_down (s := setLane k { s.lane k with state := .confirming } s) down k
  obtain ⟨failure, written, -, -, -, -, -, -, -, -, stamps, -⟩ :=
    failLane_spec (k := k) (s := s) (o := .peerLost) (l := { s.lane k with state := .confirming }) job well
      (by decide)
  rw [fails]
  exact ⟨stamps reads confirms, failure, written⟩

/-- The condition of FILL_SEGMENT_WRITE (R64). -/
theorem fills_iff (l : Lane) (c : Card) :
    l.fills c = true ↔ l.state = .moving ∧ c.kind = some .fill ∧ l.readPoint < l.length ∧
      l.failure = none ∧ l.parkRequest = false := by
  simp [Lane.fills, and_assoc]

theorem execFillSegmentWrite_of_errand {k : LaneNo} {c : Card} {s : State} (job : (s.lane k).job = .errand c) :
    exec (.fillSegmentWrite k) s =
      if (s.lane k).fills c = true then .next (fillSegment k c.pattern s) else .next s := by
  change execFillSegmentWrite k s = _
  rw [execFillSegmentWrite, job]

/-- Settles O28: the segment of a FILL, and the entry to CONFIRMING with the link UP and DOWN. -/
theorem fillSegmentWrite : Obligations.FillSegmentWrite := by
  constructor
  · intro s k c job l n len t fills
    rw [execFillSegmentWrite_of_errand job]
    refine ⟨fun may more => ?_, fun may last => ?_, fun not => ?_⟩
    · rw [if_pos ((fills_iff l c).mpr may)]
      exact congrArg Host.Outcome.next (if_pos more)
    · rw [if_pos ((fills_iff l c).mpr may)]
      exact congrArg Host.Outcome.next (if_neg (Nat.not_lt.mpr last))
    · exact if_neg (mt (fills_iff l c).mp not)
  · intro s k l
    exact ⟨enterConfirming_of_open, enterConfirming_of_down⟩

end Sys2Proof.Machine
end

section
/-! Parking (O29), the segments of a copy (O25) and the link-down (O16). -/

namespace Sys2Proof.Machine

/-! ## The windows that a job gives back -/

theorem releaseWindows_win_of_notMem {n : WinNo} {held : List WinNo} (free : n ∉ held) (s : State) :
    (releaseWindows held s).win n = s.win n := by
  induction held generalizing s with
  | nil => rfl
  | cons m rest ih =>
    rw [List.mem_cons, not_or] at free
    obtain ⟨ne, free⟩ := free
    rw [releaseWindows, ih free, releaseWindow_win, if_neg (Ne.symm ne)]

/-- The releases of an OPEN window lower its use count, one for each hold. -/
theorem releaseWindows_win_of_open {n : WinNo} {s : State} (held : List WinNo)
    (isOpen : (s.win n).state = .opened) :
    (releaseWindows held s).win n =
      { s.win n with useCount := (s.win n).useCount - held.count n } := by
  induction held generalizing s with
  | nil => rfl
  | cons m rest ih =>
    rw [releaseWindows]
    by_cases same : m = n
    · subst same
      have once : (releaseWindow m s).win m = { s.win m with useCount := (s.win m).useCount - 1 } := by
        rw [releaseWindow_win, if_pos rfl, if_neg]
        rw [isOpen]
        rintro ⟨⟨⟩, -⟩
      rw [ih (by rw [once]; exact isOpen), once, List.count_cons_self, Nat.sub_sub, Nat.add_comm]
    · have other : (releaseWindow m s).win n = s.win n := by rw [releaseWindow_win, if_neg same]
      rw [ih (by rw [other]; exact isOpen), other, List.count_cons_of_ne same]

/-! ## Parking (O29) -/

/-- The end of a park (R72). -/
theorem parkComplete_spec (k : LaneNo) (s : State) :
    let l := s.lane k
    let t := parkComplete k s
    t.lane k = Lane.idle ∧ (∀ j, j ≠ k → t.lane j = s.lane j) ∧
    t.errands = s.errands.map
      (fun e => if e.state = .running k then { e with state := .parked, progress := l.written } else e) ∧
    (∀ n, n ∉ l.held → t.win n = s.win n) ∧
    ∀ n, (s.win n).state = .opened →
      t.win n = { s.win n with useCount := (s.win n).useCount - l.held.count n } := by
  intro l t
  have frame := WinFrame.releaseWindows l.held { s with errands := parkEntry k l.written s.errands }
  refine ⟨lane_setLane_same _ _ _, fun j ne => ?_, frame.errands, fun n free => ?_, fun n isOpen => ?_⟩
  · exact (lane_setLane_ne (Ne.symm ne) _ _).trans (frame.lane j)
  · exact releaseWindows_win_of_notMem free { s with errands := parkEntry k l.written s.errands }
  · exact releaseWindows_win_of_open (s := { s with errands := parkEntry k l.written s.errands }) _ isOpen

theorem parkProgress_of_waiting {k : LaneNo} {s : State} (waits : (s.lane k).outstanding ≠ []) :
    parkProgress k s = s :=
  if_neg (by simpa using waits)

theorem parkProgress_of_written {k : LaneNo} {s : State} (reads : (s.lane k).outstanding = [])
    (wrote : (s.lane k).startByte < (s.lane k).written) :
    parkProgress k s = askTag k (s.lane k).dstPort s :=
  (if_pos (by rw [reads]; rfl)).trans (if_pos wrote)

theorem parkProgress_of_unwritten {k : LaneNo} {s : State} (reads : (s.lane k).outstanding = [])
    (wrote : (s.lane k).written ≤ (s.lane k).startByte) : parkProgress k s = parkComplete k s :=
  (if_pos (by rw [reads]; rfl)).trans (if_neg (Nat.not_lt.mpr wrote))

theorem parkRequestLane_of_other {k : LaneNo} {s : State} (job : ∀ c, (s.lane k).job ≠ .errand c) :
    parkRequestLane k s = s := by
  simp only [parkRequestLane]
  split
  · rfl
  · rfl
  · rfl
  · rename_i c errand
    exact absurd errand (job c)

/-- A lane asked to park, its request withdrawn (R61, R71). -/
def parkingLane (k : LaneNo) (s : State) : State :=
  setLane k { s.lane k with parkRequest := true, state := .parking, tagRequest := none }
    (withdrawTag k (setLane k { s.lane k with parkRequest := true } s))

theorem parkingLane_lane (k : LaneNo) (s : State) :
    (parkingLane k s).lane k = { s.lane k with parkRequest := true, state := .parking, tagRequest := none } :=
  lane_setLane_same _ _ _

theorem parkRequestLane_of_errand {k : LaneNo} {c : Card} {s : State} (job : (s.lane k).job = .errand c) :
    parkRequestLane k s =
      if (s.lane k).state = .moving ∧ (s.lane k).readPoint < (s.lane k).length ∧ (s.lane k).failure = none then
        parkProgress k (parkingLane k s)
      else setLane k { s.lane k with parkRequest := true } s := by
  have withdraws : parkRequestLane k s =
      if (s.lane k).state = .moving ∧ (s.lane k).readPoint < (s.lane k).length ∧ (s.lane k).failure = none then
        parkProgress k
          (setLane k
            { (withdrawTag k (setLane k { s.lane k with parkRequest := true } s)).lane k with state := .parking }
            (withdrawTag k (setLane k { s.lane k with parkRequest := true } s)))
      else setLane k { s.lane k with parkRequest := true } s := by
    unfold parkRequestLane
    dsimp only
    rw [job]
  rw [withdraws]
  split
  · rename_i parks
    obtain ⟨moving, -, -⟩ := parks
    have unwanted : ((setLane k { s.lane k with parkRequest := true } s).lane k).wantsTag = false := by
      rw [lane_setLane_same]
      exact wantsTag_eq_false.mpr (.inr ⟨moving, rfl⟩)
    have lane := withdrawTag_lane unwanted
    rw [lane_setLane_same] at lane
    rw [parkingLane, lane]
  · rfl

theorem parkingLane_errands {k : LaneNo} {s : State} (moving : (s.lane k).state = .moving) :
    (parkingLane k s).errands = s.errands := by
  have unwanted : ((setLane k { s.lane k with parkRequest := true } s).lane k).wantsTag = false := by
    rw [lane_setLane_same]
    exact wantsTag_eq_false.mpr (.inr ⟨moving, rfl⟩)
  rw [parkingLane, withdrawTag_frame unwanted]
  rfl

theorem confirmAnswered_parking {k : LaneNo} {s : State} (well : (s.lane k).failure = none)
    (parking : (s.lane k).state = .parking) (bytes : List Byte) :
    confirmAnswered k (.data bytes) s =
      parkComplete k (setLane k { s.lane k with confirmTag := none } s) := by
  have first : ¬(s.lane k).failure.isSome = true := by rw [well]; decide
  exact (if_neg first).trans (if_pos parking)

theorem dispatchIfIdle_of_idle {k : LaneNo} {s : State} (idle : (s.lane k).state = .idle) :
    dispatchIfIdle k s = dispatch s :=
  if_pos idle

/-- Settles O29: the park requests, a lane's way into PARKING, and the park's end. -/
theorem parking : Obligations.Parking := by
  refine ⟨fun _ => rfl, ?request, fun s k => parkComplete_spec k s, ?completes⟩
  case request =>
    intro s k l t
    refine ⟨parkRequestLane_of_other, fun c job => ?_⟩
    intro parks asked parking
    have requested : t = if parks then parkProgress k parking else asked := parkRequestLane_of_errand job
    have lane : parking.lane k = _ := parkingLane_lane k s
    refine ⟨fun not => ?_, fun does waits => ?_, fun does reads wrote => ?_, fun does reads wrote => ?_⟩
    · rw [requested, if_neg not]
    · rw [requested, if_pos does, parkProgress_of_waiting (by rw [lane]; exact waits)]
    · rw [requested, if_pos does,
        parkProgress_of_written (by rw [lane]; exact reads) (by rw [lane]; exact wrote), lane]
    · have ends : t = parkComplete k parking := by
        rw [requested, if_pos does,
          parkProgress_of_unwritten (by rw [lane]; exact reads) (by rw [lane]; exact wrote)]
      obtain ⟨idle, -, errands, -⟩ := parkComplete_spec k parking
      have queue : parking.errands = s.errands := parkingLane_errands does.1
      rw [lane, queue] at errands
      rw [ends]
      exact ⟨rfl, idle, errands⟩
  case completes =>
    intro s k tag r bytes requester role parking well l
    obtain ⟨idle, others, errands, free, isOpen⟩ :=
      parkComplete_spec k (setLane k { s.lane k with confirmTag := none } s)
    rw [lane_setLane_same] at errands free isOpen
    refine ⟨parkComplete k (setLane k { s.lane k with confirmTag := none } s), ?_, idle, fun j ne => ?_, errands,
      free, isOpen⟩
    · rw [readAnswered_confirming requester role, confirmAnswered_parking well parking]
      exact dispatchIfIdle_of_idle (by rw [idle]; rfl)
    · rw [others j ne, lane_setLane_ne (Ne.symm ne)]

/-! ## Segments (O25) -/

/-- A lane that asks its source port changes its request alone (R61). -/
theorem asking_eq (l : Lane) :
    l.asking = { l with tagRequest := if l.wantsRead = true then some l.srcPort else l.tagRequest } := by
  unfold Lane.asking
  split <;> rfl

/-- The record of a lane that reads its next segment with tag `t`, before it asks again (R61). -/
def Lane.readNext (l : Lane) (t : TagNo) : Lane :=
  { l with
    tagRequest := none
    outstanding := l.outstanding ++ [⟨l.readPoint / 256, t⟩]
    buffer := l.buffer ++ [⟨l.readPoint / 256, none⟩]
    readPoint := l.readPoint + min 256 (l.length - 256 * (l.readPoint / 256)) }

theorem issueSegment_tag (p : Domain) (k : LaneNo) (t : TagNo) (s : State) :
    (issueSegment p k t s).tag p t =
      .busy ⟨.lane k, .segment ((s.lane k).readPoint / 256),
        (s.lane k).srcAddr + BitVec.ofNat 64 (256 * ((s.lane k).readPoint / 256)),
        min 256 ((s.lane k).length - 256 * ((s.lane k).readPoint / 256))⟩ (s.port p).period := by
  rw [issueSegment, tag_setLane, tag_issueRead, if_pos ⟨rfl, rfl⟩]
  rfl

theorem issueSegment_lane (p : Domain) (k : LaneNo) (t : TagNo) (s : State) :
    (issueSegment p k t s).lane k = ((s.lane k).readNext t).asking :=
  lane_setLane_same _ _ _

theorem issueSegment_lane_ne {k j : LaneNo} (ne : k ≠ j) (p : Domain) (t : TagNo) (s : State) :
    (issueSegment p k t s).lane j = s.lane j := by
  rw [issueSegment, lane_setLane_ne ne, issueRead_lane]

/-- A granted lane in MOVING (R60, R61). -/
theorem grantLane_segment {k : LaneNo} {s : State} (moving : (s.lane k).state = .moving)
    (well : (s.lane k).failure = none) (runs : (s.lane k).parkRequest = false) (p : Domain) (t : TagNo) :
    grantLane p k t s = issueSegment p k t (setPort p { s.port p with lastServed := k } s) := by
  refine grantLane_moving ((wantsTag_iff _).mpr ⟨well, fun parks => ?_⟩) moving
  exact absurd (runs.symm.trans parks.2) (by decide)

/-- What a lane asks for after the read of a segment (R61). -/
theorem readNext_asks {l : Lane} (moving : l.state = .moving) (well : l.failure = none)
    (runs : l.parkRequest = false) (t : TagNo) :
    (l.readNext t).wantsRead = true ↔
      ((∃ m, l.job = .service m) ∨ ∃ c, l.job = .errand c ∧ c.kind = some .copy) ∧
        (l.readNext t).readPoint < l.length ∧ l.buffer.length + 1 < 8 := by
  have room : (l.readNext t).buffer.length = l.buffer.length + 1 := List.length_append
  rw [wantsRead_iff, room]
  exact ⟨fun ⟨_, job, more, room, _⟩ => ⟨job, more, room⟩,
    fun ⟨job, more, room⟩ => ⟨moving, job, more, room, rfl, well, runs⟩⟩

theorem grantLane_confirm {k : LaneNo} {s : State}
    (state : (s.lane k).state = .confirming ∨ (s.lane k).state = .parking) (well : (s.lane k).failure = none)
    (p : Domain) (t : TagNo) :
    grantLane p k t s = issueConfirm p k t (setPort p { s.port p with lastServed := k } s) := by
  have notMoving : (s.lane k).state ≠ .moving := by
    rcases state with is | is <;> rw [is] <;> decide
  exact grantLane_confirming ((wantsTag_iff _).mpr ⟨well, fun moves => notMoving moves.1⟩) notMoving

/-- The lowest unwritten segment of a lane. -/
def Lane.nextWrite (l : Lane) : Nat := l.written / 256

/-- The lane and the port once the lowest unwritten segment is written (R62). -/
def segmentWritten (k : LaneNo) (bytes : List Byte) (s : State) : State :=
  setLane k
    { s.lane k with
      written := (s.lane k).written + min 256 ((s.lane k).length - 256 * (s.lane k).nextWrite)
      buffer := (s.lane k).buffer.filter (fun b => b.segment != (s.lane k).nextWrite) }
    (issueWrite (s.lane k).dstPort
      { addr := (s.lane k).dstAddr + BitVec.ofNat 64 (256 * (s.lane k).nextWrite), bytes, lane := some k } s)

/-- Whether a buffer entry holds the bytes of segment `n`. -/
def BufEntry.holds (n : Nat) (b : BufEntry) : Bool := b.segment == n && b.bytes.isSome

theorem writeSegment_of_held {k : LaneNo} {s : State} {bytes : List Byte}
    (held : (s.lane k).buffer.find? (BufEntry.holds (s.lane k).nextWrite) =
      some ⟨(s.lane k).nextWrite, some bytes⟩) :
    writeSegment k s = some (segmentWritten k bytes s) := by
  have found : (s.lane k).buffer.find?
      (fun b => b.segment == (s.lane k).written / Config.segmentSize && b.bytes.isSome) =
        some ⟨(s.lane k).nextWrite, some bytes⟩ := held
  unfold writeSegment
  dsimp only
  rw [found]
  rfl

theorem writeSegment_of_out {k : LaneNo} {s : State}
    (out : ∀ b ∈ (s.lane k).buffer, b.holds (s.lane k).nextWrite = false) : writeSegment k s = none := by
  have absent : (s.lane k).buffer.find?
      (fun b => b.segment == (s.lane k).written / Config.segmentSize && b.bytes.isSome) = none :=
    List.find?_eq_none.mpr fun b mem => Bool.not_eq_true _ ▸ out b mem
  unfold writeSegment
  dsimp only
  rw [absent]

/-- The lowest unwritten segment is written where the buffer holds it. -/
theorem writeSegment_cases (k : LaneNo) (s : State) :
    writeSegment k s = none ∨
      ∃ bytes, ⟨(s.lane k).nextWrite, some bytes⟩ ∈ (s.lane k).buffer ∧
        writeSegment k s = some (segmentWritten k bytes s) := by
  cases held : (s.lane k).buffer.find? (BufEntry.holds (s.lane k).nextWrite) with
  | none =>
    exact .inl (writeSegment_of_out fun b mem => Bool.not_eq_true _ ▸ List.find?_eq_none.mp held b mem)
  | some b =>
    obtain ⟨n, found⟩ := b
    have holds := List.find?_some held
    rw [BufEntry.holds, Bool.and_eq_true, beq_iff_eq] at holds
    obtain ⟨rfl, some⟩ := holds
    obtain ⟨bytes, rfl⟩ := Option.isSome_iff_exists.mp some
    exact .inr ⟨bytes, List.mem_of_find?_eq_some held, writeSegment_of_held held⟩

theorem segmentWritten_lane (k : LaneNo) (bytes : List Byte) (s : State) :
    (segmentWritten k bytes s).lane k =
      { s.lane k with
        written := (s.lane k).written + min 256 ((s.lane k).length - 256 * (s.lane k).nextWrite)
        buffer := (s.lane k).buffer.filter (fun b => b.segment != (s.lane k).nextWrite) } :=
  lane_setLane_same _ _ _

theorem issueWrite_lane (p : Domain) (w : PostedWrite) (s : State) (j : LaneNo) :
    (issueWrite p w s).lane j = s.lane j := (Frame.issueWrite p w s).lane j

theorem issueWrite_ports (p : Domain) (w : PostedWrite) (s : State) :
    issueWrite p w s =
      { s with portA := (issueWrite p w s).portA, portB := (issueWrite p w s).portB } := by
  unfold issueWrite
  split
  · rfl
  · cases p <;> rfl

theorem segmentWritten_lane_ne {k j : LaneNo} (ne : k ≠ j) (bytes : List Byte) (s : State) :
    (segmentWritten k bytes s).lane j = s.lane j := by
  rw [segmentWritten, lane_setLane_ne ne, issueWrite_lane]

theorem segmentWritten_frame (k : LaneNo) (bytes : List Byte) (s : State) :
    segmentWritten k bytes s =
      { s with
        lanes := (segmentWritten k bytes s).lanes, portA := (segmentWritten k bytes s).portA
        portB := (segmentWritten k bytes s).portB } := by
  unfold segmentWritten
  rw [issueWrite_ports]
  rfl

theorem writeSegments_of_none {k : LaneNo} {s : State} (out : writeSegment k s = none) (fuel : Nat) :
    writeSegments k fuel s = s := by
  cases fuel with
  | zero => rfl
  | succ fuel => simp only [writeSegments, out]

theorem writeSegments_of_some {k : LaneNo} {s t : State} (writes : writeSegment k s = some t) (fuel : Nat) :
    writeSegments k (fuel + 1) s = writeSegments k fuel t := by
  simp only [writeSegments, writes]

/-- Every write frees a buffer entry: with fuel for each of them, the lane stops at a segment still out. -/
theorem writeSegments_ends {k : LaneNo} {fuel : Nat} {s : State} (enough : (s.lane k).buffer.length ≤ fuel) :
    writeSegment k (writeSegments k fuel s) = none := by
  induction fuel generalizing s with
  | zero =>
    have empty : (s.lane k).buffer = [] := List.length_eq_zero_iff.mp (Nat.le_zero.mp enough)
    refine writeSegment_of_out (s := s) fun b mem => ?_
    rw [empty] at mem
    cases mem
  | succ fuel ih =>
    obtain out | ⟨bytes, mem, writes⟩ := writeSegment_cases k s
    · rw [writeSegments_of_none out, out]
    · rw [writeSegments_of_some writes]
      refine ih ?_
      rw [segmentWritten_lane]
      have fewer : ((s.lane k).buffer.filter (fun b => b.segment != (s.lane k).nextWrite)).length <
          (s.lane k).buffer.length :=
        List.length_filter_lt_length_iff_exists.mpr ⟨_, mem, by simp⟩
      exact Nat.le_of_lt_succ (Nat.lt_of_lt_of_le fewer enough)

/-- The writes change Written and the buffer of the lane, and the ports. -/
theorem writeSegments_spec (k : LaneNo) (fuel : Nat) (s : State) :
    let u := writeSegments k fuel s
    u.lane k = { s.lane k with written := (u.lane k).written, buffer := (u.lane k).buffer } ∧
      u = { s with lanes := u.lanes, portA := u.portA, portB := u.portB } ∧
      ∀ j, j ≠ k → u.lane j = s.lane j := by
  induction fuel generalizing s with
  | zero => exact ⟨rfl, rfl, fun _ _ => rfl⟩
  | succ fuel ih =>
    obtain out | ⟨bytes, -, writes⟩ := writeSegment_cases k s
    · rw [writeSegments_of_none out]
      exact ⟨rfl, rfl, fun _ _ => rfl⟩
    · rw [writeSegments_of_some writes]
      obtain ⟨lane, frame, others⟩ := ih (segmentWritten k bytes s)
      refine ⟨?_, ?_, fun j ne => (others j ne).trans (segmentWritten_lane_ne (Ne.symm ne) bytes s)⟩
      · rw [lane, segmentWritten_lane]
      · rw [frame, segmentWritten_frame]

/-! ### Data comes in -/

/-- The record of a lane that holds the bytes of segment `n`, read with tag `t`. -/
def Lane.receive (l : Lane) (n : Nat) (t : TagNo) (bytes : List Byte) : Lane :=
  { l with
    outstanding := l.outstanding.filter (fun x => x.tag != t)
    buffer := l.buffer.map (fun b => if b.segment = n then { b with bytes := some bytes } else b) }

theorem segmentAnswered_data {k : LaneNo} {s : State} (well : (s.lane k).failure = none) (n : Nat) (t : TagNo)
    (bytes : List Byte) :
    segmentAnswered k n t (.data bytes) s =
      moveOn k (writeSegments k 8 (setLane k ((s.lane k).receive n t bytes) s)) := by
  have first : ¬((s.lane k).dropRead t).failure.isSome = true := by
    change ¬(s.lane k).failure.isSome = true
    rw [well]
    decide
  exact if_neg first

theorem moveOn_of_parking {k : LaneNo} {s : State} (parking : (s.lane k).state = .parking) :
    moveOn k s = parkProgress k s :=
  if_pos parking

theorem moveOn_of_moving {k : LaneNo} {s : State} (moving : (s.lane k).state = .moving) :
    moveOn k s = if (s.lane k).written = (s.lane k).length then enterConfirming k s else askSource k s :=
  if_neg (by rw [moving]; decide)

theorem arbitrate_lane_state (p : Domain) (s : State) (k : LaneNo) :
    ((arbitrate p s).lane k).state = (s.lane k).state := (Grants.arbitrate p s).state k

/-- A lane that asks for a tag stays in its state, or fails at once and enters STAMPING. -/
theorem askTag_state (k : LaneNo) (p : Domain) (s : State) :
    ((askTag k p s).lane k).state = .stamping ∨ ((askTag k p s).lane k).state = (s.lane k).state := by
  unfold askTag
  split
  · obtain ⟨-, -, -, state⟩ := failLane_lane k .peerLost s
    exact state
  · right
    rw [arbitrate_lane_state, lane_setLane_same]

theorem askTag_busy {k : LaneNo} {s : State} (busy : (s.lane k).state ≠ .idle) (p : Domain) :
    ((askTag k p s).lane k).state ≠ .idle := by
  rcases askTag_state k p s with is | is
  · rw [is]
    decide
  · rwa [is]

theorem askSource_busy {k : LaneNo} {s : State} (busy : (s.lane k).state ≠ .idle) :
    ((askSource k s).lane k).state ≠ .idle := by
  unfold askSource
  split
  · exact askTag_busy busy _
  · exact busy

theorem enterConfirming_busy (k : LaneNo) (s : State) : ((enterConfirming k s).lane k).state ≠ .idle := by
  refine askTag_busy ?_ _
  rw [lane_setLane_same]
  exact nofun

/-- Settles O25: the grants of a segment and of a confirming read, the writes, and an answer with data. -/
theorem segments : Obligations.Segments := by
  refine ⟨?segment, ?confirm, ?write, ?writes, ?data⟩
  case segment =>
    intro s p k t moving well runs l n len u
    have granted : u = _ := grantLane_segment moving well runs p t
    have asks := readNext_asks moving well runs t
    have lane : u.lane k = ((l.readNext t).asking) := by
      rw [granted, issueSegment_lane, lane_setPort]
    rw [lane, asking_eq]
    refine ⟨?_, rfl, rfl, rfl, rfl, ?_, ⟨?_, ?_⟩, fun j ne => ?_⟩
    · rw [granted, issueSegment_tag, lane_setPort, port_setPort_same]
    · by_cases wants : (l.readNext t).wantsRead = true
      · exact .inl (if_pos wants)
      · exact .inr (if_neg wants)
    · intro waits
      by_cases wants : (l.readNext t).wantsRead = true
      · exact (asks.mp wants).2
      · exact absurd ((if_neg wants).symm.trans waits) nofun
    · exact fun job may => if_pos (asks.mpr ⟨job, may⟩)
    · rw [granted, issueSegment_lane_ne (Ne.symm ne), lane_setPort]
  case confirm =>
    intro s p k t state well l u
    have granted : u = _ := grantLane_confirm state well p t
    rw [granted, issueConfirm]
    refine ⟨?_, ?_, fun j ne => ?_⟩
    · rw [tag_setLane, tag_issueRead, if_pos ⟨rfl, rfl⟩, port_setPort_same, lane_setPort]
    · rw [lane_setLane_same, lane_setPort]
    · rw [lane_setLane_ne (Ne.symm ne), issueRead_lane, lane_setPort]
  case write =>
    intro s k l n
    refine ⟨fun bytes held => writeSegment_of_held held, fun out => writeSegment_of_out fun b mem => ?_,
      fun room => writeSegments_ends room⟩
    rw [BufEntry.holds, Bool.and_eq_false_imp, beq_iff_eq]
    intro segment
    rw [out b mem segment]
    rfl
  case writes =>
    exact fun s k i => ⟨fun out => writeSegments_of_none out i, fun t writes => writeSegments_of_some writes i⟩
  case data =>
    intro s k n tag r bytes requester role l well placed u m t
    obtain ⟨lane, frame, others⟩ := writeSegments_spec k 8 (setLane k placed s)
    rw [lane_setLane_same] at lane
    have answered : t = dispatchIfIdle k (moveOn k u) :=
      (readAnswered_segment requester role tag (.data bytes) s).trans
        (congrArg (dispatchIfIdle k) (segmentAnswered_data well n tag bytes))
    have state : m.state = l.state := (congrArg Lane.state lane :)
    have length : m.length = l.length := (congrArg Lane.length lane :)
    have start : m.startByte = l.startByte := (congrArg Lane.startByte lane :)
    have port : m.dstPort = l.dstPort := (congrArg Lane.dstPort lane :)
    refine ⟨lane, frame, fun j ne => ?_, fun moving => ?_, fun parking => ?_⟩
    · exact (others j ne).trans (lane_setLane_ne (Ne.symm ne) _ _)
    · rw [answered, moveOn_of_moving (state.trans moving)]
      refine ⟨fun all => ?_, fun more => ?_⟩
      · rw [if_pos (all.trans length.symm)]
        exact dispatchIfIdle_of_busy (enterConfirming_busy k u)
      · rw [if_neg fun all => more (all.trans length)]
        refine dispatchIfIdle_of_busy (askSource_busy ?_)
        rw [show (u.lane k).state = .moving from state.trans moving]
        decide
    · have parks : (u.lane k).state = .parking := state.trans parking
      have busy : (u.lane k).state ≠ .idle := by rw [parks]; decide
      rw [answered, moveOn_of_parking parks]
      refine ⟨fun waits => ?_, fun reads wrote => ?_, fun reads wrote => ?_⟩
      · rw [parkProgress_of_waiting waits]
        exact dispatchIfIdle_of_busy busy
      · rw [parkProgress_of_written reads (start ▸ wrote), ← port]
        exact dispatchIfIdle_of_busy (askTag_busy busy _)
      · rw [parkProgress_of_unwritten reads (start ▸ wrote)]
        exact dispatchIfIdle_of_idle (by rw [(parkComplete_spec k u).1]; rfl)

end Sys2Proof.Machine
end

section
/-! The link-down event (O16). -/

namespace Sys2Proof.Machine

/-! ## One lane (R68, R129) -/

theorem linkDownLane_of_apart {k : LaneNo} {s : State}
    (apart : (s.lane k).touchesB = false ∨ (s.lane k).state = .idle ∨ (s.lane k).state = .stamping) :
    linkDownLane k s = s := by
  unfold linkDownLane
  dsimp only
  rcases apart with no | is | is
  · rw [no]
    split <;> rfl
  · rw [is]
  · rw [is]

theorem linkDownLane_of_loading {k : LaneNo} {s : State} (touches : (s.lane k).touchesB = true)
    (loading : (s.lane k).state = .loading) :
    linkDownLane k s = setLane k { s.lane k with peerMark := true } s := by
  have marks : linkDownLane k s =
      if (s.lane k).touchesB then setLane k { s.lane k with peerMark := true } s else s := by
    unfold linkDownLane
    dsimp only
    rw [loading]
  rw [marks, if_pos touches]

theorem linkDownLane_of_reading {k : LaneNo} {s : State} (touches : (s.lane k).touchesB = true)
    (reads : (s.lane k).state = .moving ∨ (s.lane k).state = .confirming ∨ (s.lane k).state = .parking) :
    linkDownLane k s = failLane k .peerLost (setLane k (s.lane k).loseB s) := by
  have fails : linkDownLane k s =
      if (s.lane k).touchesB then failLane k .peerLost (setLane k (s.lane k).loseB s) else s := by
    unfold linkDownLane
    dsimp only
    rcases reads with is | is | is <;> rw [is]
  rw [fails, if_pos touches]

/-- The three things that the link-down does to a lane. -/
theorem linkDownLane_cases (k : LaneNo) (s : State) :
    linkDownLane k s = s ∨
      linkDownLane k s = setLane k { s.lane k with peerMark := true } s ∨
      (s.lane k).touchesB = true ∧
        linkDownLane k s = failLane k .peerLost (setLane k (s.lane k).loseB s) := by
  by_cases touches : (s.lane k).touchesB = true
  · cases state : (s.lane k).state with
    | idle => exact .inl (linkDownLane_of_apart (.inr (.inl state)))
    | stamping => exact .inl (linkDownLane_of_apart (.inr (.inr state)))
    | loading => exact .inr (.inl (linkDownLane_of_loading touches state))
    | moving => exact .inr (.inr ⟨touches, linkDownLane_of_reading touches (.inl state)⟩)
    | confirming => exact .inr (.inr ⟨touches, linkDownLane_of_reading touches (.inr (.inl state))⟩)
    | parking => exact .inr (.inr ⟨touches, linkDownLane_of_reading touches (.inr (.inr state))⟩)
  · exact .inl (linkDownLane_of_apart (.inl (Bool.not_eq_true _ ▸ touches)))

theorem linkDownLane_lane_ne {k j : LaneNo} (ne : k ≠ j) (s : State) :
    (linkDownLane k s).lane j = s.lane j := by
  obtain same | marks | ⟨-, fails⟩ := linkDownLane_cases k s
  · rw [same]
  · rw [marks, lane_setLane_ne ne]
  · rw [fails, failLane_lane_ne ne, lane_setLane_ne ne]

theorem linkDownLane_job (k j : LaneNo) (s : State) : ((linkDownLane k s).lane j).job = (s.lane j).job := by
  by_cases ne : k = j
  · subst ne
    obtain same | marks | ⟨-, fails⟩ := linkDownLane_cases k s
    · rw [same]
    · rw [marks, lane_setLane_same]
    · obtain ⟨same, -⟩ := failLane_lane k .peerLost (setLane k (s.lane k).loseB s)
      rw [fails, same.job, lane_setLane_same]
      rfl
  · rw [linkDownLane_lane_ne ne]

/-- The cadences change only with a service whose windows are in domain B. -/
theorem linkDownLane_cad {k : LaneNo} {n : CadNo} {s : State}
    (other : (s.lane k).job = .service n → (s.lane k).touchesB = false) :
    (linkDownLane k s).cad n = s.cad n := by
  obtain same | marks | ⟨touches, fails⟩ := linkDownLane_cases k s
  · rw [same]
  · rw [marks]
    rfl
  · have apart : ((setLane k (s.lane k).loseB s).lane k).job ≠ .service n := by
      rw [lane_setLane_same]
      exact fun job => absurd (touches.symm.trans (other job)) (by decide)
    rw [fails, failLane_cad apart]
    rfl

/-! ## The frame of the link-down -/

theorem loseB_request_iff {l : Lane} : l.loseB.tagRequest = some .a ↔ l.tagRequest = some .a := by
  simp only [Lane.loseB]
  split
  · rename_i waits
    rw [waits]
    exact ⟨nofun, nofun⟩
  · exact Iff.rfl

theorem mem_rotation : ∀ last k, k ∈ rotation last := by decide

theorem nextLane_eq_none {p : Domain} {s : State} :
    nextLane p s = none ↔ ∀ k, (s.lane k).tagRequest ≠ some p := by
  refine ⟨fun nobody k waits => ?_, nextLane_none⟩
  exact List.find?_eq_none.mp nobody k (mem_rotation _ k) (beq_iff_eq.mpr waits)

/-- The next grant of a port goes to no lane. -/
theorem servedLane_eq_none {p : Domain} {s : State} :
    servedLane p s = none ↔
      ((∃ t, s.tag p t = .free) → (p = .a → s.controlQueue = []) → dataAllowed p s = true →
        ∀ k, (s.lane k).tagRequest ≠ some p) := by
  unfold servedLane
  rw [ite_eq_right_iff, pickTag_isSome_iff, nextLane_eq_none]
  exact ⟨fun nobody free quiet allowed => nobody ⟨free, quiet, allowed⟩,
    fun nobody ⟨free, quiet, allowed⟩ => nobody free quiet allowed⟩

/-- Where the arbiter stops, no grant can meet a withdrawal. -/
theorem servedLane_of_stopped {p : Domain} {s : State} (stopped : arbitrateOnce p s = none) :
    servedLane p s = none := by
  cases served : servedLane p s with
  | none => rfl
  | some k =>
    obtain ⟨t, c, -, -, acts⟩ := servedLane_grants served s.choice
    exact absurd (stopped.symm.trans acts) nofun

/-- What the link-down of a lane leaves alone, and what it leaves alone where no grant of Port A can meet a
withdrawal. -/
structure LinkDownFrame (s t : State) : Prop where
  rest : t = { s with
    portA := { s.portA with lastServed := t.portA.lastServed }
    lanes := t.lanes, cadences := t.cadences, choice := t.choice }
  requests : ∀ j, (t.lane j).tagRequest = some .a → (s.lane j).tagRequest = some .a
  still : servedLane .a s = none → t.portA.lastServed = s.portA.lastServed ∧ t.choice = s.choice

namespace LinkDownFrame

theorem refl (s : State) : LinkDownFrame s s := ⟨rfl, fun _ => id, fun _ => ⟨rfl, rfl⟩⟩

/-- With fewer requests and the same tags, no more grants are possible. -/
theorem served {s t : State} (h : LinkDownFrame s t) (stopped : servedLane .a s = none) :
    servedLane .a t = none := by
  rw [servedLane_eq_none] at stopped ⊢
  have tags (u : TagNo) : t.tag .a u = s.tag .a u := by rw [h.rest]; rfl
  have queue : t.controlQueue = s.controlQueue := by rw [h.rest]
  have allowed : dataAllowed .a t = dataAllowed .a s := by rw [h.rest]; rfl
  rw [queue, allowed]
  rintro ⟨t, free⟩ empty may k waits
  exact stopped ⟨t, tags t ▸ free⟩ empty may k (h.requests k waits)

theorem trans {s t u : State} (h : LinkDownFrame s t) (g : LinkDownFrame t u) : LinkDownFrame s u := by
  refine ⟨?_, fun j => h.requests j ∘ g.requests j, fun stopped => ?_⟩
  · rw [g.rest, h.rest]
  · obtain ⟨rotation, choice⟩ := h.still stopped
    obtain ⟨rotation', choice'⟩ := g.still (h.served stopped)
    exact ⟨rotation'.trans rotation, choice'.trans choice⟩

/-- A new record of a lane with no request of its own. -/
theorem setLane (k : LaneNo) {l : Lane} {s : State}
    (request : l.tagRequest = some .a → (s.lane k).tagRequest = some .a) : LinkDownFrame s (setLane k l s) := by
  refine ⟨rfl, fun j waits => ?_, fun _ => ⟨rfl, rfl⟩⟩
  rw [lane_setLane] at waits
  split at waits
  · rename_i same
    exact same ▸ request waits
  · exact waits

/-- A lane that fails with no request at Port B. -/
theorem failLane {k : LaneNo} {s : State} (request : (s.lane k).tagRequest ≠ some .b)
    (portB : (failLane k .peerLost s).portB = s.portB) : LinkDownFrame s (failLane k .peerLost s) := by
  refine ⟨?_, fun j waits => ?_, fun stopped => ?_⟩
  · have frame := failLane_frame k .peerLost s
    have kept : { s.portB with lastServed := (Machine.failLane k .peerLost s).portB.lastServed } = s.portB := by
      rw [portB]
    rw [kept] at frame
    exact frame
  · by_cases same : k = j
    · subst same
      obtain ⟨-, -, withdrawn, -⟩ := failLane_lane k .peerLost s
      exact absurd (withdrawn.symm.trans waits) nofun
    · rwa [failLane_lane_ne same] at waits
  · obtain ⟨portA, -, choice⟩ := failLane_ports k .peerLost s
    have withdraws : withdrawTag k (Machine.setLane k ((s.lane k).failed .peerLost) s) =
        Machine.setLane k { (s.lane k).failed .peerLost with tagRequest := none }
          (Machine.setLane k ((s.lane k).failed .peerLost) s) := by
      cases waits : (s.lane k).tagRequest with
      | none =>
        rw [withdrawTag_of_none (by rw [lane_setLane_same]; exact waits), lane_setLane_same]
      | some p =>
        cases p with
        | a =>
          have unserved := (setLane k (l := (s.lane k).failed .peerLost) id).served stopped
          rw [withdrawTag_of_unserved (p := .a) (by rw [lane_setLane_same]; exact waits)
            (by rw [unserved]; exact nofun), lane_setLane_same]
        | b => exact absurd waits request
    rw [withdraws] at portA choice
    exact ⟨congrArg Port.lastServed portA, choice⟩

theorem linkDownLane (k : LaneNo) (s : State) : LinkDownFrame s (linkDownLane k s) := by
  have kept := linkDownLane_portB k s
  obtain same | marks | ⟨-, fails⟩ := linkDownLane_cases k s
  · rw [same]
    exact refl s
  · rw [marks]
    exact setLane k id
  · rw [fails] at kept ⊢
    refine (setLane k fun waits => ?_).trans
      (failLane (s := Machine.setLane k (s.lane k).loseB s) ?_ kept)
    · exact (loseB_request_iff.mp waits)
    · rw [lane_setLane_same]
      exact Lane.loseB_request _

end LinkDownFrame

/-! ## The other lanes -/

/-- The link-down of lanes other than `k`: what they do not serve stays. -/
structure LinkDownBut (k : LaneNo) (s t : State) : Prop where
  lane : t.lane k = s.lane k
  tick : t.tick = s.tick
  job : ∀ j, (t.lane j).job = (s.lane j).job
  cad : ∀ n, (∀ j, j ≠ k → (s.lane j).job ≠ .service n) → t.cad n = s.cad n

namespace LinkDownBut

theorem refl (k : LaneNo) (s : State) : LinkDownBut k s s := ⟨rfl, rfl, fun _ => rfl, fun _ _ => rfl⟩

theorem trans {k : LaneNo} {s t u : State} (h : LinkDownBut k s t) (g : LinkDownBut k t u) :
    LinkDownBut k s u := by
  refine ⟨g.lane.trans h.lane, g.tick.trans h.tick, fun j => (g.job j).trans (h.job j), fun n alone => ?_⟩
  exact (g.cad n fun j ne => h.job j ▸ alone j ne).trans (h.cad n alone)

theorem linkDownLane {k j : LaneNo} (ne : j ≠ k) (s : State) : LinkDownBut k s (linkDownLane j s) :=
  ⟨linkDownLane_lane_ne ne s, by rw [(LinkDownFrame.linkDownLane j s).rest], fun i => linkDownLane_job j i s,
    fun _ alone => linkDownLane_cad fun job => absurd job (alone j ne)⟩

end LinkDownBut

/-- Between the lanes before it and those after it, the link-down reaches lane `k`. -/
theorem linkDownLanes_around (k : LaneNo) (s : State) :
    ∃ x, LinkDownBut k s x ∧ LinkDownBut k (linkDownLane k x) (linkDownLanes s) := by
  have but {j : LaneNo} (ne : j ≠ k) (x : State) := LinkDownBut.linkDownLane ne x
  rcases lane_cases k with rfl | rfl | rfl | rfl
  · exact ⟨_, .refl _ s, ((but (by decide) _).trans (but (by decide) _)).trans (but (by decide) _)⟩
  · exact ⟨_, but (by decide) s, (but (by decide) _).trans (but (by decide) _)⟩
  · exact ⟨_, (but (by decide) s).trans (but (by decide) _), but (by decide) _⟩
  · exact ⟨_, ((but (by decide) s).trans (but (by decide) _)).trans (but (by decide) _), .refl _ _⟩

theorem linkDownLanes_cad {n : CadNo} {s : State}
    (apart : ∀ k, (s.lane k).job = .service n → (s.lane k).touchesB = false) :
    (linkDownLanes s).cad n = s.cad n := by
  have turn (k : LaneNo) {x : State} (lane : x.lane k = s.lane k) : (linkDownLane k x).cad n = x.cad n :=
    linkDownLane_cad (lane ▸ apart k)
  have other {j k : LaneNo} (ne : j ≠ k) {x : State} (lane : x.lane k = s.lane k) :
      (linkDownLane j x).lane k = s.lane k := (linkDownLane_lane_ne ne x).trans lane
  rw [linkDownLanes, turn 3, turn 2, turn 1, turn 0 rfl]
  · exact other (by decide) rfl
  · exact other (by decide) (other (by decide) rfl)
  · exact other (by decide) (other (by decide) (other (by decide) rfl))

theorem linkDownLanes_frame (s : State) : LinkDownFrame s (linkDownLanes s) :=
  (((LinkDownFrame.linkDownLane 0 s).trans (.linkDownLane 1 _)).trans (.linkDownLane 2 _)).trans
    (.linkDownLane 3 _)

/-! ## The event (O16) -/

/-- Port B's part of the link-down and its report (R129). -/
def portBDown (s : State) : State :=
  reportFault .peerDown .port 1 { s with portB := linkDownPort s.portB, linkUp := false }

theorem portBDown_eq (s : State) :
    portBDown s =
      { s with
        linkUp := false, portB := { s.portB with tags := .replicate 24 .free, requests := [] }
        faultRec := (portBDown s).faultRec, further := (portBDown s).further
        raised := (portBDown s).raised, raisings := (portBDown s).raisings } :=
  reportFault_frame _ _ _ _

theorem exec_peerLinkDown_of_up {s : State} (up : s.linkUp = true) :
    exec .peerLinkDown s = .next (checkStopped (linkDownLanes (portBDown s))) :=
  if_pos up

theorem servedLane_portBDown {s : State} (stopped : arbitrateOnce .a s = none) :
    servedLane .a (portBDown s) = none := by
  have unserved := servedLane_of_stopped stopped
  rw [servedLane_eq_none] at unserved ⊢
  rw [portBDown_eq]
  exact unserved

/-- No other lane serves the cadence of a lane (R2). -/
theorem CadencePlaced.alone {s : State} {n : CadNo} (placed : CadencePlaced s n) {k j : LaneNo} (ne : j ≠ k)
    (job : (s.lane k).job = .service n) : (s.lane j).job ≠ .service n := by
  intro other
  have here := (placed.lanes k).mp (by rw [job]; rfl)
  have there := (placed.lanes j).mp (by rw [other]; rfl)
  exact ne (Place.lane.inj (there.symm.trans here))

/-- A reading lane that the link-down reaches. -/
theorem linkDownLane_lost {k : LaneNo} {s : State} (touches : (s.lane k).touchesB = true)
    (job : (s.lane k).job ≠ .none)
    (reads : (s.lane k).state = .moving ∨ (s.lane k).state = .confirming ∨ (s.lane k).state = .parking) :
    let l := s.lane k
    let u := linkDownLane k s
    let lost := l.failure.getD .peerLost
    let settled := (l.srcPort = .b ∨ l.outstanding = []) ∧ (l.dstPort = .b ∨ l.confirmTag = none)
    (u.lane k).failure = some lost ∧ (u.lane k).written = l.written ∧ (u.lane k).job = l.job ∧
      (u.lane k).held = l.held ∧ (u.lane k).tagRequest = none ∧
      (settled → (u.lane k).state = .stamping ∧ (l.failure ≠ some .done → StampsOutcome k lost s u)) ∧
      (¬settled → (u.lane k).state = l.state) := by
  intro l u lost settled
  have fails : u = failLane k .peerLost (setLane k l.loseB s) := linkDownLane_of_reading touches reads
  obtain ⟨same, failure, request, -⟩ := failLane_lane k .peerLost (setLane k l.loseB s)
  rw [lane_setLane_same] at same failure
  have reads_iff : settled ↔ l.loseB.outstanding = [] ∧ l.loseB.confirmTag = none := by
    simp only [settled, Lane.loseB, ite_eq_left_iff, Decidable.or_iff_not_imp_left]
  rw [fails]
  refine ⟨failure, same.written, same.job, same.held, request, fun settles => ?_, fun waits => ?_⟩
  · obtain ⟨out, confirms⟩ := reads_iff.mp settles
    have ends := failLane_of_settled (s := setLane k l.loseB s) (by rw [lane_setLane_same]; exact out)
      (by rw [lane_setLane_same]; exact confirms) .peerLost
    refine ⟨?_, fun notDone => ?_⟩
    · obtain ⟨outcome, left, lane⟩ := enterStamping_lane (k := k)
        (s := withdrawTag k (setLane k (((setLane k l.loseB s).lane k).failed .peerLost) (setLane k l.loseB s)))
        (by rw [withdrawFailed_lane, lane_setLane_same]; exact job)
        (some (((setLane k l.loseB s).lane k).failure.getD .peerLost))
      rw [ends, lane]
      rfl
    · have stamps := failLane_stamps (k := k) (s := setLane k l.loseB s) (o := .peerLost)
      rw [lane_setLane_same] at stamps
      refine (stamps job out confirms fun done => ?_).of_before rfl fun _ _ => rfl
      change l.failure.getD .peerLost = .done at done
      cases failed : l.failure with
      | none =>
        rw [failed] at done
        cases done
      | some o =>
        rw [failed] at done notDone
        exact notDone (congrArg some done)
  · have out : l.loseB.outstanding ≠ [] ∨ l.loseB.confirmTag ≠ none := by
      rw [reads_iff] at waits
      exact Decidable.not_and_iff_not_or_not.mp waits
    rw [failLane_of_waiting (by rw [lane_setLane_same]; exact out), withdrawFailed_lane, lane_setLane_same]
    rfl

/-- Settles O16: the event at Port B, and what it does to each lane. -/
theorem peerLinkDown : Obligations.PeerLinkDown := by
  constructor
  · intro s up
    have frame := linkDownLanes_frame (portBDown s)
    refine ⟨_, exec_peerLinkDown_of_up up, ?_, fun stopped => ?_, ?_, ?_, fun n apart => ?_⟩
    · rw [frame.rest, portBDown_eq]
    · obtain ⟨rotation, choice⟩ := frame.still (servedLane_portBDown stopped)
      rw [rotation, choice, portBDown_eq]
      exact ⟨rfl, rfl⟩
    · have taken := reportFault_faultTaken .peerDown .port 1
        { s with portB := linkDownPort s.portB, linkUp := false }
      rw [FaultTaken, frame.rest]
      exact taken
    · have raised := reportFault_causeRaised .peerDown .port 1
        { s with portB := linkDownPort s.portB, linkUp := false }
      rw [CauseRaised, frame.rest]
      exact raised
    · have kept := linkDownLanes_cad (s := portBDown s) (n := n) (by rw [portBDown_eq]; exact apart)
      rw [kept, portBDown_eq]
      rfl
  · intro s k up l
    obtain ⟨x, before, after⟩ := linkDownLanes_around k (portBDown s)
    have lane : x.lane k = l := by
      rw [before.lane, portBDown_eq]
      rfl
    refine ⟨_, exec_peerLinkDown_of_up up, ?_, ?_, ?_⟩
    · intro apart
      rw [after.lane, linkDownLane_of_apart (by rw [lane]; exact apart), lane]
    · intro touches loading
      rw [after.lane, linkDownLane_of_loading (by rw [lane]; exact touches) (by rw [lane]; exact loading),
        lane_setLane_same, lane]
    · intro touches job reads lost settled
      have spec := linkDownLane_lost (s := x) (k := k)
      rw [lane] at spec
      obtain ⟨failure, written, sameJob, held, request, settles, waits⟩ := spec touches job reads
      rw [after.lane]
      refine ⟨failure, written, sameJob, held, request, fun settled => ?_, waits⟩
      obtain ⟨state, stamps⟩ := settles settled
      refine ⟨state, fun placed notDone => ?_⟩
      have jobs (j : LaneNo) : ((portBDown s).lane j).job = (s.lane j).job := by
        rw [portBDown_eq]
        rfl
      have alone {n : CadNo} (serves : ((linkDownLane k x).lane k).job = .service n) (j : LaneNo) (ne : j ≠ k) :
          (s.lane j).job ≠ .service n :=
        (placed n).alone ne (sameJob ▸ serves)
      refine ((stamps notDone).of_after after.lane fun n serves => ?_).of_before ?_ fun n serves => ?_
      · refine after.cad n fun j ne => ?_
        rw [linkDownLane_job, before.job, jobs]
        exact alone serves j ne
      · rw [before.tick, portBDown_eq]
      · rw [after.lane] at serves
        rw [before.cad n fun j ne => jobs j ▸ alone serves j ne, portBDown_eq]
        rfl

end Sys2Proof.Machine
end

section
/-! Sweep requests (O11), fault reports (O18), the entry to HALTED (O19) and the tick (O17). -/

namespace Sys2Proof.Machine

/-! ## Sweep requests (O11) -/

theorem ReadsOnly.scanner {s t : State} (h : ReadsOnly s t) : t.scanner = s.scanner := by rw [h.rest]

theorem ReadsOnly.sweepPending {s t : State} (h : ReadsOnly s t) : t.sweepPending = s.sweepPending := by
  rw [h.rest]

theorem startSweep_of_record {r : Record} {s : State} (first : firstRecord s.hdr = some r) :
    startSweep s = sweepRecord r s := by
  unfold startSweep
  rw [first]

/-- A sweep that starts leaves the pending flag, and reads the first record's command word. -/
theorem startSweep_spec (s : State) :
    SweepsOn s (startSweep s) ∧ (startSweep s).sweepPending = s.sweepPending ∧
      ∀ r, firstRecord s.hdr = some r → (startSweep s).scanner = .sweepWord r := by
  refine ⟨.startSweep s, ?_, fun r first => ?_⟩
  · unfold startSweep
    split
    · exact (ReadsOnly.requestControl _ _ _ _).sweepPending
    · split
      · exact (ReadsOnly.requestControl _ _ _ _).sweepPending
      · rfl
  · rw [startSweep_of_record first]
    exact (ReadsOnly.requestControl _ _ _ _).scanner

theorem requestSweep_of_not_running {s : State} (rests : s.bridge ≠ .running) : requestSweep s = s :=
  if_neg rests

theorem requestSweep_of_busy {s : State} (runs : s.bridge = .running) (busy : s.scanner ≠ .idle) :
    requestSweep s = { s with sweepPending := true } :=
  (if_pos runs).trans (if_neg busy)

theorem requestSweep_of_idle {s : State} (runs : s.bridge = .running) (idle : s.scanner = .idle) :
    requestSweep s = startSweep s :=
  (if_pos runs).trans (if_pos idle)

theorem sweepDue_iff (s : State) :
    sweepDue s = true ↔ 0 < s.hdr.sweepTicks ∧ s.hdr.sweepTicks ≤ s.sweepTimer := by
  simp [sweepDue]

theorem exec_sweepTimerExpiry_of_due {s : State} (runs : s.bridge = .running) (on : 0 < s.hdr.sweepTicks)
    (due : s.hdr.sweepTicks ≤ s.sweepTimer) :
    exec .sweepTimerExpiry s = .next (requestSweep { s with sweepTimer := 0 }) :=
  if_pos ⟨runs, (sweepDue_iff s).mpr ⟨on, due⟩⟩

theorem exec_nudge_of_reachable {s : State} (reachable : s.reachable = true) (v : BitVec 32) :
    exec (.nudge v) s = .next (requestSweep s) :=
  congrArg Host.Outcome.next (onRegisters_of_reachable reachable _)

theorem startSweep_of_chain {s : State} {addr : Addr} (empty : firstRecord s.hdr = none)
    (chain : chainAddr s = some addr) :
    startSweep s = requestControl .scanner addr 8 { s with scanner := .chain } := by
  unfold startSweep
  rw [empty, chain]

theorem startSweep_of_nothing {s : State} (empty : firstRecord s.hdr = none) (chain : chainAddr s = none) :
    startSweep s = { s with scanner := .idle } := by
  unfold startSweep
  rw [empty, chain]

/-- The chain's link is named by the readers that rest (R79). -/
theorem chainAddr_of_away {s : State} (away : s.reader.busy = true ∨ ∃ addr, s.reader = .holding addr) :
    chainAddr s = none := by
  unfold chainAddr
  cases reader : s.reader with
  | noCard =>
    rw [reader] at away
    exact away.elim nofun fun ⟨_, holds⟩ => nomatch holds
  | watching addr =>
    rw [reader] at away
    exact away.elim nofun fun ⟨_, holds⟩ => nomatch holds
  | takingRead addr => rfl
  | takingWrite c valid left => rfl
  | linking addr => rfl
  | holding addr => rfl

/-- Settles O11. -/
theorem sweepRequests : Obligations.SweepRequests := by
  refine ⟨fun s v reachable => ?nudge, fun s runs on due => ?timer, fun s => ⟨?window, ?cadence, ?chain⟩⟩
  case nudge =>
    rw [exec_nudge_of_reachable reachable]
    refine ⟨fun rests => ?_, fun runs busy => ?_, fun runs idle => ?_⟩
    · rw [requestSweep_of_not_running rests]
    · rw [requestSweep_of_busy runs busy]
    · rw [requestSweep_of_idle runs idle]
      exact ⟨_, rfl, rfl, startSweep_spec s⟩
  case timer =>
    rw [exec_sweepTimerExpiry_of_due runs on due]
    refine ⟨fun busy => ?_, fun idle => ?_⟩
    · rw [requestSweep_of_busy (s := { s with sweepTimer := 0 }) runs busy]
    · rw [requestSweep_of_idle (s := { s with sweepTimer := 0 }) runs idle]
      exact ⟨_, rfl, rfl, startSweep_spec { s with sweepTimer := 0 }⟩
  case window => exact fun n first => startSweep_of_record first
  case cadence => exact fun n first => startSweep_of_record first
  case chain =>
    intro empty
    refine ⟨fun noCard => ?_, fun addr watching => ?_, fun away => ?_⟩
    · exact startSweep_of_chain empty (by rw [chainAddr, noCard])
    · exact startSweep_of_chain empty (by rw [chainAddr, watching])
    · exact startSweep_of_nothing empty (chainAddr_of_away away)

/-! ## Faults (O18) -/

theorem recordWrite_eq (r : Record) (offset size value : Nat) (s : State) :
    recordWrite r offset size value s =
      issueWrite .a (fieldWrite (recordAddr s r + BitVec.ofNat 64 offset) size value) s := rfl

/-- The write of C_STATE (R3). -/
theorem setCadState_eq (n : CadNo) (e : CadEntry) (s : State) :
    setCadState n e s =
      issueWrite .a (fieldWrite (s.hdr.cadenceTable + BitVec.ofNat 64 (64 * n) + 40) 1 e.state.code)
        (setCad n e s) := rfl

theorem holdingFault_of_active {n : CadNo} {s : State}
    (active : (s.cad n).state = .armed ∨ (s.cad n).state = .paused) (code : FaultCode) :
    holdingFault code n s =
      reportFault code .cadence n (setCadState n { s.cad n with state := .held, resumeMark := false } s) := by
  unfold holdingFault
  dsimp only
  rw [if_pos active]

theorem holdingFault_of_other {n : CadNo} {s : State}
    (other : ¬((s.cad n).state = .armed ∨ (s.cad n).state = .paused)) (code : FaultCode) :
    holdingFault code n s = reportFault code .cadence n s := by
  unfold holdingFault
  dsimp only
  rw [if_neg other]

/-- A holding fault changes the cadences, Port A's writes, and the fault record with its cause. -/
theorem holdingFault_frame (code : FaultCode) (n : CadNo) (s : State) :
    holdingFault code n s =
      { s with
        cadences := (holdingFault code n s).cadences, portA := (holdingFault code n s).portA
        faultRec := (holdingFault code n s).faultRec, further := (holdingFault code n s).further
        raised := (holdingFault code n s).raised, raisings := (holdingFault code n s).raisings } := by
  unfold holdingFault
  dsimp only
  rw [reportFault_frame]
  split <;> rfl

theorem holdingFault_scanner (code : FaultCode) (n : CadNo) (s : State) :
    (holdingFault code n s).scanner = s.scanner := by rw [holdingFault_frame]

theorem holdingFault_hdr (code : FaultCode) (n : CadNo) (s : State) :
    (holdingFault code n s).hdr = s.hdr := by
  rw [holdingFault_frame]
  rfl

theorem holdingFault_ack (code : FaultCode) (n : CadNo) (s : State) (r : Record) :
    (holdingFault code n s).ack r = s.ack r := by
  rw [holdingFault_frame]
  cases r <;> rfl

theorem takeCommand_cadence {n : CadNo} {d : Delivery} (record : d.record = .cadence n) (s : State) :
    takeCommand d s = takeCadenceCommand n d s := by
  unfold takeCommand
  rw [record]

theorem takeBetween_even {n : CadNo} {d : Delivery} {s : State} (waits : waitingCommand n s = some d) {x : Nat}
    (even : x % 2 = 0) : takeBetween n { s with choice := x } = { s with choice := x / 2 } := by
  rw [takeBetween_some (s := { s with choice := x }) waits]
  exact if_neg (by rw [even]; decide)

theorem takeBetween_odd {n : CadNo} {d : Delivery} {s : State} (waits : waitingCommand n s = some d) {x : Nat}
    (odd : x % 2 = 1) :
    takeBetween n { s with choice := x } = takeCadenceCommand n d { s with choice := x / 2 } := by
  rw [takeBetween_some (s := { s with choice := x }) waits]
  exact if_pos odd

/-- A digit of `choice` decides whether the command that waits comes first. -/
theorem takeBetween_choices {n : CadNo} {d : Delivery} {s : State} (waits : waitingCommand n s = some d) :
    (∃ c, takeBetween n s = { s with choice := c } ∨
      takeBetween n s = takeCadenceCommand n d { s with choice := c }) ∧
    (∃ x c, takeBetween n { s with choice := x } = { s with choice := c }) ∧
    ∃ x c, takeBetween n { s with choice := x } = takeCadenceCommand n d { s with choice := c } := by
  refine ⟨⟨s.choice / 2, ?_⟩, ⟨0, 0, takeBetween_even waits rfl⟩, ⟨1, 0, takeBetween_odd waits rfl⟩⟩
  rcases Nat.mod_two_eq_zero_or_one s.choice with even | odd
  · exact .inl (takeBetween_even waits even)
  · exact .inr (takeBetween_odd waits odd)

/-- A holding fault leaves a cadence that is not draining HELD. -/
theorem holdingFault_held {n : CadNo} {s : State}
    (state : (s.cad n).state = .armed ∨ (s.cad n).state = .paused ∨ (s.cad n).state = .held) (code : FaultCode) :
    ((holdingFault code n s).cad n).state = .held ∧
      ((holdingFault code n s).cad n).place = (s.cad n).place := by
  by_cases active : (s.cad n).state = .armed ∨ (s.cad n).state = .paused
  · rw [holdingFault_of_active active, reportFault_cad, setCadState_cad]
    exact ⟨rfl, rfl⟩
  · rw [holdingFault_of_other active, reportFault_cad]
    exact ⟨(state.elim (fun a => (active (.inl a)).elim) fun b => b.elim (fun a => (active (.inr a)).elim) id),
      rfl⟩

theorem resumeCadence_of_lane {n : CadNo} {s : State} (inLane : (s.cad n).place.isLane = true) :
    resumeCadence n s = setCadState n { s.cad n with state := .armed, resumeMark := true } s :=
  if_pos inLane

theorem takeResume_of_held {n : CadNo} {s : State} (held : (s.cad n).state = .held) (d : Delivery) :
    takeResume n d s = answerCommand d .ok (resumeCadence n s) := by
  unfold takeResume
  rw [held]

/-- Settles O18. -/
theorem faultReports : Obligations.FaultReports := by
  refine ⟨?report, ?holding, ?between, ?resumed⟩
  case report =>
    exact fun s code kind number => ⟨reportFault_faultTaken code kind number s,
      reportFault_causeRaised code kind number s, reportFault_frame code kind number s⟩
  case holding =>
    intro s code n e
    refine ⟨fun active => holdingFault_of_active active code, fun other => holdingFault_of_other ?_ code⟩
    rcases other with is | is <;> rw [is] <;> exact nofun
  case between =>
    intro s n waits
    refine ⟨fun nothing => takeBetween_none ?_, fun d h => ?_⟩
    · cases waiting : waitingCommand n s with
      | none => rfl
      | some d => exact absurd ((waitingCommand_iff n d s).mp waiting) (nothing d)
    · have takes (x : State) : takeCommand d x = takeCadenceCommand n d x := takeCommand_cadence h.2.1 x
      simp only [takes]
      exact takeBetween_choices ((waitingCommand_iff n d s).mpr h)
  case resumed =>
    intro s code n d delivered record resume new inLane state h
    obtain ⟨held, place⟩ := holdingFault_held state code
    have waits : waitingCommand n h = some d := by
      refine (waitingCommand_iff n d h).mpr ⟨?_, record, ?_⟩
      · exact (holdingFault_scanner code n s).trans delivered
      · exact (holdingFault_ack code n s _).symm ▸ new
    refine ⟨held, 1, 0, ?_⟩
    rw [takeBetween_odd waits rfl, takeCadenceCommand, resume]
    change takeResume n d { h with choice := 0 } = _
    rw [takeResume_of_held (s := { h with choice := 0 }) held,
      resumeCadence_of_lane (s := { h with choice := 0 }) ((congrArg Place.isLane place).trans inLane),
      setCadState_eq, ← holdingFault_hdr code n s]
    rfl

/-! ## The entry to HALTED (O19) -/

/-- A window's entry once a number of its holds are given back at the entry to HALTED (R111). -/
def WinEntry.dropHolds (e : WinEntry) (holds : Nat) : WinEntry :=
  if e.state = .closing ∧ 0 < e.useCount ∧ e.useCount ≤ holds then
    { e with state := .closed, config := none, useCount := 0 }
  else { e with useCount := e.useCount - holds }

theorem dropHolds_of_drains {e : WinEntry} {holds : Nat} (closing : e.state = .closing) (held : 0 < e.useCount)
    (few : e.useCount ≤ holds) :
    e.dropHolds holds = { e with state := .closed, config := none, useCount := 0 } :=
  if_pos ⟨closing, held, few⟩

theorem dropHolds_of_stays {e : WinEntry} {holds : Nat}
    (stays : e.state = .closing → 0 < e.useCount → holds < e.useCount) :
    e.dropHolds holds = { e with useCount := e.useCount - holds } :=
  if_neg fun ⟨closing, held, few⟩ => absurd few (Nat.not_le.mpr (stays closing held))

theorem quietRelease_dropHolds (n : WinNo) (s : State) : (quietRelease n s).win n = (s.win n).dropHolds 1 := by
  rw [quietRelease_win, if_pos rfl, WinEntry.dropHolds]
  have last : (s.win n).state = .closing ∧ (s.win n).useCount = 1 ↔
      (s.win n).state = .closing ∧ 0 < (s.win n).useCount ∧ (s.win n).useCount ≤ 1 := by
    constructor <;> rintro ⟨closing, count⟩ <;> exact ⟨closing, by omega⟩
  exact ite_congr (propext last) (fun _ => rfl) fun _ => rfl

theorem dropHolds_zero (e : WinEntry) : e.dropHolds 0 = e := dropHolds_of_stays fun _ held => held

/-- Holds given back one after another are given back together. -/
theorem dropHolds_dropHolds (e : WinEntry) (holds more : Nat) :
    (e.dropHolds holds).dropHolds more = e.dropHolds (holds + more) := by
  by_cases drains : e.state = .closing ∧ 0 < e.useCount ∧ e.useCount ≤ holds
  · obtain ⟨closing, held, few⟩ := drains
    rw [dropHolds_of_drains closing held few, dropHolds_of_drains closing held (by omega),
      dropHolds_of_stays (by rintro ⟨⟩), Nat.zero_sub]
  · have first : e.dropHolds holds = { e with useCount := e.useCount - holds } := if_neg drains
    rw [first]
    by_cases later : e.state = .closing ∧ 0 < e.useCount ∧ e.useCount ≤ holds + more
    · obtain ⟨closing, held, few⟩ := later
      have left : holds < e.useCount := Nat.lt_of_not_le fun fewer => drains ⟨closing, held, fewer⟩
      rw [dropHolds_of_drains (e := e) closing held few]
      exact dropHolds_of_drains closing (Nat.sub_pos_of_lt left) (Nat.sub_le_iff_le_add'.mpr few)
    · have both : e.dropHolds (holds + more) = { e with useCount := e.useCount - (holds + more) } :=
        if_neg later
      rw [both, ← Nat.sub_sub]
      refine dropHolds_of_stays fun closing held => ?_
      exact Nat.lt_of_not_le fun few =>
        later ⟨closing, Nat.lt_of_lt_of_le held (Nat.sub_le _ _), Nat.sub_le_iff_le_add'.mp few⟩

theorem quietReleases_win (n : WinNo) (held : List WinNo) (s : State) :
    (quietReleases held s).win n = (s.win n).dropHolds (held.count n) := by
  induction held generalizing s with
  | nil => exact (dropHolds_zero _).symm
  | cons m rest ih =>
    rw [quietReleases, ih]
    by_cases same : m = n
    · subst same
      rw [quietRelease_dropHolds, dropHolds_dropHolds, List.count_cons_self, Nat.add_comm]
    · rw [quietRelease_win, if_neg same, List.count_cons_of_ne same]

theorem quietReleases_frame (held : List WinNo) (s : State) :
    quietReleases held s = { s with windows := (quietReleases held s).windows } := by
  induction held generalizing s with
  | nil => rfl
  | cons n rest ih =>
    have one : quietRelease n s = { s with windows := (quietRelease n s).windows } := by
      unfold quietRelease
      dsimp only
      split <;> rfl
    rw [quietReleases, ih, one]

theorem dropLanes_frame (s : State) :
    dropLanes s =
      { s with
        windows := (dropLanes s).windows, lanes := .replicate 4 .idle
        cadences := s.cadences.map CadEntry.dropLane } := by
  unfold dropLanes
  rw [quietReleases_frame, quietReleases_frame, quietReleases_frame, quietReleases_frame]

theorem dropLanes_win (n : WinNo) (s : State) :
    (dropLanes s).win n = (s.win n).dropHolds (windowHolds s n) := by
  have all : (dropLanes s).win n = (((((s.win n).dropHolds ((s.lane 0).held.count n)).dropHolds
      ((s.lane 1).held.count n)).dropHolds ((s.lane 2).held.count n)).dropHolds ((s.lane 3).held.count n)) := by
    rw [← quietReleases_win, ← quietReleases_win, ← quietReleases_win, ← quietReleases_win]
    rfl
  rw [all, dropHolds_dropHolds, dropHolds_dropHolds, dropHolds_dropHolds, windowHolds_eq, ← Nat.add_assoc,
    ← Nat.add_assoc]

/-- The entry to HALTED (R161). -/
theorem enterHalted_frame (s : State) :
    enterHalted s =
      { s with
        bridge := .halted, scanner := .idle, sweepPending := false, loadingStop := false, tickTimerOn := false
        controlQueue := [], lanes := .replicate 4 .idle, portA := haltPort s.portA, portB := haltPort s.portB
        cadences := s.cadences.map CadEntry.dropLane, windows := (dropLanes s).windows
        raised := (enterHalted s).raised, raisings := (enterHalted s).raisings } := by
  unfold enterHalted
  rw [raise_frame, dropLanes_frame]

theorem haltPort_writes (x : Port) : (haltPort x).writes = x.writes := rfl

theorem enterHalted_port (p : Domain) (s : State) : (enterHalted s).port p = haltPort (s.port p) := by
  rw [enterHalted_frame]
  cases p <;> rfl

theorem enterHalted_tag (p : Domain) (t : TagNo) (s : State) :
    (enterHalted s).tag p t = (s.tag p t).abandon (s.port p).period := by
  rw [State.tag, enterHalted_port]
  exact Vector.getElem_map _ _

theorem enterHalted_lane (k : LaneNo) (s : State) : (enterHalted s).lane k = Lane.idle := by
  rw [enterHalted_frame]
  exact Vector.getElem_replicate _

theorem enterHalted_cad (n : CadNo) (s : State) : (enterHalted s).cad n = (s.cad n).dropLane := by
  rw [enterHalted_frame]
  exact Vector.getElem_map _ _

theorem enterHalted_win (n : WinNo) (s : State) :
    (enterHalted s).win n = (s.win n).dropHolds (windowHolds s n) := by
  rw [← dropLanes_win, enterHalted_frame]
  rfl

theorem enterHalted_causeRaised (s : State) : CauseRaised .state s (enterHalted s) := by
  have dropped := dropLanes_frame s
  unfold enterHalted
  refine (raise_causeRaised .state _).of_eq ?_ ?_ ?_
  · rw [dropped]
    rfl
  · rw [dropped]
  · rw [dropped]

theorem arbitrate_of_halted (p : Domain) (s : State) : arbitrate p (enterHalted s) = enterHalted s := by
  refine arbitrate_of_nobody ⟨fun _ => by rw [enterHalted_frame], fun k => ?_⟩
  rw [enterHalted_lane]
  exact nofun

theorem checkStopped_of_halted (s : State) : checkStopped (enterHalted s) = enterHalted s := by
  refine checkStopped_of_not_quiescing ?_
  rw [enterHalted_frame]
  exact nofun

/-- What a fatal fault leaves (R161, R170). -/
theorem fatalFault_spec (code : FaultCode) (kind : ObjectKind) (s : State) :
    let u := fatalFault code kind s
    u.bridge = .halted ∧ FaultTaken code kind 0 s u ∧ u.portA.writes = s.portA.writes ∧
      (∀ p t, u.tag p t = (s.tag p t).abandon (s.port p).period) ∧ (∀ k, u.lane k = Lane.idle) ∧
      u.tick = s.tick ∧ u.tickTimerOn = false := by
  have reported := reportFault_frame code kind 0 s
  have halted := enterHalted_frame (reportFault code kind 0 s)
  refine ⟨?_, ?_, ?_, fun p t => ?_, fun k => enterHalted_lane k _, ?_, ?_⟩
  · rw [fatalFault, halted]
  · rw [FaultTaken, fatalFault, halted]
    exact reportFault_faultTaken code kind 0 s
  · rw [fatalFault, halted, reported]
    rfl
  · rw [fatalFault, enterHalted_tag, reported]
    cases p <;> rfl
  · rw [fatalFault, halted, reported]
  · rw [fatalFault, halted]

theorem readAnswered_areaFailed {r : ReadInfo} (role : r.role = .control) (t : TagNo) {a : ReadAnswer}
    (fails : a = .error ∨ a = .timeout) (s : State) :
    readAnswered t r a s = fatalFault .areaReadFailed .port s := by
  unfold readAnswered
  rw [role]
  rcases fails with rfl | rfl <;> rfl

/-- Settles O19. -/
theorem entryToHalted : Obligations.EntryToHalted := by
  constructor
  · intro s t
    have frame : t = _ := enterHalted_frame s
    refine ⟨?_, enterHalted_causeRaised s, fun p => ?_, fun n => enterHalted_cad n s, fun n => enterHalted_win n s⟩
    · rw [frame]
    · refine ⟨?_, ?_, ?_, fun tag => ?_⟩
      · rw [enterHalted_port]; rfl
      · rw [enterHalted_port]; rfl
      · rw [enterHalted_port]; rfl
      · rw [enterHalted_tag]
        cases s.tag p tag <;> rfl
  · intro s t r timer busy role
    constructor
    · have failed : exec (.readCompletion .a t .error) s = .next (checkStopped (arbitrate .a
          (readAnswered t r .error (setTag .a t .free s)))) :=
        congrArg Host.Outcome.next (takeCompletion_of_busy busy .error)
      obtain ⟨halted, taken, writes, tags, lanes, -⟩ :=
        fatalFault_spec .areaReadFailed .port (setTag .a t .free s)
      rw [failed, readAnswered_areaFailed role t (.inl rfl), fatalFault, arbitrate_of_halted, checkStopped_of_halted]
      refine ⟨_, rfl, halted, taken, writes, ?_, lanes⟩
      exact (tags .a t).trans (by rw [tag_setTag_same]; rfl)
    · obtain ⟨halted, taken, writes, tags, lanes, -⟩ :=
        fatalFault_spec .areaReadFailed .port (setTag .a t (.quarantine .control s.portA.period) s)
      rw [execReadTimeout_of_busy busy, readAnswered_areaFailed role t (.inr rfl), role, fatalFault,
        checkStopped_of_halted]
      refine ⟨_, rfl, halted, taken, writes, ?_, lanes⟩
      exact (tags .a t).trans (by rw [tag_setTag_same]; rfl)

end Sys2Proof.Machine
end

section
/-! The tick expiry (O17). -/

namespace Sys2Proof.Machine

/-! ## The calendar's release (R37) -/

theorem releaseDueFuel_of_due {n : CadNo} {rest : List CadNo} {s : State} (front : s.calendar = n :: rest)
    (due : (s.cad n).nextDue ≤ s.tick) (fuel : Nat) :
    releaseDueFuel (fuel + 1) s = releaseDueFuel fuel (dispatch (releaseEntry n s)) := by
  rw [releaseDueFuel, front]
  exact if_pos due

/-- No entry at the front of the calendar is due. -/
def frontRests (s : State) : Prop := ∀ n rest, s.calendar = n :: rest → s.tick < (s.cad n).nextDue

theorem releaseDueFuel_of_rests {s : State} (rests : frontRests s) (fuel : Nat) :
    releaseDueFuel fuel s = s := by
  cases fuel with
  | zero => rfl
  | succ fuel =>
    rw [releaseDueFuel]
    cases front : s.calendar with
    | nil => rfl
    | cons n rest => exact if_neg (Nat.not_le.mpr (rests n rest front))

theorem releaseDue_of_rests {s : State} (rests : frontRests s) : releaseDue s = s :=
  releaseDueFuel_of_rests rests _

theorem releaseDue_of_due {n : CadNo} {rest : List CadNo} {s : State} (front : s.calendar = n :: rest)
    (due : (s.cad n).nextDue ≤ s.tick) : releaseDue s = releaseDue (dispatch (releaseEntry n s)) := by
  have fewer := releaseEntry_due front due
  have dispatched := (NoneDue.dispatch (releaseEntry n s)).due
  have room := dueCount_le s
  obtain ⟨more, length⟩ : ∃ more, s.calendar.length = more + 1 := ⟨rest.length, by rw [front]; rfl⟩
  rw [releaseDue, length, releaseDueFuel_of_due front due, releaseDue,
    releaseDueFuel_enough more _ (by omega), releaseDueFuel_enough _ _ (dueCount_le _)]

/-- The calendar's release ends with nothing due at the front. -/
theorem releaseDueFuel_rests {fuel : Nat} {s : State} (enough : dueCount s ≤ fuel) :
    frontRests (releaseDueFuel fuel s) := by
  induction fuel generalizing s with
  | zero =>
    intro n rest front
    change s.calendar = n :: rest at front
    refine Nat.lt_of_not_le fun due => ?_
    have fewer := releaseEntry_due front due
    omega
  | succ fuel ih =>
    cases front : s.calendar with
    | nil =>
      rw [releaseDueFuel_of_rests (s := s) (by rw [frontRests, front]; exact nofun)]
      rw [frontRests, front]
      exact nofun
    | cons n rest =>
      by_cases due : (s.cad n).nextDue ≤ s.tick
      · rw [releaseDueFuel_of_due front due]
        have fewer := releaseEntry_due front due
        have dispatched := (NoneDue.dispatch (releaseEntry n s)).due
        exact ih (by omega)
      · have rests : frontRests s := by
          intro m rest' same
          obtain ⟨rfl, -⟩ := List.cons.inj (front.symm.trans same)
          exact Nat.not_le.mp due
        rw [releaseDueFuel_of_rests rests]
        exact rests

theorem releaseDue_rests (s : State) : frontRests (releaseDue s) := releaseDueFuel_rests (dueCount_le s)

/-- A released entry (R14, R37). -/
theorem releaseEntry_spec (n : CadNo) (s : State) :
    let u := releaseEntry n s
    u.cad n = { s.cad n with currentDue := (s.cad n).nextDue, place := .ready } ∧
      (∀ m, m ≠ n → u.cad m = s.cad m) ∧ u.calendar = s.calendar.filter (fun m => m != n) ∧
      u.ready.Perm (.service n :: s.ready) ∧
      u = { s with cadences := u.cadences, calendar := u.calendar, ready := u.ready } :=
  ⟨cad_setCad_same _ _ _, fun _ ne => cad_setCad_ne (Ne.symm ne) _ _, rfl, readyInsert_perm _ _ _, rfl⟩

/-! ## The tick (R30, R31, R33) -/

theorem exec_tickExpiry_of_running {s : State} (on : s.tickTimerOn = true) (below : s.tick < 2 ^ 48 - 1)
    (runs : s.bridge = .running) : exec .tickExpiry s = .next (runningTick s) := by
  have within : ¬Config.tickLimit ≤ s.tick := Nat.not_le.mpr below
  change execTickExpiry s = _
  rw [execTickExpiry, if_neg (by rw [on]; decide), if_neg within, if_pos runs]

theorem exec_tickExpiry_of_not_running {s : State} (on : s.tickTimerOn = true) (below : s.tick < 2 ^ 48 - 1)
    (rests : s.bridge ≠ .running) : exec .tickExpiry s = .next { s with tick := s.tick + 1 } := by
  have within : ¬Config.tickLimit ≤ s.tick := Nat.not_le.mpr below
  change execTickExpiry s = _
  rw [execTickExpiry, if_neg (by rw [on]; decide), if_neg within, if_neg rests]

theorem exec_tickExpiry_of_limit {s : State} (on : s.tickTimerOn = true) (limit : s.tick = 2 ^ 48 - 1) :
    exec .tickExpiry s = .next (fatalFault .tickLimit .bridge s) := by
  have reached : Config.tickLimit ≤ s.tick := Nat.le_of_eq limit.symm
  change execTickExpiry s = _
  rw [execTickExpiry, if_neg (by rw [on]; decide), if_pos reached]

/-- The sweep timer counts with the tick (R33). -/
theorem countSweepTick_eq (s : State) :
    countSweepTick s =
      { s with sweepTimer := if 0 < s.hdr.sweepTicks then s.sweepTimer + 1 else s.sweepTimer } := by
  unfold countSweepTick
  split <;> rfl

/-- A tick with no sweep-timer expiry to be taken. -/
theorem runningTick_of_not_due {s : State} (notDue : s.hdr.sweepTicks = 0 ∨ s.sweepTimer < s.hdr.sweepTicks) :
    runningTick s =
      { releaseDue { s with tick := s.tick + 1 } with
        sweepTimer := if 0 < s.hdr.sweepTicks then s.sweepTimer + 1 else s.sweepTimer } := by
  have stays : ¬sweepDue s = true := by
    rw [sweepDue_iff]
    omega
  have quiet := Quiet.releaseDue { s with tick := s.tick + 1 }
  have hdr : (releaseDue { s with tick := s.tick + 1 }).hdr = s.hdr := congrArg (·.getD .blank) quiet.settings
  rw [runningTick, if_neg stays, countSweepTick_eq, hdr, quiet.sweepTimer]

/-- A tick with the sweep timer's expiry still to be taken: the expiry comes first (log 2). -/
theorem runningTick_of_due {s : State} (on : 0 < s.hdr.sweepTicks) (due : s.hdr.sweepTicks ≤ s.sweepTimer) :
    runningTick s =
      { releaseDue { expireSweepTimer s with tick := s.tick + 1 } with sweepTimer := 1 } := by
  have steady : Steady { s with sweepTimer := 0 } (expireSweepTimer s) := .requestSweep _
  have quiet := Quiet.releaseDue { expireSweepTimer s with tick := s.tick + 1 }
  have hdr : (releaseDue { expireSweepTimer s with tick := s.tick + 1 }).hdr = s.hdr :=
    congrArg (·.getD .blank) (quiet.settings.trans steady.settings)
  have tick : (expireSweepTimer s).tick = s.tick := steady.tick
  have timer : (releaseDue { expireSweepTimer s with tick := s.tick + 1 }).sweepTimer = 0 :=
    quiet.sweepTimer.trans steady.sweepTimer
  rw [runningTick, if_pos ((sweepDue_iff s).mpr ⟨on, due⟩), tick, countSweepTick_eq, hdr, timer, if_pos on]

/-- Settles O17. -/
theorem tickExpiry : Obligations.TickExpiry := by
  refine ⟨?counts, ?running, ?release, ?limit⟩
  case counts =>
    refine fun s => ⟨fun off => if_pos off, fun on below => ⟨exec_tickExpiry_of_not_running on below, ?_⟩⟩
    intro runs notDue rests
    rw [exec_tickExpiry_of_running on below runs, runningTick_of_not_due notDue,
      releaseDue_of_rests (s := { s with tick := s.tick + 1 }) rests]
  case running =>
    intro s on below runs
    refine ⟨_, exec_tickExpiry_of_running on below runs, ?_⟩
    by_cases due : 0 < s.hdr.sweepTicks ∧ s.hdr.sweepTicks ≤ s.sweepTimer
    · obtain ⟨on, due⟩ := due
      have steady : Steady { s with sweepTimer := 0 } (expireSweepTimer s) := .requestSweep _
      have quiet := Quiet.releaseDue { expireSweepTimer s with tick := s.tick + 1 }
      rw [runningTick_of_due on due]
      refine ⟨quiet.tick, quiet.bridge.trans (steady.bridge.trans runs), fun notDue => by omega, fun _ _ => ?_,
        releaseDue_rests _⟩
      exact ⟨_, exec_sweepTimerExpiry_of_due runs on due, rfl⟩
    · have notDue : s.hdr.sweepTicks = 0 ∨ s.sweepTimer < s.hdr.sweepTicks := by omega
      have quiet := Quiet.releaseDue { s with tick := s.tick + 1 }
      rw [runningTick_of_not_due notDue]
      exact ⟨quiet.tick, quiet.bridge.trans runs, fun _ => rfl, fun on late => absurd ⟨on, late⟩ due,
        releaseDue_rests _⟩
  case release =>
    intro s n rest front
    refine ⟨fun later => releaseDue_of_rests ?_, fun due => ⟨releaseDue_of_due front due, releaseEntry_spec n s⟩⟩
    intro m rest' same
    obtain ⟨rfl, -⟩ := List.cons.inj (front.symm.trans same)
    exact later
  case limit =>
    intro s on limit
    obtain ⟨halted, taken, -, -, -, tick, off⟩ := fatalFault_spec .tickLimit .bridge s
    exact ⟨_, exec_tickExpiry_of_limit on limit, halted, tick.trans limit, off, taken⟩

end Sys2Proof.Machine
end

section
/-! What the arbiters leave of a lane, and the starts of jobs (O30 to O32). -/

namespace Sys2Proof.Machine

/-! ## What an arbiter leaves (R117, R118) -/

/-- What a grant changes. -/
structure Granted (s t : State) : Prop where
  rest : t = { s with
    lanes := t.lanes, portA := t.portA, portB := t.portB, controlQueue := t.controlQueue, choice := t.choice }
  work : ∀ k, (t.lane k).work = (s.lane k).work

namespace Granted

theorem refl (s : State) : Granted s s := ⟨rfl, fun _ => rfl⟩

theorem trans {s t u : State} (h : Granted s t) (g : Granted t u) : Granted s u :=
  ⟨by rw [g.rest, h.rest], fun k => (g.work k).trans (h.work k)⟩

theorem setPort (p : Domain) (x : Port) (s : State) : Granted s (setPort p x s) := by
  cases p <;> exact ⟨rfl, fun _ => rfl⟩

theorem setLane {k : LaneNo} {l : Lane} {s : State} (work : l.work = (s.lane k).work) :
    Granted s (setLane k l s) := by
  refine ⟨rfl, fun j => ?_⟩
  rw [lane_setLane]
  split
  · rename_i same
    exact same ▸ work
  · rfl

theorem issueRead (p : Domain) (t : TagNo) (r : ReadInfo) (s : State) : Granted s (issueRead p t r s) :=
  setPort _ _ _

theorem asking_work (l : Lane) : l.asking.work = l.work := by
  rw [asking_eq]
  rfl

theorem grantLane (p : Domain) (k : LaneNo) (t : TagNo) (s : State) : Granted s (grantLane p k t s) := by
  have served := setPort p { s.port p with lastServed := k } s
  have lane : ((Machine.setPort p { s.port p with lastServed := k } s).lane k) = s.lane k := lane_setPort _ _ _ _
  refine served.trans ?_
  unfold Machine.grantLane
  dsimp only
  split
  · exact setLane (by rw [lane]; rfl)
  · split
    · refine (issueRead _ _ _ _).trans (setLane ?_)
      rw [asking_work, issueRead_lane]
      rfl
    · refine (issueRead _ _ _ _).trans (setLane ?_)
      rw [issueRead_lane]
      rfl

theorem arbitrateOnce {p : Domain} {s u : State} (acts : arbitrateOnce p s = some u) : Granted s u := by
  obtain ⟨t, c, -, ⟨r, rest, -, -, rfl⟩ | ⟨k, -, rfl⟩⟩ := arbitrateOnce_eq_some acts
  · exact ⟨rfl, fun _ => rfl⟩
  · have drawn : Granted s { s with choice := c } := ⟨rfl, fun _ => rfl⟩
    exact drawn.trans (grantLane p k t _)

theorem arbitrate (p : Domain) (s : State) : Granted s (arbitrate p s) := by
  unfold Machine.arbitrate
  generalize 28 = fuel
  induction fuel generalizing s with
  | zero => exact refl s
  | succ fuel ih =>
    cases acts : Machine.arbitrateOnce p s with
    | none =>
      simp only [arbitrateFuel, acts]
      exact refl s
    | some u =>
      simp only [arbitrateFuel, acts]
      exact (arbitrateOnce acts).trans (ih u)

/-- The fields of a lane that a grant leaves. -/
theorem lane {s t : State} (h : Granted s t) (k : LaneNo) :
    (s.lane k).Same (t.lane k) ∧ (t.lane k).state = (s.lane k).state ∧
      (t.lane k).failure = (s.lane k).failure := by
  have work := h.work k
  exact ⟨⟨congrArg (·.job) work, congrArg (·.written) work, congrArg (·.held) work,
    congrArg (·.startByte) work⟩, congrArg (·.state) work, congrArg (·.failure) work⟩

end Granted

theorem Lane.Same.trans {l m n : Lane} (h : l.Same m) (g : m.Same n) : l.Same n :=
  ⟨g.job.trans h.job, g.written.trans h.written, g.held.trans h.held, g.startByte.trans h.startByte⟩

/-- A lane that asks for a tag keeps its job and what it has written, and its state where the port answers. -/
theorem askTag_lane (k : LaneNo) (p : Domain) (s : State) :
    (s.lane k).Same ((askTag k p s).lane k) ∧
      (p = .a ∨ s.linkUp = true → ((askTag k p s).lane k).state = (s.lane k).state) := by
  by_cases answers : p = .a ∨ s.linkUp = true
  · obtain ⟨same, state, -⟩ :=
      (Granted.arbitrate p (setLane k { s.lane k with tagRequest := some p } s)).lane k
    rw [lane_setLane_same] at same state
    rw [askTag_of_open answers]
    exact ⟨⟨same.job, same.written, same.held, same.startByte⟩, fun _ => state⟩
  · refine ⟨?_, fun yes => absurd yes answers⟩
    have down : p = .b ∧ s.linkUp = false := by
      cases p <;> simp_all
    obtain ⟨rfl, down⟩ := down
    rw [askTag_of_down down]
    exact (failLane_lane k .peerLost s).1

theorem askSource_lane (k : LaneNo) (s : State) :
    (s.lane k).Same ((askSource k s).lane k) ∧
      ((s.lane k).srcPort = .a ∨ s.linkUp = true → ((askSource k s).lane k).state = (s.lane k).state) := by
  unfold askSource
  split
  · exact askTag_lane k _ s
  · exact ⟨.refl _, fun _ => rfl⟩

theorem askTag_frame (k : LaneNo) (p : Domain) (s : State) :
    askTag k p s =
      { s with
        lanes := (askTag k p s).lanes, cadences := (askTag k p s).cadences, portA := (askTag k p s).portA
        portB := (askTag k p s).portB, controlQueue := (askTag k p s).controlQueue
        choice := (askTag k p s).choice } := by
  unfold askTag
  split
  · rw [failLane_frame]
  · rw [(Granted.arbitrate p _).rest]
    rfl

theorem askSource_frame (k : LaneNo) (s : State) :
    askSource k s =
      { s with
        lanes := (askSource k s).lanes, cadences := (askSource k s).cadences, portA := (askSource k s).portA
        portB := (askSource k s).portB, controlQueue := (askSource k s).controlQueue
        choice := (askSource k s).choice } := by
  unfold askSource
  split
  · rw [askTag_frame]
  · rfl

/-! ## A service with a miss (R22, R24) -/

theorem stampService_none (k : LaneNo) (n : CadNo) (s : State) :
    stampService k n none s =
      setLane k ((s.lane k).stamping s.tick none [.misses]) (settleService n false false s) := rfl

/-- A service that adds a miss and consumes no slot (R22, R24). -/
theorem missed_spec {k : LaneNo} {n : CadNo} {s : State} (job : (s.lane k).job = .service n) :
    let e := s.cad n
    let c := s.cfg n
    let t := enterStamping k none (countMiss n s)
    t.lane k = (s.lane k).stamping s.tick none [.misses] ∧
      t.cad n = { e with
        misses := e.misses + 1 + BitVec.ofNat 32 (overrunCount e c.period s.tick)
        nextDue := if e.state = .armed then firstGridAfter c.period c.phase s.tick else e.nextDue
        resumeMark := false } ∧
      t = { s with lanes := t.lanes, cadences := t.cadences } ∧
      (∀ j, j ≠ k → t.lane j = s.lane j) ∧ ∀ m, m ≠ n → t.cad m = s.cad m := by
  intro e c t
  have stamped : t = stampService k n none (countMiss n s) := enterStamping_service (s := countMiss n s) job none
  have counted : (countMiss n s).cad n = { e with misses := e.misses + 1 } := cad_setCad_same _ _ _
  rw [stamped, stampService_none]
  refine ⟨lane_setLane_same _ _ _, ?_, rfl, fun j ne => lane_setLane_ne (Ne.symm ne) _ _, fun m ne => ?_⟩
  · rw [cad_setLane, settleService, cad_setCad_same, counted]
    simp only [State.cfg, nextInstant, counted]
    rfl
  · exact (settleService_cad_ne (Ne.symm ne) _ _ _).trans (cad_setCad_ne (Ne.symm ne) _ _)

/-! ## The reads of a service (O30) -/

theorem readAnswered_lent {k : LaneNo} {n : CadNo} {r : ReadInfo} {s : State} (requester : r.requester = .lane k)
    (role : r.role = .control) (job : (s.lane k).job = .service n) (step : (s.lane k).loadStep = .lent)
    (t : TagNo) (bytes : List Byte) :
    readAnswered t r (.data bytes) s = lentRead k n (BitVec.ofNat 32 (fieldAt 0 4 bytes)) s := by
  rw [readAnswered_control role, requester, controlRead, laneControlRead, job]
  dsimp only
  rw [step]

theorem readAnswered_slot {k : LaneNo} {n : CadNo} {r : ReadInfo} {s : State} (requester : r.requester = .lane k)
    (role : r.role = .control) (job : (s.lane k).job = .service n) (step : (s.lane k).loadStep = .slot)
    (t : TagNo) (bytes : List Byte) : readAnswered t r (.data bytes) s = slotRead k n bytes s := by
  rw [readAnswered_control role, requester, controlRead, laneControlRead, job]
  dsimp only
  rw [step]

/-- The LENT read, once Last LENT is replaced (R16). -/
theorem lentRead_eq (k : LaneNo) (n : CadNo) (lent : Count) (s : State) :
    let s1 := setCad n { s.cad n with lastLent := lent } s
    let outstanding := (lent - (s.cad n).tally).toNat
    let slot := (s.cfg n).ringAddr + BitVec.ofNat 64 (32 * ((s.cad n).tally.toNat % (s.cfg n).ringSize))
    lentRead k n lent s =
      if outstanding = 0 then enterStamping k none (countMiss n s1)
      else if (s.cfg n).ringSize < outstanding then
        jobEnd k s.tick (takeBetween n (holdingFault .lendOverrun n s1))
      else
        requestControl (.lane k) slot 8 (setLane k { s.lane k with loadStep := .slot, slotAddr := slot } s1) := by
  simp only [lentRead, State.cfg, cad_setCad_same, outstandingCount, setCad_tick, lane_setCad]
  rfl

/-- The offsets of a slot fit the windows of the service (R17). -/
theorem inBounds_iff (x : WinConfig) (offset length : Nat) :
    inBounds x offset length = true ↔ offset % 4 = 0 ∧ offset + length ≤ x.size := by
  simp [inBounds]

theorem slotRead_eq {n : CadNo} {s : State} {src dst : WinConfig}
    (source : (s.win (s.cfg n).srcWindow).config = some src)
    (destination : (s.win (s.cfg n).dstWindow).config = some dst) (k : LaneNo) (bytes : List Byte) :
    slotRead k n bytes s =
      if inBounds src (fieldAt 0 4 bytes) (s.cfg n).length && inBounds dst (fieldAt 4 4 bytes) (s.cfg n).length then
        if (s.lane k).peerMark then enterStamping k (some .peerLost) s
        else
          askSource k (setLane k
            { s.lane k with
              state := .moving
              srcAddr := src.base + BitVec.ofNat 64 (fieldAt 0 4 bytes)
              dstAddr := dst.base + BitVec.ofNat 64 (fieldAt 4 4 bytes) } s)
      else enterStamping k (some .badSlot) s := by
  unfold slotRead
  dsimp only
  rw [source, destination]
  rfl

/-- A service that enters STAMPING with an outcome has its TALLY raised. -/
theorem enterStamping_service_stamps {k : LaneNo} {n : CadNo} {s : State} (job : (s.lane k).job = .service n)
    {o : Outcome} (notDone : o ≠ .done) :
    let t := enterStamping k (some o) s
    StampsOutcome k o s t ∧ (t.lane k).job = .service n ∧ (t.lane k).written = (s.lane k).written ∧
      (t.cad n).tally = (s.cad n).tally + 1 ∧ (t.cad n).state = (s.cad n).state := by
  intro t
  have busy : (s.lane k).job ≠ .none := by rw [job]; exact nofun
  have stamps := enterStamping_stamps busy notDone
  obtain ⟨outcome, left, lane⟩ := enterStamping_lane busy (some o)
  have serves : (t.lane k).job = .service n := (congrArg Lane.job lane).trans job
  obtain ⟨-, -, service, -⟩ := stamps
  obtain ⟨-, -, entry⟩ := service n serves
  exact ⟨enterStamping_stamps busy notDone, serves, (congrArg Lane.written lane :),
    (congrArg CadEntry.tally entry :), (congrArg CadEntry.state entry :)⟩

/-- Settles O30: the three ends of the LENT read, and the three of the slot read. -/
theorem serviceReads : Obligations.ServiceReads := by
  constructor
  · intro s k n tag r bytes requester role job step lent c e outstanding s1 t
    have answered : t = _ := (readAnswered_lent requester role job step tag bytes).trans (lentRead_eq ..)
    refine ⟨fun none => ?_, fun some fits => ?_, fun overrun some => ?_⟩
    · rw [if_pos none] at answered
      obtain ⟨lane, cad, frame, -, -⟩ := missed_spec (s := s1) (k := k) (n := n) job
      have entry : s1.cad n = { e with lastLent := lent } := cad_setCad_same _ _ _
      rw [State.cfg, entry] at cad
      rw [answered, lane, cad]
      exact ⟨rfl, rfl, rfl, rfl, rfl, rfl, rfl, frame⟩
    · rw [if_neg (Nat.ne_of_gt some), if_neg (Nat.not_lt.mpr fits)] at answered
      exact answered
    · rw [if_neg (Nat.ne_of_gt some), if_pos overrun] at answered
      exact answered
  · intro s k n tag r bytes src dst requester role job step c source destination a b good t
    have answered : t = _ :=
      (readAnswered_slot requester role job step tag bytes).trans (slotRead_eq source destination ..)
    have fits : (inBounds src a c.length && inBounds dst b c.length) = true ↔ good := by
      rw [Bool.and_eq_true, inBounds_iff, inBounds_iff, and_assoc]
    refine ⟨fun bad => ?_, fun fine mark => ?_, fun fine mark => ?_⟩
    · rw [if_neg (mt fits.mp bad)] at answered
      rw [answered]
      exact enterStamping_service_stamps job (by decide)
    · rw [if_pos (fits.mpr fine), mark, if_pos rfl] at answered
      rw [answered]
      obtain ⟨stamps, serves, written, tally, -⟩ := enterStamping_service_stamps job (o := .peerLost) (by decide)
      exact ⟨stamps, serves, written, tally⟩
    · rw [if_pos (fits.mpr fine), mark, if_neg (by decide)] at answered
      exact answered

end Sys2Proof.Machine
end

section
/-! The dispatch checks of a service (O31). -/

namespace Sys2Proof.Machine

/-! ## A command taken while a job ends (R23, R25) -/

/-- From `s` to `t` the fault record, the windows and the lanes stand, and the counts of cadence `n`. -/
structure Decided (n : CadNo) (s t : State) : Prop where
  faultRec : t.faultRec = s.faultRec
  further : t.further = s.further
  windows : t.windows = s.windows
  tally : (t.cad n).tally = (s.cad n).tally
  misses : (t.cad n).misses = (s.cad n).misses
  lates : (t.cad n).lates = (s.cad n).lates

namespace Decided

theorem refl (n : CadNo) (s : State) : Decided n s s := ⟨rfl, rfl, rfl, rfl, rfl, rfl⟩

theorem trans {n : CadNo} {s t u : State} (h : Decided n s t) (g : Decided n t u) : Decided n s u :=
  ⟨g.faultRec.trans h.faultRec, g.further.trans h.further, g.windows.trans h.windows, g.tally.trans h.tally,
    g.misses.trans h.misses, g.lates.trans h.lates⟩

/-- The composition read from its last step, which names the state between. -/
theorem before {n : CadNo} {s t u : State} (g : Decided n t u) (h : Decided n s t) : Decided n s u := h.trans g

/-- The cadences stand too. -/
theorem of_cadences {n : CadNo} {s t : State} (faultRec : t.faultRec = s.faultRec) (further : t.further = s.further)
    (windows : t.windows = s.windows) (cadences : t.cadences = s.cadences) : Decided n s t := by
  have cad : t.cad n = s.cad n := by rw [State.cad, State.cad, cadences]
  exact ⟨faultRec, further, windows, by rw [cad], by rw [cad], by rw [cad]⟩

theorem setCad {n m : CadNo} {e : CadEntry} {s : State} (tally : e.tally = (s.cad m).tally)
    (misses : e.misses = (s.cad m).misses) (lates : e.lates = (s.cad m).lates) : Decided n s (setCad m e s) := by
  by_cases same : m = n
  · subst same
    exact ⟨rfl, rfl, rfl, by rw [cad_setCad_same, tally], by rw [cad_setCad_same, misses],
      by rw [cad_setCad_same, lates]⟩
  · have cad : (Machine.setCad m e s).cad n = s.cad n := cad_setCad_ne same e s
    exact ⟨rfl, rfl, rfl, by rw [cad], by rw [cad], by rw [cad]⟩

theorem recordWrite (n : CadNo) (r : Record) (offset size value : Nat) (s : State) :
    Decided n s (recordWrite r offset size value s) := by
  rw [recordWrite_eq, issueWrite_ports]
  exact of_cadences rfl rfl rfl rfl

theorem raise (n : CadNo) (c : Cause) (s : State) : Decided n s (raise c s) := by
  rw [raise_frame]
  exact of_cadences rfl rfl rfl rfl

theorem setCadState {n m : CadNo} {e : CadEntry} {s : State} (tally : e.tally = (s.cad m).tally)
    (misses : e.misses = (s.cad m).misses) (lates : e.lates = (s.cad m).lates) :
    Decided n s (setCadState m e s) :=
  (recordWrite n _ _ _ _ _).before (setCad tally misses lates)

theorem setAck (n : CadNo) (r : Record) (q : Byte) (s : State) : Decided n s (setAck r q s) := by
  cases r <;> exact of_cadences rfl rfl rfl rfl

theorem answerCommand (n : CadNo) (d : Delivery) (result : Result) (s : State) :
    Decided n s (answerCommand d result s) := by
  unfold Machine.answerCommand
  dsimp only
  split
  · exact (raise n _ _).before ((recordWrite n _ _ _ _ _).before ((recordWrite n _ _ _ _ _).before (setAck n _ _ s)))
  · exact (recordWrite n _ _ _ _ _).before ((recordWrite n _ _ _ _ _).before (setAck n _ _ s))

theorem takeOff (n m : CadNo) (s : State) : Decided n s (takeOff m s) := of_cadences rfl rfl rfl rfl

theorem readyJoin (n : CadNo) (e : ReadyEntry) (s : State) : Decided n s (readyJoin e s) :=
  of_cadences rfl rfl rfl rfl

theorem releaseEntry (n m : CadNo) (s : State) : Decided n s (releaseEntry m s) := by
  have off : Decided n s { s with calendar := s.calendar.filter (fun x => x != m) } := of_cadences rfl rfl rfl rfl
  exact (readyJoin n _ _).before (off.trans (setCad rfl rfl rfl))

theorem calendarJoin (n m : CadNo) (s : State) : Decided n s (calendarJoin m s) := by
  have placed : Decided n s (Machine.setCad m { s.cad m with place := .calendar } s) := setCad rfl rfl rfl
  unfold Machine.calendarJoin
  dsimp only
  split
  · exact (releaseEntry n m _).before (placed.trans (of_cadences rfl rfl rfl rfl))
  · exact placed.trans (of_cadences rfl rfl rfl rfl)

theorem placeAtJobEnd (n m : CadNo) (u : Nat) (s : State) : Decided n s (placeAtJobEnd m u s) := by
  unfold Machine.placeAtJobEnd
  dsimp only
  split
  · exact (calendarJoin n m _).before (setCad rfl rfl rfl)
  · exact (readyJoin n _ _).before (setCad rfl rfl rfl)
  · exact setCad rfl rfl rfl
  · exact setCad rfl rfl rfl
  · exact setCad rfl rfl rfl

theorem takeArm (n m : CadNo) (f : ArmFields) (d : Delivery) (s : State) : Decided n s (takeArm m f d s) := by
  unfold Machine.takeArm
  dsimp only
  split
  · exact answerCommand n _ _ _
  · exact answerCommand n _ _ _
  · exact answerCommand n _ _ _
  · exact answerCommand n _ _ _
  · split
    · exact answerCommand n _ _ _
    · split
      · exact answerCommand n _ _ _
      · split
        · exact answerCommand n _ _ _
        · exact (answerCommand n _ _ _).before ((recordWrite n _ _ _ _ _).before
            ((calendarJoin n m _).before (setCad rfl rfl rfl)))

theorem takePause (n m : CadNo) (d : Delivery) (s : State) : Decided n s (takePause m d s) := by
  have paused : Decided n s (pauseCadence m s) := (takeOff n m s).trans (setCadState rfl rfl rfl)
  unfold Machine.takePause
  split
  · exact answerCommand n _ _ _
  · exact answerCommand n _ _ _
  · exact answerCommand n _ _ _
  · exact paused.trans (answerCommand n _ _ _)
  · exact paused.trans (answerCommand n _ _ _)

theorem resumeCadence (n m : CadNo) (s : State) : Decided n s (resumeCadence m s) := by
  unfold Machine.resumeCadence
  dsimp only
  split
  · exact setCadState rfl rfl rfl
  · exact (recordWrite n _ _ _ _ _).before ((calendarJoin n m _).before (setCad rfl rfl rfl))

theorem takeResume (n m : CadNo) (d : Delivery) (s : State) : Decided n s (takeResume m d s) := by
  unfold Machine.takeResume
  split
  · exact answerCommand n _ _ _
  · exact answerCommand n _ _ _
  · exact answerCommand n _ _ _
  · exact (resumeCadence n m s).trans (answerCommand n _ _ _)
  · exact (resumeCadence n m s).trans (answerCommand n _ _ _)

theorem retireCadence (n m : CadNo) (d : Delivery) (s : State) : Decided n s (retireCadence m d s) := by
  unfold Machine.retireCadence
  dsimp only
  split
  · exact (answerCommand n _ _ _).before ((takeOff n m s).trans (setCadState rfl rfl rfl))
  · exact (readyJoin n _ _).before
      ((answerCommand n _ _ _).before ((takeOff n m s).trans (setCadState rfl rfl rfl)))

theorem takeRetire (n m : CadNo) (d : Delivery) (s : State) : Decided n s (takeRetire m d s) := by
  unfold Machine.takeRetire
  split
  · exact answerCommand n _ _ _
  · exact answerCommand n _ _ _
  · exact retireCadence n m d s
  · exact retireCadence n m d s
  · exact retireCadence n m d s

theorem takeCadenceCommand (n m : CadNo) (d : Delivery) (s : State) : Decided n s (takeCadenceCommand m d s) := by
  unfold Machine.takeCadenceCommand
  split
  · exact takeArm n m _ d s
  · exact takePause n m d s
  · exact takeResume n m d s
  · exact takeRetire n m d s
  · unfold takeUnknownCadence
    split
    · exact answerCommand n _ _ _
    · exact answerCommand n _ _ _

theorem takeBetween (n m : CadNo) (s : State) : Decided n s (takeBetween m s) := by
  have drawn : Decided n s { s with choice := s.choice / 2 } := of_cadences rfl rfl rfl rfl
  unfold Machine.takeBetween
  split
  · exact refl n s
  · dsimp only
    split
    · exact drawn.trans (takeCadenceCommand n m _ _)
    · exact drawn

end Decided

/-! ## Windows that a service may use (R107) -/

theorem admitted_eq_some {s : State} {n : WinNo} {write : Bool} {x : WinConfig} :
    admitted s n write = some x ↔
      (s.win n).state = .opened ∧ (s.win n).config = some x ∧ x.grants write = true := by
  unfold admitted
  cases opened : openConfig s n with
  | none =>
    refine ⟨nofun, fun ⟨state, config, _⟩ => ?_⟩
    exact absurd (opened.symm.trans (openConfig_eq_some.mpr ⟨state, config⟩)) nofun
  | some c =>
    obtain ⟨state, config⟩ := openConfig_eq_some.mp opened
    rw [Option.ite_none_right_eq_some, Option.some_inj, config, Option.some_inj]
    constructor
    · rintro ⟨grants, rfl⟩
      exact ⟨state, rfl, grants⟩
    · rintro ⟨-, rfl, grants⟩
      exact ⟨grants, rfl⟩

theorem holdWindows_frame (held : List WinNo) (s : State) :
    holdWindows held s = { s with windows := (holdWindows held s).windows } := by
  induction held generalizing s with
  | nil => rfl
  | cons n rest ih =>
    rw [holdWindows, ih]
    rfl

theorem holdWindows_win (held : List WinNo) (s : State) (w : WinNo) :
    (holdWindows held s).win w = { s.win w with useCount := (s.win w).useCount + held.count w } := by
  induction held generalizing s with
  | nil => rfl
  | cons n rest ih =>
    rw [holdWindows, ih, holdWindow]
    by_cases same : n = w
    · subst same
      rw [win_setWin_same, List.count_cons_self, Nat.add_assoc, Nat.add_comm 1]
    · rw [win_setWin_ne same, List.count_cons_of_ne same]

theorem peerBlocked_iff (s : State) (domains : List Domain) :
    peerBlocked s domains = true ↔ s.linkUp = false ∧ .b ∈ domains := by
  simp [peerBlocked]

/-! ## The hand-out of a service (R54) -/

/-- The service of a cadence in a lane, before its checks. -/
def serviceHanded (k : LaneNo) (n : CadNo) (s : State) : State :=
  setCad n { s.cad n with place := .lane k }
    (setLane k { Lane.idle with state := .loading, job := .service n, length := (s.cfg n).length } s)

theorem serviceHanded_cad (k : LaneNo) (n : CadNo) (s : State) :
    (serviceHanded k n s).cad n = { s.cad n with place := .lane k } := cad_setCad_same _ _ _

theorem serviceHanded_frame (k : LaneNo) (n : CadNo) (s : State) :
    serviceHanded k n s =
      { s with lanes := (serviceHanded k n s).lanes, cadences := (serviceHanded k n s).cadences } ∧
      (∀ j, j ≠ k → (serviceHanded k n s).lane j = s.lane j) ∧
      ∀ m, m ≠ n → (serviceHanded k n s).cad m = s.cad m :=
  ⟨rfl, fun _ ne => lane_setLane_ne (Ne.symm ne) _ _, fun _ ne => cad_setCad_ne (Ne.symm ne) _ _⟩

theorem startService_of_lost {k : LaneNo} {n : CadNo} {s : State}
    (lost : ∀ src dst, ¬(admitted s (s.cfg n).srcWindow false = some src ∧
      admitted s (s.cfg n).dstWindow true = some dst)) :
    startService k n s = loseWindow k n (serviceHanded k n s) := by
  unfold startService
  dsimp only
  split
  · rename_i src dst source destination
    exact absurd ⟨source, destination⟩ (lost src dst)
  · rfl

theorem startService_of_admitted {n : CadNo} {s : State} {src dst : WinConfig}
    (source : admitted s (s.cfg n).srcWindow false = some src)
    (destination : admitted s (s.cfg n).dstWindow true = some dst) (k : LaneNo) :
    startService k n s =
      if peerBlocked s [src.domain, dst.domain] then missPeerDown k n (serviceHanded k n s)
      else takeService k n src dst (serviceHanded k n s) := by
  unfold startService
  dsimp only
  rw [source, destination]
  rfl

/-! ## The end of a service (R25) -/

theorem recordWrite_frame (r : Record) (offset size value : Nat) (s : State) :
    recordWrite r offset size value s = { s with portA := (recordWrite r offset size value s).portA } := by
  rw [recordWrite_eq]
  unfold issueWrite
  split <;> rfl

/-- The answer to a command changes the record's acknowledged number, Port A's writes and the causes. -/
theorem answerCommand_frame (d : Delivery) (result : Result) (s : State) :
    answerCommand d result s =
      { s with
        portA := (answerCommand d result s).portA
        raised := (answerCommand d result s).raised, raisings := (answerCommand d result s).raisings
        ackWindows := (answerCommand d result s).ackWindows
        ackCadences := (answerCommand d result s).ackCadences } := by
  have acked : setAck d.record d.seq s =
      { s with
        ackWindows := (setAck d.record d.seq s).ackWindows
        ackCadences := (setAck d.record d.seq s).ackCadences } := by
    cases d.record <;> rfl
  unfold answerCommand
  dsimp only
  split
  · rw [raise_frame, recordWrite_frame, recordWrite_frame, acked]
  · rw [recordWrite_frame, recordWrite_frame, acked]

/-- A cadence that joins the calendar before its due tick stands there (R34, R35). -/
theorem calendarJoin_spec {n : CadNo} {s : State}
    (later : s.bridge = .running → s.tick < (s.cad n).nextDue) :
    let t := calendarJoin n s
    t.cad n = { s.cad n with place := .calendar } ∧ (∀ m, m ≠ n → t.cad m = s.cad m) ∧
      t.calendar.Perm (n :: s.calendar) ∧ t.ready = s.ready ∧
      t = { s with cadences := t.cadences, calendar := t.calendar } := by
  intro t
  have stays : t =
      { setCad n { s.cad n with place := .calendar } s with
        calendar := calendarInsert (setCad n { s.cad n with place := .calendar } s) n s.calendar } := by
    refine if_neg fun due => ?_
    have reached : ((setCad n { s.cad n with place := .calendar } s).cad n).nextDue ≤ s.tick := due.2
    rw [cad_setCad_same] at reached
    exact Nat.not_le.mpr (later due.1) reached
  rw [stays]
  exact ⟨cad_setCad_same _ _ _, fun m ne => cad_setCad_ne (Ne.symm ne) _ _, calendarInsert_perm _ _ _, rfl, rfl⟩

theorem placeAtJobEnd_of_armed {n : CadNo} {s : State} (armed : (s.cad n).state = .armed) (u : Nat) :
    placeAtJobEnd n u s =
      calendarJoin n (setCad n { s.cad n with nextDue := nextInstant s n u, resumeMark := false } s) := by
  unfold placeAtJobEnd
  dsimp only
  rw [armed]

theorem placeAtJobEnd_of_draining {n : CadNo} {s : State} (draining : (s.cad n).state = .draining) (u : Nat) :
    placeAtJobEnd n u s =
      readyJoin (.closing n) (setCad n { s.cad n with place := .ready, resumeMark := false } s) := by
  unfold placeAtJobEnd
  dsimp only
  rw [draining]

/-- A cadence that is neither ARMED nor DRAINING goes to place NONE (R25). -/
theorem placeAtJobEnd_of_other {n : CadNo} {s : State} (armed : (s.cad n).state ≠ .armed)
    (draining : (s.cad n).state ≠ .draining) (u : Nat) :
    placeAtJobEnd n u s = setCad n { s.cad n with place := .none, resumeMark := false } s := by
  unfold placeAtJobEnd
  dsimp only
  split
  · contradiction
  · contradiction
  · rfl
  · rfl
  · rfl

/-! ## A service that loses its windows (R15, R23, R25) -/

theorem loseWindow_eq (k : LaneNo) (n : CadNo) (s : State) :
    loseWindow k n s =
      setLane k .idle (placeAtJobEnd n s.tick (takeBetween n (holdingFault .windowLost n s))) := by
  have tick : (takeBetween n (holdingFault .windowLost n s)).tick = s.tick :=
    ((Quiet.holdingFault .windowLost n s).trans (Quiet.takeBetween n _)).tick
  rw [loseWindow, tick]

/-- A holding fault's own change of its cadence (R23). -/
theorem holdingFault_cad (code : FaultCode) (n : CadNo) (s : State) :
    (holdingFault code n s).cad n =
      if (s.cad n).state = .armed ∨ (s.cad n).state = .paused then
        { s.cad n with state := .held, resumeMark := false }
      else s.cad n := by
  split
  · rename_i active
    rw [holdingFault_of_active active, reportFault_cad, setCadState_cad]
  · rename_i other
    rw [holdingFault_of_other other, reportFault_cad]

theorem holdingFault_faultTaken (code : FaultCode) (n : CadNo) (s : State) :
    FaultTaken code .cadence n s (holdingFault code n s) := by
  by_cases active : (s.cad n).state = .armed ∨ (s.cad n).state = .paused
  · rw [holdingFault_of_active active]
    have taken := reportFault_faultTaken code .cadence n
      (setCadState n { s.cad n with state := .held, resumeMark := false } s)
    rw [setCadState, recordWrite_frame] at taken ⊢
    exact taken
  · rw [holdingFault_of_other active]
    exact reportFault_faultTaken code .cadence n s

theorem FaultTaken.of_decided {code : FaultCode} {kind : ObjectKind} {number : Nat} {n : CadNo} {s t u : State}
    (h : FaultTaken code kind number s t) (g : Decided n t u) : FaultTaken code kind number s u := by
  rw [FaultTaken, g.faultRec, g.further]
  exact h

/-- What a service that loses its windows leaves, whatever command is taken before its end. -/
theorem loseWindow_spec (k : LaneNo) (n : CadNo) (s : State) :
    let t := loseWindow k n s
    t.lane k = Lane.idle ∧ FaultTaken .windowLost .cadence n s t ∧ t.windows = s.windows ∧
      (t.cad n).tally = (s.cad n).tally ∧ (t.cad n).misses = (s.cad n).misses ∧
      (t.cad n).lates = (s.cad n).lates := by
  intro t
  have fault := holdingFault_faultTaken .windowLost n s
  have windows : (holdingFault .windowLost n s).windows = s.windows := by rw [holdingFault_frame]
  have counts := holdingFault_cad .windowLost n s
  have lost : Decided n (holdingFault .windowLost n s) t := by
    have placed := (Decided.placeAtJobEnd n n s.tick _).before
      (Decided.takeBetween n n (holdingFault .windowLost n s))
    refine Decided.trans placed ?_
    change Decided n _ (loseWindow k n s)
    rw [loseWindow_eq]
    exact .of_cadences rfl rfl rfl rfl
  refine ⟨lane_setLane_same _ _ _, fault.of_decided lost, lost.windows.trans windows, ?_, ?_, ?_⟩
  · rw [lost.tally, counts]
    split <;> rfl
  · rw [lost.misses, counts]
    split <;> rfl
  · rw [lost.lates, counts]
    split <;> rfl

/-- No command waits for a cadence where the one handed over for it is decided. -/
theorem waitingCommand_of_decided {n : CadNo} {s : State}
    (decided : ∀ d, s.scanner = .delivered d → d.record = .cadence n → s.ack d.record = some d.seq) :
    waitingCommand n s = none := by
  cases waits : waitingCommand n s with
  | none => rfl
  | some d =>
    obtain ⟨delivered, record, new⟩ := (waitingCommand_iff n d s).mp waits
    exact absurd (decided d delivered record) new

theorem waitingCommand_holdingFault (code : FaultCode) (n m : CadNo) (s : State) :
    waitingCommand n (holdingFault code m s) = waitingCommand n s := by
  rw [holdingFault_frame]
  rfl

/-- With no command waiting, the job's end follows the fault. -/
theorem loseWindow_of_nothing {n : CadNo} {s : State} (nothing : waitingCommand n s = none) (k : LaneNo) :
    loseWindow k n s = setLane k .idle (placeAtJobEnd n s.tick (holdingFault .windowLost n s)) := by
  rw [loseWindow_eq, takeBetween_none (by rw [waitingCommand_holdingFault, nothing])]

/-- An ARMED or PAUSED cadence ends HELD at place NONE (R25). -/
theorem loseWindow_of_active {n : CadNo} {s : State} (nothing : waitingCommand n s = none)
    (active : (s.cad n).state = .armed ∨ (s.cad n).state = .paused) (k : LaneNo) :
    let t := loseWindow k n s
    t.cad n = { s.cad n with state := .held, place := .none, resumeMark := false } ∧
      t.calendar = s.calendar ∧ t.ready = s.ready := by
  intro t
  have held : (holdingFault .windowLost n s).cad n = { s.cad n with state := .held, resumeMark := false } := by
    rw [holdingFault_cad, if_pos active]
  have ends : t = setLane k .idle (setCad n
      { (holdingFault .windowLost n s).cad n with place := .none, resumeMark := false }
      (holdingFault .windowLost n s)) := by
    change loseWindow k n s = _
    rw [loseWindow_of_nothing nothing, placeAtJobEnd_of_other (by rw [held]; exact nofun) (by rw [held]; exact nofun)]
  rw [ends, cad_setLane, cad_setCad_same, held]
  refine ⟨rfl, ?_, ?_⟩
  · rw [holdingFault_frame]; rfl
  · rw [holdingFault_frame]; rfl

/-- A DRAINING cadence ends with its closing entry in the ready queue (R25). -/
theorem loseWindow_of_draining {n : CadNo} {s : State} (nothing : waitingCommand n s = none)
    (draining : (s.cad n).state = .draining) (k : LaneNo) :
    let t := loseWindow k n s
    t.cad n = { s.cad n with place := .ready, resumeMark := false } ∧
      t.calendar = s.calendar ∧ t.ready.Perm (.closing n :: s.ready) := by
  intro t
  have stays : (holdingFault .windowLost n s).cad n = s.cad n := by
    rw [holdingFault_cad, if_neg (by rw [draining]; exact nofun)]
  have ends : t = setLane k .idle (readyJoin (.closing n) (setCad n
      { s.cad n with place := .ready, resumeMark := false } (holdingFault .windowLost n s))) := by
    change loseWindow k n s = _
    rw [loseWindow_of_nothing nothing, placeAtJobEnd_of_draining (by rw [stays]; exact draining), stays]
  have ready : (holdingFault .windowLost n s).ready = s.ready := by rw [holdingFault_frame]
  rw [ends, cad_setLane]
  refine ⟨cad_setCad_same _ _ _, ?_, ?_⟩
  · rw [holdingFault_frame]; rfl
  · rw [← ready]
    exact readyInsert_perm _ _ _

/-- A RESUME taken in a lane before the job's end (R12, R23). -/
theorem takeBetween_resume {n : CadNo} {d : Delivery} {s : State} (waits : waitingCommand n s = some d)
    (resume : d.command = .resume) (odd : s.choice % 2 = 1) (held : (s.cad n).state = .held)
    (inLane : (s.cad n).place.isLane = true) :
    let t := takeBetween n s
    t.cad n = { s.cad n with state := .armed, resumeMark := true } ∧ t.calendar = s.calendar ∧
      t.ready = s.ready ∧ t.tick = s.tick := by
  intro t
  have taken : t = answerCommand d .ok
      (setCadState n { s.cad n with state := .armed, resumeMark := true } { s with choice := s.choice / 2 }) := by
    have takes : t = takeCadenceCommand n d { s with choice := s.choice / 2 } := takeBetween_odd waits odd
    rw [takes, takeCadenceCommand, resume]
    change takeResume n d { s with choice := s.choice / 2 } = _
    rw [takeResume_of_held (s := { s with choice := s.choice / 2 }) held,
      resumeCadence_of_lane (s := { s with choice := s.choice / 2 }) inLane]
    rfl
  rw [taken, answerCommand_frame]
  refine ⟨setCadState_cad _ _ _, ?_, ?_, ?_⟩
  all_goals
    rw [setCadState, recordWrite_frame]
    rfl

/-- A RESUME taken between the report and the end puts an ARMED cadence back onto the calendar (R12, R25). -/
theorem loseWindow_of_resume {n : CadNo} {d : Delivery} {s : State} (waits : waitingCommand n s = some d)
    (resume : d.command = .resume) (odd : s.choice % 2 = 1) (armed : (s.cad n).state = .armed)
    (inLane : (s.cad n).place.isLane = true) (k : LaneNo) :
    let t := loseWindow k n s
    t.cad n = { s.cad n with
      place := .calendar, resumeMark := false
      nextDue := firstGridAfter (s.cfg n).period (s.cfg n).phase s.tick } ∧
      t.calendar.Perm (n :: s.calendar) ∧ t.ready = s.ready ∧ t.lane k = Lane.idle := by
  intro t
  have held : (holdingFault .windowLost n s).cad n = { s.cad n with state := .held, resumeMark := false } := by
    rw [holdingFault_cad, if_pos (.inl armed)]
  have frame := holdingFault_frame .windowLost n s
  obtain ⟨cad, calendar, ready, tick⟩ := takeBetween_resume (s := holdingFault .windowLost n s) (n := n) (d := d)
    (by rw [waitingCommand_holdingFault, waits]) resume (by rw [frame]; exact odd) (by rw [held])
    (by rw [held]; exact inLane)
  rw [held] at cad
  have ends : t = setLane k .idle (placeAtJobEnd n s.tick (takeBetween n (holdingFault .windowLost n s))) :=
    loseWindow_eq k n s
  generalize takeBetween n (holdingFault .windowLost n s) = u at cad calendar ready tick ends
  have instant : nextInstant u n s.tick = firstGridAfter (s.cfg n).period (s.cfg n).phase s.tick := by
    rw [nextInstant, State.cfg, cad]
    rfl
  rw [placeAtJobEnd_of_armed (by rw [cad]), instant] at ends
  rw [frame] at calendar ready tick
  obtain ⟨joined, -, perm, queue, -⟩ := calendarJoin_spec (n := n)
    (s := setCad n { u.cad n with
      nextDue := firstGridAfter (s.cfg n).period (s.cfg n).phase s.tick, resumeMark := false } u)
    (fun _ => by rw [cad_setCad_same, setCad_tick, tick]; exact firstGridAfter_gt _ _ _)
  rw [setCad_calendar, calendar] at perm
  rw [setCad_ready, ready] at queue
  rw [cad_setCad_same] at joined
  rw [ends, cad_setLane]
  refine ⟨joined.trans ?_, perm, queue, lane_setLane_same _ _ _⟩
  simp only [cad, armed]

/-! ## The dispatch checks (O31) -/

/-- A PEER_DOWN miss (R15, R22). -/
theorem missPeerDown_spec (k : LaneNo) (n : CadNo) (s : State) :
    let e := s.cad n
    let c := s.cfg n
    let t := missPeerDown k n (serviceHanded k n s)
    t.lane k = { Lane.idle with
      state := .stamping, job := .service n, length := c.length, stampTick := s.tick
      outcome := none, stampLeft := [.misses] } ∧
    t.cad n = { e with
      place := .lane k, resumeMark := false
      misses := e.misses + 1 + BitVec.ofNat 32 (overrunCount e c.period s.tick)
      nextDue := if e.state = .armed then firstGridAfter c.period c.phase s.tick else e.nextDue } ∧
    t = { s with lanes := t.lanes, cadences := t.cadences } ∧ (∀ j, j ≠ k → t.lane j = s.lane j) ∧
    ∀ m, m ≠ n → t.cad m = s.cad m := by
  intro e c t
  have handed : (serviceHanded k n s).lane k =
      { Lane.idle with state := .loading, job := .service n, length := c.length } := lane_setLane_same _ _ _
  obtain ⟨lane, cad, frame, others, rest⟩ := missed_spec (k := k) (n := n) (s := serviceHanded k n s) (by rw [handed])
  obtain ⟨-, otherLanes, otherCads⟩ := serviceHanded_frame k n s
  rw [handed] at lane
  rw [State.cfg, serviceHanded_cad] at cad
  exact ⟨lane, cad, frame, fun j ne => (others j ne).trans (otherLanes j ne),
    fun m ne => (rest m ne).trans (otherCads m ne)⟩

/-- The record of a lane whose service has taken its windows (R55). -/
def serviceLane (n : CadNo) (c : CadConfig) (src dst : WinConfig) : Lane :=
  { Lane.idle with
    state := .loading, job := .service n, length := c.length, held := [c.srcWindow, c.dstWindow]
    srcPort := src.domain, dstPort := dst.domain }

/-- The state in which a service that has taken its windows asks for LENT. -/
def serviceTaken (k : LaneNo) (n : CadNo) (src dst : WinConfig) (s : State) : State :=
  setLane k (serviceLane n (s.cfg n) src dst)
    (holdWindows [(s.cfg n).srcWindow, (s.cfg n).dstWindow] (serviceHanded k n s))

theorem takeService_eq (k : LaneNo) (n : CadNo) (src dst : WinConfig) (s : State) :
    takeService k n src dst (serviceHanded k n s) =
      requestControl (.lane k) (s.hdr.cadenceTable + BitVec.ofNat 64 (64 * n) + 28) 4
        (serviceTaken k n src dst s) := by
  have config : (serviceHanded k n s).cfg n = s.cfg n := by
    rw [State.cfg, serviceHanded_cad]
    rfl
  have lane : (serviceHanded k n s).lane k =
      { Lane.idle with state := .loading, job := .service n, length := (s.cfg n).length } :=
    lane_setLane_same _ _ _
  unfold takeService
  dsimp only
  rw [config, lane]
  rfl

theorem serviceTaken_spec (k : LaneNo) (n : CadNo) (src dst : WinConfig) (s : State) :
    let u := serviceTaken k n src dst s
    u = { s with lanes := u.lanes, cadences := u.cadences, windows := u.windows } ∧
      u.lane k = serviceLane n (s.cfg n) src dst ∧ (∀ j, j ≠ k → u.lane j = s.lane j) ∧
      u.cad n = { s.cad n with place := .lane k } ∧ (∀ m, m ≠ n → u.cad m = s.cad m) ∧
      ∀ w, u.win w = { s.win w with
        useCount := (s.win w).useCount + [(s.cfg n).srcWindow, (s.cfg n).dstWindow].count w } := by
  have frame := holdWindows_frame [(s.cfg n).srcWindow, (s.cfg n).dstWindow] (serviceHanded k n s)
  obtain ⟨-, otherLanes, otherCads⟩ := serviceHanded_frame k n s
  refine ⟨?_, lane_setLane_same _ _ _, fun j ne => ?_, ?_, fun m ne => ?_, fun w => holdWindows_win _ _ w⟩
  · rw [serviceTaken, frame]
    rfl
  · rw [serviceTaken, lane_setLane_ne (Ne.symm ne), frame]
    exact otherLanes j ne
  · rw [serviceTaken, cad_setLane, frame]
    exact serviceHanded_cad k n s
  · rw [serviceTaken, cad_setLane, frame]
    exact otherCads m ne

/-- Settles O31: a lost window, a peer that is down, and the windows taken. -/
theorem dispatchChecks : Obligations.DispatchChecks := by
  intro s k n c t admits
  have admitted_iff (w : WinNo) (write : Bool) (x : WinConfig) :
      admits w write x ↔ admitted s w write = some x := admitted_eq_some.symm
  refine ⟨fun denied => ?lost, fun src dst source destination => ⟨fun down peer => ?down, fun up => ?taken⟩⟩
  case lost =>
    have lost (x : Nat) : startService k n { s with choice := x } =
        loseWindow k n (serviceHanded k n { s with choice := x }) :=
      startService_of_lost (s := { s with choice := x }) fun src dst found =>
        denied src dst ⟨(admitted_iff _ _ _).mpr found.1, (admitted_iff _ _ _).mpr found.2⟩
    have ends : t = loseWindow k n (serviceHanded k n s) := lost s.choice
    obtain ⟨idle, taken, windows, tally, misses, lates⟩ := loseWindow_spec k n (serviceHanded k n s)
    obtain ⟨frame, otherLanes, otherCads⟩ := serviceHanded_frame k n s
    have handed := serviceHanded_cad k n s
    rw [handed] at tally misses lates
    have waits (x : Nat) : waitingCommand n (serviceHanded k n { s with choice := x }) = waitingCommand n s := rfl
    rw [ends]
    refine ⟨idle, taken, windows, tally, misses, lates,
      ⟨serviceHanded k n s, loseWindow_eq k n _, frame, otherLanes, handed, otherCads⟩, fun decided => ?_, ?_⟩
    · have nothing : waitingCommand n (serviceHanded k n s) = none := waitingCommand_of_decided decided
      refine ⟨fun active => ?_, fun draining => ?_⟩
      · obtain ⟨cad, rest⟩ := loseWindow_of_active nothing (by rw [handed]; exact active) k
        exact ⟨by rw [cad, handed], rest⟩
      · obtain ⟨cad, rest⟩ := loseWindow_of_draining nothing (by rw [handed]; exact draining) k
        exact ⟨by rw [cad, handed], rest⟩
    · intro d delivered record resume new armed
      have waiting : waitingCommand n s = some d := (waitingCommand_iff n d s).mpr ⟨delivered, record, new⟩
      have handed1 := serviceHanded_cad k n { s with choice := 1 }
      obtain ⟨cad, calendar, ready, idle⟩ := loseWindow_of_resume (s := serviceHanded k n { s with choice := 1 })
        ((waits 1).trans waiting) resume rfl (by rw [handed1]; exact armed) (by rw [handed1]; rfl) k
      refine ⟨1, ?_⟩
      rw [lost 1]
      refine ⟨?_, calendar, ready, idle⟩
      rw [cad, State.cfg, handed1]
      rfl
  case down =>
    have blocked : peerBlocked s [src.domain, dst.domain] = true := by
      rw [peerBlocked_iff]
      exact ⟨down, by simpa [eq_comm] using peer⟩
    have missed : t = missPeerDown k n (serviceHanded k n s) := by
      change startService k n s = _
      rw [startService_of_admitted ((admitted_iff _ _ _).mp source) ((admitted_iff _ _ _).mp destination),
        if_pos blocked]
    rw [missed]
    exact missPeerDown_spec k n s
  case taken =>
    have unblocked : ¬peerBlocked s [src.domain, dst.domain] = true := by
      rw [peerBlocked_iff]
      rintro ⟨down, peer⟩
      rcases up with up | ⟨a, b⟩
      · exact absurd (up.symm.trans down) (by decide)
      · rw [a, b] at peer
        exact absurd peer (by decide)
    have taken : t = _ := (startService_of_admitted ((admitted_iff _ _ _).mp source)
      ((admitted_iff _ _ _).mp destination) k).trans ((if_neg unblocked).trans (takeService_eq k n src dst s))
    obtain ⟨frame, lane, otherLanes, cad, otherCads, windows⟩ := serviceTaken_spec k n src dst s
    have asks : ReadsOnly (serviceTaken k n src dst s) t := taken ▸ ReadsOnly.requestControl _ _ _ _
    have work := asks.lanes k
    rw [lane] at work
    refine ⟨congrArg (·.held) work, congrArg (·.state) work, ?_,
      ⟨_, taken, frame, lane, otherLanes, cad, otherCads, windows⟩, fun w => ?_⟩
    · have same : t.cad n = (serviceTaken k n src dst s).cad n := by rw [asks.rest]; rfl
      rw [same, cad]
    · have same : t.win w = (serviceTaken k n src dst s).win w := by rw [asks.rest]; rfl
      rw [same, windows]

end Sys2Proof.Machine
end

section
/-! The start checks of an errand (O32). -/

namespace Sys2Proof.Machine

/-! ## Windows that an errand may use (R107) -/

theorem admittedErrand_eq_some {s : State} {b : Byte} {write : Bool} {offset length : Nat} {w : WinNo}
    {x : WinConfig} :
    admittedErrand s b write offset length = some (w, x) ↔
      w.val = b.toNat ∧ (s.win w).state = .opened ∧ (s.win w).config = some x ∧ x.grants write = true ∧
        offset + length ≤ x.size := by
  unfold admittedErrand
  cases number : decodeWindow b.toNat with
  | none =>
    refine ⟨nofun, fun ⟨same, _⟩ => ?_⟩
    exact absurd (number.symm.trans (decodeWindow_eq_some.mpr same)) nofun
  | some n =>
    have decoded := decodeWindow_eq_some.mp number
    dsimp only
    cases found : admitted s n write with
    | none =>
      refine ⟨nofun, fun ⟨same, opened, config, grants, _⟩ => ?_⟩
      obtain rfl : n = w := Fin.ext (decoded.trans same.symm)
      exact absurd (found.symm.trans (admitted_eq_some.mpr ⟨opened, config, grants⟩)) nofun
    | some c =>
      obtain ⟨opened, config, grants⟩ := admitted_eq_some.mp found
      dsimp only
      rw [Option.ite_none_right_eq_some, Option.some_inj, Prod.mk.injEq]
      constructor
      · rintro ⟨fits, rfl, rfl⟩
        exact ⟨decoded, opened, config, grants, fits⟩
      · rintro ⟨same, opened', config', grants', fits⟩
        obtain rfl : n = w := Fin.ext (decoded.trans same.symm)
        obtain rfl : c = x := Option.some_inj.mp (config.symm.trans config')
        exact ⟨fits, rfl, rfl⟩

/-! ## What the start check finds (R56, R107) -/

theorem peerBlocked_one (s : State) (d : Domain) :
    peerBlocked s [d] = true ↔ s.linkUp = false ∧ d = .b := by
  rw [peerBlocked_iff, List.mem_singleton, eq_comm (a := Domain.b)]

theorem peerBlocked_two (s : State) (d e : Domain) :
    peerBlocked s [d, e] = true ↔ s.linkUp = false ∧ (d = .b ∨ e = .b) := by
  rw [peerBlocked_iff, List.mem_cons, List.mem_singleton, eq_comm (a := Domain.b), eq_comm (a := Domain.b)]

theorem errandStart_of_fill {s : State} {c : Card} {w : WinNo} {x : WinConfig} (fill : c.kind = some .fill)
    (found : admittedErrand s c.dstWindow true c.dstOffset c.length = some (w, x)) :
    errandStart s c = if s.linkUp = false ∧ x.domain = .b then .peerLost else .take [w] x x := by
  unfold errandStart
  rw [if_pos fill, found]
  exact ite_congr (propext (peerBlocked_one s x.domain)) (fun _ => rfl) fun _ => rfl

theorem errandStart_of_fill_closed {s : State} {c : Card} (fill : c.kind = some .fill)
    (closed : admittedErrand s c.dstWindow true c.dstOffset c.length = none) :
    errandStart s c = .windowClosed := by
  unfold errandStart
  rw [if_pos fill, closed]

theorem errandStart_of_copy {s : State} {c : Card} {v w : WinNo} {src dst : WinConfig}
    (copy : c.kind ≠ some .fill)
    (source : admittedErrand s c.srcWindow false c.srcOffset c.length = some (v, src))
    (destination : admittedErrand s c.dstWindow true c.dstOffset c.length = some (w, dst)) :
    errandStart s c =
      if s.linkUp = false ∧ (src.domain = .b ∨ dst.domain = .b) then .peerLost else .take [v, w] src dst := by
  unfold errandStart
  rw [if_neg copy, source, destination]
  exact ite_congr (propext (peerBlocked_two s src.domain dst.domain)) (fun _ => rfl) fun _ => rfl

theorem errandStart_of_copy_closed {s : State} {c : Card} (copy : c.kind ≠ some .fill)
    (closed : ∀ v src w dst, ¬(admittedErrand s c.srcWindow false c.srcOffset c.length = some (v, src) ∧
      admittedErrand s c.dstWindow true c.dstOffset c.length = some (w, dst))) :
    errandStart s c = .windowClosed := by
  unfold errandStart
  rw [if_neg copy]
  split
  · rename_i v src w dst source destination
    exact absurd ⟨source, destination⟩ (closed v src w dst)
  · rfl

/-! ## The errand in the lane (R45, R54) -/

/-- The errand in a lane, its entry RUNNING, before its checks. -/
def errandHanded (k : LaneNo) (e : Errand) (s : State) : State :=
  setLane k (errandLane e) { s with errands := runEntry k e.card.addr s.errands }

/-- The record of a lane whose errand has taken its windows (R55, R105). -/
def errandTakenLane (e : Errand) (held : List WinNo) (src dst : WinConfig) : Lane :=
  { errandLane e with
    held := held, srcPort := src.domain, dstPort := dst.domain
    srcAddr := if e.card.kind = some .fill then 0 else translate src e.card.srcOffset
    dstAddr := translate dst e.card.dstOffset }

/-- The state in which an errand that has taken its windows asks its source port. -/
def errandTaken (k : LaneNo) (e : Errand) (held : List WinNo) (src dst : WinConfig) (s : State) : State :=
  setLane k (errandTakenLane e held src dst) (holdWindows held (errandHanded k e s))

/-- An errand that fails its checks with outcome `o`. -/
theorem startErrand_of_failed {k : LaneNo} {e : Errand} {s : State} {o : Outcome}
    (found : errandStart s e.card = .windowClosed ∧ o = .windowClosed ∨
      errandStart s e.card = .peerLost ∧ o = .peerLost) :
    startErrand k e s = enterStamping k (some o) (errandHanded k e s) := by
  unfold startErrand
  dsimp only
  rcases found with ⟨found, rfl⟩ | ⟨found, rfl⟩ <;> rw [found] <;> rfl

theorem startErrand_of_take {e : Errand} {s : State} {held : List WinNo} {src dst : WinConfig}
    (found : errandStart s e.card = .take held src dst) (k : LaneNo) :
    startErrand k e s = askSource k (errandTaken k e held src dst s) := by
  unfold startErrand
  dsimp only
  rw [found]
  rfl

theorem startErrand_failed_spec {k : LaneNo} {e : Errand} {s : State} {o : Outcome}
    (found : errandStart s e.card = .windowClosed ∧ o = .windowClosed ∨
      errandStart s e.card = .peerLost ∧ o = .peerLost) :
    let t := startErrand k e s
    (t.lane k).job = .errand e.card ∧ (t.lane k).startByte = e.progress ∧
      t.errands = runEntry k e.card.addr s.errands ∧ StampsOutcome k o s t ∧
      (t.lane k).written = e.progress ∧ (t.lane k).held = [] ∧ t.windows = s.windows := by
  intro t
  have notDone : o ≠ .done := by
    rcases found with ⟨-, rfl⟩ | ⟨-, rfl⟩ <;> decide
  have handed : (errandHanded k e s).lane k = errandLane e := lane_setLane_same _ _ _
  have job : ((errandHanded k e s).lane k).job = .errand e.card := by
    rw [handed]
    rfl
  have ends : t = enterStamping k (some o) (errandHanded k e s) := startErrand_of_failed found
  have stamps := enterStamping_stamps (k := k) (s := errandHanded k e s) (by rw [job]; exact nofun) notDone
  rw [ends]
  refine ⟨?_, ?_, ?_, stamps.of_before rfl fun _ _ => rfl, ?_, ?_, ?_⟩
  all_goals
    rw [enterStamping_errand job]
  · rw [lane_setLane_same]
    exact job
  · rw [lane_setLane_same, handed]
    rfl
  · rfl
  · rw [lane_setLane_same, handed]
    rfl
  · rw [lane_setLane_same, handed]
    rfl
  · rfl

theorem errandTaken_spec (k : LaneNo) (e : Errand) (held : List WinNo) (src dst : WinConfig) (s : State) :
    let u := errandTaken k e held src dst s
    u = { s with lanes := u.lanes, windows := u.windows, errands := runEntry k e.card.addr s.errands } ∧
      u.lane k = errandTakenLane e held src dst ∧ (∀ j, j ≠ k → u.lane j = s.lane j) ∧
      ∀ w, u.win w = { s.win w with useCount := (s.win w).useCount + held.count w } := by
  have frame := holdWindows_frame held (errandHanded k e s)
  refine ⟨?_, lane_setLane_same _ _ _, fun j ne => ?_, fun w => holdWindows_win _ _ w⟩
  · rw [errandTaken, frame]
    rfl
  · rw [errandTaken, lane_setLane_ne (Ne.symm ne), frame]
    exact lane_setLane_ne (Ne.symm ne) _ _

/-- Settles O32: what the check finds, and what each finding does to the lane. -/
theorem errandStartChecks : Obligations.ErrandStartChecks := by
  constructor
  · intro s c lets
    have lets_iff (b : Byte) (write : Bool) (offset : Nat) (w : WinNo) (x : WinConfig) :
        lets b write offset w x ↔ admittedErrand s b write offset c.length = some (w, x) :=
      admittedErrand_eq_some.symm
    simp only [lets_iff]
    refine ⟨fun fill => ⟨fun closed => errandStart_of_fill_closed fill ?_, fun w x => errandStart_of_fill fill⟩,
      fun copy => ⟨fun closed => errandStart_of_copy_closed copy closed,
        fun v src w dst => errandStart_of_copy copy⟩⟩
    cases found : admittedErrand s c.dstWindow true c.dstOffset c.length with
    | none => rfl
    | some pair => exact absurd found (closed pair.1 pair.2)
  · intro s k e t
    cases found : errandStart s e.card with
    | windowClosed =>
      obtain ⟨job, start, errands, spec⟩ := startErrand_failed_spec (k := k) (.inl ⟨found, rfl⟩)
      exact ⟨job, start, errands, fun _ => spec, nofun, nofun⟩
    | peerLost =>
      obtain ⟨job, start, errands, spec⟩ := startErrand_failed_spec (k := k) (.inr ⟨found, rfl⟩)
      exact ⟨job, start, errands, nofun, fun _ => spec, nofun⟩
    | take held src dst =>
      have asks : t = askSource k (errandTaken k e held src dst s) := startErrand_of_take found k
      obtain ⟨frame, lane, others, windows⟩ := errandTaken_spec k e held src dst s
      obtain ⟨same, state⟩ := askSource_lane k (errandTaken k e held src dst s)
      have rest := askSource_frame k (errandTaken k e held src dst s)
      rw [lane] at same state
      have errands : t.errands = runEntry k e.card.addr s.errands := by
        rw [asks, rest, frame]
      rw [asks] at errands ⊢
      refine ⟨same.job, same.startByte, errands, nofun, nofun, ?_⟩
      rintro held' src' dst' ⟨⟩
      refine ⟨same.held, same.written, fun answers => ?_, ⟨_, rfl, ?_, lane, others, windows⟩, fun w => ?_⟩
      · exact state (by rw [frame]; exact answers)
      · rw [errands]
        exact frame
      · have stays : (askSource k (errandTaken k e held src dst s)).win w =
            (errandTaken k e held src dst s).win w := by rw [rest]; rfl
        rw [stays, windows]

end Sys2Proof.Machine
end

section
/-! Closing jobs, stamping writes and the end of a job (O33 to O36). -/

namespace Sys2Proof.Machine

/-! ## STAMPING_WRITE (R69) -/

theorem exec_stampingWrite_of_stamping {k : LaneNo} {item : StampItem} {rest : List StampItem} {s : State}
    (stamping : (s.lane k).state = .stamping) (left : (s.lane k).stampLeft = item :: rest) :
    exec (.stampingWrite k) s = .next (stampWrite k item rest s) := by
  change execStampingWrite k s = _
  rw [execStampingWrite, if_pos stamping, left]

theorem stampWrite_of_more {rest : List StampItem} (more : rest ≠ []) (k : LaneNo) (item : StampItem) (s : State) :
    stampWrite k item rest s = stampItem k item (setLane k { s.lane k with stampLeft := rest } s) :=
  if_neg (by simpa using more)

/-- A lane's job issues its own items. -/
theorem stampItem_service {k : LaneNo} {n : CadNo} {s : State} (job : (s.lane k).job = .service n)
    (item : StampItem) : stampItem k item s = stampServiceItem k n item s := by
  rw [stampItem, job]

theorem stampItem_closing {k : LaneNo} {n : CadNo} {s : State} (job : (s.lane k).job = .closing n)
    (item : StampItem) : stampItem k item s = stampClosingItem n item s := by
  rw [stampItem, job]

theorem stampItem_errand {k : LaneNo} {c : Card} {s : State} (job : (s.lane k).job = .errand c)
    (item : StampItem) : stampItem k item s = stampErrandItem k c item s := by
  rw [stampItem, job]

theorem stampWrite_of_last {k : LaneNo} {item : StampItem} {s s1 : State}
    (writes : stampItem k item (setLane k { s.lane k with stampLeft := [] } s) = s1)
    (lane : s1.lane k = { s.lane k with stampLeft := [] }) :
    stampWrite k item [] s =
      checkStopped (jobEnd k (s.lane k).stampTick (afterStamp { s.lane k with stampLeft := [] } s1)) := by
  unfold stampWrite
  dsimp only
  rw [writes, lane]
  rfl

/-! ### The items of a service (R20, R21) -/

/-- The posted write of a service's stamping item. -/
def serviceField (s : State) (l : Lane) (n : CadNo) : StampItem → Option PostedWrite
  | .slotOutcome => some (fieldWrite (l.slotAddr + 8) 4 l.outcomeCode)
  | .slotMoved => some (fieldWrite (l.slotAddr + 12) 4 l.written)
  | .slotDue => some (fieldWrite (l.slotAddr + 16) 8 (s.cad n).currentDue)
  | .slotDone => some (fieldWrite (l.slotAddr + 24) 8 l.stampTick)
  | .tally => some (fieldWrite (s.hdr.cadenceTable + BitVec.ofNat 64 (64 * n) + 44) 4 (s.cad n).tally.toNat)
  | .misses => some (fieldWrite (s.hdr.cadenceTable + BitVec.ofNat 64 (64 * n) + 48) 4 (s.cad n).misses.toNat)
  | .lates => some (fieldWrite (s.hdr.cadenceTable + BitVec.ofNat 64 (64 * n) + 52) 4 (s.cad n).lates.toNat)
  | _ => none

/-- Whether a service's item brings a CADENCE_NOTE (R21). -/
def tallyNotes (s : State) (n : CadNo) (item : StampItem) : Prop :=
  item = .tally ∧ 0 < (s.cfg n).notifyEvery ∧ (s.cad n).tally.toNat % (s.cfg n).notifyEvery = 0

theorem stampServiceItem_of_notes {n : CadNo} {item : StampItem} {s : State} {w : PostedWrite} {k : LaneNo}
    (field : serviceField s (s.lane k) n item = some w) (notes : tallyNotes s n item) :
    stampServiceItem k n item s = raise .cadenceNote (issueWrite .a w s) := by
  obtain ⟨rfl, every, count⟩ := notes
  obtain rfl := Option.some_inj.mp field
  exact if_pos ⟨every, count⟩

theorem stampServiceItem_of_quiet {n : CadNo} {item : StampItem} {s : State} {w : PostedWrite} {k : LaneNo}
    (field : serviceField s (s.lane k) n item = some w) (quiet : ¬tallyNotes s n item) :
    stampServiceItem k n item s = issueWrite .a w s := by
  cases item with
  | tally =>
    obtain rfl := Option.some_inj.mp field
    exact if_neg fun notes => quiet ⟨rfl, notes⟩
  | slotOutcome => obtain rfl := Option.some_inj.mp field; rfl
  | slotMoved => obtain rfl := Option.some_inj.mp field; rfl
  | slotDue => obtain rfl := Option.some_inj.mp field; rfl
  | slotDone => obtain rfl := Option.some_inj.mp field; rfl
  | misses => obtain rfl := Option.some_inj.mp field; rfl
  | lates => obtain rfl := Option.some_inj.mp field; rfl
  | cancelOutcome _ => cases field
  | cancelMoved _ => cases field
  | cancelDue _ => cases field
  | cancelDone _ => cases field
  | closeTally _ => cases field
  | closeEnd => cases field
  | cardOutcome => cases field
  | cardMoved => cases field
  | cardDone => cases field
  | cardState => cases field

/-! ### The items of an errand (R69) -/

/-- The posted write of an errand's stamping item. -/
def errandField (l : Lane) (c : Card) : StampItem → Option PostedWrite
  | .cardOutcome => some (fieldWrite (c.addr + 36) 4 l.outcomeCode)
  | .cardMoved => some (fieldWrite (c.addr + 40) 4 l.written)
  | .cardDone => some (fieldWrite (c.addr + 44) 4 l.stampTick)
  | .cardState => some (fieldWrite (c.addr + 32) 4 2)
  | _ => none

theorem stampErrandItem_eq {k : LaneNo} {c : Card} {item : StampItem} {s : State} {w : PostedWrite}
    (field : errandField (s.lane k) c item = some w) : stampErrandItem k c item s = issueWrite .a w s := by
  unfold errandField at field
  split at field
  · obtain rfl := Option.some_inj.mp field; rfl
  · obtain rfl := Option.some_inj.mp field; rfl
  · obtain rfl := Option.some_inj.mp field; rfl
  · obtain rfl := Option.some_inj.mp field; rfl
  · cases field

/-- Settles O34. -/
theorem stampingWrites : Obligations.StampingWrites := by
  refine ⟨fun l o outcome => by rw [Lane.outcomeCode, outcome], by decide, ?_⟩
  intro s k item rest more l stamping left
  have step : exec (.stampingWrite k) s = .next (stampItem k item (setLane k { l with stampLeft := rest } s)) := by
    rw [exec_stampingWrite_of_stamping stamping left, stampWrite_of_more more]
  have lane : (setLane k { l with stampLeft := rest } s).lane k = { l with stampLeft := rest } :=
    lane_setLane_same _ _ _
  rw [step]
  constructor
  · intro n job e record field w written
    rw [stampItem_service (by rw [lane]; exact job)]
    have mine : serviceField (setLane k { l with stampLeft := rest } s)
        ((setLane k { l with stampLeft := rest } s).lane k) n item = some w := by
      rw [lane]
      exact written
    refine ⟨_, _, rfl, rfl, ?_, fun notes => ?_, fun quiet => ?_⟩
    · by_cases notes : tallyNotes (setLane k { l with stampLeft := rest } s) n item
      · rw [stampServiceItem_of_notes mine notes, setLane_issueWrite]
        exact raise_frame _ _
      · rw [stampServiceItem_of_quiet mine notes, setLane_issueWrite]
    · rw [stampServiceItem_of_notes mine notes, setLane_issueWrite]
      exact raise_causeRaised _ _
    · rw [stampServiceItem_of_quiet mine quiet, setLane_issueWrite]
  · intro c job field w written
    rw [stampItem_errand (c := c) (by rw [lane]; exact job), stampErrandItem_eq (w := w), setLane_issueWrite]
    rw [lane]
    exact written

/-! ## Closing jobs (R26, R27) -/

theorem closingRead {k : LaneNo} {n : CadNo} {r : ReadInfo} {s : State} (requester : r.requester = .lane k)
    (role : r.role = .control) (job : (s.lane k).job = .closing n) (t : TagNo) (bytes : List Byte) :
    readAnswered t r (.data bytes) s =
      enterStamping k none (setCad n { s.cad n with lastLent := BitVec.ofNat 32 (fieldAt 0 4 bytes) } s) := by
  rw [readAnswered_control role, requester, controlRead, laneControlRead, job]

theorem closingItems_of_fits {c : CadConfig} {e : CadEntry} (fits : outstandingCount e ≤ c.ringSize) :
    closingItems c e =
      (List.range (outstandingCount e)).flatMap
          (fun j => cancelItems ((e.tally + BitVec.ofNat 32 j).toNat % c.ringSize)) ++
        [.closeTally false, .closeEnd] := by
  rw [closingItems, cancelIndices, if_pos fits, List.flatMap_map, decide_eq_false (Nat.not_lt.mpr fits)]

theorem closingItems_of_overrun {c : CadConfig} {e : CadEntry} (overrun : c.ringSize < outstandingCount e) :
    closingItems c e =
      (List.range c.ringSize).flatMap
          (fun j => cancelItems ((e.tally.toNat % c.ringSize + j) % c.ringSize)) ++
        [.closeTally true, .closeEnd] := by
  rw [closingItems, cancelIndices, if_neg (Nat.not_le.mpr overrun), List.flatMap_map, decide_eq_true overrun]

/-- Settles O33: the hand-out, the answer to the LENT read, and the writes. -/
theorem closingJob : Obligations.ClosingJob := by
  refine ⟨fun _ _ _ => rfl, ?read, ?writes⟩
  case read =>
    intro s k n tag r bytes requester role job lent c e outstanding cancelled t
    have stamped : t = setLane k ((s.lane k).stamping s.tick none (closingItems c { e with lastLent := lent }))
        (setCad n { e with lastLent := lent } s) := by
      have answered : t = _ := closingRead requester role job tag bytes
      rw [answered, enterStamping_closing (n := n) (by exact job), State.cfg, cad_setCad_same]
      rfl
    rw [stamped, lane_setLane_same]
    exact ⟨rfl, cad_setCad_same _ _ _, rfl, closingItems_of_fits (e := { e with lastLent := lent }),
      closingItems_of_overrun (e := { e with lastLent := lent })⟩
  case writes =>
    intro s k n item rest more l stamping job left e slot record s1
    have step : exec (.stampingWrite k) s = .next (stampClosingItem n item s1) := by
      rw [exec_stampingWrite_of_stamping stamping left, stampWrite_of_more more,
        stampItem_closing (n := n) (by rw [lane_setLane_same]; exact job)]
    rw [step]
    refine ⟨?_, ?_, ?_, ?_, ?_, ?_⟩
    · rintro i rfl; rfl
    · rintro i rfl; rfl
    · rintro i rfl; rfl
    · rintro i rfl; rfl
    · rintro rfl; rfl
    · rintro rfl draining
      have reported : holdingFault .lendOverrun n s1 = reportFault .lendOverrun .cadence n s1 :=
        holdingFault_of_other (by rw [show (s1.cad n).state = .draining from draining]; exact nofun) _
      have cad : (reportFault .lendOverrun .cadence n s1).cad n = e := reportFault_cad _ _ _ _ _
      have hdr : (reportFault .lendOverrun .cadence n s1).hdr = s.hdr := by rw [reportFault_frame]; rfl
      change Host.Outcome.next (writeClosingTally n true s1) = _
      rw [writeClosingTally, if_pos rfl, reported, cad, recordWrite_eq, recordAddr, hdr_setCad, hdr]
      rfl

/-! ## The last stamping write (R69, R70; log 11) -/

/-- A lane's last stamping write, its items and what follows them given. -/
theorem exec_stampingWrite_of_last {k : LaneNo} {item : StampItem} {s s1 : State}
    (stamping : (s.lane k).state = .stamping) (left : (s.lane k).stampLeft = [item])
    (writes : stampItem k item (setLane k { s.lane k with stampLeft := [] } s) = s1)
    (lane : s1.lane k = { s.lane k with stampLeft := [] }) :
    exec (.stampingWrite k) s =
      .next (checkStopped (jobEnd k (s.lane k).stampTick (afterStamp { s.lane k with stampLeft := [] } s1))) := by
  rw [exec_stampingWrite_of_stamping stamping left, stampWrite_of_last writes lane]

theorem raise_lane (c : Cause) (s : State) (k : LaneNo) : (raise c s).lane k = s.lane k :=
  (Frame.raise c s).lane k

theorem afterStamp_service {l : Lane} {n : CadNo} (job : l.job = .service n) (s : State) :
    afterStamp l s = afterService n l.outcome s := by
  rw [afterStamp, job]

theorem afterStamp_errand {l : Lane} {c : Card} (job : l.job = .errand c) (s : State) :
    afterStamp l s = afterErrand c l.outcome s := by
  rw [afterStamp, job]

theorem afterService_of_moved {o : Outcome} (moved : o = .done ∨ o = .late) (n : CadNo) (s : State) :
    afterService n (some o) s = s := by
  rcases moved with rfl | rfl <;> rfl

theorem afterService_of_failed {o : Outcome} (done : o ≠ .done) (late : o ≠ .late) (n : CadNo) (s : State) :
    afterService n (some o) s = reportFault .slotError .cadence n s := by
  unfold afterService
  split
  · rename_i none; cases none
  · rename_i same; exact absurd (Option.some_inj.mp same) done
  · rename_i same; exact absurd (Option.some_inj.mp same) late
  · rfl

/-- Settles O35: the last write of a service with a slot, of a miss, of an errand and of a closing job. -/
theorem lastStampingWrite : Obligations.LastStampingWrite := by
  refine ⟨?service, ?missed, ?errand, ?closing⟩
  case service =>
    intro s k n o item w l e record stamping job left outcome last u notes u1
    have mine : serviceField (setLane k { l with stampLeft := [] } s)
        ((setLane k { l with stampLeft := [] } s).lane k) n item = some w := by
      rcases last with ⟨rfl, rfl⟩ | ⟨rfl, rfl⟩ | ⟨rfl, rfl⟩ <;> rfl
    have writes : stampItem k item (setLane k { l with stampLeft := [] } s) = u1 := by
      rw [stampItem_service (n := n) (by rw [lane_setLane_same]; exact job)]
      by_cases brings : notes
      · exact (stampServiceItem_of_notes mine brings).trans (if_pos brings).symm
      · exact (stampServiceItem_of_quiet mine brings).trans (if_neg brings).symm
    have lane : u1.lane k = { l with stampLeft := [] } := by
      have written : u.lane k = { l with stampLeft := [] } := (issueWrite_lane _ _ _ _).trans (lane_setLane_same _ _ _)
      by_cases brings : notes
      · rw [show u1 = raise .cadenceNote u from if_pos brings, raise_lane, written]
      · rw [show u1 = u from if_neg brings, written]
    rw [exec_stampingWrite_of_last stamping left writes lane,
      afterStamp_service (l := { l with stampLeft := [] }) job]
    change (_ → Host.Outcome.next (checkStopped (jobEnd k l.stampTick (afterService n l.outcome u1))) = _) ∧
      (_ → Host.Outcome.next (checkStopped (jobEnd k l.stampTick (afterService n l.outcome u1))) = _)
    rw [outcome]
    exact ⟨fun moved => by rw [afterService_of_moved moved],
      fun failed => by rw [afterService_of_failed failed.1 failed.2]⟩
  case missed =>
    intro s k n l e stamping job left outcome u
    have writes : stampItem k .misses (setLane k { l with stampLeft := [] } s) = u := by
      rw [stampItem_service (n := n) (by rw [lane_setLane_same]; exact job)]
      rfl
    have lane : u.lane k = { l with stampLeft := [] } :=
      (issueWrite_lane _ _ _ _).trans (lane_setLane_same _ _ _)
    have policy : u.cfg n = s.cfg n := by
      change (issueWrite _ _ _).cfg n = _
      rw [issueWrite_ports]
      rfl
    rw [exec_stampingWrite_of_last stamping left writes lane,
      afterStamp_service (l := { l with stampLeft := [] }) job]
    change (_ → Host.Outcome.next (checkStopped (jobEnd k l.stampTick (afterService n l.outcome u))) = _) ∧
      (_ → Host.Outcome.next (checkStopped (jobEnd k l.stampTick (afterService n l.outcome u))) = _)
    rw [outcome, afterService, policy]
    exact ⟨fun skip => by rw [if_neg (by rw [skip]; decide)], fun hold => by rw [if_pos hold]⟩
  case errand =>
    intro s k c l stamping job left u u1
    have writes : stampItem k .cardState (setLane k { l with stampLeft := [] } s) = u := by
      rw [stampItem_errand (c := c) (by rw [lane_setLane_same]; exact job)]
      rfl
    have lane : u.lane k = { l with stampLeft := [] } :=
      (issueWrite_lane _ _ _ _).trans (lane_setLane_same _ _ _)
    rw [exec_stampingWrite_of_last stamping left writes lane,
      afterStamp_errand (l := { l with stampLeft := [] }) job]
    refine ⟨fun done => ?_, fun failed => ?_⟩
    · have after : afterErrand c l.outcome u = u1 := if_pos done
      exact congrArg (fun x => Host.Outcome.next (checkStopped (jobEnd k l.stampTick x))) after
    · have after : afterErrand c l.outcome u = reportFault .errandError .errand c.takeNo.toNat u1 := if_neg failed
      exact congrArg (fun x => Host.Outcome.next (checkStopped (jobEnd k l.stampTick x))) after
  case closing =>
    intro s k n l stamping job left e record u
    have writes : stampItem k .closeEnd (setLane k { l with stampLeft := [] } s) =
        if e.retireNotify then raise .commandDone u else u := by
      rw [stampItem_closing (n := n) (by rw [lane_setLane_same]; exact job)]
      rfl
    have lane : (if e.retireNotify then raise .commandDone u else u).lane k = { l with stampLeft := [] } := by
      have written : u.lane k = { l with stampLeft := [] } := by
        change (issueWrite _ _ (issueWrite _ _ _)).lane k = _
        rw [issueWrite_lane, issueWrite_lane, lane_setCad, lane_setLane_same]
      split
      · rw [raise_lane, written]
      · exact written
    have ends (x : State) : afterStamp { l with stampLeft := [] } x = x := by
      unfold afterStamp
      rw [show ({ l with stampLeft := [] } : Lane).job = .closing n from job]
    rw [exec_stampingWrite_of_last stamping left writes lane, ends]

/-! ## The end of a job (R70) -/

/-- The record of a lane that leaves its job (R57, R70). -/
theorem leaving_of_errand {l : Lane} {c : Card} (job : l.job = .errand c) : l.leaving = { l with held := [] } := by
  unfold Lane.leaving
  rw [job]

theorem leaving_of_other {l : Lane} (job : ∀ c, l.job ≠ .errand c) :
    l.leaving = { l with held := [], job := .none } := by
  unfold Lane.leaving
  split
  · rename_i c errand
    exact absurd errand (job c)
  · rfl

theorem followLink_frame (addr : Addr) (s : State) :
    followLink addr s =
      { s with
        reader := (followLink addr s).reader, lanes := (followLink addr s).lanes
        portA := (followLink addr s).portA, controlQueue := (followLink addr s).controlQueue
        choice := (followLink addr s).choice } := by
  by_cases takes : mayTake s addr = true
  · have asks : followLink addr s = requestControl .reader addr 32 { s with reader := .takingRead addr } :=
      if_pos takes
    rw [asks, (ReadsOnly.requestControl .reader addr 32 { s with reader := .takingRead addr }).rest]
  · have holds : followLink addr s = { s with reader := .holding addr } := if_neg takes
    rw [holds]

theorem recheckHolding_frame (s : State) :
    recheckHolding s =
      { s with
        reader := (recheckHolding s).reader, lanes := (recheckHolding s).lanes
        portA := (recheckHolding s).portA, controlQueue := (recheckHolding s).controlQueue
        choice := (recheckHolding s).choice } := by
  unfold recheckHolding
  split
  · split
    · rw [followLink_frame]
    · rfl
  · rfl

theorem ownerEnd_service {l : Lane} {n : CadNo} (job : l.job = .service n) (u : Nat) (s : State) :
    ownerEnd l u s = placeAtJobEnd n u s := by
  rw [ownerEnd, job]

theorem ownerEnd_closing {l : Lane} {n : CadNo} (job : l.job = .closing n) (u : Nat) (s : State) :
    ownerEnd l u s = s := by
  rw [ownerEnd, job]

theorem ownerEnd_errand {l : Lane} {c : Card} (job : l.job = .errand c) (u : Nat) (s : State) :
    ownerEnd l u s =
      recheckHolding { s with errands := s.errands.filter (fun e => e.card.addr != c.addr) } := by
  rw [ownerEnd, job]
  rfl

/-- What the owner does at a job's end leaves the windows (R70). -/
theorem ownerEnd_windows (l : Lane) (u : Nat) (s : State) : (ownerEnd l u s).windows = s.windows := by
  unfold ownerEnd
  split
  · rfl
  · rename_i n _
    exact (Decided.placeAtJobEnd n n u s).windows
  · rfl
  · rw [departErrand, recheckHolding_frame]

theorem ownerEnd_win (l : Lane) (u : Nat) (s : State) (n : WinNo) : (ownerEnd l u s).win n = s.win n := by
  rw [State.win, State.win, ownerEnd_windows]

/-- A cadence that joins the calendar with its due tick reached is released at once (R35). -/
theorem calendarJoin_of_due {n : CadNo} {s : State} (runs : s.bridge = .running)
    (due : (s.cad n).nextDue ≤ s.tick) :
    let t := calendarJoin n s
    t.cad n = { s.cad n with currentDue := (s.cad n).nextDue, place := .ready } ∧ n ∉ t.calendar ∧
      t.ready.Perm (.service n :: s.ready) := by
  intro t
  obtain ⟨s2, cad, ready, joined⟩ : ∃ s2 : State, s2.cad n = { s.cad n with place := .calendar } ∧
      s2.ready = s.ready ∧ t = releaseEntry n s2 := by
    refine ⟨{ setCad n { s.cad n with place := .calendar } s with
      calendar := calendarInsert (setCad n { s.cad n with place := .calendar } s) n s.calendar },
      cad_setCad_same _ _ _, rfl, if_pos ⟨runs, ?_⟩⟩
    change ((setCad n { s.cad n with place := .calendar } s).cad n).nextDue ≤ s.tick
    rw [cad_setCad_same]
    exact due
  obtain ⟨released, -, calendar, perm, -⟩ := releaseEntry_spec n s2
  rw [joined]
  refine ⟨by rw [released, cad], ?_, ready ▸ perm⟩
  rw [calendar]
  exact fun mem => absurd (List.mem_filter.mp mem).2 (by simp)

/-- Settles O36: the windows, the owner's part, and the place of a cadence whose service ends. -/
theorem Holds.jobEnd : Obligations.JobEnd := by
  constructor
  · intro s k u l away
    have released := WinFrame.releaseWindows l.held s
    refine ⟨ownerEnd l u (setLane k l.leaving (releaseWindows l.held s)), rfl, fun n free => ?_, fun n isOpen => ?_,
      fun n job => ?_, fun n job => ?_, fun c job => ?_⟩
    · rw [ownerEnd_win, win_setLane, releaseWindows_win_of_notMem free]
    · rw [ownerEnd_win, win_setLane, releaseWindows_win_of_open _ isOpen]
    · rw [ownerEnd_service job, leaving_of_other (by rw [job]; exact nofun)]
    · rw [ownerEnd_closing job, leaving_of_other (by rw [job]; exact nofun)]
    · have queue : (setLane k l.leaving (releaseWindows l.held s)).errands = s.errands := released.errands
      rw [ownerEnd_errand job, queue, leaving_of_errand job]
      refine ⟨rfl, ?_⟩
      rw [errandAddrs, recheckHolding_frame, errandAddrs, List.filter_map]
      rfl
  · intro s n u e t due
    refine ⟨fun rests => ?_, fun draining => ?_, fun armed later => ?_, fun armed runs reached => ?_⟩
    · refine placeAtJobEnd_of_other ?_ ?_ u <;> rcases rests with is | is <;>
        rw [show (s.cad n).state = _ from is] <;> exact nofun
    · rw [show t = _ from placeAtJobEnd_of_draining draining u]
      exact ⟨cad_setCad_same _ _ _, readyInsert_perm _ _ _, rfl⟩
    · obtain ⟨cad, -, calendar, ready, -⟩ := calendarJoin_spec (n := n)
        (s := setCad n { e with nextDue := due, resumeMark := false } s) (by
          rw [cad_setCad_same]
          exact fun runs => later.resolve_left (absurd runs))
      rw [cad_setCad_same] at cad
      rw [show t = _ from placeAtJobEnd_of_armed armed u]
      exact ⟨cad, calendar, ready⟩
    · have joins := calendarJoin_of_due (n := n) (s := setCad n { e with nextDue := due, resumeMark := false } s) runs
      rw [cad_setCad_same] at joins
      obtain ⟨cad, calendar, ready⟩ := joins reached
      rw [show t = _ from placeAtJobEnd_of_armed armed u]
      exact ⟨cad, calendar, ready⟩

end Sys2Proof.Machine
end

section
/-! The commands of the exchange area (O38 to O45). -/

namespace Sys2Proof.Machine

/-! ## The answer to a command (O38) -/

theorem issueWrite_a (w : PostedWrite) (s : State) :
    issueWrite .a w s = { s with portA := { s.portA with requests := s.portA.requests ++ [.write w] } } := rfl

/-- The state once a command's writes are out, before COMMAND_DONE. -/
def answered (d : Delivery) (result : Result) (s : State) : State :=
  { setAck d.record d.seq s with
    portA := { s.portA with requests := s.portA.requests ++ (answerWrites s d result).map .write } }

theorem answerCommand_eq (d : Delivery) (result : Result) (s : State) :
    answerCommand d result s =
      if result ≠ .inProgress ∧ d.notify = true then raise .commandDone (answered d result s)
      else answered d result s := by
  obtain ⟨record, seq, notify, command⟩ := d
  cases record with
  | window n =>
    have writes : recordWrite (.window n) 26 1 seq.toNat
        (recordWrite (.window n) 25 1 result.code (setAck (.window n) seq s)) =
          answered ⟨.window n, seq, notify, command⟩ result s := by
      simp only [recordWrite_eq, issueWrite_a, answered, answerWrites, List.append_assoc]
      rfl
    rw [← writes]
    rfl
  | cadence n =>
    have writes : recordWrite (.cadence n) 42 1 seq.toNat
        (recordWrite (.cadence n) 41 1 result.code (setAck (.cadence n) seq s)) =
          answered ⟨.cadence n, seq, notify, command⟩ result s := by
      simp only [recordWrite_eq, issueWrite_a, answered, answerWrites, List.append_assoc]
      rfl
    rw [← writes]
    rfl

theorem raise_of_held {s : State} (held : s.portA.writes ≠ []) (c : Cause) :
    raise c s = { s with raisings := s.raisings ++ [(c, s.portA.writes.length)] } := by
  unfold raise
  rw [heldWrites_eq, if_neg (by simpa using held)]

theorem writes_map_write (writes : List PostedWrite) : (writes.map Request.write).filterMap Request.write? = writes := by
  induction writes with
  | nil => rfl
  | cons w rest ih => exact congrArg (w :: ·) ih

theorem answered_writes (d : Delivery) (result : Result) (s : State) :
    (answered d result s).portA.writes = s.portA.writes ++ answerWrites s d result := by
  refine (Port.writes_append _ _ s.portA).trans ?_
  rw [writes_map_write]

theorem answerWrites_ne_nil (s : State) (d : Delivery) (result : Result) : answerWrites s d result ≠ [] := by
  unfold answerWrites
  split <;> exact nofun

theorem ack_setAck_ne {r q : Record} (ne : r ≠ q) (seq : Byte) (s : State) : (setAck q seq s).ack r = s.ack r := by
  cases q with
  | window n =>
    cases r with
    | window m => exact Vector.getElem_set_ne n.isLt m.isLt fun same => ne (congrArg Record.window (Fin.ext same).symm)
    | cadence m => rfl
  | cadence n =>
    cases r with
    | window m => rfl
    | cadence m => exact Vector.getElem_set_ne n.isLt m.isLt fun same => ne (congrArg Record.cadence (Fin.ext same).symm)

/-- The answer, its COMMAND_DONE behind the writes (R7, R100, R174). -/
theorem answerCommand_raisings (d : Delivery) (result : Result) (s : State) :
    answerCommand d result s =
      { answered d result s with
        raisings := s.raisings ++
          if result ≠ .inProgress ∧ d.notify = true then
            [(Cause.commandDone, (answered d result s).portA.writes.length)]
          else [] } := by
  have raisings : (answered d result s).raisings = s.raisings := by
    unfold answered
    cases d.record <;> rfl
  rw [answerCommand_eq]
  split
  · rw [raise_of_held, raisings]
    rw [answered_writes]
    exact fun empty => answerWrites_ne_nil s d result (List.append_eq_nil_iff.mp empty).2
  · rw [List.append_nil, ← raisings]

/-- Settles O38. -/
theorem commandAnswer : Obligations.CommandAnswer := by
  refine ⟨by decide, fun s d result => ?_⟩
  rw [answerCommand_raisings]
  refine ⟨answered_writes d result s, ?_, fun r ne => ?_, ?_, rfl, ?_⟩
  · exact ack_setAck_same d.record d.seq s
  · exact ack_setAck_ne ne d.seq s
  · unfold answered
    cases d.record <;> rfl
  · unfold answered
    cases d.record <;> rfl

/-! ## The rows that take a command (R141; log 1) -/

theorem goesOn (r : Record) (s : State) : GoesOn r s (sweepAfter r s) := ⟨rfl, .sweepAfter r s⟩

theorem ifUndecided_of_new {d : Delivery} {s : State} (new : s.ack d.record ≠ some d.seq) (take : State → State) :
    ifUndecided d take s = take s :=
  if_pos ((undecided_iff d s).mpr new)

theorem ifUndecided_of_decided {d : Delivery} {s : State} (decided : s.ack d.record = some d.seq)
    (take : State → State) : ifUndecided d take s = s :=
  if_neg fun new => (undecided_iff d s).mp new decided

section
variable {s : State} {d : Delivery}

theorem exec_armCommand_of_delivered {n : CadNo} {f : ArmFields} (delivered : s.scanner = .delivered d)
    (record : d.record = .cadence n) (command : d.command = .arm f) :
    exec (.arm n) s = .next (sweepAfter d.record (ifUndecided d (takeArm n f d) s)) := by
  change execArm n s = _
  rw [execArm, delivered]
  obtain ⟨r, seq, notify, c⟩ := d
  obtain rfl : r = .cadence n := record
  obtain rfl : c = .arm f := command
  exact if_pos rfl

theorem exec_pause_of_delivered {n : CadNo} (delivered : s.scanner = .delivered d)
    (record : d.record = .cadence n) (command : d.command = .pause) :
    exec (.pause n) s = .next (sweepAfter d.record (dispatchIfMoved s (ifUndecided d (takePause n d) s))) := by
  change execPause n s = _
  rw [execPause, delivered]
  exact if_pos ⟨record, command⟩

theorem exec_resume_of_delivered {n : CadNo} (delivered : s.scanner = .delivered d)
    (record : d.record = .cadence n) (command : d.command = .resume) :
    exec (.resume n) s = .next (sweepAfter d.record (ifUndecided d (takeResume n d) s)) := by
  change execResume n s = _
  rw [execResume, delivered]
  exact if_pos ⟨record, command⟩

theorem exec_retire_of_delivered {n : CadNo} (delivered : s.scanner = .delivered d)
    (record : d.record = .cadence n) (command : d.command = .retire) :
    exec (.retire n) s = .next (sweepAfter d.record (dispatchIfMoved s (ifUndecided d (takeRetire n d) s))) := by
  change execRetire n s = _
  rw [execRetire, delivered]
  exact if_pos ⟨record, command⟩

theorem exec_openWindow_of_delivered {n : WinNo} {f : OpenFields} (delivered : s.scanner = .delivered d)
    (record : d.record = .window n) (command : d.command = .openWindow f) :
    exec (.openWindow n) s = .next (sweepAfter d.record (ifUndecided d (takeOpen n f d) s)) := by
  change execOpen n s = _
  rw [execOpen, delivered]
  obtain ⟨r, seq, notify, c⟩ := d
  obtain rfl : r = .window n := record
  obtain rfl : c = .openWindow f := command
  exact if_pos rfl

theorem exec_closeWindow_of_delivered {n : WinNo} (delivered : s.scanner = .delivered d)
    (record : d.record = .window n) (command : d.command = .closeWindow) :
    exec (.closeWindow n) s = .next (sweepAfter d.record (ifUndecided d (takeClose n d) s)) := by
  change execClose n s = _
  rw [execClose, delivered]
  exact if_pos ⟨record, command⟩

theorem exec_unknownCommand_of_delivered {r : Record} (delivered : s.scanner = .delivered d)
    (record : d.record = r) (command : d.command = .unknown) :
    exec (.unknownCommand r) s = .next (sweepAfter d.record (ifUndecided d (takeCommand d) s)) := by
  change execUnknownCommand r s = _
  rw [execUnknownCommand, delivered]
  exact if_pos ⟨record, command⟩

end

/-! ## Cadence commands that are refused (O40) -/

theorem takeArm_of_refused {n : CadNo} {f : ArmFields} {d : Delivery} {result : Result} {s : State}
    (refused : (s.cad n).state = .draining ∧ result = .refusedBusy ∨
      ((s.cad n).state = .armed ∨ (s.cad n).state = .paused ∨ (s.cad n).state = .held) ∧ result = .refusedState ∨
      (s.cad n).state = .idle ∧ f.config = none ∧ result = .refusedConfig ∨
      (∃ c, (s.cad n).state = .idle ∧ f.config = some c ∧ armWindowsOk s c = false ∧ result = .refusedWindow) ∨
      ∃ c, (s.cad n).state = .idle ∧ f.config = some c ∧ armWindowsOk s c = true ∧
        f.lent ≠ (s.cad n).tally ∧ result = .refusedRing) :
    takeArm n f d s = answerCommand d result s := by
  unfold takeArm
  dsimp only
  obtain ⟨state, rfl⟩ | ⟨state, rfl⟩ | ⟨state, config, rfl⟩ | ⟨c, state, config, windows, rfl⟩ |
    ⟨c, state, config, windows, ring, rfl⟩ := refused
  · rw [state]
  · rcases state with state | state | state <;> rw [state]
  · rw [state, config]
  · rw [state, config]
    exact if_pos windows
  · rw [state, config]
    exact (if_neg (by rw [windows]; decide)).trans (if_pos ring)

theorem takePause_of_refused {n : CadNo} {d : Delivery} {result : Result} {s : State}
    (refused : (s.cad n).state = .draining ∧ result = .refusedBusy ∨
      ((s.cad n).state = .idle ∨ (s.cad n).state = .paused) ∧ result = .refusedState) :
    takePause n d s = answerCommand d result s := by
  unfold takePause
  obtain ⟨state, rfl⟩ | ⟨state | state, rfl⟩ := refused <;> rw [state]

theorem takeResume_of_refused {n : CadNo} {d : Delivery} {result : Result} {s : State}
    (refused : (s.cad n).state = .draining ∧ result = .refusedBusy ∨
      ((s.cad n).state = .idle ∨ (s.cad n).state = .armed) ∧ result = .refusedState) :
    takeResume n d s = answerCommand d result s := by
  unfold takeResume
  obtain ⟨state, rfl⟩ | ⟨state | state, rfl⟩ := refused <;> rw [state]

theorem takeRetire_of_refused {n : CadNo} {d : Delivery} {result : Result} {s : State}
    (refused : (s.cad n).state = .draining ∧ result = .refusedBusy ∨
      (s.cad n).state = .idle ∧ result = .refusedState) :
    takeRetire n d s = answerCommand d result s := by
  unfold takeRetire
  obtain ⟨state, rfl⟩ | ⟨state, rfl⟩ := refused <;> rw [state]

/-- A refused command leaves the ready queue: the Dispatcher does not act. -/
theorem dispatchIfMoved_of_same {before s : State} (same : s.ready = before.ready) :
    dispatchIfMoved before s = s :=
  if_pos same

theorem dispatchIfMoved_of_moved {before s : State} (moved : s.ready ≠ before.ready) :
    dispatchIfMoved before s = dispatch s :=
  if_neg moved

/-- Settles O40. -/
theorem cadenceRefusals : Obligations.CadenceRefusals := by
  intro s n d result delivered record new state
  have stays : dispatchIfMoved s (answerCommand d result s) = answerCommand d result s :=
    dispatchIfMoved_of_same (answerCommand_ready d result s)
  refine ⟨fun f command refused => ?_, fun command refused => ?_, fun command refused => ?_,
    fun command refused => ?_⟩
  · rw [exec_armCommand_of_delivered delivered record command, ifUndecided_of_new new, takeArm_of_refused refused]
    exact ⟨_, rfl, goesOn _ _⟩
  · rw [exec_pause_of_delivered delivered record command, ifUndecided_of_new new, takePause_of_refused refused, stays]
    exact ⟨_, rfl, goesOn _ _⟩
  · rw [exec_resume_of_delivered delivered record command, ifUndecided_of_new new, takeResume_of_refused refused]
    exact ⟨_, rfl, goesOn _ _⟩
  · rw [exec_retire_of_delivered delivered record command, ifUndecided_of_new new, takeRetire_of_refused refused,
      stays]
    exact ⟨_, rfl, goesOn _ _⟩

/-! ## Cadence commands that are accepted (O39, O41 to O43) -/

theorem recordWrite_writes (r : Record) (offset size value : Nat) (s : State) :
    (recordWrite r offset size value s).portA.writes =
      s.portA.writes ++ [fieldWrite (recordAddr s r + BitVec.ofNat 64 offset) size value] :=
  Port.writes_append _ _ s.portA

theorem takeArm_of_accepted {n : CadNo} {f : ArmFields} {c : CadConfig} {s : State} (d : Delivery)
    (idle : (s.cad n).state = .idle) (config : f.config = some c) (windows : armWindowsOk s c = true)
    (ring : f.lent = (s.cad n).tally) :
    takeArm n f d s = answerCommand d .ok (recordWrite (.cadence n) 40 1 1 (calendarJoin n (setCad n
      { s.cad n with
        config := some c, lastLent := f.lent, resumeMark := false, state := .armed
        nextDue := firstGridAfter c.period c.phase s.tick } s))) := by
  unfold takeArm
  dsimp only
  rw [idle, config]
  exact (if_neg (by rw [windows]; decide)).trans (if_neg (not_not_intro ring))

/-- A cadence that is put onto the calendar with C_STATE ARMED written (R10, R12). -/
theorem joined_spec {n : CadNo} {e : CadEntry} {s : State} (later : s.tick < e.nextDue) :
    let u := recordWrite (.cadence n) 40 1 1 (calendarJoin n (setCad n e s))
    u = { s with
      cadences := u.cadences, calendar := u.calendar
      portA := { s.portA with requests := u.portA.requests } } ∧
      u.portA.writes = s.portA.writes ++
        [fieldWrite (s.hdr.cadenceTable + BitVec.ofNat 64 (64 * n) + 40) 1 1] ∧
      u.cad n = { e with place := .calendar } ∧ (∀ m, m ≠ n → u.cad m = s.cad m) ∧
      u.calendar.Perm (n :: s.calendar) := by
  intro u
  obtain ⟨cad, others, calendar, ready, frame⟩ := calendarJoin_spec (n := n) (s := setCad n e s)
    (fun _ => by rw [cad_setCad_same]; exact later)
  rw [cad_setCad_same] at cad
  have wrote : u = { calendarJoin n (setCad n e s) with
      portA := { s.portA with requests := s.portA.requests ++
        [.write (fieldWrite (s.hdr.cadenceTable + BitVec.ofNat 64 (64 * n) + 40) 1 1)] } } := by
    change recordWrite (.cadence n) 40 1 1 (calendarJoin n (setCad n e s)) = _
    rw [recordWrite_eq, issueWrite_a, frame]
    rfl
  rw [wrote]
  refine ⟨?_, Port.writes_append _ _ s.portA, cad, fun m ne => ?_, calendar⟩
  · rw [frame]
    rfl
  · exact (others m ne).trans (cad_setCad_ne (Ne.symm ne) _ _)

/-- Settles O39. -/
theorem armAccepted : Obligations.ArmAccepted := by
  intro s n d f c delivered record command new idle config windows ring
  have later : s.tick < firstGridAfter c.period c.phase s.tick := firstGridAfter_gt _ _ _
  obtain ⟨frame, writes, cad, others, calendar⟩ := joined_spec (n := n) (s := s)
    (e := { s.cad n with
      config := some c, lastLent := f.lent, resumeMark := false, state := .armed
      nextDue := firstGridAfter c.period c.phase s.tick }) later
  refine ⟨_, _, ?_, goesOn d.record _, frame, writes, cad, others, calendar, ?_⟩
  · rw [exec_armCommand_of_delivered delivered record command, ifUndecided_of_new new,
      takeArm_of_accepted d idle config windows ring]
  · rw [cad]
    exact later

theorem takePause_of_accepted {n : CadNo} {s : State} (d : Delivery)
    (active : (s.cad n).state = .armed ∨ (s.cad n).state = .held) :
    takePause n d s = answerCommand d .ok (pauseCadence n s) := by
  unfold takePause
  rcases active with state | state <;> rw [state]

/-- Whether the ready queue changes when a cadence's service entry is taken out. -/
theorem ready_filter_eq_iff (n : CadNo) (ready : List ReadyEntry) :
    ready.filter (fun x => x != .service n) = ready ↔ .service n ∉ ready := by
  rw [List.filter_eq_self]
  constructor
  · intro all mem
    exact absurd (all _ mem) (by simp)
  · intro absent x mem
    exact bne_iff_ne.mpr fun same => absent (same ▸ mem)

/-- Settles O41. -/
theorem pauseAccepted : Obligations.PauseAccepted := by
  intro s n d delivered record command new active e u v
  have taken : takePause n d s = v := takePause_of_accepted d active
  have ready : v.ready = s.ready.filter (fun x => x != .service n) := answerCommand_ready d .ok u
  refine ⟨_, by rw [exec_pause_of_delivered delivered record command, ifUndecided_of_new new, taken], fun absent => ?_,
    fun waits => ?_⟩
  · rw [dispatchIfMoved_of_same (ready.trans ((ready_filter_eq_iff n s.ready).mpr absent))]
    exact goesOn _ _
  · rw [dispatchIfMoved_of_moved fun same => (ready_filter_eq_iff n s.ready).mp (ready.symm.trans same) waits]
    exact goesOn _ _

theorem takeResume_of_accepted {n : CadNo} {s : State} (d : Delivery)
    (rests : (s.cad n).state = .paused ∨ (s.cad n).state = .held) :
    takeResume n d s = answerCommand d .ok (resumeCadence n s) := by
  unfold takeResume
  rcases rests with state | state <;> rw [state]

/-- Settles O42: onto the calendar, or in its lane with the resume mark. -/
theorem resumeAccepted : Obligations.ResumeAccepted := by
  intro s n d delivered record command new rests e
  have step : exec (.resume n) s = .next (sweepAfter d.record (answerCommand d .ok (resumeCadence n s))) := by
    rw [exec_resume_of_delivered delivered record command, ifUndecided_of_new new, takeResume_of_accepted d rests]
  refine ⟨_, _, step, goesOn _ _, ?_⟩
  by_cases inLane : e.place.isLane = true
  · have resumed : resumeCadence n s = setCadState n { e with state := .armed, resumeMark := true } s :=
      resumeCadence_of_lane inLane
    rw [resumed]
    refine ⟨rfl, recordWrite_writes _ _ _ _ _, fun m ne => cad_setCad_ne (Ne.symm ne) _ _,
      fun away => absurd (inLane.symm.trans away) (by decide), fun _ => ⟨setCadState_cad _ _ _, rfl⟩⟩
  · have resumed : resumeCadence n s = recordWrite (.cadence n) 40 1 1 (calendarJoin n
        (setCad n { e with state := .armed, nextDue := nextInstant s n s.tick } s)) := if_neg inLane
    obtain ⟨frame, writes, cad, others, calendar⟩ := joined_spec (n := n) (s := s)
      (e := { e with state := .armed, nextDue := nextInstant s n s.tick }) (firstGridAfter_gt _ _ _)
    rw [resumed]
    exact ⟨frame, writes, others, fun _ => ⟨cad, calendar⟩, fun yes => absurd yes inLane⟩

theorem takeRetire_of_accepted {n : CadNo} {s : State} (d : Delivery)
    (active : (s.cad n).state = .armed ∨ (s.cad n).state = .paused ∨ (s.cad n).state = .held) :
    takeRetire n d s = retireCadence n d s := by
  unfold takeRetire
  rcases active with state | state | state <;> rw [state]

/-- Settles O43. -/
theorem retireAccepted : Obligations.RetireAccepted := by
  intro s n d delivered record command new active e e1 u
  obtain ⟨v, taken, frame, lane, away⟩ : ∃ v, takeRetire n d s = v ∧ v = { u with ready := v.ready } ∧
      (e.place.isLane = true → v.ready = u.ready) ∧
      (e.place.isLane = false → v.ready.Perm (.closing n :: u.ready)) := by
    refine ⟨_, takeRetire_of_accepted d active, ?_⟩
    by_cases inLane : e.place.isLane = true
    · have retired : retireCadence n d s = u := by
        have place : e1.place = e.place := if_pos inLane
        have stays : e1 = { e with state := .draining, resumeMark := false, retireNotify := d.notify } := by
          rw [← place]
        refine (if_pos inLane).trans ?_
        change answerCommand d .inProgress (setCadState n _ (takeOff n s)) =
          answerCommand d .inProgress (setCadState n e1 (takeOff n s))
        rw [stays]
      rw [retired]
      exact ⟨rfl, fun _ => rfl, fun no => absurd (inLane.symm.trans no) (by decide)⟩
    · have retired : retireCadence n d s = readyJoin (.closing n) u := by
        have place : e1.place = .ready := if_neg inLane
        have moves : e1 =
            { e with state := .draining, resumeMark := false, retireNotify := d.notify, place := .ready } := by
          rw [← place]
        refine (if_neg inLane).trans ?_
        change readyJoin (.closing n) (answerCommand d .inProgress (setCadState n _ (takeOff n s))) =
          readyJoin (.closing n) (answerCommand d .inProgress (setCadState n e1 (takeOff n s)))
        rw [moves]
      rw [retired]
      exact ⟨rfl, fun yes => absurd yes inLane, fun _ => readyInsert_perm _ _ _⟩
  refine ⟨v, _, by rw [exec_retire_of_delivered delivered record command, ifUndecided_of_new new, taken], frame, lane,
    away, fun same => ?_, fun moved => ?_⟩
  · rw [dispatchIfMoved_of_same same]
    exact goesOn _ _
  · rw [dispatchIfMoved_of_moved moved]
    exact goesOn _ _

/-! ## Windows (O44) -/

theorem drains_iff (e : WinEntry) : drains e = true ↔ e.state = .closing ∧ e.useCount = 1 := by
  simp [drains]

theorem setWin_setWin (n : WinNo) (e f : WinEntry) (s : State) : setWin n f (setWin n e s) = setWin n f s := by
  simp [setWin]

/-- The drain of a window whose entry is known (R104). -/
theorem drainWindow_of_win {s : State} {n : WinNo} {e : WinEntry} (known : s.win n = e) :
    drainWindow n s =
      if e.closeNotify then
        raise .commandDone (recordWrite (.window n) 25 1 Result.completed.code
          (setWinState n { e with state := .closed, config := none, closeNotify := false } s))
      else recordWrite (.window n) 25 1 Result.completed.code
        (setWinState n { e with state := .closed, config := none, closeNotify := false } s) := by
  subst known
  rfl

/-- Settles O44: OPEN, CLOSE, and a release. -/
theorem windowCommands : Obligations.WindowCommands := by
  refine ⟨?opens, ?closes, ?releases⟩
  case opens =>
    intro s n d f delivered record command new
    refine ⟨_, by rw [exec_openWindow_of_delivered delivered record command, ifUndecided_of_new new],
      fun c closed config => ?_, fun closed config => ?_, fun opened => ?_, fun closing => ?_⟩
    · rw [takeOpen, closed, config]
      exact goesOn _ _
    · rw [takeOpen, closed, config]
      exact goesOn _ _
    · rw [takeOpen, opened]
      exact goesOn _ _
    · rw [takeOpen, closing]
      exact goesOn _ _
  case closes =>
    intro s n d delivered record command new stateField
    refine ⟨_, by rw [exec_closeWindow_of_delivered delivered record command, ifUndecided_of_new new],
      fun opened unused => ?_, fun opened held => ?_, fun closed => ?_, fun closing => ?_⟩
    · have taken : takeClose n d s =
          answerCommand d .ok (setWinState n { s.win n with state := .closed, config := none } s) := by
        unfold takeClose
        rw [opened]
        exact if_pos unused
      rw [taken]
      exact goesOn _ _
    · have taken : takeClose n d s =
          answerCommand d .inProgress
            (setWinState n { s.win n with state := .closing, closeNotify := d.notify } s) := by
        unfold takeClose
        rw [opened]
        exact if_neg (Nat.ne_of_gt held)
      rw [taken]
      exact goesOn _ _
    · rw [takeClose, closed]
      exact goesOn _ _
    · rw [takeClose, closing]
      exact goesOn _ _
  case releases =>
    intro s n e record
    refine ⟨fun stays => if_neg (mt (drains_iff e).mp stays), fun closing last => ?_⟩
    intro u
    have drained : releaseWindow n s =
        drainWindow n (setWin n { e with useCount := e.useCount - 1 } s) :=
      if_pos ((drains_iff e).mpr ⟨closing, last⟩)
    have drainedTo : recordWrite (.window n) 25 1 Result.completed.code
        (setWinState n ⟨.closed, none, 0, false⟩ (setWin n { e with useCount := 0 } s)) = u := by
      rw [setWinState, setWin_setWin]
      rfl
    have zero : e.useCount - 1 = 0 := by
      rw [last]
    rw [drained, zero, drainWindow_of_win (win_setWin_same n _ s), drainedTo]

end Sys2Proof.Machine
end

section
/-! The commands as a family: the row that takes the command handed over, and the command no row knows (O45). -/

namespace Sys2Proof.Machine

/-! ## What a command does to the ready queue -/

theorem takeArm_ready (n : CadNo) (f : ArmFields) (d : Delivery) (s : State) : (takeArm n f d s).ready = s.ready := by
  unfold takeArm
  dsimp only
  split
  case h_5 =>
    split
    · exact answerCommand_ready _ _ _
    · split
      · exact answerCommand_ready _ _ _
      · split
        · exact answerCommand_ready _ _ _
        · rw [answerCommand_ready, recordWrite_ready]
          exact (NoneDue.rejoin n _ s (firstGridAfter_gt _ _ _)).2
  all_goals exact answerCommand_ready _ _ _

theorem resumeCadence_ready (n : CadNo) (s : State) : (resumeCadence n s).ready = s.ready := by
  unfold resumeCadence setCadState
  dsimp only
  split
  · rw [recordWrite_ready]
    rfl
  · rw [recordWrite_ready]
    exact (NoneDue.rejoin n _ s (firstGridAfter_gt _ _ _)).2

theorem takeResume_ready (n : CadNo) (d : Delivery) (s : State) : (takeResume n d s).ready = s.ready := by
  unfold takeResume
  split
  case h_4 | h_5 => exact (answerCommand_ready _ _ _).trans (resumeCadence_ready n s)
  all_goals exact answerCommand_ready _ _ _

theorem setWinState_ready (n : WinNo) (e : WinEntry) (s : State) : (setWinState n e s).ready = s.ready :=
  recordWrite_ready _ _ _ _ _

theorem takeOpen_ready (n : WinNo) (f : OpenFields) (d : Delivery) (s : State) : (takeOpen n f d s).ready = s.ready := by
  unfold takeOpen
  split
  case h_3 =>
    split
    · exact answerCommand_ready _ _ _
    · exact (answerCommand_ready _ _ _).trans (setWinState_ready _ _ _)
  all_goals exact answerCommand_ready _ _ _

theorem takeClose_ready (n : WinNo) (d : Delivery) (s : State) : (takeClose n d s).ready = s.ready := by
  unfold takeClose
  split
  case h_3 =>
    split <;> exact (answerCommand_ready _ _ _).trans (setWinState_ready _ _ _)
  all_goals exact answerCommand_ready _ _ _

/-! ## The answer to a command the owner does not know -/

/-- An unknown command's owner is busy (R7, R100): a CLOSING window, a DRAINING cadence. -/
def ownerBusy (r : Record) (s : State) : Prop :=
  match r with
  | .window n => (s.win n).state = .closing
  | .cadence n => (s.cad n).state = .draining

theorem takeCommand_unknown_of_busy {d : Delivery} {s : State} (command : d.command = .unknown)
    (busy : ownerBusy d.record s) : takeCommand d s = answerCommand d .refusedBusy s := by
  obtain ⟨r, seq, notify, c⟩ := d
  obtain rfl : c = .unknown := command
  cases r with
  | window n => exact if_pos busy
  | cadence n => exact if_pos busy

theorem takeCommand_unknown_of_free {d : Delivery} {s : State} (command : d.command = .unknown)
    (free : ¬ownerBusy d.record s) : takeCommand d s = answerCommand d .unknown s := by
  obtain ⟨r, seq, notify, c⟩ := d
  obtain rfl : c = .unknown := command
  cases r with
  | window n => exact if_neg free
  | cadence n => exact if_neg free

theorem takeCommand_unknown_ready {d : Delivery} (command : d.command = .unknown) (s : State) :
    (takeCommand d s).ready = s.ready := by
  by_cases busy : ownerBusy d.record s
  · rw [takeCommand_unknown_of_busy command busy, answerCommand_ready]
  · rw [takeCommand_unknown_of_free command busy, answerCommand_ready]

/-! ## The row of a command -/

/-- The command handed over is taken at its row (R7, R100): its owner decides it, the Dispatcher acts where the ready
queue moved, and the sweep goes on. -/
def tookCommand (d : Delivery) (s : State) : State := dispatchIfMoved s (ifUndecided d (takeCommand d) s)

theorem tookCommand_of_still {d : Delivery} {s : State} (still : (takeCommand d s).ready = s.ready) :
    tookCommand d s = ifUndecided d (takeCommand d) s := by
  refine dispatchIfMoved_of_same ?_
  unfold ifUndecided
  split
  · exact still
  · rfl

theorem tookCommand_of_decided {d : Delivery} {s : State} (decided : s.ack d.record = some d.seq) :
    tookCommand d s = s := by
  rw [tookCommand, ifUndecided_of_decided decided]
  exact dispatchIfMoved_of_same rfl

/-- A row that lets the Dispatcher rest: its command leaves the ready queue. -/
theorem step_of_still {s : State} {d : Delivery} {c : Instr} (still : (takeCommand d s).ready = s.ready)
    (step : exec c s = .next (sweepAfter d.record (ifUndecided d (takeCommand d) s))) :
    exec c s = .next (sweepAfter d.record (tookCommand d s)) := by
  rw [step, tookCommand_of_still still]

theorem exec_of_row {s : State} {d : Delivery} {c : Instr} (delivered : s.scanner = .delivered d)
    (row : d.row = some c) : exec c s = .next (sweepAfter d.record (tookCommand d s)) := by
  obtain ⟨r, seq, notify, command⟩ := d
  cases r with
  | cadence n =>
    cases command with
    | arm f =>
      obtain rfl : Instr.arm n = c := Option.some.inj row
      refine step_of_still ?_ (exec_armCommand_of_delivered delivered rfl rfl)
      exact takeArm_ready n f _ s
    | pause =>
      obtain rfl : Instr.pause n = c := Option.some.inj row
      exact exec_pause_of_delivered delivered rfl rfl
    | resume =>
      obtain rfl : Instr.resume n = c := Option.some.inj row
      refine step_of_still ?_ (exec_resume_of_delivered delivered rfl rfl)
      exact takeResume_ready n _ s
    | retire =>
      obtain rfl : Instr.retire n = c := Option.some.inj row
      exact exec_retire_of_delivered delivered rfl rfl
    | unknown =>
      obtain rfl : Instr.unknownCommand (.cadence n) = c := Option.some.inj row
      exact step_of_still (takeCommand_unknown_ready rfl s) (exec_unknownCommand_of_delivered delivered rfl rfl)
    | openWindow f => cases row
    | closeWindow => cases row
  | window n =>
    cases command with
    | openWindow f =>
      obtain rfl : Instr.openWindow n = c := Option.some.inj row
      refine step_of_still ?_ (exec_openWindow_of_delivered delivered rfl rfl)
      exact takeOpen_ready n f _ s
    | closeWindow =>
      obtain rfl : Instr.closeWindow n = c := Option.some.inj row
      refine step_of_still ?_ (exec_closeWindow_of_delivered delivered rfl rfl)
      exact takeClose_ready n _ s
    | unknown =>
      obtain rfl : Instr.unknownCommand (.window n) = c := Option.some.inj row
      exact step_of_still (takeCommand_unknown_ready rfl s) (exec_unknownCommand_of_delivered delivered rfl rfl)
    | arm f => cases row
    | pause => cases row
    | resume => cases row
    | retire => cases row

theorem unknown_row (r : Record) (seq : Byte) (notify : Bool) :
    Delivery.row ⟨r, seq, notify, .unknown⟩ = some (.unknownCommand r) := by
  cases r <;> rfl

/-- The rows at which a command is taken. -/
def takesCommand (c : Instr) : Prop :=
  (∃ n, c = .arm n ∨ c = .pause n ∨ c = .resume n ∨ c = .retire n) ∨
    (∃ n, c = .openWindow n ∨ c = .closeWindow n) ∨ ∃ r, c = .unknownCommand r

/-- A row with no command of its own handed over has nothing to take (log 1, log 3). -/
theorem exec_of_no_row {s : State} {c : Instr} (takes : takesCommand c)
    (absent : ∀ d, s.scanner = .delivered d → d.row ≠ some c) : exec c s = .next s := by
  obtain ⟨n, rfl | rfl | rfl | rfl⟩ | ⟨n, rfl | rfl⟩ | ⟨r, rfl⟩ := takes
  · change execArm n s = _
    unfold execArm
    split
    next d delivered =>
      split
      next m f record command =>
        refine if_neg fun same => absent d delivered ?_
        rw [Delivery.row, record, command, same]
      next => rfl
    next => rfl
  · change execPause n s = _
    unfold execPause
    split
    next d delivered =>
      refine if_neg fun ⟨record, command⟩ => absent d delivered ?_
      rw [Delivery.row, record, command]
    next => rfl
  · change execResume n s = _
    unfold execResume
    split
    next d delivered =>
      refine if_neg fun ⟨record, command⟩ => absent d delivered ?_
      rw [Delivery.row, record, command]
    next => rfl
  · change execRetire n s = _
    unfold execRetire
    split
    next d delivered =>
      refine if_neg fun ⟨record, command⟩ => absent d delivered ?_
      rw [Delivery.row, record, command]
    next => rfl
  · change execOpen n s = _
    unfold execOpen
    split
    next d delivered =>
      split
      next m f record command =>
        refine if_neg fun same => absent d delivered ?_
        rw [Delivery.row, record, command, same]
      next => rfl
    next => rfl
  · change execClose n s = _
    unfold execClose
    split
    next d delivered =>
      refine if_neg fun ⟨record, command⟩ => absent d delivered ?_
      rw [Delivery.row, record, command]
    next => rfl
  · change execUnknownCommand r s = _
    unfold execUnknownCommand
    split
    next d delivered =>
      refine if_neg fun ⟨record, command⟩ => absent d delivered ?_
      obtain ⟨r', seq, notify, c⟩ := d
      obtain rfl : r' = r := record
      obtain rfl : c = .unknown := command
      exact unknown_row r' seq notify
    next => rfl

/-- Settles O45. -/
theorem unknownCommand : Obligations.UnknownCommand := by
  refine ⟨fun s r d delivered record command new => ?answer, fun s c takes absent => exec_of_no_row takes absent,
    fun s c d delivered row decided => ?decided,
    fun n w r seq notify => ⟨fun _ => rfl, rfl, rfl, rfl, fun _ => rfl, rfl, unknown_row r seq notify⟩⟩
  case answer =>
    intro busy
    subst record
    have ownerBusy_iff : ownerBusy d.record s ↔ busy := Iff.rfl
    have step : exec (.unknownCommand d.record) s = .next (sweepAfter d.record (takeCommand d s)) := by
      rw [exec_unknownCommand_of_delivered delivered rfl command, ifUndecided_of_new new]
    refine ⟨_, step, fun held => ?_, fun free => ?_⟩
    · rw [takeCommand_unknown_of_busy command (ownerBusy_iff.mpr held)]
      exact goesOn _ _
    · rw [takeCommand_unknown_of_free command (mt ownerBusy_iff.mp free)]
      exact goesOn _ _
  case decided =>
    rw [exec_of_row delivered row, tookCommand_of_decided decided]
    exact ⟨_, rfl, goesOn _ _⟩

end Sys2Proof.Machine
end

section
/-! The Errand Reader: takes (O47) and links (O48). -/

namespace Sys2Proof.Machine

/-! ## Takes (R81 to R84; O47) -/

/-- The write of one part-half field of a take (R81, R83). -/
def takeItemWrite (c : Card) (valid : Bool) (item : TakeItem) (s : State) : PostedWrite :=
  match item with
  | .outcome => fieldWrite (c.addr + 36) 4 (if valid then 0 else 7)
  | .moved => fieldWrite (c.addr + 40) 4 0
  | .doneTick => fieldWrite (c.addr + 44) 4 (if valid then 0 else s.tick)
  | .eState => fieldWrite (c.addr + 32) 4 (if valid then 1 else 2)

theorem takeWrite_eq (c : Card) (valid : Bool) (item : TakeItem) (s : State) :
    takeWrite c valid item s = issueWrite .a (takeItemWrite c valid item s) s := by
  cases item <;> rfl

theorem exec_takeWrite_of_taking {s : State} {c : Card} {valid : Bool} {item : TakeItem} {rest : List TakeItem}
    (active : s.bridge ≠ .halted) (taking : s.reader = .takingWrite c valid (item :: rest)) :
    exec .takeWrite s = .next (takeStep c valid item rest s) := by
  change execTakeWrite s = _
  rw [execTakeWrite, taking]
  exact if_neg active

theorem exec_takeWrite_of_halted {s : State} (halted : s.bridge = .halted) : exec .takeWrite s = .next s := by
  change execTakeWrite s = _
  unfold execTakeWrite
  split
  · exact if_pos halted
  · rfl

theorem takeStep_of_more (c : Card) (valid : Bool) (item : TakeItem) {rest : List TakeItem} (more : rest ≠ [])
    (s : State) :
    takeStep c valid item rest s =
      { issueWrite .a (takeItemWrite c valid item s) s with reader := .takingWrite c valid rest } := by
  rw [takeStep, takeWrite_eq]
  exact if_neg fun empty => more (List.isEmpty_iff.mp empty)

theorem takeStep_of_last (c : Card) (valid : Bool) (s : State) :
    takeStep c valid .eState [] s =
      checkStopped (endTake c valid (issueWrite .a (takeItemWrite c valid .eState s) s)) := rfl

theorem readAnswered_taking {s : State} {addr : Addr} {r : ReadInfo} (requester : r.requester = .reader)
    (role : r.role = .control) (taking : s.reader = .takingRead addr) (tag : TagNo) (bytes : List Byte) :
    readAnswered tag r (.data bytes) s = cardRead addr bytes s := by
  rw [readAnswered_control role, requester, controlRead, readerControlRead, taking]

theorem decodeKind_eq (code : Nat) :
    decodeKind code = if code = 1 then some .copy else if code = 2 then some .fill else none := by
  unfold decodeKind
  split
  · rfl
  · rfl
  next one two => rw [if_neg one, if_neg two]

/-- Settles O47. -/
theorem takes : Obligations.Takes := by
  refine ⟨fun s addr tag r bytes requester role taking => ?read, fun s c valid item rest more taking => ?writes,
    fun s c valid active taking => ?last⟩
  case read =>
    exact ⟨readAnswered_taking requester role taking tag bytes, rfl, rfl, rfl, decodeKind_eq _, rfl, rfl, rfl, rfl, rfl,
      rfl, rfl, rfl⟩
  case writes =>
    refine ⟨fun active => ?_, fun halted => exec_takeWrite_of_halted halted⟩
    rw [exec_takeWrite_of_taking active taking, takeStep_of_more c valid item more]
    cases item <;> rfl
  case last =>
    intro u
    have step : exec .takeWrite s = .next (checkStopped (endTake c valid u)) := by
      rw [exec_takeWrite_of_taking active taking, takeStep_of_last]
      rfl
    rw [step]
    refine ⟨fun isValid => ?_, fun invalid => ?_⟩
    · subst isValid
      rfl
    · subst invalid
      rfl

/-! ## Links (R78 to R80, R84; O48) -/

theorem mayTake_iff (s : State) (addr : Addr) :
    mayTake s addr = true ↔ s.bridge = .running ∧ s.errands.length < 8 ∧ addr ∉ errandAddrs s := by
  have size : decide (s.errands.length < Config.errandQueueSize) = true ↔ s.errands.length < 8 := decide_eq_true_iff
  have absent : s.errands.all (fun e => e.card.addr != addr) = true ↔ addr ∉ errandAddrs s := by
    simp [errandAddrs]
  rw [mayTake, Bool.and_eq_true, Bool.and_eq_true, size, absent, beq_iff_eq, and_assoc]

theorem usableLink_iff (link : Addr) (source : Option Addr) :
    usableLink link source = true ↔ link ≠ 0 ∧ link.toNat % 64 = 0 ∧ source ≠ some link := by
  simp [usableLink, and_assoc]

theorem followLink_of_room {s : State} {addr : Addr} (room : mayTake s addr = true) :
    followLink addr s = requestControl .reader addr 32 { s with reader := .takingRead addr } :=
  if_pos room

theorem followLink_of_full {s : State} {addr : Addr} (full : ¬mayTake s addr = true) :
    followLink addr s = { s with reader := .holding addr } :=
  if_neg full

theorem actOnLink_zero (source : Option Addr) (s : State) :
    actOnLink 0 source s = { s with reader := restingPos source } :=
  if_pos rfl

theorem actOnLink_of_usable {link : Addr} {source : Option Addr} (usable : usableLink link source = true) (s : State) :
    actOnLink link source s = followLink link s :=
  (if_neg ((usableLink_iff link source).mp usable).1).trans (if_pos usable)

theorem actOnLink_of_unusable {link : Addr} {source : Option Addr} (link_ne : link ≠ 0)
    (unusable : ¬usableLink link source = true) (s : State) :
    actOnLink link source s =
      reportFault .errandError .errand s.takeCount.toNat { s with reader := restingPos source } :=
  (if_neg link_ne).trans (if_neg unusable)

theorem actOnLink_sweepPending (link : Addr) (source : Option Addr) (s : State) :
    (actOnLink link source s).sweepPending = s.sweepPending := by
  by_cases zero : link = 0
  · rw [zero, actOnLink_zero]
  · by_cases usable : usableLink link source = true
    · rw [actOnLink_of_usable usable, followLink_frame]
    · rw [actOnLink_of_unusable zero usable, reportFault_frame]

theorem chainValue_of_noCard (link : Addr) {s : State} (runs : s.bridge = .running) (noCard : s.reader = .noCard) :
    chainValue link s = actOnLink link none s := by
  rw [chainValue, if_pos runs, noCard]

theorem chainValue_of_watching (link : Addr) {s : State} {addr : Addr} (runs : s.bridge = .running)
    (watching : s.reader = .watching addr) : chainValue link s = actOnLink link (some addr) s := by
  rw [chainValue, if_pos runs, watching]

/-- The value of a chain read is discarded outside RUNNING, and by a reader that names no link (R79). -/
theorem chainValue_of_away (link : Addr) {s : State}
    (away : s.bridge ≠ .running ∨ s.reader.busy = true ∨ ∃ addr, s.reader = .holding addr) :
    chainValue link s = s := by
  unfold chainValue
  split
  next runs =>
    have names : s.reader.busy = true ∨ ∃ addr, s.reader = .holding addr := away.resolve_left (not_not_intro runs)
    cases reader : s.reader with
    | noCard =>
      rw [reader] at names
      exact names.elim nofun fun ⟨_, holds⟩ => nomatch holds
    | watching addr =>
      rw [reader] at names
      exact names.elim nofun fun ⟨_, holds⟩ => nomatch holds
    | _ => rfl
  next => rfl

theorem chainValue_sweepPending (link : Addr) (s : State) : (chainValue link s).sweepPending = s.sweepPending := by
  unfold chainValue
  split
  · split
    · exact actOnLink_sweepPending _ _ s
    · exact actOnLink_sweepPending _ _ s
    · rfl
  · rfl

theorem endSweep_of_over {s : State} (rests : s.bridge ≠ .running ∨ s.sweepPending = false) :
    endSweep s = { s with scanner := .idle, sweepPending := false } :=
  if_neg fun ⟨runs, pending⟩ => rests.elim (· runs) fun clear => nomatch pending.symm.trans clear

theorem endSweep_of_pending {s : State} (runs : s.bridge = .running) (pending : s.sweepPending = true) :
    endSweep s = startSweep { s with scanner := .idle, sweepPending := false } :=
  if_pos ⟨runs, pending⟩

theorem recheckHolding_of_holding {s : State} {addr : Addr} (holding : s.reader = .holding addr) :
    recheckHolding s = if mayTake s addr then followLink addr s else s := by
  rw [recheckHolding, holding]

theorem recheckHolding_of_other {s : State} (other : ∀ addr, s.reader ≠ .holding addr) : recheckHolding s = s := by
  unfold recheckHolding
  split
  next addr holding => exact absurd holding (other addr)
  next => rfl

/-- Settles O48. -/
theorem linkFollowed : Obligations.LinkFollowed := by
  refine ⟨fun s link source => ?link, fun s c => ?after, fun s addr tag r b requester role linking => ?linked,
    fun s tag r b requester role chain => ?chain,
    fun s => ⟨fun addr holding => ?recheck, fun other => recheckHolding_of_other other⟩⟩
  case link =>
    intro usable rest room
    have rests : ({ s with reader := restingPos source } : State) = rest := by
      cases source <;> rfl
    have usable_iff : usableLink link source = true ↔ usable := usableLink_iff link source
    have room_iff : mayTake s link = true ↔ room := mayTake_iff s link
    refine ⟨fun zero => ?_, fun link_ne unusable => ?_, fun ok free => ?_, fun ok full => ?_⟩
    · rw [zero, actOnLink_zero, rests]
    · rw [actOnLink_of_unusable link_ne (mt usable_iff.mp unusable), rests]
    · rw [actOnLink_of_usable (usable_iff.mpr ok), followLink_of_room (room_iff.mpr free)]
    · rw [actOnLink_of_usable (usable_iff.mpr ok), followLink_of_full (mt room_iff.mp full)]
  case after =>
    refine ⟨fun zero runs => if_pos ⟨zero, runs⟩, fun zero rests => ?_,
      fun link_ne => if_neg fun ⟨zero, _⟩ => link_ne zero⟩
    have acts : afterTake c s = actOnLink c.nextCard (some c.addr) s := if_neg fun ⟨_, runs⟩ => rests runs
    rw [acts, zero, actOnLink_zero]
    rfl
  case linked =>
    rw [readAnswered_control role, requester, controlRead, readerControlRead, linking]
    rfl
  case chain =>
    intro link
    have answered : readAnswered tag r (.data b) s = endSweep (chainValue link s) := by
      rw [readAnswered_control role, requester, controlRead, scannerControlRead, chain]
      rfl
    have bridge : (chainValue link s).bridge = s.bridge := (Steady.chainValue link s).bridge
    have pending : (chainValue link s).sweepPending = s.sweepPending := chainValue_sweepPending link s
    refine ⟨chainValue link s, _, answered, chainValue_of_noCard link, fun addr => chainValue_of_watching link,
      chainValue_of_away link, fun rests => ?_, fun runs again => ?_⟩
    · exact endSweep_of_over (by rw [bridge, pending]; exact rests)
    · exact endSweep_of_pending (bridge.trans runs) (pending.trans again)
  case recheck =>
    intro room
    have room_iff : mayTake s addr = true ↔ room := mayTake_iff s addr
    rw [recheckHolding_of_holding holding]
    exact ⟨fun free => (if_pos (room_iff.mpr free)).trans (followLink_of_room (room_iff.mpr free)),
      fun full => if_neg (mt room_iff.mp full)⟩

end Sys2Proof.Machine
end

section
/-! The Dispatcher: the hand-out, the first eligible errand, the gate, and the work of an event (O49). -/

namespace Sys2Proof.Machine

/-! ## The hand-out of one lane (R43) -/

theorem handOutLane_of_shut {s : State} {k : LaneNo} (shut : s.bridge ≠ .running ∨ (s.lane k).state ≠ .idle) :
    handOutLane k s = none :=
  if_neg fun ⟨runs, idle⟩ => shut.elim (· runs) (· idle)

section
variable {s : State} {k : LaneNo} (runs : s.bridge = .running) (idle : (s.lane k).state = .idle)
include runs idle

theorem handOutLane_of_ready {e : ReadyEntry} {rest : List ReadyEntry} (ready : s.ready = e :: rest) :
    handOutLane k s = some (startReady k e { s with ready := rest }) := by
  rw [handOutLane, if_pos ⟨runs, idle⟩, ready]

theorem handOutLane_of_empty (ready : s.ready = []) :
    handOutLane k s = (errandToStart s).map (fun e => startErrand k e s) := by
  rw [handOutLane, if_pos ⟨runs, idle⟩, ready]

end

theorem errandToStart_of_open {s : State} (admits : s.gate = .opened ∧ errandLaneCount s < s.hdr.errandLanes) :
    errandToStart s = firstEligible s.errands :=
  if_pos admits

theorem errandToStart_of_none {s : State}
    (bare : ¬(s.gate = .opened ∧ errandLaneCount s < s.hdr.errandLanes) ∨ firstEligible s.errands = none) :
    errandToStart s = none := by
  unfold errandToStart
  split
  next admits => exact bare.resolve_left (not_not_intro admits)
  next => rfl

/-! ## The first eligible errand (R88) -/

/-- The entry at a place of the errand queue is eligible: WAITING or PARKED, and not fenced off (R88). -/
def eligibleAt (errands : List Errand) (i : Nat) : Prop :=
  ∃ e, errands[i]? = some e ∧ (e.state = .waiting ∨ e.state = .parked) ∧ (e.card.fence = true → i = 0)

theorem startable_iff (e : Errand) : e.startable = true ↔ e.state = .waiting ∨ e.state = .parked := by
  simp [Errand.startable]

theorem eligibleAt_head (e : Errand) (rest : List Errand) : eligibleAt (e :: rest) 0 ↔ e.startable = true := by
  simp [eligibleAt, startable_iff]

theorem eligibleAt_tail (e : Errand) (rest : List Errand) (i : Nat) :
    eligibleAt (e :: rest) (i + 1) ↔ ∃ x, rest[i]? = some x ∧ (x.startable && !x.card.fence) = true := by
  simp [eligibleAt, startable_iff]

theorem firstEligible_spec (errands : List Errand) :
    (∀ e, firstEligible errands = some e →
      ∃ i, errands[i]? = some e ∧ eligibleAt errands i ∧ ∀ j, j < i → ¬eligibleAt errands j) ∧
    (firstEligible errands = none → ∀ i, ¬eligibleAt errands i) := by
  cases errands with
  | nil =>
    refine ⟨nofun, fun _ i ⟨e, at_i, _⟩ => ?_⟩
    cases at_i
  | cons first rest =>
    by_cases starts : first.startable = true
    · have found : firstEligible (first :: rest) = some first := if_pos starts
      refine ⟨fun e given => ?_, fun empty => nomatch found.symm.trans empty⟩
      obtain rfl : first = e := Option.some.inj (found.symm.trans given)
      exact ⟨0, rfl, (eligibleAt_head first rest).mpr starts, nofun⟩
    · have behind : firstEligible (first :: rest) = rest.find? (fun x => x.startable && !x.card.fence) := if_neg starts
      have head : ¬eligibleAt (first :: rest) 0 := mt (eligibleAt_head first rest).mp starts
      rw [behind]
      refine ⟨fun e given => ?_, fun empty i => ?_⟩
      · obtain ⟨fits, i, inside, at_i, before⟩ := List.find?_eq_some_iff_getElem.mp given
        have here : rest[i]? = some e := List.getElem?_eq_some_iff.mpr ⟨inside, at_i⟩
        refine ⟨i + 1, here, (eligibleAt_tail first rest i).mpr ⟨e, here, fits⟩, fun j lt => ?_⟩
        cases j with
        | zero => exact head
        | succ j =>
          intro eligible
          obtain ⟨x, at_j, xFits⟩ := (eligibleAt_tail first rest j).mp eligible
          obtain ⟨jInside, rfl⟩ := List.getElem?_eq_some_iff.mp at_j
          have unfit := before j (Nat.lt_of_succ_lt_succ lt)
          rw [xFits] at unfit
          cases unfit
      · cases i with
        | zero => exact head
        | succ i =>
          intro eligible
          obtain ⟨x, at_i, fits⟩ := (eligibleAt_tail first rest i).mp eligible
          exact List.find?_eq_none.mp empty x (List.mem_of_getElem? at_i) fits

/-! ## The gate (R47, R48) -/

theorem gateEvaluated_iff (s : State) :
    gateEvaluated s = true ↔ s.bridge = .running ∨ s.bridge = .quiescing ∨ s.bridge = .stopped := by
  simp [gateEvaluated, or_assoc]

theorem moveGate_of_not_evaluated {s : State} (rests : ¬gateEvaluated s = true) : moveGate s = none :=
  if_neg rests

theorem moveGate_of_opened {s : State} (evaluated : gateEvaluated s = true) (gate : s.gate = .opened) :
    moveGate s =
      if s.hdr.gateUpper ≤ s.ready.length then some (parkRequestLanes { s with gate := .closed }) else none := by
  rw [moveGate, if_pos evaluated, gate]

theorem moveGate_of_closed {s : State} (evaluated : gateEvaluated s = true) (gate : s.gate = .closed) :
    moveGate s = if s.ready.length ≤ s.hdr.gateLower then some { s with gate := .opened } else none := by
  rw [moveGate, if_pos evaluated, gate]

/-! ## The work of an event (R42, R49) -/

theorem handOutLane_of_handOut_eq {s : State} (same : handOut s = s) : ∀ k, handOutLane k s = none := by
  rcases handOut_less s with less | ⟨_, rests⟩
  · rw [same] at less
    exact absurd less (Nat.lt_irrefl _)
  · exact rests

theorem dispatch_of_rests {s : State} (rests : dispatcherRests s = true) : dispatch s = s :=
  if_pos rests

theorem handleEvent_of_move {s u : State} (moved : moveGate (handOut s) = some u) : handleEvent s = u := by
  rw [handleEvent, moved]
  rfl

theorem handleEvent_of_rest {s : State} (still : moveGate (handOut s) = none) : handleEvent s = handOut s := by
  rw [handleEvent, still]
  rfl

/-- Settles O49. -/
theorem dispatcher : Obligations.Dispatcher := by
  refine ⟨fun s k => ⟨handOutLane_of_shut, fun runs idle => ⟨fun n rest ready => handOutLane_of_ready runs idle ready,
      fun n rest ready => handOutLane_of_ready runs idle ready, fun empty => ?errand⟩⟩,
    fun s => rfl, fun errands => firstEligible_spec errands, fun s => ?gate, fun s => ?event⟩
  case errand =>
    rw [handOutLane_of_empty runs idle empty]
    refine ⟨fun e admits first => ?_, fun bare => ?_⟩
    · rw [errandToStart_of_open admits, first]
      rfl
    · rw [errandToStart_of_none bare]
      rfl
  case gate =>
    intro evaluated
    have evaluated_iff : gateEvaluated s = true ↔ evaluated := gateEvaluated_iff s
    refine ⟨fun out => moveGate_of_not_evaluated (mt evaluated_iff.mp out), fun now opened => ?_, fun now closed => ?_⟩
    · rw [moveGate_of_opened (evaluated_iff.mpr now) opened]
      exact ⟨fun many => if_pos many, fun few => if_neg (Nat.not_le_of_lt few)⟩
    · rw [moveGate_of_closed (evaluated_iff.mpr now) closed]
      exact ⟨fun few => if_pos few, fun many => if_neg (Nat.not_le_of_lt many)⟩
  case event =>
    refine ⟨fun same still => ?_, fun out => ?_, fun bounds => ⟨fun u moved => ?_, fun still => ?_, ?_⟩⟩
    · exact dispatch_of_rests ((dispatcherRests_iff s).mpr ⟨handOutLane_of_handOut_eq same, still⟩)
    · have notRunning : s.bridge ≠ .running := by
        rcases out with out | out | out <;> rw [out] <;> decide
      have notEvaluated : ¬gateEvaluated s = true := by
        rw [gateEvaluated_iff]
        rcases out with out | out | out <;> rw [out] <;> decide
      exact dispatch_of_rests ((dispatcherRests_iff s).mpr
        ⟨fun k => handOutLane_of_shut (Or.inl notRunning), moveGate_of_not_evaluated notEvaluated⟩)
    · rw [(dispatch_eq s bounds).1, handleEvent_of_move moved]
    · rw [(dispatch_eq s bounds).1, handleEvent_of_rest still]
    · exact (dispatcherRests_iff _).mp (dispatch_eq s bounds).2

end Sys2Proof.Machine
end

section
/-! START from OFF and from STOPPED (O51), and STOP taken in RUNNING and in LOADING (O52). -/

namespace Sys2Proof.Machine

/-! ## The calendar at START (R39) -/

theorem recomputeDue_frame (calendar : List CadNo) (s : State) :
    recomputeDue calendar s = { s with cadences := (recomputeDue calendar s).cadences } := by
  induction calendar generalizing s with
  | nil => rfl
  | cons n rest ih =>
    unfold recomputeDue
    rw [ih]
    rfl

theorem recomputeCalendar_frame (s : State) :
    recomputeCalendar s =
      { s with cadences := (recomputeCalendar s).cadences, calendar := (recomputeCalendar s).calendar } := by
  unfold recomputeCalendar
  dsimp only
  rw [recomputeDue_frame]

/-- A new due tick leaves the configurations. -/
theorem cfg_setCad_nextDue (n m : CadNo) (due : Nat) (s : State) :
    (setCad n { s.cad n with nextDue := due } s).cfg m = s.cfg m := by
  unfold State.cfg
  by_cases same : n = m
  · subst same
    rw [cad_setCad_same]
  · rw [cad_setCad_ne same]

theorem nextInstant_setCad_nextDue (n m : CadNo) (due tick : Nat) (s : State) :
    nextInstant (setCad n { s.cad n with nextDue := due } s) m tick = nextInstant s m tick := by
  rw [nextInstant, cfg_setCad_nextDue]
  rfl

theorem recomputeDue_cad (calendar : List CadNo) (n : CadNo) (s : State) :
    (recomputeDue calendar s).cad n =
      if n ∈ calendar then { s.cad n with nextDue := nextInstant s n s.tick } else s.cad n := by
  induction calendar generalizing s with
  | nil => rfl
  | cons m rest ih =>
    unfold recomputeDue
    rw [ih, nextInstant_setCad_nextDue, setCad_tick]
    by_cases same : m = n
    · subst same
      rw [cad_setCad_same, if_pos (List.mem_cons_self ..)]
      exact ite_self _
    · have member : n ∈ m :: rest ↔ n ∈ rest := by
        rw [List.mem_cons]
        exact or_iff_right (Ne.symm same)
      rw [cad_setCad_ne same]
      exact ite_congr (propext member).symm (fun _ => rfl) fun _ => rfl

theorem insertAll_perm (s : State) (entries queue : List CadNo) :
    (entries.foldl (fun queue n => calendarInsert s n queue) queue).Perm (entries ++ queue) := by
  induction entries generalizing queue with
  | nil => exact .refl _
  | cons n rest ih => exact ((ih _).trans ((calendarInsert_perm s n queue).append_left rest)).trans List.perm_middle

theorem insertAll_ordered (s : State) (entries : List CadNo) {queue : List CadNo}
    (ordered : queue.Pairwise (fun a b => keyBefore (calendarKey s b) (calendarKey s a) = false)) :
    (entries.foldl (fun queue n => calendarInsert s n queue) queue).Pairwise
      (fun a b => keyBefore (calendarKey s b) (calendarKey s a) = false) := by
  induction entries generalizing queue with
  | nil => exact ordered
  | cons n rest ih => exact ih (calendarInsert_ordered s n ordered)

/-- Settles O51. -/
theorem start : Obligations.Start := by
  refine ⟨fun s v reachable off => ?fromOff, fun s v reachable stopped => ?fromStopped⟩
  case fromOff =>
    intro s1
    have step : exec (.start v) s = .next (beginLoading { s with enables := v.extractLsb' 8 5 }) := by
      rw [exec_start_of_reachable reachable, giveStart, off]
    rw [step]
    exact ⟨fun aligned => congrArg _ (if_pos aligned), fun unaligned => congrArg _ (if_neg unaligned)⟩
  case fromStopped =>
    let s1 : State := { s with enables := v.extractLsb' 8 5, bridge := .running }
    have step : exec (.start v) s = .next (resumeRunning { s with enables := v.extractLsb' 8 5 }) := by
      rw [exec_start_of_reachable reachable, giveStart, stopped]
    have frame : recomputeDue s.calendar s1 = { s1 with cadences := (recomputeDue s.calendar s1).cadences } :=
      recomputeDue_frame s.calendar s1
    have calendar : (recomputeDue s.calendar s1).calendar = s.calendar := (congrArg State.calendar frame :)
    have cad (n : CadNo) := recomputeDue_cad s.calendar n s1
    refine ⟨{ recomputeCalendar s1 with sweepTimer := 0 }, step, ?_, ?_, ?_, ?_, fun n member => ?_, fun n absent => ?_⟩
    · rw [Steady.recheckHolding_scanner, (Quiet.dispatch _).scanner]
      exact (congrArg State.scanner frame :)
    · exact congrArg (fun u : State => { u with sweepTimer := 0 }) (recomputeCalendar_frame s1)
    · change (List.foldl _ [] (recomputeDue s.calendar s1).calendar).Perm _
      rw [calendar]
      exact (insertAll_perm _ s.calendar []).trans (by rw [List.append_nil])
    · exact insertAll_ordered (recomputeDue s.calendar s1) _ .nil
    · exact (cad n).trans (if_pos member)
    · exact (cad n).trans (if_neg absent)

/-! ## STOP (R147, R151, R155, R158) -/

theorem checkStopped_spec (s : State) :
    ((checkStopped s).bridge = s.bridge ∨ (checkStopped s).bridge = .stopped) ∧
      (checkStopped s).enables = s.enables ∧ (checkStopped s).tick = s.tick ∧
      (checkStopped s).tickTimerOn = s.tickTimerOn := by
  unfold checkStopped
  split
  · rw [raise_frame]
    exact ⟨.inr rfl, rfl, rfl, rfl⟩
  · exact ⟨.inl rfl, rfl, rfl, rfl⟩

/-- The Dispatcher's part of a STOP, and the check of R159 (R158). -/
def quiesce (s : State) : State := checkStopped (dispatch (parkRequestLanes s))

theorem exec_stop_of_running {s : State} (reachable : s.reachable = true) (runs : s.bridge = .running)
    (v : BitVec 32) :
    exec (.stop v) s =
      .next (quiesce (stopSweep
        { settleDelivery { s with enables := v.extractLsb' 8 5 } with bridge := .quiescing })) := by
  rw [exec_stop_of_reachable reachable, giveStop, runs]
  rfl

theorem giveStop_of_loading {s : State} (loads : s.bridge = .loading) : giveStop s = stopLoading s := by
  rw [giveStop, loads]

theorem settleDelivery_of_delivered {s : State} {d : Delivery} (delivered : s.scanner = .delivered d) :
    settleDelivery s = tookCommand d s := by
  rw [settleDelivery, delivered]
  rfl

theorem settleDelivery_of_other {s : State} (other : ∀ d, s.scanner ≠ .delivered d) : settleDelivery s = s := by
  unfold settleDelivery
  split
  next d delivered => exact absurd delivered (other d)
  next => rfl

/-- The scanner waits for the answer to a read of a sweep (R143). -/
def sweepReads (x : Scanner) : Prop :=
  (∃ r, x = .sweepWord r) ∨ (∃ r seq notify, x = .sweepFurther r seq notify) ∨ x = .chain

theorem stopSweep_of_delivered {s : State} {d : Delivery} (delivered : s.scanner = .delivered d) :
    stopSweep s = endSweep s := by
  rw [stopSweep, delivered]

theorem stopSweep_of_idle {s : State} (idle : s.scanner = .idle) : stopSweep s = s := by
  rw [stopSweep, idle]

theorem stopSweep_of_reads {s : State} (reads : sweepReads s.scanner) :
    stopSweep s = if controlWaits .scanner s then endSweep (withdrawControl .scanner s) else s := by
  unfold stopSweep
  obtain ⟨r, scanner⟩ | ⟨r, seq, notify, scanner⟩ | scanner := reads <;> rw [scanner]

theorem not_delivered_of_reads {x : Scanner} (reads : sweepReads x) (d : Delivery) : x ≠ .delivered d := by
  obtain ⟨r, rfl⟩ | ⟨r, seq, notify, rfl⟩ | rfl := reads <;> exact nofun

theorem stopLoading_of_reads {s : State} (reads : s.scanner = .header ∨ ∃ r, s.scanner = .loadWord r) :
    stopLoading s =
      if controlWaits .scanner s then returnToOff (withdrawControl .scanner s) else { s with loadingStop := true } := by
  unfold stopLoading
  obtain scanner | ⟨r, scanner⟩ := reads <;> rw [scanner]

theorem tookCommand_scanner (d : Delivery) (s : State) : (tookCommand d s).scanner = s.scanner :=
  ((Quiet.ifUndecided d _ s (Quiet.takeCommand d s)).trans (Quiet.dispatchIfMoved s _)).scanner

/-- Settles O52. -/
theorem stop : Obligations.Stop := by
  refine ⟨fun s v reachable runs => ?running, fun s v reachable loads => ?loading, fun s => ?off⟩
  case running =>
    intro s1 quiesceOf reading
    have step : exec (.stop v) s = .next (quiesce (stopSweep { settleDelivery s1 with bridge := .quiescing })) :=
      exec_stop_of_running reachable runs v
    refine ⟨?_, fun waitsOrIdle => ?_, fun reads waits => ?_, fun d delivered => ?_⟩
    · have quiet := Quiet.settleDelivery s1
      let u : State := { settleDelivery s1 with bridge := .quiescing }
      have steady := (Steady.stopSweep u).trans
        ((Quiet.parkRequestLanes _).trans (Quiet.dispatch _)).steady
      obtain ⟨bridge, enables, tick, timer⟩ := checkStopped_spec (dispatch (parkRequestLanes (stopSweep u)))
      exact ⟨_, step, bridge.imp_left fun same => same.trans steady.bridge,
        enables.trans (steady.enables.trans quiet.enables), tick.trans (steady.tick.trans quiet.tick),
        timer.trans (steady.tickTimerOn.trans quiet.tickTimerOn)⟩
    · have other : ∀ d, s1.scanner ≠ .delivered d := fun d delivered =>
        waitsOrIdle.elim (fun idle => nomatch idle.symm.trans delivered)
          fun ⟨reads, _⟩ => not_delivered_of_reads reads d delivered
      rw [step, settleDelivery_of_other other]
      rcases waitsOrIdle with idle | ⟨reads, flies⟩
      · rw [stopSweep_of_idle (s := { s1 with bridge := .quiescing }) idle]
        rfl
      · have flies : ¬controlWaits .scanner { s1 with bridge := .quiescing } = true := Bool.eq_false_iff.mp flies
        rw [stopSweep_of_reads (s := { s1 with bridge := .quiescing }) reads, if_neg flies]
        rfl
    · have waits : controlWaits .scanner { s1 with bridge := .quiescing } = true := waits
      have leaves : ({ s1 with bridge := .quiescing } : State).bridge ≠ .running := nofun
      rw [step, settleDelivery_of_other (s := s1) (not_delivered_of_reads reads),
        stopSweep_of_reads (s := { s1 with bridge := .quiescing }) reads, if_pos waits,
        endSweep_of_over (s := withdrawControl .scanner { s1 with bridge := .quiescing }) (.inl leaves)]
      rfl
    · intro w w1
      have took : tookCommand d s1 = w1 := by
        have decided : ifUndecided d (takeCommand d) s1 = w := by
          by_cases same : s1.ack d.record = some d.seq
          · rw [ifUndecided_of_decided same]
            exact (if_pos same).symm
          · rw [ifUndecided_of_new same]
            exact (if_neg same).symm
        rw [tookCommand, decided]
        rfl
      refine ⟨fun c row => ?_, ?_⟩
      · rw [← took]
        exact exec_of_row (s := s1) delivered row
      · have scanner : w1.scanner = .delivered d := took ▸ (tookCommand_scanner d s1).trans delivered
        have leaves : ({ w1 with bridge := .quiescing } : State).bridge ≠ .running := nofun
        rw [step, settleDelivery_of_delivered (s := s1) delivered, took,
          stopSweep_of_delivered (s := { w1 with bridge := .quiescing }) scanner, endSweep_of_over (.inl leaves)]
        rfl
  case loading =>
    intro s1
    have step : exec (.stop v) s = .next (stopLoading s1) := by
      rw [exec_stop_of_reachable reachable, giveStop_of_loading (s := s1) loads]
    rw [step]
    refine ⟨fun ⟨r, i, writes⟩ => ?_, fun reads => ?_⟩
    · rw [stopLoading, show s1.scanner = .loadWrite r i from writes]
    · rw [stopLoading_of_reads (s := s1) reads]
      exact ⟨fun flies => congrArg _ (if_neg (Bool.eq_false_iff.mp flies)), fun waits => congrArg _ (if_pos waits)⟩
  case off =>
    intro t
    exact ⟨(raise_causeRaised .state _).of_eq rfl rfl rfl, raise_frame .state _⟩

end Sys2Proof.Machine
end

section
/-! The header and LOADING (O53), and the records in reading order. -/

namespace Sys2Proof.Machine

/-! ## The header (R135, R178) -/

theorem tableAddrOk_iff (count addr : Nat) : tableAddrOk count addr = true ↔ (0 < count → addr % 64 = 0) := by
  rw [tableAddrOk, Bool.or_eq_true, beq_iff_eq, beq_iff_eq]
  omega

theorem le_one_iff_eq (n : Nat) : n ≤ 1 ↔ n = 0 ∨ n = 1 := by
  omega

/-- The fields of a header lie in the ranges of R135. -/
def headerAccepted (b : List Byte) : Prop :=
  fieldAt 0 2 b = 1 ∧ (10 ≤ fieldAt 2 2 b ∧ fieldAt 2 2 b ≤ 10000) ∧ fieldAt 6 1 b ≤ 16 ∧ fieldAt 7 1 b ≤ 64 ∧
    (0 < fieldAt 6 1 b → fieldAt 8 8 b % 64 = 0) ∧ (0 < fieldAt 7 1 b → fieldAt 16 8 b % 64 = 0) ∧
    fieldAt 32 1 b ≤ 4 ∧ (1 ≤ fieldAt 33 1 b ∧ fieldAt 33 1 b ≤ 64) ∧ fieldAt 34 1 b < fieldAt 33 1 b ∧
    (fieldAt 35 1 b = 0 ∨ fieldAt 35 1 b = 1) ∧ 1 ≤ fieldAt 36 1 b

/-- The values a header brings (R135, R120). -/
def headerValues (b : List Byte) : Settings :=
  { tickUs := fieldAt 2 2 b, sweepTicks := fieldAt 4 2 b, windowCount := fieldAt 6 1 b
    cadenceCount := fieldAt 7 1 b, windowTable := BitVec.ofNat 64 (fieldAt 8 8 b)
    cadenceTable := BitVec.ofNat 64 (fieldAt 16 8 b), errandLanes := fieldAt 32 1 b
    gateUpper := fieldAt 33 1 b, gateLower := fieldAt 34 1 b
    period := (if fieldAt 35 1 b = 0 then 1 else 100) * fieldAt 36 1 b }

theorem decodeHeader_spec (b : List Byte) :
    (headerAccepted b → decodeHeader b = some (headerValues b)) ∧ (¬headerAccepted b → decodeHeader b = none) := by
  unfold decodeHeader
  simp only [tableAddrOk_iff, le_one_iff_eq]
  refine ⟨fun accepted => if_pos ?_, fun refused => if_neg fun fields => refused ?_⟩
  · obtain ⟨layout, ⟨tickLow, tickHigh⟩, windows, cadences, windowTable, cadenceTable, lanes, ⟨upperLow, upperHigh⟩,
      lower, base, count⟩ := accepted
    exact ⟨layout, tickLow, tickHigh, windows, cadences, windowTable, cadenceTable, lanes, upperLow, upperHigh, lower,
      base, count⟩
  · obtain ⟨layout, tickLow, tickHigh, windows, cadences, windowTable, cadenceTable, lanes, upperLow, upperHigh, lower,
      base, count⟩ := fields
    exact ⟨layout, ⟨tickLow, tickHigh⟩, windows, cadences, windowTable, cadenceTable, lanes, ⟨upperLow, upperHigh⟩,
      lower, base, count⟩

/-! ## The records in reading order (R145, R149) -/

theorem firstRecord_of_windows {h : Settings} (windows : 0 < h.windowCount) : firstRecord h = some (.window 0) :=
  if_pos windows

theorem firstRecord_of_cadences {h : Settings} (windows : h.windowCount = 0) (cadences : 0 < h.cadenceCount) :
    firstRecord h = some (.cadence 0) :=
  (if_neg (by omega)).trans (if_pos cadences)

theorem firstRecord_of_empty {h : Settings} (windows : h.windowCount = 0) (cadences : h.cadenceCount = 0) :
    firstRecord h = none :=
  (if_neg (by omega)).trans (if_neg (by omega))

theorem nextRecord_window {h : Settings} {n m : WinNo} (next : m.val = n.val + 1) (inside : m.val < h.windowCount) :
    nextRecord h (.window n) = some (.window m) := by
  have bound := m.isLt
  have same : n + 1 = m := by
    rw [Fin.ext_iff, Fin.val_add, Fin.val_one]
    omega
  rw [nextRecord, if_pos (by omega), same]

theorem nextRecord_lastWindow {h : Settings} {n : WinNo} (last : n.val + 1 = h.windowCount) :
    nextRecord h (.window n) = if 0 < h.cadenceCount then some (.cadence 0) else none :=
  if_neg (by omega)

theorem nextRecord_cadence {h : Settings} {n m : CadNo} (next : m.val = n.val + 1) (inside : m.val < h.cadenceCount) :
    nextRecord h (.cadence n) = some (.cadence m) := by
  have bound := m.isLt
  have same : n + 1 = m := by
    rw [Fin.ext_iff, Fin.val_add, Fin.val_one]
    omega
  rw [nextRecord, if_pos (by omega), same]

theorem nextRecord_lastCadence {h : Settings} {n : CadNo} (last : n.val + 1 = h.cadenceCount) :
    nextRecord h (.cadence n) = none :=
  if_neg (by omega)

/-! ## LOADING (R149 to R151) -/

section
variable {r : ReadInfo} (requester : r.requester = .scanner) (role : r.role = .control) (tag : TagNo) (b : List Byte)
include requester role

/-- The scanner is handed the answer to its read (R141, R145, R149). -/
theorem readAnswered_scanner (s : State) : readAnswered tag r (.data b) s = scannerControlRead b s := by
  rw [readAnswered_control role, requester, controlRead]

theorem readAnswered_header {s : State} (scanner : s.scanner = .header) :
    readAnswered tag r (.data b) s = headerRead b s := by
  rw [readAnswered_scanner requester role, scannerControlRead, scanner]

theorem readAnswered_loadWord {s : State} {rec : Record} (scanner : s.scanner = .loadWord rec) :
    readAnswered tag r (.data b) s = loadWordRead rec b s := by
  rw [readAnswered_scanner requester role, scannerControlRead, scanner]

theorem readAnswered_sweepWord {s : State} {rec : Record} (scanner : s.scanner = .sweepWord rec) :
    readAnswered tag r (.data b) s = sweepWordRead rec b s := by
  rw [readAnswered_scanner requester role, scannerControlRead, scanner]

theorem readAnswered_sweepFurther {s : State} {rec : Record} {seq : Byte} {notify : Bool}
    (scanner : s.scanner = .sweepFurther rec seq notify) :
    readAnswered tag r (.data b) s = sweepFurtherRead rec seq notify b s := by
  rw [readAnswered_scanner requester role, scannerControlRead, scanner]

end

theorem headerRead_of_stop {s : State} (stops : s.loadingStop = true) (b : List Byte) : headerRead b s = returnToOff s :=
  if_pos stops

theorem headerRead_of_invalid {s : State} {b : List Byte} (goes : s.loadingStop = false)
    (invalid : decodeHeader b = none) : headerRead b s = returnToOff (reportFault .layoutInvalid .bridge 0 s) := by
  rw [headerRead, if_neg (Bool.eq_false_iff.mp goes), invalid]
  rfl

theorem headerRead_of_record {s : State} {b : List Byte} {h : Settings} {rec : Record} (goes : s.loadingStop = false)
    (valid : decodeHeader b = some h) (first : firstRecord h = some rec) :
    headerRead b s = loadRecord rec (takeHeader h s) := by
  rw [headerRead, if_neg (Bool.eq_false_iff.mp goes), valid]
  dsimp only
  rw [first]

theorem headerRead_of_empty {s : State} {b : List Byte} {h : Settings} (goes : s.loadingStop = false)
    (valid : decodeHeader b = some h) (first : firstRecord h = none) :
    headerRead b s = completeLoading (takeHeader h s) := by
  rw [headerRead, if_neg (Bool.eq_false_iff.mp goes), valid]
  dsimp only
  rw [first]

theorem hdr_setAck (rec : Record) (seq : Byte) (s : State) : (setAck rec seq s).hdr = s.hdr := by
  cases rec <;> rfl

theorem loadWordRead_of_stop {s : State} (stops : s.loadingStop = true) (rec : Record) (word : List Byte) :
    loadWordRead rec word s = returnToOff s :=
  if_pos stops

theorem loadWordRead_of_next {s : State} {rec next : Record} (goes : s.loadingStop = false) (word : List Byte)
    (follows : nextRecord s.hdr rec = some next) :
    loadWordRead rec word s = loadRecord next (setAck rec (byteAt 1 word) s) := by
  rw [loadWordRead, if_neg (Bool.eq_false_iff.mp goes)]
  dsimp only
  rw [hdr_setAck, follows]
  rfl

theorem loadWordRead_of_last {s : State} {rec first : Record} (goes : s.loadingStop = false) (word : List Byte)
    (last : nextRecord s.hdr rec = none) (starts : firstRecord s.hdr = some first) :
    loadWordRead rec word s = { setAck rec (byteAt 1 word) s with scanner := .loadWrite first 0 } := by
  rw [loadWordRead, if_neg (Bool.eq_false_iff.mp goes)]
  dsimp only
  rw [hdr_setAck, last]
  dsimp only
  rw [beginLoadWrites, hdr_setAck, starts]
  rfl

theorem loadRecord_window (n : WinNo) (s : State) :
    loadRecord (.window n) s =
      requestControl .scanner (s.hdr.windowTable + BitVec.ofNat 64 (32 * n) + 20) 4
        { s with scanner := .loadWord (.window n) } := rfl

theorem loadRecord_cadence (n : CadNo) (s : State) :
    loadRecord (.cadence n) s =
      requestControl .scanner (s.hdr.cadenceTable + BitVec.ofNat 64 (64 * n) + 32) 4
        { s with scanner := .loadWord (.cadence n) } := rfl

/-- The first record lies at its table's address. -/
theorem tableStart (addr : Addr) (size : Nat) : addr + BitVec.ofNat 64 (size * 0) = addr := by
  rw [Nat.mul_zero]
  exact BitVec.add_zero addr

/-! ## The writes of LOADING (R150) -/

theorem exec_loadingWrite_of_writes {s : State} {r : Record} {i : Nat} (writes : s.scanner = .loadWrite r i) :
    exec .loadingWrite s = .next (loadField r i s) := by
  change execLoadingWrite s = _
  rw [execLoadingWrite, writes]

section
variable {s : State} {r : Record} {i offset size value : Nat}
  (field : (initialFields s r)[i]? = some (offset, size, value))
include field

theorem loadField_of_more (more : i + 1 < (initialFields s r).length) :
    loadField r i s = { recordWrite r offset size value s with scanner := .loadWrite r (i + 1) } := by
  rw [loadField, field]
  exact if_pos more

theorem loadField_of_record {next : Record} (last : i + 1 = (initialFields s r).length)
    (follows : nextRecord s.hdr r = some next) :
    loadField r i s = { recordWrite r offset size value s with scanner := .loadWrite next 0 } := by
  rw [loadField, field]
  dsimp only
  rw [if_neg (by omega), follows]

theorem loadField_of_end (last : i + 1 = (initialFields s r).length) (ends : nextRecord s.hdr r = none) :
    loadField r i s = completeLoading (recordWrite r offset size value s) := by
  rw [loadField, field]
  dsimp only
  rw [if_neg (by omega), ends]

end

/-- LOADING's completion, before the Dispatcher acts (R150, R157, R167). -/
def loaded (s : State) : State :=
  raise .state
    { s with bridge := .running, sweepTimer := 0, gate := .opened, scanner := .idle, sweepPending := false }

theorem completeLoading_eq (s : State) : completeLoading s = startSweep (dispatch (loaded s)) := rfl

theorem loaded_frame (s : State) :
    loaded s = { s with
      bridge := .running, sweepTimer := 0, gate := .opened, scanner := .idle, sweepPending := false
      raised := (loaded s).raised, raisings := (loaded s).raisings } :=
  raise_frame .state _

theorem hdr_dispatch (s : State) : (dispatch s).hdr = s.hdr := by
  rw [State.hdr, State.hdr, (Quiet.dispatch s).settings]

theorem hdr_loaded (s : State) : (loaded s).hdr = s.hdr := by
  rw [loaded_frame]
  rfl

/-- Settles O53. -/
theorem loading : Obligations.Loading := by
  refine ⟨decodeHeader_spec, fun s tag r b requester role header => ?header,
    fun s rec tag r word requester role loads => ?word, fun s r i offset size value writes => ?writes, fun s => ?complete⟩
  case header =>
    intro t
    have answered : t = headerRead b s := readAnswered_header requester role tag b header
    rw [answered]
    refine ⟨fun stops => headerRead_of_stop stops b, fun goes invalid => headerRead_of_invalid goes invalid,
      fun goes h valid => ?_⟩
    intro s1
    refine ⟨fun windows => ?_, fun windows cadences => ?_, fun windows cadences => ?_⟩
    · rw [headerRead_of_record goes valid (firstRecord_of_windows windows), loadRecord_window]
      exact congrArg (fun addr => requestControl .scanner (addr + 20) 4 { s1 with scanner := .loadWord (.window 0) })
        (tableStart h.windowTable 32)
    · rw [headerRead_of_record goes valid (firstRecord_of_cadences windows cadences), loadRecord_cadence]
      exact congrArg (fun addr => requestControl .scanner (addr + 32) 4 { s1 with scanner := .loadWord (.cadence 0) })
        (tableStart h.cadenceTable 64)
    · exact headerRead_of_empty goes valid (firstRecord_of_empty windows cadences)
  case word =>
    intro t s1
    have answered : t = loadWordRead rec word s := readAnswered_loadWord requester role tag word loads
    have hdr : s1.hdr = s.hdr := hdr_setAck rec _ s
    rw [answered, ← hdr]
    refine ⟨ack_setAck_same rec _ s, fun stops => loadWordRead_of_stop stops rec word, fun goes =>
      ⟨fun n follows => ?_, fun n follows => ?_, fun r1 last starts => ?_⟩⟩
    · rw [loadWordRead_of_next goes word (hdr ▸ follows)]
      exact loadRecord_window n s1
    · rw [loadWordRead_of_next goes word (hdr ▸ follows)]
      exact loadRecord_cadence n s1
    · exact loadWordRead_of_last goes word (hdr ▸ last) (hdr ▸ starts)
  case writes =>
    intro fields record field u
    have listed : initialFields s r = fields := by
      cases r <;> rfl
    have written : recordWrite r offset size value s = u := by
      cases r <;> rfl
    rw [exec_loadingWrite_of_writes writes]
    rw [← listed] at field ⊢
    refine ⟨fun more => ?_, fun last r1 follows => ?_, fun last ends => ?_⟩
    · rw [loadField_of_more field more, written]
    · rw [loadField_of_record field last follows, written]
    · rw [loadField_of_end field last ends, written]
  case complete =>
    refine ⟨loaded s, _, rfl, completeLoading_eq s, .startSweep _, (raise_causeRaised .state _).of_eq rfl rfl rfl,
      loaded_frame s, fun r first => ?_⟩
    obtain ⟨_, _, scanner⟩ := startSweep_spec (dispatch (loaded s))
    exact scanner r (by rw [hdr_dispatch, hdr_loaded, first])

end Sys2Proof.Machine
end

section
/-! Sweeps (O54). -/

namespace Sys2Proof.Machine

/-! ## A sweep's command word (R140, R141, R181, R184) -/

/-- The length of the further read of an OPEN's or an ARM's fields (R185). -/
def furtherLength : Record → Nat
  | .window _ => 20
  | .cadence _ => 32

section
variable {s : State} {rec : Record} {word : List Byte}

theorem sweepWordRead_of_gone (gone : s.bridge ≠ .running) :
    sweepWordRead rec word s = { s with scanner := .idle, sweepPending := false } :=
  (if_pos gone).trans (endSweep_of_over (.inl gone))

theorem sweepWordRead_of_known (runs : s.bridge = .running) (known : s.ack rec = some (byteAt 1 word)) :
    sweepWordRead rec word s = sweepAfter rec s :=
  (if_neg (not_not_intro runs)).trans (if_pos known)

/-- An OPEN or an ARM takes the further read of its fields. -/
theorem sweepWordRead_of_further (runs : s.bridge = .running) (new : s.ack rec ≠ some (byteAt 1 word))
    (further : needsFurtherRead rec (fieldAt 0 1 word) = true) :
    sweepWordRead rec word s =
      requestControl .scanner (recordAddr s rec) (furtherLength rec)
        { s with scanner := .sweepFurther rec (byteAt 1 word) (fieldAt 2 1 word != 0) } := by
  refine (if_neg (not_not_intro runs)).trans ((if_neg new).trans ((if_pos further).trans ?_))
  cases rec <;> rfl

theorem sweepWordRead_of_plain (runs : s.bridge = .running) (new : s.ack rec ≠ some (byteAt 1 word))
    (plain : ¬needsFurtherRead rec (fieldAt 0 1 word) = true) :
    sweepWordRead rec word s =
      { s with
        scanner := .delivered
          ⟨rec, byteAt 1 word, fieldAt 2 1 word != 0, plainCommand rec (fieldAt 0 1 word)⟩ } :=
  (if_neg (not_not_intro runs)).trans ((if_neg new).trans (if_neg plain))

end

theorem needsFurtherRead_window (n : WinNo) (cmd : Nat) : needsFurtherRead (.window n) cmd = true ↔ cmd = 1 :=
  beq_iff_eq

theorem needsFurtherRead_cadence (n : CadNo) (cmd : Nat) : needsFurtherRead (.cadence n) cmd = true ↔ cmd = 3 :=
  beq_iff_eq

/-! ## The further read -/

theorem sweepFurtherRead_of_gone {s : State} (gone : s.bridge ≠ .running) (rec : Record) (seq : Byte) (notify : Bool)
    (b : List Byte) :
    sweepFurtherRead rec seq notify b s = { s with scanner := .idle, sweepPending := false } :=
  (if_pos gone).trans (endSweep_of_over (.inl gone))

theorem sweepFurtherRead_of_running {s : State} (runs : s.bridge = .running) (rec : Record) (seq : Byte)
    (notify : Bool) (b : List Byte) :
    sweepFurtherRead rec seq notify b s =
      { s with scanner := .delivered ⟨rec, seq, notify, furtherCommand rec b⟩ } :=
  if_neg (not_not_intro runs)

/-! ## After a record (R79, R145 to R147) -/

theorem sweepAfter_of_gone {s : State} (gone : s.bridge ≠ .running) (rec : Record) :
    sweepAfter rec s = { s with scanner := .idle, sweepPending := false } :=
  (if_neg gone).trans (endSweep_of_over (.inl gone))

theorem sweepAfter_of_record {s : State} {rec next : Record} (runs : s.bridge = .running)
    (follows : nextRecord s.hdr rec = some next) : sweepAfter rec s = sweepRecord next s := by
  rw [sweepAfter, if_pos runs, follows]

theorem sweepAfter_of_last {s : State} {rec : Record} (runs : s.bridge = .running)
    (last : nextRecord s.hdr rec = none) : sweepAfter rec s = sweepChain s := by
  rw [sweepAfter, if_pos runs, last]

theorem sweepChain_of_link {s : State} {addr : Addr} (chain : chainAddr s = some addr) :
    sweepChain s = requestControl .scanner addr 8 { s with scanner := .chain } := by
  rw [sweepChain, chain]

theorem sweepChain_of_nothing {s : State} (chain : chainAddr s = none) : sweepChain s = endSweep s := by
  rw [sweepChain, chain]

theorem chainAddr_of_noCard {s : State} (noCard : s.reader = .noCard) : chainAddr s = some (s.areaBase + 24) := by
  rw [chainAddr, noCard]

theorem chainAddr_of_watching {s : State} {addr : Addr} (watching : s.reader = .watching addr) :
    chainAddr s = some addr := by
  rw [chainAddr, watching]

/-- Settles O54. -/
theorem sweeps : Obligations.Sweeps := by
  refine ⟨fun h _ _ => ⟨firstRecord_of_windows, firstRecord_of_cadences, firstRecord_of_empty,
      fun n m => nextRecord_window, fun n => nextRecord_lastWindow, fun n m => nextRecord_cadence,
      fun n => nextRecord_lastCadence⟩,
    fun s rec tag r word requester role sweeps => ?word, fun s rec seq notify tag r b requester role sweeps => ?further,
    fun s rec => ?after⟩
  case word =>
    intro t cmd seq notify
    have answered : t = sweepWordRead rec word s := readAnswered_sweepWord requester role tag word sweeps
    rw [answered]
    refine ⟨sweepWordRead_of_gone, sweepWordRead_of_known, fun runs new => ⟨?_, ?_⟩⟩
    · rintro n rfl
      exact ⟨fun opens => sweepWordRead_of_further runs new ((needsFurtherRead_window n cmd).mpr opens),
        fun other => sweepWordRead_of_plain runs new (mt (needsFurtherRead_window n cmd).mp other)⟩
    · rintro n rfl
      exact ⟨fun arms => sweepWordRead_of_further runs new ((needsFurtherRead_cadence n cmd).mpr arms),
        fun other => sweepWordRead_of_plain runs new (mt (needsFurtherRead_cadence n cmd).mp other)⟩
  case further =>
    intro t
    have answered : t = sweepFurtherRead rec seq notify b s := readAnswered_sweepFurther requester role tag b sweeps
    rw [answered]
    refine ⟨fun gone => sweepFurtherRead_of_gone gone rec seq notify b, fun runs => ⟨?_, ?_⟩⟩
    · rintro n rfl
      exact sweepFurtherRead_of_running runs (.window n) seq notify b
    · rintro n rfl
      exact sweepFurtherRead_of_running runs (.cadence n) seq notify b
  case after =>
    refine ⟨fun gone => sweepAfter_of_gone gone rec, fun runs => ⟨fun n follows => sweepAfter_of_record runs follows,
      fun n follows => sweepAfter_of_record runs follows, fun last => ?_⟩⟩
    rw [sweepAfter_of_last runs last]
    refine ⟨fun noCard => sweepChain_of_link (chainAddr_of_noCard noCard),
      fun addr watching => sweepChain_of_link (chainAddr_of_watching watching), fun away => ?_⟩
    rw [sweepChain_of_nothing (chainAddr_of_away away)]
    exact ⟨fun clear => endSweep_of_over (.inr clear), fun pending => endSweep_of_pending runs pending⟩

end Sys2Proof.Machine
end
